-- ==== Sys2Proof/Word.lean ====
section
/-! DEFINITION. The byte and the numbers by which the spec names links, zones, classes, slots and
priorities (spec 00, section 0.5.2). -/

namespace Sys2Proof

/-- One byte of a client frame or of the register window. -/
abbrev Byte := BitVec 8

/-- Client links L0 to L3. -/
abbrev Link := Fin 4

/-- Zones Z0 to Z63. -/
abbrev ZoneId := Fin 64

/-- Zone classes C0 to C7. -/
abbrev ClassId := Fin 8

/-- Lease-table slots S0 to S127. -/
abbrev SlotId := Fin 128

/-- Priorities 0 to 3, 3 highest. -/
abbrev Priority := Fin 4

end Sys2Proof
end

