-- ==== Sys2Proof/Machine/Table.lean ====
section
/-! DEFINITION. A table of a fixed number of like records, the shape of the zone map, the class table, the
lease table, the four links and the eight-byte register groups. -/

namespace Sys2Proof.Machine

/-- `n` entries, held as a list of that length. -/
structure Table (n : Nat) (α : Type) where
  list : List α
  size_eq : list.length = n
  deriving DecidableEq, Repr

/-- Entry `i`. -/
def Table.get {n : Nat} {α : Type} (t : Table n α) (i : Fin n) : α :=
  t.list[i.1]'(by rw [t.size_eq]; exact i.2)

/-- The table with entry `i` replaced by `x`. -/
def Table.set {n : Nat} {α : Type} (t : Table n α) (i : Fin n) (x : α) : Table n α :=
  ⟨t.list.set i.1 x, by rw [List.length_set]; exact t.size_eq⟩

/-- The table whose entries are all `x`. -/
def Table.fill (n : Nat) {α : Type} (x : α) : Table n α :=
  ⟨List.replicate n x, List.length_replicate⟩

/-- The table with every entry replaced by its image under `f`, which sees the entry's index. -/
def Table.mapIdx {n : Nat} {α β : Type} (f : Fin n → α → β) (t : Table n α) : Table n β :=
  ⟨List.zipWith f (List.finRange n) t.list, by simp [t.size_eq]⟩

/-- The number of entries that satisfy `p`. -/
def Table.count {n : Nat} {α : Type} (p : α → Bool) (t : Table n α) : Nat := t.list.countP p

/-- The lowest index whose entry satisfies `p`. -/
def Table.lowest {n : Nat} {α : Type} (p : α → Bool) (t : Table n α) : Option (Fin n) :=
  (List.finRange n).find? fun i => p (t.get i)

/-- Eight bytes: the given ones first, then zeros. -/
def Table.bytes8 (l : List Byte) : Table 8 Byte :=
  ⟨(l ++ List.replicate 8 0).take 8, by simp⟩

end Sys2Proof.Machine
end

