-- ==== Sys2Proof/Syntax.lean ====
section
/-! DEFINITION. The commands of the part: one constructor for each row of spec/opcode_table.json.

A request's fields and a mailbox command's arguments stand where the spec puts them, in the link's
request slot (R29, R135) and in the mailbox's argument latch (R166), so a command carries only what
State does not hold: the link concerned, the byte and its way to the register window, the time that
passes before an event of the clock, the bits sampled on a line, the events on the wires of the port, how
far a transmitter has come, the levels of pins (log entry 1). -/

namespace Sys2Proof

open Sys2Proof.Machine (Table)

/-- One event on the wires of the supervisor port (R160, R161). A byte broken off by the end of its transfer
is discarded and has no effect, so it is no event. -/
inductive PortEvent
  /-- CS_N goes low: an SPI transfer begins. -/
  | csLow
  /-- CS_N goes high: the SPI transfer ends. -/
  | csHigh
  /-- Eight bits sampled on MOSI, eight bits of MISO driven. -/
  | spiByte (mosi : Byte)
  /-- A start or a repeated start condition on SDA. -/
  | i2cStart
  /-- A stop condition on SDA. -/
  | i2cStop
  /-- Eight bits sent by the host on SDA, and the clock of the part's acknowledge. -/
  | i2cByte (sda : Byte)
  /-- Eight clocks in which the part may send on SDA, and the host's acknowledge or the lack of it. -/
  | i2cRead (acknowledged : Bool)
  deriving DecidableEq, Repr

/-- The bits the receiver sampled for one character (R133): the data bits, the parity position (if the
link has one), the stop positions (the second counts only with two stop bits), how many SET_LINK commands of
the link came while the character was being received, since it finishes under the settings it began with
(R140), and whether RXDn was high at some time between the character before it, or the enable of the link,
and its start bit. -/
structure RawChar where
  data : Byte
  parityBit : Bool
  stop1 : Bool
  stop2 : Bool
  settingsAgo : Nat
  highBefore : Bool
  deriving DecidableEq, Repr

/-- The steps of the part. Where a step can meet a frame on a line, `begun` says how many characters of the
frame the link's transmitter has begun by then (R139, R140). -/
inductive Instr
  -- client requests taken by the lease engine from a link's request slot
  | acquire (l : Link)
  | renew (l : Link)
  | release (l : Link)
  | widen (l : Link)
  | narrow (l : Link)
  | park (l : Link)
  | queryLease (l : Link)
  | queryZone (l : Link)
  | badKind (l : Link)
  -- mailbox commands taken through the request arbiter
  | readZone
  | setZone
  | readClass
  | setClass
  | readLease
  | setThreshold
  | readList
  | nextExpiry
  | classLoad
  | fenceWait
  | fenceForce
  | lift
  | revoke
  -- mailbox commands taken directly by their owner
  | setTimebase (elapsed : Nat)
  | readLink
  | setLink (begun : Nat := 0)
  | linkReset (begun : Nat := 0)
  | store
  | storeComplete
  | warmRestart (begun : Table 4 Nat := .fill 4 0)
  | badCommand
  -- restarts
  -- `finishing`: the owner of the mailbox's command has taken it, and it completes after the port's flags
  -- are cleared (R169, R173)
  | wrstNLow (begun : Table 4 Nat := .fill 4 0) (finishing : Bool := false)
  | restartEnd (wrstNHigh : Bool)
  | coldStart
  | leaveReset (msel a1 a0 autoload : Bool)
  -- the lease clock
  | syncinPulse (elapsed : Nat)
  | lockRunTimeout
  | syncinLoss
  | internalTick
  | searchTimeout
  | runningChangeScan
  -- the expiry engine
  | tick
  | lapse (i : SlotId)
  | expiry (i : SlotId)
  | revokeForLateness (i : SlotId)
  -- the client links
  | characterReceived (l : Link) (idle : Nat) (c : RawChar)
  | decodeEntry (l : Link)
  | clientRestart (l : Link)
  | linkDisable (l : Link) (begun : Nat := 0)
  | replySend (l : Link)
  | noticeBuild (l : Link)
  | frameComplete (l : Link)
  -- the supervisor port: what happens on its wires, up to and with the byte that names the row
  | causeClear (before : List PortEvent) (last : PortEvent)
  | groupEnableWrite (before : List PortEvent) (last : PortEvent)
  | ticks0Read (events : List PortEvent)
  | i2cPointerSet (before : List PortEvent) (last : PortEvent)
  | registerWrite (before : List PortEvent) (last : PortEvent)
  deriving DecidableEq, Repr

end Sys2Proof
end

