-- ==== Sys2Proof/Decode.lean ====
section
/-! DEFINITION. No row of spec/opcode_table.json gives a word of bits, so no word spells a command. -/

namespace Sys2Proof

/-- The command spelled by a word of the opcode table's bits: none, since no row has bits. -/
def decodeTableWord (_nbits _w : Nat) : Option Instr := none

end Sys2Proof
end

