-- ==== Sys2Proof/Config.lean ====
section
/-! DEFINITION. The configuration the host sets and the image stores (Table 12-1), and the one value an
implementation fixes and the spec does not state: the image's check value (R171, log entry 10). -/

namespace Sys2Proof

open Sys2Proof.Machine (Table)

/-- One class record (R8, Table 1-5). -/
structure ClassParams where
  maxDuration : Nat
  warnLead : Nat
  yieldWindow : Nat
  renewalLimit : Nat
  maxWait : Nat
  deriving DecidableEq, Repr

/-- The cold values of a class (Table 1-5). -/
def ClassParams.cold : ClassParams := ⟨5000, 500, 1000, 16, 10000⟩

/-- Parity settings of a link (Table 9-1). -/
inductive Parity
  | none | zero | one | odd | even
  deriving DecidableEq, Repr

/-- Stop-bit settings of a link (Table 9-1). -/
inductive StopBits
  | one | two
  deriving DecidableEq, Repr

/-- The line parameters of a link (R132, Table 9-1). -/
structure LineParams where
  enabled : Bool
  div : Nat
  frac : Fin 16
  parity : Parity
  stopBits : StopBits
  deriving DecidableEq, Repr

/-- The cold values of a link's line parameters (Table 9-1). -/
def LineParams.cold : LineParams := ⟨false, 13, 0, .none, .one⟩

/-- Enable and class of one zone, as the image holds them (Table 12-1). -/
structure StoredZone where
  enabled : Bool
  cls : ClassId
  deriving DecidableEq, Repr

/-- One whole configuration (R171, Table 12-1). -/
structure ImageContents where
  zones : Table 64 StoredZone
  classes : Table 8 ClassParams
  links : Table 4 LineParams
  threshold : Nat
  deriving DecidableEq, Repr

/-- The configuration of a part at its cold values (R7, R8, R132, R34). -/
def ImageContents.cold : ImageContents :=
  ⟨.fill 64 ⟨true, 0⟩, .fill 8 .cold, .fill 4 .cold, 112⟩

/-- The check value computed over the image's contents (R171). The spec states neither its width nor its
computation: a free value, one for each contents. -/
opaque Config.imageCheck : ImageContents → Nat

end Sys2Proof
end

