-- ==== Sys2Proof/Machine/State.lean ====
section
/-! DEFINITION. The state of the part as plain data, the state at cold start and after reset, and the
reasons a step can stop. Fields that the spec gives as present only in some states of their owner are
arguments of that state's constructor, so absence needs no invariant (R1, R17). -/

namespace Sys2Proof.Machine

/-- No command stops the part: the spec answers every bad request, completes every bad command with a
result code and records every line fault as a cause, so no fault is raised by anyone. -/
inductive Fault
  deriving DecidableEq, Repr

/-- Why a command has no meaning. -/
inductive Refusal
  /-- Raised by an arm of `exec` that has no meaning yet (none has it now); safe. -/
  | notModelled (mnemonic : String)
  deriving DecidableEq, Repr

/-- The states of a zone; the holder is present in HELD and FENCE_PENDING (R1, R2, Table 1-1). -/
inductive ZoneState
  | disabled
  | free
  | held (holder : SlotId)
  | fencePending (holder : SlotId)
  | fenced
  deriving DecidableEq, Repr

/-- One zone record (R1). -/
structure Zone where
  state : ZoneState
  cls : ClassId
  earmark : Option SlotId
  deriving DecidableEq, Repr

/-- The eight record states (R18, Table 2-2). -/
inductive RecordState
  | free | waiting | held | yielding | parked | expired | revoked | lapsed
  deriving DecidableEq, Repr

/-- End causes of a REVOKED record (Table 2-3). -/
inductive RevokeCause
  | yieldLate | supervisor | fence
  deriving DecidableEq, Repr

/-- End causes of a LAPSED record (Table 2-3). -/
inductive LapseCause
  | waitOut | restart
  deriving DecidableEq, Repr

/-- The state of a record that is not FREE, with the fields present in it (R17, Table 2-1). -/
inductive Phase
  | waiting (countdown : Nat) (sequence : BitVec 32)
  | held (countdown : Nat) (warned : Bool)
  | yielding (countdown yieldCountdown : Nat) (warned : Bool)
  | parked (countdown : Nat) (sequence : BitVec 32)
  | expired
  | revoked (cause : RevokeCause)
  | lapsed (cause : LapseCause)
  deriving DecidableEq, Repr

/-- The effective limits of a record (R10); no warn lead means the record is not warned. -/
structure Limits where
  maxDuration : Nat
  warnLead : Option Nat
  yieldWindow : Nat
  renewalLimit : Nat
  maxWait : Nat
  deriving DecidableEq, Repr

/-- One lease record (R17, Table 2-1), less the generation, which its slot holds. -/
structure Lease where
  owner : Link
  tag : Byte
  priority : Priority
  yieldable : Bool
  zones : List ZoneId
  limits : Limits
  term : Nat
  renewals : Nat
  phase : Phase
  reported : Option (RecordState × Bool)
  deriving DecidableEq, Repr

/-- One slot of the lease table: its generation, and its record unless it is FREE (R17, R20). -/
structure Slot where
  generation : Byte
  lease : Option Lease
  deriving DecidableEq, Repr

/-- The clock states of Table 8-1 with the instants each keeps: when the search began (R126), the
reference pulse (R124), the next tick of the internal schedule (R125). Instants are CLKIN cycles. -/
inductive ClockState
  | search (since : Nat)
  | external (reference : Nat)
  | internal (next : Nat)
  | halted
  deriving DecidableEq, Repr

/-- Time-base modes (Table 8-2). -/
inductive TimeMode
  | auto | manualExternal | manualInternal
  deriving DecidableEq, Repr

/-- What the lease clock hands to the engines: a change into a running state, or a tick (R80, R130). -/
inductive HandedEvent
  | runningChange | tick
  deriving DecidableEq, Repr

/-- The lease clock (R122 to R125, R129). -/
structure Clock where
  state : ClockState
  mode : TimeMode
  latched : Bool
  tickCount : BitVec 32
  lockRun : Nat
  lastPulse : Option Nat
  lastTick : Option Nat
  /-- The instant of the last loss of the source: a pulse taken after the loss at that same instant is the
  reference of a new lock run (R124). -/
  lossAt : Option Nat
  /-- Handed over and not yet taken, oldest first (log entry 5). -/
  handed : List HandedEvent
  /-- The present instant in CLKIN cycles (log entry 4). -/
  now : Nat
  deriving DecidableEq, Repr

/-- One entry of a receive FIFO: the data byte, the four flags of R133 and the OVERRUN flag of R134. -/
structure FifoEntry where
  data : Byte
  parity : Bool
  framing : Bool
  brk : Bool
  gap : Bool
  overrun : Bool
  deriving DecidableEq, Repr

/-- The frame decoder with its partial frame (R135): in BODY the length byte and the bytes taken, in
CHECK the complete bytes whose checksum is awaited. -/
inductive Decoder
  | hunt
  | length
  | body (len : Byte) (taken : List Byte)
  | check (len : Byte) (bytes : List Byte)
  | hold
  deriving DecidableEq, Repr

/-- The handle and pair that a frame carries for the table (R28, R156). -/
structure Report where
  slot : SlotId
  generation : Byte
  state : RecordState
  warned : Bool
  deriving DecidableEq, Repr

/-- A frame the part sends: its kind and body bytes, and what its completion applies to the table. -/
structure OutFrame where
  payload : List Byte
  report : Option Report
  deriving DecidableEq, Repr

/-- The transmitter (R138): a reply on the line, or a notice for a slot. -/
inductive Transmitter
  | idle
  | reply (frame : OutFrame)
  | notice (slot : SlotId) (frame : OutFrame)
  deriving DecidableEq, Repr

/-- One character on a transmit line: its bits in the order sent, start bit to last stop bit, and the time
of a bit in CLKIN cycles (R132). -/
structure TxChar where
  bits : List Bool
  bitTime : Nat
  deriving DecidableEq, Repr

/-- One client link (R132 to R139). -/
structure LinkState where
  line : LineParams
  /-- The line settings replaced since the last character, newest first, for a character already begun when
  they were replaced (R140, log entry 8). -/
  prevLines : List LineParams
  fifo : List FifoEntry
  lossPending : Bool
  /-- The next character taken is the first since R133's list of events. -/
  gapNext : Bool
  /-- The receiver waits for RXDn to be high before it looks for a start bit (R133). -/
  rxWait : Bool
  decoder : Decoder
  requestSlot : Option (List Byte)
  replyBuffer : Option OutFrame
  tx : Transmitter
  noticePointer : SlotId
  /-- The characters begun on TXDn of the frame on the line, or of the last frame when none is (R132, R139,
  log entry 24). -/
  txd : List TxChar
  /-- The records of the link that became dirty in the instant in which the reply in the buffer was placed,
  the transmitter being IDLE, as they then stood (R138, R157, log entry 13). -/
  replyRace : List (SlotId × Lease)
  deriving DecidableEq, Repr

/-- Who has the mailbox's command; BUSY is 1 in every phase but `idle` (R166 to R168). -/
inductive MailboxPhase
  | idle
  /-- Accepted and not yet taken, with the latched arguments. -/
  | waiting (args : Table 8 Byte)
  /-- A STORE in progress, with the copy it is writing (R172). -/
  | storing (copy : ImageContents)
  /-- A WARM_RESTART in progress (R173). -/
  | restarting
  deriving DecidableEq, Repr

/-- The transfer on the supervisor port, as far as the part answers it (R160, R161, R170). -/
inductive Transfer
  /-- None, or one the part does not answer. -/
  | none
  /-- SPI: the command byte comes next. -/
  | spiCommand
  /-- SPI: data bytes written, the next to `offset`. -/
  | spiWrite (offset : BitVec 7)
  /-- SPI: data bytes read, the next from `offset`. -/
  | spiRead (offset : BitVec 7)
  /-- I2C: the address byte comes next. -/
  | i2cAddress
  /-- I2C: the first data byte of a write transfer comes next. -/
  | i2cPointer
  /-- I2C: further data bytes of a write transfer. -/
  | i2cWrite
  /-- I2C: data bytes of a read transfer. -/
  | i2cRead
  deriving DecidableEq, Repr

/-- What the part drives on MISO or SDA during a byte: nothing, a byte, or an acknowledge (R160, R161). -/
inductive PortDrive
  | released
  | byte (b : Byte)
  | acknowledge
  deriving DecidableEq, Repr

/-- The supervisor port (R159 to R169). -/
structure Port where
  groupEnable : Byte
  linkCause : Table 4 Byte
  tableCause : Byte
  timeCause : Byte
  cmdCause : Byte
  args : Table 8 Byte
  command : Byte
  result : Byte
  res : Table 8 Byte
  phase : MailboxPhase
  tickLatch : BitVec 24
  i2cPointer : BitVec 7
  transfer : Transfer
  /-- What the part drove in each byte of the last command of the port (log entry 9). -/
  portOut : List PortDrive
  msel : Bool
  a1 : Bool
  a0 : Bool
  deriving DecidableEq, Repr

/-- The nonvolatile image (R171). -/
structure Image where
  contents : ImageContents
  mark : Bool
  check : Nat
  deriving DecidableEq, Repr

/-- The whole part, and the commands waiting, first in first out. -/
structure State where
  zones : Table 64 Zone
  classes : Table 8 ClassParams
  slots : Table 128 Slot
  waiting : List SlotId
  sequence : BitVec 32
  threshold : Nat
  armed : Bool
  /-- The source served last: links 0 to 3, the mailbox 4 (R29). -/
  arbiter : Fin 5
  clock : Clock
  links : Table 4 LinkState
  port : Port
  image : Image
  storeInvalid : Bool
  autoload : Bool
  restarting : Bool
  wrstN : Bool
  inReset : Bool
  pending : List Instr
  deriving DecidableEq, Repr

/-- A zone's cold value (R7). -/
def Zone.cold : Zone := ⟨.free, 0, none⟩

/-- A slot at cold start (R36). -/
def Slot.cold : Slot := ⟨0, none⟩

/-- The lease clock at cold start, its search dating from the instant the part leaves reset (R122, R126). -/
def Clock.cold : Clock := ⟨.search 0, .auto, false, 0, 0, none, none, none, [], 0⟩

/-- A link at cold start (R132, R145). -/
def LinkState.cold : LinkState :=
  ⟨.cold, [], [], false, true, true, .hunt, none, none, .idle, 0, [], []⟩

/-- The supervisor port at cold start (R169). -/
def Port.cold : Port :=
  ⟨0, .fill 4 0, 0, 0, 0, .fill 8 0, 0, 0, .fill 8 0, .idle, 0, 0, .none, [], false, false, false⟩

/-- An image that has never been stored (R171, log entry 3). -/
def Image.blank : Image := ⟨.cold, false, 0⟩

/-- The part held in reset: every block at its cold values (R170), with the image and the command queue,
which a cold start does not touch. -/
def State.cold (image : Image) (pending : List Instr) : State where
  zones := .fill 64 .cold
  classes := .fill 8 .cold
  slots := .fill 128 .cold
  waiting := []
  sequence := 0
  threshold := 112
  armed := true
  arbiter := 4
  clock := .cold
  links := .fill 4 .cold
  port := .cold
  image := image
  storeInvalid := false
  autoload := false
  restarting := false
  wrstN := true
  inReset := true
  pending := pending

/-- The part right after reset: the cold-start sequence has ended with MSEL, A1, A0 and AUTOLOAD low and
an image that was never stored (R170, log entry 3). -/
def State.reset : State := { State.cold .blank [] with inReset := false }

end Sys2Proof.Machine
end

