-- ==== Sys2Proof/Machine/Operands.lean ====
section
/-! DEFINITION. Operand forms: bytes and two-byte quantities of frames and result registers, the numbers
a byte may name, the fields of request frames, and the codes the window and the frames carry. -/

namespace Sys2Proof.Machine

/-! ### Bytes -/

/-- The low eight bits of a number. -/
def byteOf (n : Nat) : Byte := BitVec.ofNat 8 n

/-- A two-byte quantity, high byte first (R146, R33). -/
def twoBytes (n : Nat) : List Byte := [byteOf (n / 256), byteOf n]

/-- The number two bytes give, high byte first. -/
def wordOf (h l : Byte) : Nat := h.toNat * 256 + l.toNat

/-- A 32-bit count as four bytes, high byte first (R33, R127). -/
def fourBytes (w : BitVec 32) : List Byte :=
  [w.extractLsb' 24 8, w.extractLsb' 16 8, w.extractLsb' 8 8, w.extractLsb' 0 8]

/-- 1 for yes, 0 for no. -/
def flagByte (b : Bool) : Byte := if b then 1 else 0

/-- Byte `i` of a frame's kind and body; a position beyond its end is 0 (R149). -/
def frameByte (f : List Byte) (i : Nat) : Byte := f.getD i 0

/-- The two-byte quantity at positions `i` and `i + 1` of a frame. -/
def frameWord (f : List Byte) (i : Nat) : Nat := wordOf (frameByte f i) (frameByte f (i + 1))

/-- The number of a byte that is below `n`. -/
def belowOf (n : Nat) (b : Byte) : Option (Fin n) := if h : b.toNat < n then some ⟨b.toNat, h⟩ else none

/-- The zone a byte names, if it is 63 or below. -/
def zoneOf (b : Byte) : Option ZoneId := belowOf 64 b

/-- The slot a byte names, if it is 127 or below. -/
def slotOf (b : Byte) : Option SlotId := belowOf 128 b

/-- The class a byte names, if it is 7 or below. -/
def classOf (b : Byte) : Option ClassId := belowOf 8 b

/-- The link a byte names, if it is 3 or below. -/
def linkOf (b : Byte) : Option Link := belowOf 4 b

/-- The priority a byte names, if it is 3 or below. -/
def priorityOf (b : Byte) : Option Priority := belowOf 4 b

/-- The zones that bytes name, if every one of them is 63 or below. -/
def zonesOf : List Byte → Option (List ZoneId)
  | [] => some []
  | b :: bs =>
    match zoneOf b, zonesOf bs with
    | some z, some zs => some (z :: zs)
    | _, _ => none

/-- A slot number as a byte. -/
def slotByte (i : SlotId) : Byte := byteOf i.1

/-- A slot number as a byte, or 0xFF for none. -/
def slotByteOr (i : Option SlotId) : Byte := match i with | some i => slotByte i | none => 0xFF

/-! ### Codes -/

/-- Zone state codes (Table 1-2). -/
def ZoneState.code : ZoneState → Byte
  | .disabled => 0
  | .free => 1
  | .held _ => 2
  | .fencePending _ => 3
  | .fenced => 4

/-- Record state codes (Table 2-2). -/
def RecordState.code : RecordState → Byte
  | .free => 0
  | .waiting => 1
  | .held => 2
  | .yielding => 3
  | .parked => 4
  | .expired => 5
  | .revoked => 6
  | .lapsed => 7

/-- End cause codes; 0 for none and where the field is absent (Table 2-3, R33, R155). -/
def Phase.endCode : Phase → Byte
  | .revoked .yieldLate => 1
  | .revoked .supervisor => 2
  | .revoked .fence => 3
  | .lapsed .waitOut => 4
  | .lapsed .restart => 5
  | _ => 0

/-- Clock state codes (Table 8-1). -/
def ClockState.code : ClockState → Byte
  | .search _ => 0
  | .external _ => 1
  | .internal _ => 2
  | .halted => 3

/-- Time-base mode codes (Table 8-2). -/
def TimeMode.code : TimeMode → Byte
  | .auto => 0
  | .manualExternal => 1
  | .manualInternal => 2

/-- The mode a code names (Table 8-2). -/
def timeModeOf (b : Byte) : Option TimeMode :=
  if b = 0 then some .auto else if b = 1 then some .manualExternal
  else if b = 2 then some .manualInternal else none

/-- Parity codes (Table 9-1). -/
def parityCode : Parity → Byte
  | .none => 0
  | .zero => 1
  | .one => 2
  | .odd => 3
  | .even => 4

/-- The parity a code names (Table 9-1). -/
def parityOf (b : Byte) : Option Parity :=
  if b = 0 then some .none else if b = 1 then some .zero else if b = 2 then some .one
  else if b = 3 then some .odd else if b = 4 then some .even else none

/-- Stop-bit codes (Table 9-1). -/
def stopBitsCode : StopBits → Byte
  | .one => 1
  | .two => 2

/-- The stop bits a code names (Table 9-1). -/
def stopBitsOf (b : Byte) : Option StopBits :=
  if b = 1 then some .one else if b = 2 then some .two else none

/-- Decoder state codes (R135). -/
def Decoder.code : Decoder → Byte
  | .hunt => 0
  | .length => 1
  | .body _ _ => 2
  | .check _ _ => 3
  | .hold => 4

/-- Transmitter state codes (R138). -/
def Transmitter.code : Transmitter → Byte
  | .idle => 0
  | .reply _ => 1
  | .notice _ _ => 2

/-- Refusal causes (Table 10-4). -/
inductive RefuseCause
  | badKind | badLength | badField | zoneDisabled | tagInUse | ownConflict | timeHalted | tableFull
  | listFull | unavailable | staleHandle | notOwner | leaseEnded | wrongState | yieldPending
  | renewLimit | listLimit | zoneFenced | zoneHeld | zoneEarmarked | notListed | lastZone
  | notYielding | waitForbidden
  deriving DecidableEq, Repr

/-- The codes of Table 10-4. -/
def RefuseCause.code : RefuseCause → Byte
  | .badKind => 1
  | .badLength => 2
  | .badField => 3
  | .zoneDisabled => 4
  | .tagInUse => 5
  | .ownConflict => 6
  | .timeHalted => 7
  | .tableFull => 8
  | .listFull => 9
  | .unavailable => 10
  | .staleHandle => 11
  | .notOwner => 12
  | .leaseEnded => 13
  | .wrongState => 14
  | .yieldPending => 15
  | .renewLimit => 16
  | .listLimit => 17
  | .zoneFenced => 18
  | .zoneHeld => 19
  | .zoneEarmarked => 20
  | .notListed => 21
  | .lastZone => 22
  | .notYielding => 23
  | .waitForbidden => 24

/-- Result codes of the mailbox (Table 11-4). -/
inductive ResultCode
  | ok | badCommand | badArgument | inUse | wrongState | staleHandle | latched | aborted
  deriving DecidableEq, Repr

/-- The codes of Table 11-4. -/
def ResultCode.code : ResultCode → Byte
  | .ok => 0
  | .badCommand => 1
  | .badArgument => 2
  | .inUse => 3
  | .wrongState => 4
  | .staleHandle => 5
  | .latched => 6
  | .aborted => 7

/-! ### Kind codes (Table 10-2) -/

def kindAcquire : Byte := 0x10
def kindRenew : Byte := 0x11
def kindRelease : Byte := 0x12
def kindWiden : Byte := 0x13
def kindNarrow : Byte := 0x14
def kindPark : Byte := 0x15
def kindQueryLease : Byte := 0x18
def kindQueryZone : Byte := 0x19
def kindAccept : Byte := 0x20
def kindRefuse : Byte := 0x21
def kindLeaseState : Byte := 0x30

/-- Is a kind among the request codes of Table 10-2 (R147)? -/
def isRequestKind (k : Byte) : Bool :=
  k == kindAcquire || k == kindRenew || k == kindRelease || k == kindWiden || k == kindNarrow
    || k == kindPark || k == kindQueryLease || k == kindQueryZone

/-! ### Command codes (Table 11-5) -/

def codeReadZone : Byte := 0x01
def codeSetZone : Byte := 0x02
def codeReadClass : Byte := 0x03
def codeSetClass : Byte := 0x04
def codeReadLease : Byte := 0x05
def codeSetThreshold : Byte := 0x06
def codeReadList : Byte := 0x07
def codeNextExpiry : Byte := 0x08
def codeClassLoad : Byte := 0x09
def codeFence : Byte := 0x0A
def codeLift : Byte := 0x0B
def codeRevoke : Byte := 0x0C
def codeSetTimebase : Byte := 0x10
def codeReadLink : Byte := 0x11
def codeSetLink : Byte := 0x12
def codeLinkReset : Byte := 0x13
def codeStore : Byte := 0x20
def codeWarmRestart : Byte := 0x21

/-- Codes owned by the lease engine or the expiry engine, which pass through the arbiter (R29). -/
def isEngineCode (c : Byte) : Bool := decide (1 ≤ c.toNat) && decide (c.toNat ≤ 12)

/-- Is a code a command of Table 11-5 (R167)? -/
def isCommandCode (c : Byte) : Bool :=
  isEngineCode c || c == codeSetTimebase || c == codeReadLink || c == codeSetLink
    || c == codeLinkReset || c == codeStore || c == codeWarmRestart

/-! ### The fields of an ACQUIRE (Table 3-1, Table 10-3) -/

/-- An ACQUIRE whose length and fields are good. -/
structure AcquireReq where
  tag : Byte
  priority : Priority
  yieldable : Bool
  zones : List ZoneId
  duration : Nat
  wait : Nat
  deriving DecidableEq, Repr

/-- Check 1 of Table 3-2: the frame holds the zone count `n` and its length is 9 + n. -/
def acquireLengthOk (f : List Byte) : Bool :=
  decide (5 ≤ f.length) && f.length == 9 + (frameByte f 4).toNat

/-- The fields of an ACQUIRE of good length, unless check 2 of Table 3-2 fails: the count is 1 to 4, the
zones are 63 or below and distinct, the priority is 3 or below. Of the options only the lowest bit counts
(R148). -/
def acquireFields (f : List Byte) : Option AcquireReq :=
  let n := (frameByte f 4).toNat
  match priorityOf (frameByte f 2), zonesOf ((f.drop 5).take n) with
  | some p, some zs =>
    if 1 ≤ n ∧ n ≤ 4 ∧ zs.Nodup then
      some ⟨frameByte f 1, p, (frameByte f 3).getLsbD 0, zs, frameWord f (5 + n), frameWord f (7 + n)⟩
    else none
  | _, _ => none

/-! ### Frames the part sends -/

/-- The checksum byte: the 8-bit sum of the length byte, the payload and the checksum is 0 (R146). -/
def checksum (payload : List Byte) : Byte := 0 - payload.foldl (· + ·) (byteOf payload.length)

/-- The characters of a frame on the line (R146, Table 10-1). -/
def OutFrame.wire (f : OutFrame) : List Byte :=
  [0xD5, byteOf f.payload.length] ++ f.payload ++ [checksum f.payload]

/-- A REFUSE: the echoed kind, the identifier of the request and the cause (R150). -/
def refuse (kind : Byte) (ident : List Byte) (c : RefuseCause) : OutFrame :=
  ⟨kindRefuse :: kind :: (ident ++ [c.code]), none⟩

/-- The identifier of a request that carries a handle (R149). -/
def handleIdent (f : List Byte) : List Byte := [frameByte f 1, frameByte f 2]

end Sys2Proof.Machine
end

