-- ==== Sys2Proof/Machine/Flags.lean ====
section
/-! DEFINITION. The cause flags, group flags, STATUS and IRQ_N (R163 to R165, Table 11-2), and the reads
of the register window (R162, Table 11-1). -/

namespace Sys2Proof.Machine

/-! ### Flag bits (Table 11-2) -/

def flagLineError : Byte := 0x01
def flagLinkOverrun : Byte := 0x02
def flagGapDiscard : Byte := 0x04
def flagBadFrame : Byte := 0x08
def flagBreak : Byte := 0x10
def flagRevokeLate : Byte := 0x01
def flagFenceDone : Byte := 0x02
def flagTableHigh : Byte := 0x04
def flagExhausted : Byte := 0x08
def flagSourceChanged : Byte := 0x01
def flagClockStopped : Byte := 0x02
def flagClockStarted : Byte := 0x04
def flagDone : Byte := 0x01
def flagCmdOverrun : Byte := 0x02
def flagRestartDone : Byte := 0x04

/-! ### Setting causes (R164): a flag is set whether or not its group is enabled, and stays set -/

def State.raiseTable (f : Byte) (s : State) : State :=
  { s with port := { s.port with tableCause := s.port.tableCause ||| f } }

def State.raiseTime (f : Byte) (s : State) : State :=
  { s with port := { s.port with timeCause := s.port.timeCause ||| f } }

def State.raiseCmd (f : Byte) (s : State) : State :=
  { s with port := { s.port with cmdCause := s.port.cmdCause ||| f } }

def State.raiseLink (l : Link) (f : Byte) (s : State) : State :=
  { s with port := { s.port with linkCause := s.port.linkCause.set l (s.port.linkCause.get l ||| f) } }

/-- Every cause flag 0 (R169). -/
def Port.clearCauses (p : Port) : Port :=
  { p with linkCause := .fill 4 0, tableCause := 0, timeCause := 0, cmdCause := 0 }

/-! ### What the host reads -/

/-- Is the clock state EXTERNAL or INTERNAL (Table 8-1)? -/
def ClockState.running : ClockState → Bool
  | .external _ => true
  | .internal _ => true
  | _ => false

/-- The lease clock runs. -/
def State.running (s : State) : Bool := s.clock.state.running

/-- BUSY: from the acceptance of a command to its completion (R163). -/
def Port.busy (p : Port) : Bool := p.phase != .idle

/-- One bit at a position. -/
def bitAt (b : Bool) (i : Nat) : Byte := if b then 1 <<< i else 0

/-- STATUS (R163, Table 11-2). -/
def State.status (s : State) : Byte :=
  bitAt s.storeInvalid 5 ||| bitAt s.clock.latched 4 ||| (s.clock.state.code <<< 2)
    ||| bitAt s.restarting 1 ||| bitAt s.port.busy 0

/-- GROUP_FLAGS: one flag per cause register (R165, Table 11-2). -/
def Port.groupFlags (p : Port) : Byte :=
  bitAt (p.cmdCause != 0) 6 ||| bitAt (p.timeCause != 0) 5 ||| bitAt (p.tableCause != 0) 4
    ||| bitAt (p.linkCause.get 3 != 0) 3 ||| bitAt (p.linkCause.get 2 != 0) 2
    ||| bitAt (p.linkCause.get 1 != 0) 1 ||| bitAt (p.linkCause.get 0 != 0) 0

/-- The level of IRQ_N: low while some group has both its flag and its enable at 1 (R165), high while the
part is held in reset (R170). -/
def State.irqN (s : State) : Bool := s.inReset || (s.port.groupFlags &&& s.port.groupEnable == 0)

/-- The I2C device address 1, 0, 1, 1, 0, A1, A0 (R159). -/
def Port.i2cAddress (p : Port) : BitVec 7 :=
  0x58 ||| (if p.a1 then 2 else 0) ||| (if p.a0 then 1 else 0)

/-- Byte `i` of an eight-byte register group. -/
def Table.byteAt (t : Table 8 Byte) (i : Nat) : Byte := t.list.getD i 0

/-- What a read of a register returns (R162, Table 11-1); TICKS0 is the low byte of the count and TICKS1
to TICKS3 the latched bytes (R129). -/
def State.readReg (s : State) (offset : BitVec 7) : Byte :=
  let o := offset.toNat
  let p := s.port
  if o = 0x00 then 0x6C
  else if o = 0x01 then 0x02
  else if o = 0x02 then s.status
  else if o = 0x03 then p.groupFlags
  else if o = 0x04 then p.groupEnable
  else if o ≤ 0x08 then p.linkCause.list.getD (o - 0x05) 0
  else if o = 0x09 then p.tableCause
  else if o = 0x0A then p.timeCause
  else if o = 0x0B then p.cmdCause
  else if o ≤ 0x13 then p.args.byteAt (o - 0x0C)
  else if o = 0x14 then p.command
  else if o = 0x15 then p.result
  else if o ≤ 0x1D then p.res.byteAt (o - 0x16)
  else if o = 0x1E then s.clock.tickCount.extractLsb' 0 8
  else if o = 0x1F then p.tickLatch.extractLsb' 0 8
  else if o = 0x20 then p.tickLatch.extractLsb' 8 8
  else if o = 0x21 then p.tickLatch.extractLsb' 16 8
  else 0x00

end Sys2Proof.Machine
end

