-- ==== Sys2Proof/Machine/Ops.lean ====
section
/-! DEFINITION. The named operations over the zone map, the class table, the lease table and the waiting
list: reading and writing records, effective limits, allocation and freeing, taking and giving up zones,
ending records, and the grant scan. -/

namespace Sys2Proof.Machine

/-! ### What a record's phase says (Tables 2-1 and 2-2) -/

def Phase.state : Phase → RecordState
  | .waiting _ _ => .waiting
  | .held _ _ => .held
  | .yielding _ _ _ => .yielding
  | .parked _ _ => .parked
  | .expired => .expired
  | .revoked _ => .revoked
  | .lapsed _ => .lapsed

/-- The warned flag, no in the states that have none (R27). -/
def Phase.warned : Phase → Bool
  | .held _ w => w
  | .yielding _ _ w => w
  | _ => false

/-- The lease or wait countdown, 0 where absent (R154, R155). -/
def Phase.countdown : Phase → Nat
  | .waiting c _ => c
  | .held c _ => c
  | .yielding c _ _ => c
  | .parked c _ => c
  | _ => 0

/-- The yield countdown, 0 where absent (R154). -/
def Phase.yieldCountdown : Phase → Nat
  | .yielding _ y _ => y
  | _ => 0

/-- The sequence, 0 where absent (R33). -/
def Phase.sequence : Phase → BitVec 32
  | .waiting _ q => q
  | .parked _ q => q
  | _ => 0

/-- HELD or YIELDING: the record holds its zones (Table 2-2). -/
def Phase.holds : Phase → Bool
  | .held _ _ => true
  | .yielding _ _ _ => true
  | _ => false

/-- WAITING or PARKED: the record stands in the waiting list (Table 2-2). -/
def Phase.queued : Phase → Bool
  | .waiting _ _ => true
  | .parked _ _ => true
  | _ => false

/-- A live state (R18). -/
def Phase.live (p : Phase) : Bool := p.holds || p.queued

/-- EXPIRED, REVOKED or LAPSED (R18). -/
def Phase.terminal (p : Phase) : Bool := !p.live

/-- A yielding record (R58). -/
def Phase.isYielding : Phase → Bool
  | .yielding _ _ _ => true
  | _ => false

/-- A parked record. -/
def Phase.isParked : Phase → Bool
  | .parked _ _ => true
  | _ => false

/-- The present state and warned flag of a record (R27). -/
def Lease.pair (r : Lease) : RecordState × Bool := (r.phase.state, r.phase.warned)

/-- The reported value differs from the present pair (R27). -/
def Lease.dirty (r : Lease) : Bool := r.reported != some r.pair

/-- The holder of a zone, present in HELD and FENCE_PENDING (R1). -/
def ZoneState.holder : ZoneState → Option SlotId
  | .held i => some i
  | .fencePending i => some i
  | _ => none

/-- FENCE_PENDING, whoever holds it. -/
def ZoneState.isPending : ZoneState → Bool
  | .fencePending _ => true
  | _ => false

/-! ### Reading and writing State -/

def State.zone (s : State) (z : ZoneId) : Zone := s.zones.get z
def State.slot (s : State) (i : SlotId) : Slot := s.slots.get i
def State.lease (s : State) (i : SlotId) : Option Lease := (s.slot i).lease
def State.generation (s : State) (i : SlotId) : Byte := (s.slot i).generation
def State.cls (s : State) (c : ClassId) : ClassParams := s.classes.get c
def State.link (s : State) (l : Link) : LinkState := s.links.get l

def State.setZone (s : State) (z : ZoneId) (x : Zone) : State := { s with zones := s.zones.set z x }
def State.setSlot (s : State) (i : SlotId) (x : Slot) : State := { s with slots := s.slots.set i x }
def State.setClass (s : State) (c : ClassId) (x : ClassParams) : State :=
  { s with classes := s.classes.set c x }
def State.setLink (s : State) (l : Link) (x : LinkState) : State := { s with links := s.links.set l x }
def State.setClock (s : State) (c : Clock) : State := { s with clock := c }
def State.setPort (s : State) (p : Port) : State := { s with port := p }

/-- Zone `z` with another state; its class and earmark stay. -/
def State.setZoneState (s : State) (z : ZoneId) (x : ZoneState) : State :=
  s.setZone z { s.zone z with state := x }

/-- Zone `z` with another earmark. -/
def State.setEarmark (s : State) (z : ZoneId) (e : Option SlotId) : State :=
  s.setZone z { s.zone z with earmark := e }

/-- Slot `i` holding record `r` under its present generation. -/
def State.setLease (s : State) (i : SlotId) (r : Lease) : State :=
  s.setSlot i ⟨s.generation i, some r⟩

/-- Every record replaced by its image under `f`, which sees the slot; FREE slots and generations stay. -/
def State.mapLeases (s : State) (f : SlotId → Lease → Lease) : State :=
  { s with slots := s.slots.mapIdx fun i x => { x with lease := x.lease.map (f i) } }

/-! ### Counts -/

/-- The number of records that satisfy `p`. -/
def State.countLeases (s : State) (p : Lease → Bool) : Nat :=
  s.slots.count fun x => match x.lease with | some r => p r | none => false

/-- The number of slots that are not FREE (R34). -/
def State.occupied (s : State) : Nat := s.countLeases fun _ => true

/-- The number of live records that list a zone (R13, Table 7-1). -/
def State.liveListing (s : State) (z : ZoneId) : Nat :=
  s.countLeases fun r => r.phase.live && r.zones.contains z

/-- Does a zone of the list belong to the class? -/
def State.touches (s : State) (c : ClassId) (r : Lease) : Bool :=
  r.zones.any fun z => (s.zone z).cls == c

/-- The lowest-numbered FREE slot (R22). -/
def State.lowestFree (s : State) : Option SlotId := s.slots.lowest fun x => x.lease.isNone

/-! ### Effective limits (R10) -/

/-- The smallest of some numbers; 0 of none. -/
def smallest (l : List Nat) : Nat := (l.min?).getD 0

/-- The effective limits of a list of zones: the smallest of each parameter among their classes, of the
warn leads the smallest that is not 0. A class counted twice changes no smallest value. -/
def State.limitsOf (s : State) (zs : List ZoneId) : Limits :=
  let cs := zs.map fun z => s.cls (s.zone z).cls
  { maxDuration := smallest (cs.map (·.maxDuration))
    warnLead := ((cs.map (·.warnLead)).filter (· ≠ 0)).min?
    yieldWindow := smallest (cs.map (·.yieldWindow))
    renewalLimit := smallest (cs.map (·.renewalLimit))
    maxWait := smallest (cs.map (·.maxWait)) }

/-- A duration asked for, taken as 1 when it is 0 and as the effective max duration when above it (R41, R66). -/
def clampTerm (duration maxDuration : Nat) : Nat := min (max duration 1) maxDuration

/-! ### Allocation and freeing (R22, R24, R34) -/

/-- An allocation is counted: at the threshold while armed it sets TABLE_HIGH and disarms (R34). -/
def State.countAllocation (s : State) : State :=
  if s.armed && s.occupied == s.threshold then { s.raiseTable flagTableHigh with armed := false } else s

/-- A freeing that leaves the count below the threshold re-arms the indication (R34). -/
def State.rearm (s : State) : State := if s.occupied < s.threshold then { s with armed := true } else s

/-- Slot `i` is allocated to record `r` under the next generation (R20, R22). -/
def State.allocate (s : State) (i : SlotId) (r : Lease) : State :=
  (s.setSlot i ⟨s.generation i + 1, some r⟩).countAllocation

/-- Slot `i` is freed, keeping its generation (R24). -/
def State.freeSlot (s : State) (i : SlotId) : State := (s.setSlot i ⟨s.generation i, none⟩).rearm

/-! ### Zones taken and given up (R4, R5) -/

/-- Each zone of the list passes to HELD with the slot as holder (R4). -/
def State.takeZones (s : State) (i : SlotId) (zs : List ZoneId) : State :=
  zs.foldl (fun t z => t.setZoneState z (.held i)) s

/-- A zone given up: HELD becomes FREE, FENCE_PENDING becomes FENCED and sets FENCE_DONE (R5, R112). -/
def State.giveUpZone (s : State) (z : ZoneId) : State :=
  match (s.zone z).state with
  | .held _ => s.setZoneState z .free
  | .fencePending _ => (s.setZoneState z .fenced).raiseTable flagFenceDone
  | _ => s

/-- Each zone of the list given up. -/
def State.giveUpZones (s : State) (zs : List ZoneId) : State := zs.foldl State.giveUpZone s

/-! ### The waiting list (R46 to R49) -/

/-- The entry leaves the list; those behind it move up (R49). -/
def State.leaveList (s : State) (i : SlotId) : State := { s with waiting := s.waiting.filter (· != i) }

/-- `e` put before the first entry that satisfies `p`, or at the tail. -/
def insertBefore (p : SlotId → Bool) (e : SlotId) : List SlotId → List SlotId
  | [] => [e]
  | x :: xs => if p x then e :: x :: xs else x :: insertBefore p e xs

/-- Stands an entry behind a new entry of this priority and kind? A WAITING entry goes before the first
entry of lower priority; a PARKED one before the first WAITING entry of its priority or the first entry
of lower priority (R47). -/
def State.behind (s : State) (priority : Priority) (parked : Bool) (x : SlotId) : Bool :=
  match s.lease x with
  | some r => r.priority < priority || (parked && r.priority == priority && !r.phase.isParked)
  | none => false

/-- Slot `i` is inserted and the sequence counter raised (R47). The record itself takes the counter's value
before the insertion, in its phase. -/
def State.enterList (s : State) (i : SlotId) (priority : Priority) (parked : Bool) : State :=
  { s with
    waiting := insertBefore (s.behind priority parked) i s.waiting
    sequence := s.sequence + 1 }

/-! ### Ending records (R25, R84 to R87, R111, R117) -/

/-- Record `r` of slot `i` becomes terminal, its other fields kept; on a disabled link it is freed at once
(R25). -/
def State.terminate (s : State) (i : SlotId) (r : Lease) (p : Phase) : State :=
  if (s.link r.owner).line.enabled then s.setLease i { r with phase := p } else s.freeSlot i

/-- A HELD or YIELDING record ends and gives up its zones. -/
def State.endHeld (s : State) (i : SlotId) (r : Lease) (p : Phase) : State :=
  (s.giveUpZones r.zones).terminate i r p

/-- A WAITING or PARKED record ends and leaves the list. -/
def State.endQueued (s : State) (i : SlotId) (r : Lease) (p : Phase) : State :=
  (s.leaveList i).terminate i r p

/-! ### The grant scan (R53 to R61) -/

/-- Step 1: every earmark is cleared (R54). -/
def State.clearEarmarks (s : State) : State :=
  { s with zones := s.zones.mapIdx fun _ x => { x with earmark := none } }

/-- Every zone of the record is FREE and unmarked in this walk (R55). -/
def State.grantable (s : State) (r : Lease) : Bool :=
  r.zones.all fun z => (s.zone z).state == .free && (s.zone z).earmark == none

/-- The record a grant leaves: HELD for its term, unwarned; a WAITING record's renewals are set to 0 and a
PARKED record's kept (R56). -/
def Lease.granted (r : Lease) : Lease :=
  { r with
    phase := .held r.term false
    renewals := if r.phase.isParked then r.renewals else 0 }

/-- Entry `i` is granted: it leaves the list, becomes HELD and takes its zones (R56). -/
def State.grant (s : State) (i : SlotId) (r : Lease) : State :=
  ((s.leaveList i).setLease i r.granted).takeZones i r.zones

/-- A HELD record made YIELDING: its yield countdown starts from its effective yield window (R58, R59). -/
def Lease.startYield (r : Lease) : Lease :=
  match r.phase with
  | .held c w => { r with phase := .yielding c r.limits.yieldWindow w }
  | _ => r

/-- A YIELDING record returned to HELD: its yield countdown is removed (R60). -/
def Lease.withdrawYield (r : Lease) : Lease :=
  match r.phase with
  | .yielding c _ w => { r with phase := .held c w }
  | _ => r

/-- The holder of a zone is asked to yield to an entry of priority `p` when it is HELD, yieldable and of
lower priority (R58); `startYield` leaves any other state as it is. -/
def State.askYield (s : State) (h : SlotId) (p : Priority) : State :=
  match s.lease h with
  | some r => if r.yieldable && r.priority < p then s.setLease h r.startYield else s
  | none => s

/-- Entry `e` of priority `p` earmarks a zone that is FREE or HELD and not yet earmarked in this walk
(R57), and with the clock running asks the holder of a HELD one to yield (R58). -/
def State.earmarkZone (running : Bool) (e : SlotId) (p : Priority) (s : State) (z : ZoneId) : State :=
  match (s.zone z).earmark, (s.zone z).state with
  | none, .free => s.setEarmark z (some e)
  | none, .held h => if running then (s.setEarmark z (some e)).askYield h p else s.setEarmark z (some e)
  | _, _ => s

/-- Step 2 for one entry: granted, or earmarks its zones (R55 to R58, R61). -/
def State.walkEntry (running : Bool) (s : State) (e : SlotId) : State :=
  match s.lease e with
  | some r =>
    if running && s.grantable r then s.grant e r
    else r.zones.foldl (State.earmarkZone running e r.priority) s
  | none => s

/-- Step 2: the list is walked from head to tail (R54). -/
def State.walk (running : Bool) (s : State) : State := s.waiting.foldl (State.walkEntry running) s

/-- The slot holds one of the record's zones in FENCE_PENDING (R59, R60). -/
def State.holdsPending (s : State) (i : SlotId) (r : Lease) : Bool :=
  r.zones.any fun z => (s.zone z).state == .fencePending i

/-- One of the record's zones carries the earmark of an entry of higher priority (R60). -/
def State.contested (s : State) (r : Lease) : Bool :=
  r.zones.any fun z =>
    match (s.zone z).earmark with
    | some e => match s.lease e with
      | some q => decide (r.priority < q.priority)
      | none => false
    | none => false

/-- Step 3: each HELD, yieldable holder of a FENCE_PENDING zone is made YIELDING (R59). -/
def State.fenceYields (s : State) : State :=
  s.mapLeases fun i r => if r.yieldable && s.holdsPending i r then r.startYield else r

/-- Step 4: each YIELDING record with no reason left returns to HELD (R60). -/
def State.withdrawYields (s : State) : State :=
  s.mapLeases fun i r => if !s.holdsPending i r && !s.contested r then r.withdrawYield else r

/-- The grant scan (R54); with the clock stopped steps 1 and 2 with earmarks only (R61). -/
def State.grantScan (s : State) : State :=
  if s.running then (s.clearEarmarks.walk true).fenceYields.withdrawYields
  else s.clearEarmarks.walk false

end Sys2Proof.Machine
end

