-- ==== Sys2Proof/Machine/Arbiter.lean ====
section
/-! DEFINITION. The request arbiter (R29, R30), the way a request goes from a link's slot through the lease
engine to its reply buffer, and the way a mailbox command is taken and completed (R166 to R168). -/

namespace Sys2Proof.Machine

/-- The arbiter's source for a link; the mailbox is source 4. -/
def linkSource (l : Link) : Fin 5 := l.castSucc

/-- The arbiter's source for the mailbox. -/
def mailboxSource : Fin 5 := 4

/-- Has a source a request waiting (R29)? -/
def State.sourceWaits (s : State) (k : Fin 5) : Bool :=
  if h : k.1 < 4 then (s.link ⟨k.1, h⟩).requestSlot.isSome
  else match s.port.phase with
    | .waiting _ => isEngineCode s.port.command
    | _ => false

/-- The first waiting source after the one served last, in rotation order (R29). -/
def State.arbiterNext (s : State) : Option (Fin 5) :=
  [s.arbiter + 1, s.arbiter + 2, s.arbiter + 3, s.arbiter + 4, s.arbiter].find? s.sourceWaits

/-- A change into a running state was handed over and its scan not yet made; a request taken after the
change is evaluated after that scan (R45, R130, log entry 6). -/
def State.scanOwed (s : State) : Bool := s.running && s.clock.handed.contains .runningChange

/-- The lease engine takes work: the part is not held in reset, no warm restart is in progress (R173) and
no scan of a change into running is owed. -/
def State.engineFree (s : State) : Bool := !s.inReset && !s.restarting && !s.scanOwed

/-- The engine takes the request of source `k` next. -/
def State.turn (s : State) (k : Fin 5) : Bool := s.engineFree && s.arbiterNext == some k

/-! ### Requests of the links -/

/-- The engine takes the link's request: the slot is emptied and the pointer moved to the link (R29). -/
def State.takeSlot (s : State) (l : Link) : State :=
  { s.setLink l { s.link l with requestSlot := none } with arbiter := linkSource l }

/-- The slot holds a dirty record of the link (R27). -/
def State.dirtyAt (s : State) (l : Link) (i : SlotId) : Bool :=
  match s.lease i with
  | some r => r.owner == l && r.dirty
  | none => false

/-- The records of the link that are dirty in `t` and were not in `s`, with their slots. -/
def State.newlyDirty (s t : State) (l : Link) : List (SlotId × Lease) :=
  (List.finRange 128).filterMap fun i =>
    match t.lease i with
    | some r => if r.owner == l && r.dirty && !s.dirtyAt l i then some (i, r) else none
    | none => none

/-- The reply is placed in the link's reply buffer at the end of the evaluation of `s` that led to `t` (R29);
with the transmitter IDLE, the records that became dirty in that same instant are kept, since R138 and R157
let a notice of one of them go first (log entry 13). -/
def State.placeReply (t s : State) (l : Link) (r : OutFrame) : State :=
  t.setLink l { t.link l with
    replyBuffer := some r
    replyRace := if (t.link l).tx = .idle then s.newlyDirty t l else [] }

/-- The engine evaluates the link's request whole when it is the link's turn and the kind is one that `kind`
accepts (R30); otherwise the step has no occasion (log entry 1). -/
def takeRequest (l : Link) (kind : Byte → Bool) (eval : List Byte → State → State × OutFrame)
    (s : State) : State :=
  match (s.link l).requestSlot with
  | some f =>
    if s.turn (linkSource l) && kind (frameByte f 0) then
      (eval f (s.takeSlot l)).1.placeReply s l (eval f (s.takeSlot l)).2
    else s
  | none => s

/-- The record a handle names, if the handle matches (R20). -/
def State.matchHandle (s : State) (slot generation : Byte) : Option (SlotId × Lease) :=
  match slotOf slot with
  | some i =>
    match s.lease i with
    | some r => if s.generation i = generation then some (i, r) else none
    | none => none
  | none => none

/-- The three checks common to the requests that carry a handle, and then `k` (R20, R21, R63). -/
def withHandle (len : Nat) (kind : Byte) (l : Link) (f : List Byte) (s : State)
    (k : SlotId → Lease → State × OutFrame) : State × OutFrame :=
  if f.length ≠ len then (s, refuse kind (handleIdent f) .badLength)
  else match s.matchHandle (frameByte f 1) (frameByte f 2) with
    | some (i, r) => if r.owner ≠ l then (s, refuse kind (handleIdent f) .notOwner) else k i r
    | none => (s, refuse kind (handleIdent f) .staleHandle)

/-! ### Commands of the mailbox -/

/-- What an owner hands back (R167): OK with result bytes, or another code with RES0 to RES7 written 0. -/
inductive CmdResult
  | ok (bytes : List Byte)
  | fail (code : ResultCode)
  deriving DecidableEq, Repr

/-- The result code of a result. -/
def CmdResult.code : CmdResult → ResultCode
  | .ok _ => .ok
  | .fail c => c

/-- The result bytes of a result. -/
def CmdResult.bytes : CmdResult → List Byte
  | .ok b => b
  | .fail _ => []

/-- The command in progress completes: RESULT and RES0 to RES7 are written, BUSY clears and DONE is set, in
one event (R167). -/
def State.complete (s : State) (r : CmdResult) : State :=
  State.raiseCmd flagDone
    { s with port := { s.port with
        result := r.code.code
        res := .bytes8 r.bytes
        phase := .idle } }

/-- Argument `i` of the latched arguments. -/
abbrev argOf (args : Table 8 Byte) (i : Nat) : Byte := args.byteAt i

/-- The engine takes the mailbox's command of the given code and form when it is the mailbox's turn, and
evaluates and completes it (R29, R30, R168). -/
def takeCommand (code : Byte) (form : Table 8 Byte → Bool)
    (eval : Table 8 Byte → State → State × CmdResult) (s : State) : State :=
  match s.port.phase with
  | .waiting args =>
    if s.turn mailboxSource && s.port.command == code && form args then
      let t := { s with arbiter := mailboxSource }
      (eval args t).1.complete (eval args t).2
    else s
  | _ => s

/-- The owner of a direct command takes it from the mailbox and completes it in the same event (R168). -/
def takeDirect (code : Byte) (eval : Table 8 Byte → State → State × CmdResult) (s : State) : State :=
  match s.port.phase with
  | .waiting args =>
    if !s.inReset && !s.restarting && s.port.command == code then (eval args s).1.complete (eval args s).2
    else s
  | _ => s

end Sys2Proof.Machine
end

