-- ==== Sys2Proof/Machine/ClockCommands.lean ====
section
/-! DEFINITION. The lease clock: pulses on SYNCIN and the lock run, the deadlines that pass, changes of
state with their causes, the ticks handed over, and SET_TIMEBASE. Time is counted in CLKIN cycles, 24 000
to the millisecond (spec 00, Table 0-3; log entry 4). -/

namespace Sys2Proof.Machine

/-- 1.000 ms. -/
def msCycles : Nat := 24000
/-- 0.95 ms: a pulse is no earlier (R123, R124). -/
def spanMin : Nat := 22800
/-- 1.05 ms: a pulse is no later (R123, R124). -/
def spanMax : Nat := 25200
/-- 0.5 ms (R125). -/
def halfCycles : Nat := 12000
/-- 20 ms: the limit of the search (R126). -/
def searchLimit : Nat := 480000

/-! ### Changes of state and ticks handed over -/

/-- The causes of a change from one clock state to another (R128). -/
def timeCauses (old new : ClockState) : Byte :=
  flagSourceChanged ||| (if new.running then 0 else flagClockStopped)
    ||| (if !old.running && new.running then flagClockStarted else 0)

/-- The clock enters state `x`. A change sets its causes (R128); a change into a running state is handed to
the lease engine (R130), but not during a warm restart (R131). A new instant in the same state is no
change. -/
def State.enterClock (s : State) (x : ClockState) : State :=
  let c := s.clock
  if c.state.code = x.code then s.setClock { c with state := x }
  else
    let start := !c.state.running && x.running && !s.restarting
    State.raiseTime (timeCauses c.state x)
      (s.setClock
        { c with state := x, handed := if start then c.handed ++ [.runningChange] else c.handed })

/-- A tick at instant `t` is handed to the expiry engine and counted (R129); during a warm restart it is
neither (R131). -/
def State.handTick (s : State) (t : Nat) : State :=
  if s.restarting then s
  else
    s.setClock { s.clock with
      tickCount := s.clock.tickCount + 1
      lastTick := some t
      handed := s.clock.handed ++ [.tick] }

/-! ### Deadlines -/

/-- What falls due as time passes. -/
inductive Deadline
  /-- 1.05 ms after the last pulse (R123). -/
  | lockRun
  /-- 20 ms after leaving reset, in SEARCH (R126). -/
  | search
  /-- 1.05 ms after the reference, in EXTERNAL (R124). -/
  | loss
  /-- The next tick of the internal schedule, in INTERNAL (R125). -/
  | internal
  deriving DecidableEq, Repr

/-- The instant a deadline falls due, if it stands. -/
def State.due (s : State) : Deadline → Option Nat
  | .lockRun => s.clock.lastPulse.map (· + spanMax)
  | .search => match s.clock.state with
    | .search since => some (since + searchLimit)
    | _ => none
  | .loss => match s.clock.state with
    | .external r => some (r + spanMax)
    | _ => none
  | .internal => match s.clock.state with
    | .internal n => some n
    | _ => none

/-- What happens when a deadline that stands falls due: the lock run is emptied (R123); the search ends in
INTERNAL, whose first tick falls 1 ms later (R125, R126); the source is lost, under MANUAL_EXTERNAL into
HALTED, otherwise into INTERNAL with a substitute tick (R124), and the instant of the loss is kept; an
internal tick is given (R125). -/
def State.fire (s : State) : Deadline → State
  | .lockRun => s.setClock { s.clock with lockRun := 0, lastPulse := none }
  | .search => match s.clock.state with
    | .search since => s.enterClock (.internal (since + searchLimit + msCycles))
    | _ => s
  | .loss => match s.clock.state with
    | .external r =>
      let t := s.setClock { s.clock with lossAt := some (r + spanMax) }
      if s.clock.mode = .manualExternal then t.enterClock .halted
      else (t.enterClock (.internal (r + spanMax + msCycles))).handTick (r + spanMax)
    | _ => s
  | .internal => match s.clock.state with
    | .internal n => (s.enterClock (.internal (n + msCycles))).handTick n
    | _ => s

/-- The deadline of the clock's state, of which there is at most one, with its instant. -/
def State.stateDeadline (s : State) : Option (Nat × Deadline) :=
  match s.clock.state with
  | .search since => some (since + searchLimit, .search)
  | .external r => some (r + spanMax, .loss)
  | .internal n => some (n, .internal)
  | .halted => none

/-- The earliest deadline, if it falls due before instant `t`. -/
def State.nextDue (s : State) (t : Nat) : Option Deadline :=
  match s.due .lockRun, s.stateDeadline with
  | some p, some (q, d) =>
    if p ≤ q then (if p < t then some .lockRun else none) else if q < t then some d else none
  | some p, none => if p < t then some .lockRun else none
  | none, some (q, d) => if q < t then some d else none
  | none, none => none

/-- At most `n` deadlines that fall due before `t` happen, and the present instant becomes `t`. -/
def State.passFor : Nat → Nat → State → State
  | 0, t, s => s.setClock { s.clock with now := max s.clock.now t }
  | n + 1, t, s =>
    match s.nextDue t with
    | some d => State.passFor n t (s.fire d)
    | none => s.setClock { s.clock with now := max s.clock.now t }

/-- Time passes to instant `t`: every deadline that falls due before it happens, in order of instant. In one
millisecond at most one tick of the internal schedule falls due, and besides at most one end of the
search, one loss and one end of the lock run. -/
def State.passTo (s : State) (t : Nat) : State := s.passFor ((t - s.clock.now) / msCycles + 5) t

/-- A deadline that stands falls due and happens, after those before it. -/
def State.awaitDue (s : State) (d : Deadline) : State :=
  if s.inReset then s
  else match s.due d with
    | some t => (s.passTo t).fire d
    | none => s

/-! ### Pulses (R123 to R126) -/

/-- An instant `t` lies 0.95 ms to 1.05 ms after `p`, both bounds included. -/
def inSpan (p t : Nat) : Bool := decide (p + spanMin ≤ t) && decide (t ≤ p + spanMax)

/-- A pulse at instant `t` is valid against the last pulse (R123), unless the source was lost at that very
instant: then it is the reference of a new lock run (R124). -/
def Clock.validPulse (c : Clock) (t : Nat) : Bool :=
  match c.lastPulse with
  | some p => inSpan p t && c.lossAt != some t
  | none => false

/-- A pulse at instant `t` raises the lock run to 8 (R123). -/
def Clock.locks (c : Clock) (t : Nat) : Bool := c.validPulse t && c.lockRun == 7

/-- The lock run takes a pulse at instant `t` (R123). -/
def State.countPulse (s : State) (t : Nat) : State :=
  s.setClock { s.clock with
    lockRun := if s.clock.validPulse t then min 8 (s.clock.lockRun + 1) else 0
    lastPulse := some t }

/-- At least 0.5 ms have passed since the last tick handed over, or none was since cold start (R125). -/
def Clock.tickRoom (c : Clock) (t : Nat) : Bool :=
  match c.lastTick with
  | some u => decide (u + halfCycles ≤ t)
  | none => true

/-- A pulse at instant `t`: it updates the lock run; in EXTERNAL it is a tick when it is accepted (R124); a
lock moves SEARCH and HALTED to EXTERNAL with a tick (R124, R126), and under AUTO moves INTERNAL to
EXTERNAL, with a tick unless one was given less than 0.5 ms before (R125). -/
def State.pulseAt (s : State) (t : Nat) : State :=
  let u := s.countPulse t
  match s.clock.state with
  | .external r => if inSpan r t then (u.enterClock (.external t)).handTick t else u
  | .internal _ =>
    if s.clock.locks t && s.clock.mode == .auto then
      if s.clock.tickRoom t then (u.enterClock (.external t)).handTick t else u.enterClock (.external t)
    else u
  | .search _ => if s.clock.locks t then (u.enterClock (.external t)).handTick t else u
  | .halted => if s.clock.locks t then (u.enterClock (.external t)).handTick t else u

/-- SYNCIN_PULSE: a rising edge `elapsed` cycles after the present instant (R123 to R126). -/
def execSyncinPulse (elapsed : Nat) (s : State) : Host.Outcome State Fault Refusal :=
  .next <|
    if s.inReset then s
    else (s.passTo (s.clock.now + elapsed)).pulseAt (s.clock.now + elapsed)

/-- LOCK_RUN_TIMEOUT (R123). -/
def execLockRunTimeout (s : State) : Host.Outcome State Fault Refusal := .next (s.awaitDue .lockRun)

/-- SYNCIN_LOSS (R124). -/
def execSyncinLoss (s : State) : Host.Outcome State Fault Refusal := .next (s.awaitDue .loss)

/-- INTERNAL_TICK (R125). -/
def execInternalTick (s : State) : Host.Outcome State Fault Refusal := .next (s.awaitDue .internal)

/-- SEARCH_TIMEOUT (R126). -/
def execSearchTimeout (s : State) : Host.Outcome State Fault Refusal := .next (s.awaitDue .search)

/-- RUNNING_CHANGE_SCAN: the oldest event handed over is a change into running, and the lease engine takes
it with one grant scan (R130, log entry 5). -/
def execRunningChangeScan (s : State) : Host.Outcome State Fault Refusal :=
  .next <|
    match s.clock.handed with
    | .runningChange :: rest =>
      if !s.inReset && !s.restarting then (s.setClock { s.clock with handed := rest }).grantScan else s
    | _ => s

/-! ### SET_TIMEBASE (R127) -/

/-- The first internal tick when EXTERNAL is left by command: 1 ms after the last tick handed over, or at
the command when that instant has passed or no tick was handed over (R125, log entry 14). -/
def Clock.firstInternal (c : Clock) : Nat :=
  match c.lastTick with
  | some u => max (u + msCycles) c.now
  | none => c.now

/-- The change of state by which a manual mode is chosen (Table 8-3). -/
def State.chooseManual (s : State) (external : Bool) : State :=
  let c := s.clock
  match c.state with
  | .search _ => s.enterClock (if external then .halted else .internal (c.now + msCycles))
  | .external _ => if external then s else s.enterClock (.internal c.firstInternal)
  | .internal _ =>
    if external then (s.setClock { c with lockRun := 0, lastPulse := none }).enterClock .halted else s
  | .halted => if external then s else s.enterClock (.internal (c.now + msCycles))

/-- The mode chosen, the latch set by a manual one, and the change of state (R127, Table 8-3). -/
def State.chooseMode (s : State) (m : TimeMode) : State :=
  match m with
  | .auto => s
  | .manualExternal => (s.setClock { s.clock with mode := m, latched := true }).chooseManual true
  | .manualInternal => (s.setClock { s.clock with mode := m, latched := true }).chooseManual false

/-- The results of SET_TIMEBASE (R127). -/
def State.timebaseResults (s : State) : List Byte :=
  [s.clock.mode.code, s.clock.state.code, flagByte s.clock.latched, byteOf s.clock.lockRun]
    ++ fourBytes s.clock.tickCount

/-- The evaluation of SET_TIMEBASE. -/
def evalSetTimebase (args : Table 8 Byte) (s : State) : State × CmdResult :=
  match timeModeOf (argOf args 0) with
  | none => (s, .fail .badArgument)
  | some m =>
    if m = .auto ∧ s.clock.latched then (s, .fail .latched)
    else (s.chooseMode m, .ok (s.chooseMode m).timebaseResults)

/-- SET_TIMEBASE, taken by the lease clock `elapsed` cycles after the present instant (R127). -/
def execSetTimebase (elapsed : Nat) (s : State) : Host.Outcome State Fault Refusal :=
  .next (takeDirect codeSetTimebase (fun args t => evalSetTimebase args (t.passTo (t.clock.now + elapsed))) s)

end Sys2Proof.Machine
end

