-- ==== Sys2Proof/Machine/Expiry.lean ====
section
/-! DEFINITION. The expiry engine: the tick in its four phases, and the three ways a record ends by time. -/

namespace Sys2Proof.Machine

/-- Every countdown of a live record decreased by one; 0 stays 0 (R81). -/
def Phase.decrement : Phase → Phase
  | .waiting c q => .waiting (c - 1) q
  | .held c w => .held (c - 1) w
  | .yielding c y w => .yielding (c - 1) (y - 1) w
  | .parked c q => .parked (c - 1) q
  | p => p

/-- A held record whose lease countdown is at or below its warn lead is warned (R82). -/
def Phase.warn (lead : Option Nat) : Phase → Phase
  | .held c w => .held c (w || match lead with | some n => decide (c ≤ n) | none => false)
  | .yielding c y w => .yielding c y (w || match lead with | some n => decide (c ≤ n) | none => false)
  | p => p

/-- Phase 1 (R81). -/
def State.decrementAll (s : State) : State :=
  s.mapLeases fun _ r => { r with phase := r.phase.decrement }

/-- Phase 2 (R82). -/
def State.warnAll (s : State) : State :=
  s.mapLeases fun _ r => { r with phase := r.phase.warn r.limits.warnLead }

/-- A WAITING or PARKED record whose wait countdown is 0 lapses (R84). -/
def State.lapseAt (s : State) (i : SlotId) : State :=
  match s.lease i with
  | some r =>
    if r.phase.queued && r.phase.countdown == 0 then s.endQueued i r (.lapsed .waitOut) else s
  | none => s

/-- A HELD or YIELDING record whose lease countdown is 0 expires (R85). -/
def State.expireAt (s : State) (i : SlotId) : State :=
  match s.lease i with
  | some r => if r.phase.holds && r.phase.countdown == 0 then s.endHeld i r .expired else s
  | none => s

/-- A YIELDING record whose yield countdown is 0 and whose lease countdown is above 0 is revoked for
lateness, and REVOKE_LATE is set (R86). -/
def State.revokeLateAt (s : State) (i : SlotId) : State :=
  match s.lease i with
  | some r =>
    if r.phase.isYielding && r.phase.yieldCountdown == 0 && r.phase.countdown != 0 then
      (s.endHeld i r (.revoked .yieldLate)).raiseTable flagRevokeLate
    else s
  | none => s

/-- A record is due to end: one of its countdowns is 0 (R83). -/
def Lease.due (r : Lease) : Bool :=
  r.phase.live && (r.phase.countdown == 0 || (r.phase.isYielding && r.phase.yieldCountdown == 0))

/-- The record of a slot, if it is due, ends in the way of its state (R83 to R86). -/
def State.endIfDue (s : State) (i : SlotId) : State :=
  match s.lease i with
  | some r =>
    if !r.due then s
    else if r.phase.queued then s.lapseAt i
    else if r.phase.countdown == 0 then s.expireAt i
    else s.revokeLateAt i
  | none => s

/-- Phase 3: every record due ends, in ascending order of slot (R83, log entry 15). -/
def State.endAll (s : State) : State := (List.finRange 128).foldl State.endIfDue s

/-- Is some record due? -/
def State.anyDue (s : State) : Bool :=
  s.slots.list.any fun x => match x.lease with | some r => r.due | none => false

/-- Phases 3 and 4: the endings, and one grant scan when there was one (R88). -/
def State.endAndScan (s : State) : State := if s.anyDue then s.endAll.grantScan else s

/-- One tick whole (R80). -/
def State.takeTick (s : State) : State := s.decrementAll.warnAll.endAndScan

/-- The expiry engine can take a tick: the clock runs, no warm restart is in progress and the part is not
held in reset (R80, R89). -/
def State.tickable (s : State) : Bool := !s.inReset && !s.restarting && s.running

/-- TICK: the oldest event handed over is a tick, and the engine takes it (R80, log entry 5). -/
def execTick (s : State) : Host.Outcome State Fault Refusal :=
  .next <|
    match s.clock.handed with
    | .tick :: rest => if s.tickable then (s.setClock { s.clock with handed := rest }).takeTick else s
    | _ => s

/-- LAPSE: the part of a tick that lapses one record (R84, log entry 7). -/
def execLapse (i : SlotId) (s : State) : Host.Outcome State Fault Refusal :=
  .next (if s.tickable then s.lapseAt i else s)

/-- EXPIRY: the part of a tick that expires one record (R85, log entry 7). -/
def execExpiry (i : SlotId) (s : State) : Host.Outcome State Fault Refusal :=
  .next (if s.tickable then s.expireAt i else s)

/-- REVOKE_FOR_LATENESS: the part of a tick that revokes one late record (R86, log entry 7). -/
def execRevokeForLateness (i : SlotId) (s : State) : Host.Outcome State Fault Refusal :=
  .next (if s.tickable then s.revokeLateAt i else s)

end Sys2Proof.Machine
end

