-- ==== Sys2Proof/Machine/Requests.lean ====
section
/-! DEFINITION. The client requests: ACQUIRE, RENEW, RELEASE, WIDEN, NARROW, PARK, QUERY_LEASE, QUERY_ZONE,
and a frame of no request kind. -/

namespace Sys2Proof.Machine

/-! ### Replies -/

/-- The record of slot `i` as the evaluation left it (R30); `r` is the record before it, for totality. -/
def State.recordAt (s : State) (i : SlotId) (r : Lease) : Lease := (s.lease i).getD r

/-- The handle and pair a frame about record `r` of slot `i` carries (R28). -/
def State.reportOf (s : State) (i : SlotId) (r : Lease) : Report :=
  ⟨i, s.generation i, r.phase.state, r.phase.warned⟩

/-- The lease reply of ACQUIRE, and with the renewals of RENEW and PARK (R151, Table 10-5). -/
def leaseReply (kind : Byte) (withRenewals : Bool) (s : State) (i : SlotId) (r : Lease) : OutFrame :=
  ⟨[kindAccept, kind, slotByte i, s.generation i, r.tag, r.phase.state.code, flagByte r.phase.warned]
      ++ twoBytes r.term ++ twoBytes r.phase.countdown
      ++ (if withRenewals then [byteOf r.renewals] else []),
    some (s.reportOf i r)⟩

/-- The reply of WIDEN and NARROW (R71, R74, R152, Table 10-5). It carries no tag: those rules list its fields without
one and Table 10-5 gives it a length of 12 that leaves no byte for one, where R23 puts the tag in every ACCEPT for
the record; that the table is followed is a DESIGN CHOICE (log entry 23). -/
def zoneReply (kind zone : Byte) (s : State) (i : SlotId) (r : Lease) : OutFrame :=
  ⟨[kindAccept, kind, slotByte i, s.generation i, r.phase.state.code, flagByte r.phase.warned]
      ++ twoBytes r.term ++ twoBytes r.phase.countdown ++ [zone, byteOf r.zones.length],
    some (s.reportOf i r)⟩

/-! ### ACQUIRE (R39 to R45) -/

/-- The link whose record holds a zone, if the zone has a holder. -/
def State.holderOwner (s : State) (z : ZoneId) : Option Link :=
  match (s.zone z).state.holder with
  | some h => (s.lease h).map (·.owner)
  | none => none

/-- Does some record that is not FREE satisfy `p`? -/
def State.anyLease (s : State) (p : Lease → Bool) : Bool :=
  s.slots.list.any fun x => match x.lease with | some r => p r | none => false

/-- Checks 3 to 6 of Table 3-2. -/
def acquireCheck (s : State) (l : Link) (q : AcquireReq) : Option RefuseCause :=
  if q.zones.any fun z => (s.zone z).state == .disabled then some .zoneDisabled
  else if s.anyLease fun r => r.owner == l && r.tag == q.tag then some .tagInUse
  else if q.zones.any fun z => s.holderOwner z == some l then some .ownConflict
  else if !s.running then some .timeHalted
  else none

/-- An earmark on a named zone names an entry of priority equal to or above the request's (R42). -/
def State.barred (s : State) (q : AcquireReq) : Bool :=
  q.zones.any fun z =>
    match (s.zone z).earmark with
    | some e => match s.lease e with
      | some r => decide (q.priority ≤ r.priority)
      | none => false
    | none => false

/-- A grant at once is possible (R42). -/
def State.atOnce (s : State) (q : AcquireReq) : Bool :=
  q.zones.all (fun z => (s.zone z).state == .free) && !s.barred q

/-- The record a request allocates (R22). -/
def newLease (l : Link) (q : AcquireReq) (limits : Limits) (phase : Phase) : Lease :=
  { owner := l, tag := q.tag, priority := q.priority, yieldable := q.yieldable, zones := q.zones
    limits := limits, term := clampTerm q.duration limits.maxDuration, renewals := 0
    phase := phase, reported := none }

/-- The grant at once of a request to slot `i` (R42). -/
def acquireGrant (l : Link) (q : AcquireReq) (i : SlotId) (s : State) : State :=
  let lim := s.limitsOf q.zones
  let r := newLease l q lim (.held (clampTerm q.duration lim.maxDuration) false)
  ((s.allocate i r).takeZones i q.zones).grantScan

/-- The entry of a request into the waiting list in slot `i` (R43, R47). -/
def acquireWait (l : Link) (q : AcquireReq) (i : SlotId) (s : State) : State :=
  let lim := s.limitsOf q.zones
  let r := newLease l q lim (.waiting (min q.wait lim.maxWait) s.sequence)
  ((s.allocate i r).enterList i q.priority false).grantScan

/-- The evaluation of an ACQUIRE. -/
def evalAcquire (l : Link) (f : List Byte) (s : State) : State × OutFrame :=
  let no (t : State) (c : RefuseCause) := (t, refuse kindAcquire [frameByte f 1] c)
  if !acquireLengthOk f then no s .badLength
  else match acquireFields f with
    | none => no s .badField
    | some q =>
      match acquireCheck s l q with
      | some c => no s c
      | none =>
        match s.lowestFree with
        | none => no (s.raiseTable flagExhausted) .tableFull
        | some i =>
          let lim := s.limitsOf q.zones
          let r := newLease l q lim .expired
          if s.atOnce q then
            let t := acquireGrant l q i s
            (t, leaseReply kindAcquire false t i (t.recordAt i r))
          else if min q.wait lim.maxWait = 0 then no s .unavailable
          else if 32 ≤ s.waiting.length then no (s.raiseTable flagExhausted) .listFull
          else
            let t := acquireWait l q i s
            (t, leaseReply kindAcquire false t i (t.recordAt i r))

/-- ACQUIRE (R40). -/
def execAcquire (l : Link) (s : State) : Host.Outcome State Fault Refusal :=
  .next (takeRequest l (· == kindAcquire) (evalAcquire l) s)

/-! ### RENEW (R65 to R68) -/

/-- Checks 4 to 8 of R65. -/
def renewCheck (s : State) (r : Lease) : Option RefuseCause :=
  if r.phase.terminal then some .leaseEnded
  else if r.phase.queued then some .wrongState
  else if r.phase.isYielding then some .yieldPending
  else if !s.running then some .timeHalted
  else if r.limits.renewalLimit ≤ r.renewals then some .renewLimit
  else none

/-- The record an accepted RENEW leaves (R66). -/
def Lease.renewed (r : Lease) (duration : Nat) : Lease :=
  { r with
    term := clampTerm duration r.limits.maxDuration
    phase := .held (clampTerm duration r.limits.maxDuration) false
    renewals := min 255 (r.renewals + 1) }

/-- The evaluation of a RENEW. -/
def evalRenew (l : Link) (f : List Byte) (s : State) : State × OutFrame :=
  withHandle 5 kindRenew l f s fun i r =>
    match renewCheck s r with
    | some c => (s, refuse kindRenew (handleIdent f) c)
    | none =>
      let r' := r.renewed (frameWord f 3)
      let t := s.setLease i r'
      (t, leaseReply kindRenew true t i r')

/-- RENEW (R66). -/
def execRenew (l : Link) (s : State) : Host.Outcome State Fault Refusal :=
  .next (takeRequest l (· == kindRenew) (evalRenew l) s)

/-! ### RELEASE (R76 to R79) -/

/-- The record of slot `i` is released in whatever state it stands (R76, R77). -/
def State.releaseLease (s : State) (i : SlotId) (r : Lease) : State :=
  if r.phase.holds then ((s.giveUpZones r.zones).freeSlot i).grantScan
  else if r.phase.queued then ((s.leaveList i).freeSlot i).grantScan
  else s.freeSlot i

/-- The evaluation of a RELEASE; the reply reports the state found and the end cause (R78). -/
def evalRelease (l : Link) (f : List Byte) (s : State) : State × OutFrame :=
  withHandle 3 kindRelease l f s fun i r =>
    (s.releaseLease i r,
      ⟨[kindAccept, kindRelease, slotByte i, s.generation i, r.tag, r.phase.state.code, r.phase.endCode],
        none⟩)

/-- RELEASE (R76). -/
def execRelease (l : Link) (s : State) : Host.Outcome State Fault Refusal :=
  .next (takeRequest l (· == kindRelease) (evalRelease l) s)

/-! ### WIDEN (R69 to R71) -/

/-- Checks 4 to 6 of R69. -/
def widenRecordCheck (r : Lease) : Option RefuseCause :=
  if r.phase.terminal then some .leaseEnded
  else if r.phase.queued then some .wrongState
  else if r.phase.isYielding then some .yieldPending
  else none

/-- Checks 7 to 14 of R69 for a zone number of 63 or below. -/
def widenZoneCheck (s : State) (r : Lease) (z : ZoneId) : Option RefuseCause :=
  if r.zones.contains z then some .badField
  else if 4 ≤ r.zones.length then some .listLimit
  else match (s.zone z).state with
    | .disabled => some .zoneDisabled
    | .fencePending _ => some .zoneFenced
    | .fenced => some .zoneFenced
    | .held _ => some .zoneHeld
    | .free =>
      if (s.zone z).earmark.isSome then some .zoneEarmarked
      else if !s.running then some .timeHalted
      else if (s.limitsOf (r.zones ++ [z])).renewalLimit < r.renewals then some .renewLimit
      else none

/-- A held record's countdown lowered to a bound (R70). -/
def Phase.clampLease (m : Nat) : Phase → Phase
  | .held c w => .held (min c m) w
  | p => p

/-- The record an accepted WIDEN leaves (R70). -/
def State.widened (s : State) (r : Lease) (z : ZoneId) : Lease :=
  let lim := s.limitsOf (r.zones ++ [z])
  { r with
    zones := r.zones ++ [z]
    limits := lim
    term := min r.term lim.maxDuration
    phase := r.phase.clampLease lim.maxDuration }

/-- The evaluation of a WIDEN. -/
def evalWiden (l : Link) (f : List Byte) (s : State) : State × OutFrame :=
  withHandle 4 kindWiden l f s fun i r =>
    let no (c : RefuseCause) := (s, refuse kindWiden (handleIdent f) c)
    match widenRecordCheck r with
    | some c => no c
    | none =>
      match zoneOf (frameByte f 3) with
      | none => no .badField
      | some z =>
        match widenZoneCheck s r z with
        | some c => no c
        | none =>
          let r' := s.widened r z
          let t := (s.setLease i r').takeZones i [z]
          (t, zoneReply kindWiden (frameByte f 3) t i r')

/-- WIDEN (R70). -/
def execWiden (l : Link) (s : State) : Host.Outcome State Fault Refusal :=
  .next (takeRequest l (· == kindWiden) (evalWiden l) s)

/-! ### NARROW (R72 to R75) -/

/-- Checks 4 and 5 of R72. -/
def narrowRecordCheck (r : Lease) : Option RefuseCause :=
  if r.phase.terminal then some .leaseEnded
  else if r.phase.queued then some .wrongState
  else none

/-- The record an accepted NARROW leaves, before its scan (R73). -/
def State.narrowed (s : State) (r : Lease) (z : ZoneId) : Lease :=
  let zs := r.zones.filter (· != z)
  { r with zones := zs, limits := s.limitsOf zs }

/-- The evaluation of a NARROW. -/
def evalNarrow (l : Link) (f : List Byte) (s : State) : State × OutFrame :=
  withHandle 4 kindNarrow l f s fun i r =>
    let no (c : RefuseCause) := (s, refuse kindNarrow (handleIdent f) c)
    match narrowRecordCheck r with
    | some c => no c
    | none =>
      match zoneOf (frameByte f 3) with
      | none => no .notListed
      | some z =>
        if !r.zones.contains z then no .notListed
        else if r.zones.length = 1 then no .lastZone
        else
          let r' := s.narrowed r z
          let t := ((s.setLease i r').giveUpZone z).grantScan
          (t, zoneReply kindNarrow (frameByte f 3) t i (t.recordAt i r'))

/-- NARROW (R73). -/
def execNarrow (l : Link) (s : State) : Host.Outcome State Fault Refusal :=
  .next (takeRequest l (· == kindNarrow) (evalNarrow l) s)

/-! ### PARK (R97 to R100) -/

/-- Checks 4 to 7 of R97. -/
def parkCheck (s : State) (r : Lease) : Option RefuseCause :=
  if r.phase.terminal then some .leaseEnded
  else if !r.phase.isYielding then some .notYielding
  else if r.limits.maxWait = 0 then some .waitForbidden
  else if 32 ≤ s.waiting.length then some .listFull
  else none

/-- The changes of an accepted PARK with its scan (R98). -/
def State.parkLease (s : State) (i : SlotId) (r : Lease) : State :=
  let r' := { r with phase := .parked r.limits.maxWait s.sequence }
  (((s.giveUpZones r.zones).setLease i r').enterList i r.priority true).grantScan

/-- The evaluation of a PARK. -/
def evalPark (l : Link) (f : List Byte) (s : State) : State × OutFrame :=
  withHandle 3 kindPark l f s fun i r =>
    let no (t : State) (c : RefuseCause) := (t, refuse kindPark (handleIdent f) c)
    match parkCheck s r with
    | some .listFull => no (s.raiseTable flagExhausted) .listFull
    | some c => no s c
    | none =>
      let t := s.parkLease i r
      (t, leaseReply kindPark true t i (t.recordAt i r))

/-- PARK (R98). -/
def execPark (l : Link) (s : State) : Host.Outcome State Fault Refusal :=
  .next (takeRequest l (· == kindPark) (evalPark l) s)

/-! ### QUERY_LEASE (R32, R154) -/

/-- The reply of QUERY_LEASE: the record whole, absent fields 0 (R154, Table 10-5). -/
def queryLeaseReply (s : State) (i : SlotId) (r : Lease) : OutFrame :=
  ⟨[kindAccept, kindQueryLease, slotByte i, s.generation i, r.tag, r.phase.state.code,
        flagByte r.phase.warned, r.phase.endCode, byteOf r.priority.1, flagByte r.yieldable]
      ++ twoBytes r.term ++ twoBytes r.phase.countdown ++ twoBytes r.phase.yieldCountdown
      ++ [byteOf r.renewals, byteOf r.zones.length] ++ r.zones.map (fun z => byteOf z.1),
    some (s.reportOf i r)⟩

/-- The evaluation of a QUERY_LEASE. -/
def evalQueryLease (l : Link) (f : List Byte) (s : State) : State × OutFrame :=
  withHandle 3 kindQueryLease l f s fun i r => (s, queryLeaseReply s i r)

/-- QUERY_LEASE (R32). -/
def execQueryLease (l : Link) (s : State) : Host.Outcome State Fault Refusal :=
  .next (takeRequest l (· == kindQueryLease) (evalQueryLease l) s)

/-! ### QUERY_ZONE (R16, R153) -/

/-- The holder relation and the handle bytes of R16: 0 no holder, 1 the asking link's, 2 another's. -/
def State.holderRelation (s : State) (l : Link) (z : ZoneId) : List Byte :=
  match (s.zone z).state.holder with
  | some h => if s.holderOwner z = some l then [1, slotByte h, s.generation h] else [2, 0xFF, 0]
  | none => [0, 0xFF, 0]

/-- The evaluation of a QUERY_ZONE. -/
def evalQueryZone (l : Link) (f : List Byte) (s : State) : State × OutFrame :=
  if f.length ≠ 2 then (s, refuse kindQueryZone [frameByte f 1] .badLength)
  else match zoneOf (frameByte f 1) with
    | none => (s, refuse kindQueryZone [frameByte f 1] .badField)
    | some z =>
      (s, ⟨[kindAccept, kindQueryZone, frameByte f 1, (s.zone z).state.code, byteOf (s.zone z).cls.1,
            flagByte (s.zone z).earmark.isSome] ++ s.holderRelation l z, none⟩)

/-- QUERY_ZONE (R16). -/
def execQueryZone (l : Link) (s : State) : Host.Outcome State Fault Refusal :=
  .next (takeRequest l (· == kindQueryZone) (evalQueryZone l) s)

/-! ### A frame of no request kind (R147) -/

/-- The evaluation of a frame whose kind is not a request code: refused, whatever its length. -/
def evalBadKind (f : List Byte) (s : State) : State × OutFrame := (s, refuse (frameByte f 0) [] .badKind)

/-- BAD_KIND (R147). -/
def execBadKind (l : Link) (s : State) : Host.Outcome State Fault Refusal :=
  .next (takeRequest l (fun k => !isRequestKind k) evalBadKind s)

end Sys2Proof.Machine
end

