-- ==== Sys2Proof/Machine/TableCommands.lean ====
section
/-! DEFINITION. The mailbox commands that read and set zones, classes, records and the waiting list, and the
two queries of the expiry engine. -/

namespace Sys2Proof.Machine

/-- A form of a command that any arguments fit. -/
def anyForm (_args : Table 8 Byte) : Bool := true

/-! ### READ_ZONE and SET_ZONE (R12, R13) -/

/-- The results of READ_ZONE (Table 1-7). -/
def State.zoneResults (s : State) (z : ZoneId) : List Byte :=
  let x := s.zone z
  let held := match x.state.holder with
    | some h => [slotByte h, s.generation h, match s.lease h with | some r => byteOf r.owner.1 | none => 0xFF]
    | none => [0xFF, 0, 0xFF]
  [x.state.code, byteOf x.cls.1] ++ held ++ [slotByteOr x.earmark, byteOf (s.liveListing z), 0]

/-- The evaluation of READ_ZONE. -/
def evalReadZone (args : Table 8 Byte) (s : State) : State × CmdResult :=
  match zoneOf (argOf args 0) with
  | some z => (s, .ok (s.zoneResults z))
  | none => (s, .fail .badArgument)

/-- READ_ZONE (R13). -/
def execReadZone (s : State) : Host.Outcome State Fault Refusal :=
  .next (takeCommand codeReadZone anyForm evalReadZone s)

/-- The zone is HELD, FENCE_PENDING or FENCED, or a live record lists it (R12). -/
def State.zoneInUse (s : State) (z : ZoneId) : Bool :=
  (match (s.zone z).state with
    | .free => false
    | .disabled => false
    | _ => true) || s.anyLease fun r => r.phase.live && r.zones.contains z

/-- The evaluation of SET_ZONE: no grant scan follows (R12). -/
def evalSetZone (args : Table 8 Byte) (s : State) : State × CmdResult :=
  match zoneOf (argOf args 0), belowOf 2 (argOf args 1), classOf (argOf args 2) with
  | some z, some e, some c =>
    if s.zoneInUse z then (s, .fail .inUse)
    else
      let t := s.setZone z { s.zone z with state := if e = 1 then .free else .disabled, cls := c }
      (t, .ok (t.zoneResults z))
  | _, _, _ => (s, .fail .badArgument)

/-- SET_ZONE (R12). -/
def execSetZone (s : State) : Host.Outcome State Fault Refusal :=
  .next (takeCommand codeSetZone anyForm evalSetZone s)

/-! ### READ_CLASS and SET_CLASS (R9, R14, R15) -/

/-- The results of READ_CLASS (Table 1-8). -/
def State.classResults (s : State) (c : ClassId) (part : Fin 2) : List Byte :=
  let p := s.cls c
  if part = 0 then
    twoBytes p.maxDuration ++ twoBytes p.warnLead ++ twoBytes p.yieldWindow ++ twoBytes p.maxWait
  else
    [byteOf p.renewalLimit, byteOf (s.zones.count fun x => x.cls == c), byteOf (s.countLeases (s.touches c))]

/-- The evaluation of READ_CLASS. -/
def evalReadClass (args : Table 8 Byte) (s : State) : State × CmdResult :=
  match classOf (argOf args 0), belowOf 2 (argOf args 1) with
  | some c, some part => (s, .ok (s.classResults c part))
  | _, _ => (s, .fail .badArgument)

/-- READ_CLASS (R15). -/
def execReadClass (s : State) : Host.Outcome State Fault Refusal :=
  .next (takeCommand codeReadClass anyForm evalReadClass s)

/-- A warn lead equal to or above the max duration is stored as max duration - 1 (R9). -/
def adjustClass (p : ClassParams) : ClassParams :=
  { p with warnLead := if p.maxDuration ≤ p.warnLead then p.maxDuration - 1 else p.warnLead }

/-- Parameter `n` of Table 1-5 written with the adjustments of R9. -/
def writeParam (p : ClassParams) (n : Fin 5) (v : Nat) : ClassParams :=
  adjustClass
    (if n = 0 then { p with maxDuration := max v 1 }
    else if n = 1 then { p with warnLead := v }
    else if n = 2 then { p with yieldWindow := max v 1 }
    else if n = 3 then { p with renewalLimit := v }
    else { p with maxWait := v })

/-- Parameter `n` of Table 1-5. -/
def readParam (p : ClassParams) (n : Fin 5) : Nat :=
  if n = 0 then p.maxDuration
  else if n = 1 then p.warnLead
  else if n = 2 then p.yieldWindow
  else if n = 3 then p.renewalLimit
  else p.maxWait

/-- The evaluation of SET_CLASS: no grant scan follows (R14). -/
def evalSetClass (args : Table 8 Byte) (s : State) : State × CmdResult :=
  match classOf (argOf args 0), belowOf 5 (argOf args 1) with
  | some c, some n =>
    let v := wordOf (argOf args 2) (argOf args 3)
    if n = 3 ∧ 255 < v then (s, .fail .badArgument)
    else if s.anyLease (s.touches c) then (s, .fail .inUse)
    else
      let p := writeParam (s.cls c) n v
      (s.setClass c p,
        .ok (twoBytes (readParam p n) ++ twoBytes p.warnLead ++ [argOf args 1, argOf args 0]))
  | _, _ => (s, .fail .badArgument)

/-- SET_CLASS (R14). -/
def execSetClass (s : State) : Host.Outcome State Fault Refusal :=
  .next (takeCommand codeSetClass anyForm evalSetClass s)

/-! ### READ_LEASE (R33) -/

/-- The results of READ_LEASE for a slot that is not FREE (Table 2-5). -/
def leaseResults (g : Byte) (r : Lease) (part : Fin 5) : List Byte :=
  if part = 0 then
    [r.phase.state.code, g, byteOf r.owner.1, r.tag, byteOf r.priority.1, flagByte r.yieldable,
      flagByte r.phase.warned, r.phase.endCode]
  else if part = 1 then
    [byteOf r.zones.length] ++ ((r.zones.map fun z : ZoneId => byteOf z.1) ++ [0xFF, 0xFF, 0xFF, 0xFF]).take 4
      ++ (match r.reported with | some (q, w) => [q.code, flagByte w] | none => [0xFF, 0]) ++ [g]
  else if part = 2 then
    twoBytes r.term ++ twoBytes r.phase.countdown ++ twoBytes r.phase.yieldCountdown
      ++ [byteOf r.renewals, g]
  else if part = 3 then
    fourBytes r.phase.sequence ++ twoBytes r.limits.maxWait ++ [0, g]
  else
    twoBytes r.limits.maxDuration ++ twoBytes (r.limits.warnLead.getD 0) ++ twoBytes r.limits.yieldWindow
      ++ [byteOf r.limits.renewalLimit, g]

/-- The results of READ_LEASE for a FREE slot (Table 2-5). -/
def freeSlotResults (g : Byte) (part : Fin 5) : List Byte :=
  if part = 0 then [0, g, 0xFF, 0, 0, 0, 0, 0]
  else if part = 1 then [0, 0xFF, 0xFF, 0xFF, 0xFF, 0xFF, 0, g]
  else [0, 0, 0, 0, 0, 0, 0, g]

/-- The evaluation of READ_LEASE. -/
def evalReadLease (args : Table 8 Byte) (s : State) : State × CmdResult :=
  match slotOf (argOf args 0), belowOf 5 (argOf args 1) with
  | some i, some part =>
    (s, .ok (match s.lease i with
      | some r => leaseResults (s.generation i) r part
      | none => freeSlotResults (s.generation i) part))
  | _, _ => (s, .fail .badArgument)

/-- READ_LEASE (R33). -/
def execReadLease (s : State) : Host.Outcome State Fault Refusal :=
  .next (takeCommand codeReadLease anyForm evalReadLease s)

/-! ### SET_THRESHOLD (R35) -/

/-- The threshold written and the armed indication set from the count (R35). -/
def State.writeThreshold (s : State) (v : Nat) : State :=
  { s with threshold := max v 1, armed := decide (s.occupied < max v 1) }

/-- The results of SET_THRESHOLD (R35). -/
def State.thresholdResults (s : State) : List Byte :=
  [byteOf s.threshold, byteOf s.occupied, byteOf (s.countLeases fun r => r.phase.queued),
    byteOf (s.countLeases fun r => r.phase.terminal), flagByte s.armed, slotByteOr s.lowestFree]

/-- The evaluation of SET_THRESHOLD. -/
def evalSetThreshold (args : Table 8 Byte) (s : State) : State × CmdResult :=
  match belowOf 2 (argOf args 1) with
  | some action =>
    if action = 0 then (s, .ok s.thresholdResults)
    else if 128 < (argOf args 0).toNat then (s, .fail .badArgument)
    else
      let t := s.writeThreshold (argOf args 0).toNat
      (t, .ok t.thresholdResults)
  | none => (s, .fail .badArgument)

/-- SET_THRESHOLD (R35). -/
def execSetThreshold (s : State) : Host.Outcome State Fault Refusal :=
  .next (takeCommand codeSetThreshold anyForm evalSetThreshold s)

/-! ### READ_LIST (R51) -/

/-- The results of READ_LIST at a position (Table 3-4). -/
def State.listResults (s : State) (position : Nat) : List Byte :=
  let len := byteOf s.waiting.length
  match s.waiting[position]? with
  | some i =>
    match s.lease i with
    | some r =>
      [slotByte i, len, s.generation i, r.phase.state.code, byteOf r.priority.1, byteOf r.owner.1]
        ++ twoBytes r.phase.countdown
    | none => [slotByte i, len, s.generation i, 0, 0, 0xFF, 0, 0]
  | none => [0xFF, len, 0, 0, 0, 0xFF, 0, 0]

/-- The evaluation of READ_LIST. -/
def evalReadList (args : Table 8 Byte) (s : State) : State × CmdResult :=
  match belowOf 32 (argOf args 0) with
  | some p => (s, .ok (s.listResults p.1))
  | none => (s, .fail .badArgument)

/-- READ_LIST (R51). -/
def execReadList (s : State) : Host.Outcome State Fault Refusal :=
  .next (takeCommand codeReadList anyForm evalReadList s)

/-! ### NEXT_EXPIRY (R91) -/

/-- The lease countdown of a slot's record in HELD or YIELDING state. -/
def State.leaseCountdown (s : State) (i : SlotId) : Option Nat :=
  match s.lease i with
  | some r => if r.phase.holds then some r.phase.countdown else none
  | none => none

/-- The least lease countdown (R91). -/
def State.leastCountdown (s : State) : Option Nat :=
  ((List.finRange 128).filterMap s.leaseCountdown).min?

/-- The results of NEXT_EXPIRY (Table 5-2). -/
def State.expiryResults (s : State) : List Byte :=
  let held := byteOf (s.countLeases fun r => r.phase.holds)
  match s.leastCountdown with
  | some c =>
    match (List.finRange 128).find? fun i => s.leaseCountdown i == some c with
    | some i =>
      match s.lease i with
      | some r =>
        [slotByte i, s.generation i] ++ twoBytes c ++ [byteOf r.owner.1, r.phase.state.code, held,
          byteOf (s.countLeases fun q => q.phase.holds && q.phase.countdown == c)]
      | none => [0xFF, 0, 0, 0, 0xFF, 0, held, 0]
    | none => [0xFF, 0, 0, 0, 0xFF, 0, held, 0]
  | none => [0xFF, 0, 0, 0, 0xFF, 0, held, 0]

/-- The evaluation of NEXT_EXPIRY, always OK. -/
def evalNextExpiry (_args : Table 8 Byte) (s : State) : State × CmdResult := (s, .ok s.expiryResults)

/-- NEXT_EXPIRY (R91). -/
def execNextExpiry (s : State) : Host.Outcome State Fault Refusal :=
  .next (takeCommand codeNextExpiry anyForm evalNextExpiry s)

/-! ### CLASS_LOAD (R92) -/

/-- The sum of the lease countdowns of the records in HELD or YIELDING state that list a zone of the class,
saturating at 65535 as it is formed (R92). -/
def State.classTicks (s : State) (c : ClassId) : Nat :=
  s.slots.list.foldl (fun n x => match x.lease with
    | some r => if r.phase.holds && s.touches c r then min 65535 (n + r.phase.countdown) else n
    | none => n) 0

/-- The results of CLASS_LOAD (Table 5-3). -/
def State.loadResults (s : State) (c : ClassId) : List Byte :=
  let n (p : Zone → Bool) := byteOf (s.zones.count fun x => x.cls == c && p x)
  [n fun x => x.state.holder.isSome, n fun x => x.state == .fenced, n fun x => x.earmark.isSome]
    ++ twoBytes (s.classTicks c)
    ++ [byteOf (s.countLeases fun r => r.phase.holds && s.touches c r), n fun x => x.state == .free,
        n fun x => x.state == .disabled]

/-- The evaluation of CLASS_LOAD. -/
def evalClassLoad (args : Table 8 Byte) (s : State) : State × CmdResult :=
  match classOf (argOf args 0) with
  | some c => (s, .ok (s.loadResults c))
  | none => (s, .fail .badArgument)

/-- CLASS_LOAD (R92). -/
def execClassLoad (s : State) : Host.Outcome State Fault Refusal :=
  .next (takeCommand codeClassLoad anyForm evalClassLoad s)

end Sys2Proof.Machine
end

