-- ==== Sys2Proof/Machine/FenceCommands.lean ====
section
/-! DEFINITION. The host's overrides: FENCE in its two forms, LIFT and REVOKE. -/

namespace Sys2Proof.Machine

/-- The results of FENCE and LIFT (Table 7-1): the zone as the scan left it, the outcome, and the slot and
generation of the record that FORCE revoked. -/
def State.fenceResults (s : State) (z : ZoneId) (outcome : Byte) (revoked : Option (SlotId × Byte)) :
    List Byte :=
  let x := s.zone z
  [x.state.code, outcome]
    ++ (match x.state.holder with | some h => [slotByte h, s.generation h] | none => [0xFF, 0])
    ++ (match revoked with | some (i, g) => [slotByte i, g] | none => [0xFF, 0])
    ++ [slotByteOr x.earmark, byteOf (s.liveListing z)]

/-- A FREE zone closed at once (R109, R112). -/
def State.closeFree (s : State) (z : ZoneId) : State :=
  (s.setZoneState z .fenced).raiseTable flagFenceDone

/-- A command that acted on zone `z` ends with its scan and its results. -/
def fenceDoneWith (z : ZoneId) (outcome : Byte) (revoked : Option (SlotId × Byte)) (s : State) :
    State × CmdResult :=
  (s.grantScan, .ok (s.grantScan.fenceResults z outcome revoked))

/-- What FENCE does to a zone in the states where both forms act alike (Table 7-2, R111), or to a held zone
by `onHeld`, which is given whether the zone was FENCE_PENDING, and its holder. -/
def fenceZone (z : ZoneId) (onHeld : Bool → SlotId → State × CmdResult) (s : State) : State × CmdResult :=
  match (s.zone z).state with
  | .disabled => (s, .fail .wrongState)
  | .free => fenceDoneWith z 1 none (s.closeFree z)
  | .fenced => fenceDoneWith z 0 none s
  | .held h => onHeld false h
  | .fencePending h => onHeld true h

/-- The evaluation of FENCE with the WAIT form, which leaves the holder its zone (R109). -/
def evalFenceWait (args : Table 8 Byte) (s : State) : State × CmdResult :=
  match zoneOf (argOf args 0), belowOf 2 (argOf args 1) with
  | some z, some _ =>
    fenceZone z (fun pending h =>
      if pending then fenceDoneWith z 0 none s
      else fenceDoneWith z 2 none (s.setZoneState z (.fencePending h))) s
  | _, _ => (s, .fail .badArgument)

/-- FENCE taken with the WAIT form, or with a form that check 1 of R108 refuses (R109, log entry 19). -/
def execFenceWait (s : State) : Host.Outcome State Fault Refusal :=
  .next (takeCommand codeFence (fun args => argOf args 1 != 1) evalFenceWait s)

/-- The changes of FENCE FORCE on a held zone before its scan: the zone passes directly to FENCED, its
holder's other zones are given up, and the holder is REVOKED with end cause FENCE (R111). -/
def State.forceFence (s : State) (z : ZoneId) (h : SlotId) : State :=
  match s.lease h with
  | some r => ((s.closeFree z).giveUpZones (r.zones.filter (· != z))).terminate h r (.revoked .fence)
  | none => s.closeFree z

/-- The evaluation of FENCE with the FORCE form (R111). -/
def evalFenceForce (args : Table 8 Byte) (s : State) : State × CmdResult :=
  match zoneOf (argOf args 0), belowOf 2 (argOf args 1) with
  | some z, some _ =>
    fenceZone z (fun _ h => fenceDoneWith z 3 (some (h, s.generation h)) (s.forceFence z h)) s
  | _, _ => (s, .fail .badArgument)

/-- FENCE taken with the FORCE form, or with a form that check 1 of R108 refuses (R111, log entry 19). -/
def execFenceForce (s : State) : Host.Outcome State Fault Refusal :=
  .next (takeCommand codeFence (fun args => argOf args 1 != 0) evalFenceForce s)

/-- The evaluation of LIFT (R115). -/
def evalLift (args : Table 8 Byte) (s : State) : State × CmdResult :=
  match zoneOf (argOf args 0) with
  | some z =>
    match (s.zone z).state with
    | .fenced => fenceDoneWith z 4 none (s.setZoneState z .free)
    | .fencePending h => fenceDoneWith z 5 none (s.setZoneState z (.held h))
    | _ => (s, .fail .wrongState)
  | none => (s, .fail .badArgument)

/-- LIFT (R115). -/
def execLift (s : State) : Host.Outcome State Fault Refusal :=
  .next (takeCommand codeLift anyForm evalLift s)

/-- The changes of REVOKE with its scan (R117). -/
def State.revokeLease (s : State) (i : SlotId) (r : Lease) : State :=
  if r.phase.holds then (s.endHeld i r (.revoked .supervisor)).grantScan
  else (s.endQueued i r (.revoked .supervisor)).grantScan

/-- The results of REVOKE (R118). -/
def State.revokeResults (s : State) (r : Lease) : List Byte :=
  let given := if r.phase.holds then r.zones else []
  [r.phase.state.code, byteOf r.owner.1, r.tag, byteOf given.length,
    byteOf (given.countP fun z => (s.zone z).state.isPending), flagByte (!(s.link r.owner).line.enabled)]

/-- The evaluation of REVOKE. -/
def evalRevoke (args : Table 8 Byte) (s : State) : State × CmdResult :=
  match s.matchHandle (argOf args 0) (argOf args 1) with
  | some (i, r) =>
    if r.phase.terminal then (s, .fail .wrongState) else (s.revokeLease i r, .ok (s.revokeResults r))
  | none => (s, .fail .staleHandle)

/-- REVOKE (R117). -/
def execRevoke (s : State) : Host.Outcome State Fault Refusal :=
  .next (takeCommand codeRevoke anyForm evalRevoke s)

end Sys2Proof.Machine
end

