-- ==== Sys2Proof/Machine/Links.lean ====
section
/-! DEFINITION. The client links: the receiver, the frame decoder, the transmitter, and the effects of a
BREAK and of a disable on the link's records. -/

namespace Sys2Proof.Machine

/-! ### Characters on a line (R132) -/

/-- The bits of a character, and with them its time in bit times: start, 8 data, parity, stop (R132). -/
def charBits (p : LineParams) : Nat :=
  9 + (if p.parity = .none then 0 else 1) + (match p.stopBits with | .one => 1 | .two => 2)

/-- The time of a bit in CLKIN cycles: a bit rate of 1.5 MHz / (DIV + FRAC/16) is one bit in 16 DIV + FRAC
cycles of 24 MHz (R132). -/
def bitTime (p : LineParams) : Nat := 16 * p.div + p.frac.1

/-- A character time in CLKIN cycles (R132). -/
def charTime (p : LineParams) : Nat := charBits p * bitTime p

/-- The number of ones in a byte is odd. -/
def oddOnes (b : Byte) : Bool := (List.range 8).foldl (fun x i => x != b.getLsbD i) false

/-- The parity bit a setting gives a data byte (R133); none under NONE. -/
def parityBitOf (p : Parity) (data : Byte) : Option Bool :=
  match p with
  | .none => none
  | .zero => some false
  | .one => some true
  | .odd => some (!oddOnes data)
  | .even => some (oddOnes data)

/-- A byte as the transmitter sends it: one start bit, the data bits lowest-order first, the parity bit when
there is one, the stop bits (R132). -/
def txChar (p : LineParams) (data : Byte) : TxChar :=
  ⟨[false] ++ (List.range 8).map data.getLsbD ++ (parityBitOf p.parity data).toList
      ++ (match p.stopBits with | .one => [true] | .two => [true, true]),
    bitTime p⟩

/-- The characters of the frame on the line; none when the transmitter is IDLE (R138). -/
def Transmitter.wire : Transmitter → List Byte
  | .idle => []
  | .reply f => f.wire
  | .notice _ f => f.wire

/-- The transmitter has begun `n` characters of its frame: those not begun before are sent under the present
settings (R132, R140). -/
def LinkState.sendTo (x : LinkState) (n : Nat) : LinkState :=
  { x with txd := x.txd ++ ((x.tx.wire.take n).drop x.txd.length).map (txChar x.line) }

/-- The transmitter begins a frame with its first character (R138). -/
def LinkState.beginFrame (x : LinkState) (tx : Transmitter) : LinkState :=
  LinkState.sendTo { x with tx := tx, txd := [], replyRace := [] } 1

/-! ### Traffic -/

/-- The link's FIFO, decoder, request slot and reply buffer emptied; the frame on the line abandoned when `n`
of its characters have begun, the last of which is finished; the transmitter IDLE, a pending loss cleared, the
next character the first (R133, R134, R139, R141, R142). -/
def LinkState.clearTraffic (x : LinkState) (n : Nat) : LinkState :=
  { x.sendTo n with
    fifo := [], lossPending := false, gapNext := true, decoder := .hunt, requestSlot := none
    replyBuffer := none, tx := .idle, replyRace := [] }

/-- The link takes part: it is enabled, the part is not held in reset and no warm restart is in progress
(R133, R138, R145). -/
def State.linkActive (s : State) (l : Link) : Bool :=
  (s.link l).line.enabled && !s.inReset && !s.restarting

/-- The record of slot `i` is freed if it satisfies `p`, leaving the list first where it stands in it (R24). -/
def State.freeAt (p : Lease → Bool) (s : State) (i : SlotId) : State :=
  match s.lease i with
  | some r => if p r then (if r.phase.queued then s.leaveList i else s).freeSlot i else s
  | none => s

/-- The records that satisfy `p` are freed, in ascending order of slot (R24). -/
def State.freeWhere (s : State) (p : Lease → Bool) : State := (List.finRange 128).foldl (State.freeAt p) s

/-- Every HELD and YIELDING record of a link has its reported value set to NONE (R26). -/
def State.forgetReported (s : State) (l : Link) : State :=
  s.mapLeases fun _ r => if r.owner == l && r.phase.holds then { r with reported := none } else r

/-- The client-restart action on the link's records (R137). -/
def State.clientRestart (s : State) (l : Link) : State :=
  ((s.freeWhere fun r => r.owner == l && r.phase.queued).forgetReported l).grantScan

/-- The disable of an enabled link: traffic emptied, waiting, parked and terminal records freed, held
records' reported values forgotten, and a grant scan (R141). -/
def State.disableLink (s : State) (l : Link) (begun : Nat) : State :=
  let x := (s.link l).clearTraffic begun
  let t := s.setLink l { x with line := { x.line with enabled := false } }
  ((t.freeWhere fun r => r.owner == l && !r.phase.holds).forgetReported l).grantScan

/-! ### The receiver (R133, R134) -/

/-- A stop bit was sampled low (R133). -/
def RawChar.stopLow (p : StopBits) (c : RawChar) : Bool :=
  match p with
  | .one => !c.stop1
  | .two => !c.stop1 || !c.stop2

/-- Every bit position was sampled low: data, parity if there is one, every stop bit (R133). -/
def RawChar.isBreak (p : LineParams) (c : RawChar) : Bool :=
  c.data == 0 && (p.parity == .none || !c.parityBit)
    && (match p.stopBits with | .one => !c.stop1 | .two => !c.stop1 && !c.stop2)

/-- The entry a character gives, without its GAP and OVERRUN flags (R133). -/
def RawChar.entry (p : LineParams) (gap overrun : Bool) (c : RawChar) : FifoEntry :=
  if RawChar.isBreak p c then ⟨0, false, false, true, gap, overrun⟩
  else
    ⟨c.data, (match parityBitOf p.parity c.data with | some b => b != c.parityBit | none => false),
      RawChar.stopLow p.stopBits c, false, gap, overrun⟩

/-- The settings under which a character finishes (R140). -/
def LinkState.lineFor (x : LinkState) (c : RawChar) : LineParams :=
  (x.line :: x.prevLines).getD c.settingsAgo x.line

/-- The GAP condition: the start bit came at least 4 character times after the end of the previous
character, or the character is the first (R133). The character time is that of the settings under which the
character itself is received, a DESIGN CHOICE where the settings changed in the idle time before it (log entry
8). -/
def LinkState.gapFor (x : LinkState) (idle : Nat) (c : RawChar) : Bool :=
  x.gapNext || decide (4 * charTime (x.lineFor c) ≤ idle)

/-- The receiver looks for a start bit: after a break, and after the enable of the link, only once RXDn has
been high (R133). -/
def LinkState.listens (x : LinkState) (c : RawChar) : Bool := !x.rxWait || c.highBefore

/-- The receiver takes a character: lost with OVERRUN on a full FIFO, else stored; after a break it waits for
RXDn to return high (R133, R134). A character lost to a full FIFO counts as one taken for the GAP condition of
the next, a DESIGN CHOICE (log entry 8). -/
def State.receive (s : State) (l : Link) (idle : Nat) (c : RawChar) : State :=
  let x := { s.link l with
    gapNext := false, prevLines := [], rxWait := RawChar.isBreak ((s.link l).lineFor c) c }
  if 64 ≤ x.fifo.length then (s.setLink l { x with lossPending := true }).raiseLink l flagLinkOverrun
  else
    let e := RawChar.entry ((s.link l).lineFor c) ((s.link l).gapFor idle c) x.lossPending c
    s.setLink l { x with fifo := x.fifo ++ [e], lossPending := false }

/-- CHARACTER_RECEIVED: a character completes on RXDn, its start bit `idle` cycles after the end of the
previous one, stored or lost (R133, R134, log entry 8). A low line met after a break or at the enable, and not
high since, gives no character. The link is tested where the character completes: one that began in a warm restart
and completes after it is stored, the first and flagged GAP, and one that completes within it is lost, where R145
says only that characters arriving then are lost, a DESIGN CHOICE (log entry 8). -/
def execCharacterReceived (l : Link) (idle : Nat) (c : RawChar) (s : State) :
    Host.Outcome State Fault Refusal :=
  .next (if s.linkActive l && (s.link l).listens c then s.receive l idle c else s)

/-! ### The frame decoder (R135 to R137) -/

/-- What the decoder does with one entry: its next state, the frame it passes on, the causes it sets. -/
structure DecoderMove where
  next : Decoder
  frame : Option (List Byte)
  causes : Byte
  deriving DecidableEq, Repr

/-- An entry taken in HUNT: only a 0xD5 without PARITY or FRAMING begins a frame (Table 9-2, R136). -/
def huntEntry (e : FifoEntry) (causes : Byte) : DecoderMove :=
  ⟨if !e.parity && !e.framing && e.data == 0xD5 then .length else .hunt, none, causes⟩

/-- The decoder on a clean entry inside a frame (Table 9-2). -/
def cleanEntry (d : Decoder) (b : Byte) : DecoderMove :=
  match d with
  | .hunt => ⟨if b == 0xD5 then .length else .hunt, none, 0⟩
  | .length =>
    if b == 0xD5 then ⟨.length, none, 0⟩
    else if 1 ≤ b.toNat ∧ b.toNat ≤ 14 then ⟨.body b [], none, 0⟩
    else ⟨.hunt, none, flagBadFrame⟩
  | .body len taken =>
    if taken.length + 1 = len.toNat then ⟨.check len (taken ++ [b]), none, 0⟩
    else ⟨.body len (taken ++ [b]), none, 0⟩
  | .check len bytes =>
    if bytes.foldl (· + ·) len + b = 0 then ⟨.hold, some bytes, 0⟩ else ⟨.hunt, none, flagBadFrame⟩
  | .hold => ⟨.hold, none, 0⟩

/-- The decoder on an entry that is not a BREAK (R135, R136). -/
def decodeMove (d : Decoder) (e : FifoEntry) : DecoderMove :=
  match d with
  | .hunt => huntEntry e 0
  | _ =>
    if e.parity || e.framing || e.overrun then ⟨.hunt, none, flagLineError⟩
    else if e.gap then huntEntry e flagGapDiscard
    else cleanEntry d e.data

/-- The entry the decoder takes next, with the rest of the FIFO; none while it is in HOLD (R135). -/
def LinkState.nextEntry (x : LinkState) : Option (FifoEntry × List FifoEntry) :=
  match x.decoder, x.fifo with
  | .hold, _ => none
  | _, e :: rest => some (e, rest)
  | _, [] => none

/-- The decoder takes a BREAK entry: the partial frame is discarded, BREAK is set and the client-restart
action follows, in one event (R137). -/
def State.takeBreak (s : State) (l : Link) (rest : List FifoEntry) : State :=
  ((s.setLink l { s.link l with fifo := rest, decoder := .hunt }).raiseLink l flagBreak).clientRestart l

/-- The decoder takes an entry that is not a BREAK (R135, R136). -/
def State.takeEntry (s : State) (l : Link) (e : FifoEntry) (rest : List FifoEntry) : State :=
  let x := s.link l
  let m := decodeMove x.decoder e
  (s.setLink l { x with
    fifo := rest
    decoder := m.next
    requestSlot := match m.frame with | some f => some f | none => x.requestSlot }).raiseLink l m.causes

/-- DECODE_ENTRY: the decoder takes the entry at the head of the FIFO (R135 to R137). -/
def execDecodeEntry (l : Link) (s : State) : Host.Outcome State Fault Refusal :=
  .next <|
    match (s.link l).nextEntry with
    | some (e, rest) =>
      if s.linkActive l then (if e.brk then s.takeBreak l rest else s.takeEntry l e rest) else s
    | none => s

/-- CLIENT_RESTART: the decoder takes a BREAK entry (R137, log entry 7). -/
def execClientRestart (l : Link) (s : State) : Host.Outcome State Fault Refusal :=
  .next <|
    match (s.link l).nextEntry with
    | some (e, rest) => if s.linkActive l && e.brk then s.takeBreak l rest else s
    | none => s

/-- LINK_DISABLE: the disable of an enabled link (R141, log entry 7). -/
def execLinkDisable (l : Link) (s : State) (begun : Nat := 0) : Host.Outcome State Fault Refusal :=
  .next (if s.linkActive l then s.disableLink l begun else s)

/-! ### The transmitter (R138, R139) -/

/-- A decoder in HOLD returns to HUNT when the request slot and the reply buffer are empty (R135). -/
def LinkState.releaseHold (x : LinkState) : LinkState :=
  if x.decoder == .hold && x.requestSlot.isNone && x.replyBuffer.isNone then { x with decoder := .hunt }
  else x

/-- REPLY_SEND: an idle enabled transmitter takes the reply (R138). -/
def execReplySend (l : Link) (s : State) : Host.Outcome State Fault Refusal :=
  .next <|
    match (s.link l).replyBuffer with
    | some r =>
      if s.linkActive l && (s.link l).tx == .idle then
        s.setLink l (LinkState.beginFrame
          (LinkState.releaseHold { s.link l with replyBuffer := none }) (.reply r))
      else s
    | none => s

/-- The first dirty record of the link at or after its notice pointer, wrapping from S127 to S0 (R138). -/
def State.noticeSlot (s : State) (l : Link) : Option SlotId :=
  ((List.finRange 128).map fun k => (s.link l).noticePointer + k).find? (s.dirtyAt l)

/-- The LEASE_STATE notice of record `r` (R155, Table 10-6). -/
def noticeFrame (s : State) (i : SlotId) (r : Lease) : OutFrame :=
  ⟨[kindLeaseState, slotByte i, s.generation i, r.tag, r.phase.state.code, flagByte r.phase.warned,
        r.phase.endCode]
      ++ twoBytes r.phase.countdown ++ [byteOf r.zones.length] ++ r.zones.map (fun z => byteOf z.1),
    some (s.reportOf i r)⟩

/-- The transmitter may begin a notice of record `r` in slot `i`: it is IDLE with no reply to send, or the
reply was placed in the instant in which that record became dirty and the record has not changed since (R138,
R157, log entry 13). -/
def State.mayNotice (s : State) (l : Link) (i : SlotId) (r : Lease) : Bool :=
  s.linkActive l && (s.link l).tx == .idle
    && ((s.link l).replyBuffer.isNone || (s.link l).replyRace.contains (i, r))

/-- NOTICE_BUILD: the transmitter builds a notice of a dirty record and begins it (R138, R155). -/
def execNoticeBuild (l : Link) (s : State) : Host.Outcome State Fault Refusal :=
  .next <|
    match s.noticeSlot l with
    | some i =>
      match s.lease i with
      | some r =>
        if s.mayNotice l i r then
          s.setLink l ((s.link l).beginFrame (.notice i (noticeFrame s i r)))
        else s
      | none => s
    | none => s

/-- A completing frame's pair applied to the table (R28): nothing when the slot is FREE or its generation
differs; else the reported value is set, and a record in the terminal state carried is freed. -/
def State.applyReport (s : State) (p : Report) : State :=
  match s.lease p.slot with
  | some r =>
    if s.generation p.slot = p.generation then
      if r.phase.terminal && r.phase.state == p.state then s.freeSlot p.slot
      else s.setLease p.slot { r with reported := some (p.state, p.warned) }
    else s
  | none => s

/-- A frame applied, if it carries a pair (R156). -/
def State.applyFrame (s : State) (f : OutFrame) : State :=
  match f.report with
  | some p => s.applyReport p
  | none => s

/-- The last character of the frame on the line has been sent (R139). -/
def LinkState.endFrame (x : LinkState) : LinkState := { x.sendTo x.tx.wire.length with tx := .idle }

/-- FRAME_COMPLETE: the last character of the frame on the line has been sent (R28, R139). -/
def execFrameComplete (l : Link) (s : State) : Host.Outcome State Fault Refusal :=
  .next <|
    if s.linkActive l then
      match (s.link l).tx with
      | .idle => s
      | .reply f => (s.setLink l (s.link l).endFrame).applyFrame f
      | .notice i f => (s.setLink l { (s.link l).endFrame with noticePointer := i + 1 }).applyFrame f
    else s

end Sys2Proof.Machine
end

