-- ==== Sys2Proof/Machine/LinkCommands.lean ====
section
/-! DEFINITION. The mailbox commands of the links: READ_LINK, SET_LINK and LINK_RESET. -/

namespace Sys2Proof.Machine

/-! ### READ_LINK (R143) -/

/-- The results of READ_LINK part 0: the line parameters (Table 9-3). -/
def State.lineResults (s : State) (l : Link) : List Byte :=
  let p := (s.link l).line
  [flagByte p.enabled] ++ twoBytes p.div ++ [byteOf p.frac.1, parityCode p.parity, stopBitsCode p.stopBits]

/-- The results of READ_LINK part 1: the traffic and the records of the link (Table 9-3). -/
def State.trafficResults (s : State) (l : Link) : List Byte :=
  let x := s.link l
  [byteOf x.fifo.length, x.decoder.code, x.tx.code, slotByte x.noticePointer,
    flagByte x.requestSlot.isSome, flagByte x.replyBuffer.isSome,
    byteOf (s.countLeases fun r => r.owner == l && r.dirty), byteOf (s.countLeases fun r => r.owner == l)]

/-- The evaluation of READ_LINK. -/
def evalReadLink (args : Table 8 Byte) (s : State) : State × CmdResult :=
  match linkOf (argOf args 0), belowOf 2 (argOf args 1) with
  | some l, some part => (s, .ok (if part = 0 then s.lineResults l else s.trafficResults l))
  | _, _ => (s, .fail .badArgument)

/-- READ_LINK (R143). -/
def execReadLink (s : State) : Host.Outcome State Fault Refusal :=
  .next (takeDirect codeReadLink evalReadLink s)

/-! ### SET_LINK (R140, R141) -/

/-- The line parameters that arguments 1 to 6 of SET_LINK give, unless one is out of its range; a DIV of 0 is
stored as 1 (R140). -/
def lineOfArgs (args : Table 8 Byte) : Option LineParams :=
  match belowOf 2 (argOf args 1), belowOf 16 (argOf args 4), parityOf (argOf args 5),
      stopBitsOf (argOf args 6) with
  | some e, some f, some p, some b => some ⟨e == 1, max (wordOf (argOf args 2) (argOf args 3)) 1, f, p, b⟩
  | _, _, _, _ => none

/-- The parameters stored in the link: on an enabled link the old ones are remembered for a character being
received, the characters of its frame begun by then go under the old ones, and it stays as it is otherwise; a
disabled link that is enabled starts with its traffic empty, its next character the first and its receiver
waiting for the line to be high (R133, R140). -/
def LinkState.setLine (x : LinkState) (p : LineParams) (begun : Nat) : LinkState :=
  if x.line.enabled then { x.sendTo begun with line := p, prevLines := x.line :: x.prevLines }
  else if p.enabled then { x.clearTraffic 0 with line := p, prevLines := [], rxWait := true }
  else { x with line := p }

/-- SET_LINK on a link: its parameters stored, and the disable of an enabled link in the same event (R140). -/
def State.applyLine (s : State) (l : Link) (p : LineParams) (begun : Nat) : State :=
  let t := s.setLink l ((s.link l).setLine p begun)
  if (s.link l).line.enabled && !p.enabled then t.disableLink l begun else t

/-- The evaluation of SET_LINK. -/
def evalSetLink (begun : Nat) (args : Table 8 Byte) (s : State) : State × CmdResult :=
  match linkOf (argOf args 0), lineOfArgs args with
  | some l, some p => (s.applyLine l p begun, .ok ((s.applyLine l p begun).lineResults l))
  | _, _ => (s, .fail .badArgument)

/-- SET_LINK, the link's transmitter having begun `begun` characters of its frame (R140). -/
def execSetLink (s : State) (begun : Nat := 0) : Host.Outcome State Fault Refusal :=
  .next (takeDirect codeSetLink (evalSetLink begun) s)

/-! ### LINK_RESET (R142) -/

/-- The results of LINK_RESET, from the link as it found it (R142). -/
def LinkState.resetResults (x : LinkState) : List Byte :=
  [flagByte x.requestSlot.isSome, flagByte x.replyBuffer.isSome, flagByte (x.tx != .idle),
    byteOf x.fifo.length]

/-- The evaluation of LINK_RESET: the traffic goes, the parameters, the pointer and every record stay, and no
scan runs (R142). -/
def evalLinkReset (begun : Nat) (args : Table 8 Byte) (s : State) : State × CmdResult :=
  match linkOf (argOf args 0) with
  | some l => (s.setLink l ((s.link l).clearTraffic begun), .ok (s.link l).resetResults)
  | none => (s, .fail .badArgument)

/-- LINK_RESET, the link's transmitter having begun `begun` characters of its frame (R142). -/
def execLinkReset (s : State) (begun : Nat := 0) : Host.Outcome State Fault Refusal :=
  .next (takeDirect codeLinkReset (evalLinkReset begun) s)

end Sys2Proof.Machine
end

