-- ==== Sys2Proof/Machine/PortBytes.lean ====
section
/-! DEFINITION. The events on the wires of the supervisor port: how transfers begin, find their register and
end, and what a write or a read of each register does (R159 to R166, Table 11-1). -/

namespace Sys2Proof.Machine

/-! ### Writes (R162, R164 to R166) -/

/-- A write of 1 to a cause flag clears it (R164). -/
def clearBits (flags value : Byte) : Byte := flags &&& ~~~value

/-- A write to COMMAND: accepted when BUSY and RESTARTING are both 0, the arguments latched; otherwise
ignored with OVERRUN (R166). -/
def State.writeCommand (s : State) (v : Byte) : State :=
  if s.port.busy || s.restarting then s.raiseCmd flagCmdOverrun
  else s.setPort { s.port with command := v, phase := .waiting s.port.args }

/-- A write to a register of a group of eight or four. -/
def Table.setAt {n : Nat} (t : Table n Byte) (i : Nat) (v : Byte) : Table n Byte :=
  if h : i < n then t.set ⟨i, h⟩ v else t

/-- What a write of `v` to the register at `offset` does (Table 11-1). -/
def State.writeReg (s : State) (offset : BitVec 7) (v : Byte) : State :=
  let o := offset.toNat
  let p := s.port
  if o < 0x04 then s
  else if o = 0x04 then s.setPort { p with groupEnable := v &&& 0x7F }
  else if o ≤ 0x08 then
    s.setPort { p with linkCause := p.linkCause.setAt (o - 0x05) (clearBits (p.linkCause.list.getD (o - 0x05) 0) v) }
  else if o = 0x09 then s.setPort { p with tableCause := clearBits p.tableCause v }
  else if o = 0x0A then s.setPort { p with timeCause := clearBits p.timeCause v }
  else if o = 0x0B then s.setPort { p with cmdCause := clearBits p.cmdCause v }
  else if o ≤ 0x13 then s.setPort { p with args := p.args.setAt (o - 0x0C) v }
  else if o = 0x14 then s.writeCommand v
  else s

/-- The side effect of a read: TICKS0 latches the upper three bytes of the tick count (R129). -/
def State.readEffect (s : State) (o : BitVec 7) : State :=
  if o.toNat = 0x1E then s.setPort { s.port with tickLatch := s.clock.tickCount.extractLsb' 8 24 } else s

/-! ### Transfers (R159 to R161, R170) -/

/-- The part drives `d` during a byte. -/
def State.drive (s : State) (d : PortDrive) : State :=
  s.setPort { s.port with portOut := s.port.portOut ++ [d] }

/-- The transfer passes to another phase. -/
def State.setTransfer (s : State) (t : Transfer) : State := s.setPort { s.port with transfer := t }

/-- The I2C pointer moves on by one, wrapping from 0x7F to 0x00 (R161). -/
def State.raisePointer (s : State) : State :=
  s.setPort { s.port with i2cPointer := s.port.i2cPointer + 1 }

/-- The port answers on the interface that MSEL chose, and not while the part is held in reset (R159, R170). -/
def State.answers (s : State) (i2c : Bool) : Bool := !s.inReset && s.port.msel == i2c

/-- Eight bits on MOSI and MISO: the command byte, with STATUS on MISO; a data byte written, with 0x00 on MISO;
or a data byte read, its register read as the byte begins. The offset is then raised by one, wrapping from
0x7F to 0x00 (R160). Outside a transfer nothing is driven. -/
def State.spiByte (s : State) (mosi : Byte) : State :=
  match s.port.transfer with
  | .spiCommand =>
    (s.setTransfer (if mosi.getLsbD 7 then .spiRead (mosi.extractLsb' 0 7)
      else .spiWrite (mosi.extractLsb' 0 7))).drive (.byte s.status)
  | .spiWrite o => ((s.writeReg o mosi).setTransfer (.spiWrite (o + 1))).drive (.byte 0)
  | .spiRead o => ((s.readEffect o).setTransfer (.spiRead (o + 1))).drive (.byte (s.readReg o))
  | _ => s.drive .released

/-- Eight bits from the host on SDA: the address byte, acknowledged when it carries the part's address, whose
lowest bit is 1 for a read transfer; the first data byte of a write transfer, which sets the pointer to its low
seven bits; or a further one, which is written to the register at the pointer (R161). -/
def State.i2cByte (s : State) (b : Byte) : State :=
  match s.port.transfer with
  | .i2cAddress =>
    if b.extractLsb' 1 7 = s.port.i2cAddress then
      (s.setTransfer (if b.getLsbD 0 then .i2cRead else .i2cPointer)).drive .acknowledge
    else (s.setTransfer .none).drive .released
  | .i2cPointer =>
    (s.setPort { s.port with
      i2cPointer := b.extractLsb' 0 7, transfer := .i2cWrite }).drive .acknowledge
  | .i2cWrite => ((s.writeReg s.port.i2cPointer b).raisePointer).drive .acknowledge
  | _ => s.drive .released

/-- Eight clocks for a byte of a read transfer, the register at the pointer read as the byte begins, and the
host's acknowledge, without which the read ends (R161). -/
def State.i2cReadByte (s : State) (acknowledged : Bool) : State :=
  match s.port.transfer with
  | .i2cRead =>
    (((s.readEffect s.port.i2cPointer).raisePointer).setTransfer
      (if acknowledged then .i2cRead else .none)).drive (.byte (s.readReg s.port.i2cPointer))
  | _ => s.drive .released

/-- One event on the wires. A transfer begins with CS_N going low, or with a start condition, and ends with
CS_N going high, or with a stop condition. Bytes of the interface not chosen, and bytes while the part is held
in reset, meet no answer (R159 to R161, R170). -/
def State.portEvent (s : State) : PortEvent → State
  | .csLow => if s.answers false then s.setTransfer .spiCommand else s
  | .csHigh => if s.answers false then s.setTransfer .none else s
  | .spiByte b => if s.answers false then s.spiByte b else s.drive .released
  | .i2cStart => if s.answers true then s.setTransfer .i2cAddress else s
  | .i2cStop => if s.answers true then s.setTransfer .none else s
  | .i2cByte b => if s.answers true then s.i2cByte b else s.drive .released
  | .i2cRead a => if s.answers true then s.i2cReadByte a else s.drive .released

/-- Events one after another, with what the part drives in their bytes. -/
def State.portEvents (s : State) (es : List PortEvent) : State :=
  es.foldl State.portEvent (s.setPort { s.port with portOut := [] })

/-- CAUSE_CLEAR: events up to a byte written to a cause register (R164, log entry 9). -/
def execCauseClear (es : List PortEvent) (e : PortEvent) (s : State) : Host.Outcome State Fault Refusal :=
  .next (s.portEvents (es ++ [e]))

/-- GROUP_ENABLE_WRITE: events up to a byte written to GROUP_ENABLE (R165, log entry 9). -/
def execGroupEnableWrite (es : List PortEvent) (e : PortEvent) (s : State) : Host.Outcome State Fault Refusal :=
  .next (s.portEvents (es ++ [e]))

/-- REGISTER_WRITE: events up to a byte written to any other register (R162, R166, log entry 9). -/
def execRegisterWrite (es : List PortEvent) (e : PortEvent) (s : State) : Host.Outcome State Fault Refusal :=
  .next (s.portEvents (es ++ [e]))

/-- TICKS0_READ: events up to a byte read; at TICKS0 it latches the count (R129, log entry 9). -/
def execTicks0Read (es : List PortEvent) (s : State) : Host.Outcome State Fault Refusal :=
  .next (s.portEvents es)

/-- I2C_POINTER_SET: events up to the first data byte of an I2C write transfer (R161, log entry 9). -/
def execI2cPointerSet (es : List PortEvent) (e : PortEvent) (s : State) : Host.Outcome State Fault Refusal :=
  .next (s.portEvents (es ++ [e]))

end Sys2Proof.Machine
end

