-- ==== Sys2Proof/Machine/RestartCommands.lean ====
section
/-! DEFINITION. STORE and its completion, the beginning and the end of a warm restart, a command of no known
code, and the cold start. -/

namespace Sys2Proof.Machine

/-! ### The image (R171, R172) -/

/-- The present configuration: every content of Table 12-1 as it stands. -/
def State.configuration (s : State) : ImageContents where
  zones := s.zones.mapIdx fun _ x => ⟨x.state != .disabled, x.cls⟩
  classes := s.classes
  links := s.links.mapIdx fun _ x => x.line
  threshold := s.threshold

/-- The image is valid: its mark is set and its check value agrees with its contents (R171). -/
def Image.valid (m : Image) : Bool := m.mark && m.check == Config.imageCheck m.contents

/-- STORE: the configuration store takes the command, copies the configuration and clears the image's valid
mark; BUSY stays 1 (R172). -/
def execStore (s : State) : Host.Outcome State Fault Refusal :=
  .next <|
    match s.port.phase with
    | .waiting _ =>
      if !s.inReset && !s.restarting && s.port.command == codeStore then
        { s with
          port := { s.port with phase := .storing s.configuration }
          image := { s.image with mark := false } }
      else s
    | _ => s

/-- STORE_COMPLETE: the copied contents, the check value and the valid mark are written, STORE_INVALID is
cleared and the command completes OK (R172). -/
def execStoreComplete (s : State) : Host.Outcome State Fault Refusal :=
  .next <|
    match s.port.phase with
    | .storing copy =>
      State.complete { s with image := ⟨copy, true, Config.imageCheck copy⟩, storeInvalid := false } (.ok [])
    | _ => s

/-! ### A code that names no command (R167) -/

/-- BAD_COMMAND: a latched code not in Table 11-5 completes at once, handed to no block (R167). -/
def execBadCommand (s : State) : Host.Outcome State Fault Refusal :=
  .next <|
    match s.port.phase with
    | .waiting _ =>
      if !s.inReset && !s.restarting && !isCommandCode s.port.command then s.complete (.fail .badCommand)
      else s
    | _ => s

/-! ### The beginning of a warm restart (R173) -/

/-- The command not yet carried out completes with ABORTED: one that waits for its owner, and a STORE in
progress (R169, R172). A code that names no command completes with BAD_COMMAND (R167, log entry 11). A
WARM_RESTART stays in progress (R173). -/
def State.abortCommand (s : State) : State :=
  match s.port.phase with
  | .waiting _ => s.complete (.fail (if isCommandCode s.port.command then .aborted else .badCommand))
  | .storing _ => s.complete (.fail .aborted)
  | .idle => s
  | .restarting => s

/-- Every link abandons its frame and empties its traffic, and its notice pointer is 0 (R145, R38). -/
def State.clearLinks (s : State) (begun : Table 4 Nat) : State :=
  { s with links := s.links.mapIdx fun l x => { x.clearTraffic (begun.get l) with noticePointer := 0 } }

/-- A WAITING or PARKED record lapses with end cause RESTART, or is freed when its link is disabled (R37). -/
def State.restartLapseAt (s : State) (i : SlotId) : State :=
  match s.lease i with
  | some r => if r.phase.queued then s.endQueued i r (.lapsed .restart) else s
  | none => s

/-- Every wait ends, the list is emptied and every earmark cleared (R37, R52). -/
def State.endWaits (s : State) : State :=
  State.clearEarmarks { (List.finRange 128).foldl State.restartLapseAt s with waiting := [] }

/-- A warm restart begins (R173): RESTARTING becomes 1, the port's flags are cleared and its command aborted,
the arbiter's pointer goes to the mailbox (R29), the links are emptied and the waits ended. -/
def State.beginRestart (s : State) (begun : Table 4 Nat) : State :=
  ((State.abortCommand { s with
    restarting := true, arbiter := 4, port := s.port.clearCauses }).clearLinks begun).endWaits

/-! A command that its owner has taken before the restart begins is carried out whole; its completion falls
before the port's flags are cleared, or after (R169, R173). Before, it is a step of its own ahead of the
restart's. After, it is carried out in the restart's step. -/

/-- The link that argument 0 of the command in progress names. -/
def Port.argLink (p : Port) : Option Link :=
  match p.phase with
  | .waiting args => linkOf (argOf args 0)
  | _ => none

/-- How far the transmitter of the link concerned has come. -/
def Port.begunOf (p : Port) (begun : Table 4 Nat) : Nat :=
  match p.argLink with
  | some l => begun.get l
  | none => 0

/-- The steps by which the mailbox's command completes, whatever it is. -/
def completions (n : Nat) : List (State → Host.Outcome State Fault Refusal) :=
  [execReadZone, execSetZone, execReadClass, execSetClass, execReadLease, execSetThreshold, execReadList,
    execNextExpiry, execClassLoad, execFenceWait, execFenceForce, execLift, execRevoke, execSetTimebase 0,
    execReadLink, (execSetLink · n), (execLinkReset · n), execStoreComplete, execBadCommand]

/-- The next state, if there is one. -/
def orSame (s : State) : Host.Outcome State Fault Refusal → State
  | .next t => t
  | _ => s

/-- The mailbox's command is carried out and completes, if its owner can take it: the one step of the list
whose occasion stands. -/
def State.finishCommand (s : State) (begun : Table 4 Nat) : State :=
  (completions (s.port.begunOf begun)).foldl (fun t step => orSame t (step t)) s

/-- A warm restart begins with the mailbox's command taken by its owner: the command is carried out whole, the
port's flags are cleared, and then its completion sets DONE; the causes that its carrying out sets count as
set before (R169, R173, log entry 25). With no such command the restart begins as it does otherwise. -/
def State.finishAndRestart (s : State) (begun : Table 4 Nat) : State :=
  let u := s.finishCommand begun
  if s.port.busy && !u.port.busy then (u.beginRestart begun).raiseCmd flagDone else s.beginRestart begun

/-- WARM_RESTART: the restart sequence takes the command, which stays in progress to the restart's end
(R173). -/
def execWarmRestart (s : State) (begun : Table 4 Nat := .fill 4 0) : Host.Outcome State Fault Refusal :=
  .next <|
    match s.port.phase with
    | .waiting _ =>
      if !s.inReset && !s.restarting && s.port.command == codeWarmRestart then
        (s.setPort { s.port with phase := .restarting }).beginRestart begun
      else s
    | _ => s

/-- WRST_N_LOW: WRST_N goes low. It begins a warm restart, with the mailbox's command completing after the
flags are cleared when `finishing` says so, or holds the part in the one in progress (R169, R173, log entry
12). -/
def execWrstNLow (s : State) (begun : Table 4 Nat := .fill 4 0) (finishing : Bool := false) :
    Host.Outcome State Fault Refusal :=
  .next <|
    if s.inReset then s
    else if s.restarting then { s with wrstN := false }
    else if finishing then { s.finishAndRestart begun with wrstN := false }
    else State.beginRestart { s with wrstN := false } begun

/-! ### The end of a warm restart (R174) -/

/-- A WARM_RESTART command in progress completes OK (R174). -/
def State.completeRestart (s : State) : State :=
  match s.port.phase with
  | .restarting => s.complete (.ok [])
  | _ => s

/-- The end of a warm restart in its order: the closing grant scan, the command's completion, RESTART_DONE,
and RESTARTING 0 with the armed indication set from the count (R174, R34). -/
def State.endRestart (s : State) : State :=
  let t := s.grantScan.completeRestart.raiseCmd flagRestartDone
  { t with restarting := false, wrstN := true, armed := decide (t.occupied < t.threshold) }

/-- RESTART_END with WRST_N at the level given: high, the restart in progress ends; low, the part is held in
it (R173, R174, log entry 12). -/
def execRestartEnd (wrstNHigh : Bool) (s : State) : Host.Outcome State Fault Refusal :=
  .next <|
    if s.restarting then (if wrstNHigh then s.endRestart else { s with wrstN := false }) else s

/-! ### The cold start (R170) -/

/-- COLD_START: power is applied or RST_N goes low; every block is held at its cold values, and the image
keeps what it held, a STORE cut off leaving it invalid (R170, R172). -/
def execColdStart (s : State) : Host.Outcome State Fault Refusal := .next (.cold s.image s.pending)

/-- A zone as the image's enable and class leave it (R7, R171). -/
def StoredZone.toZone (x : StoredZone) : Zone := ⟨if x.enabled then .free else .disabled, x.cls, none⟩

/-- Every content of the image replaces its cold value (R171, Table 12-1). -/
def State.loadImage (s : State) (c : ImageContents) : State :=
  { s with
    zones := c.zones.mapIdx fun _ x => StoredZone.toZone x
    classes := c.classes
    links := s.links.mapIdx fun l x => { x with line := c.links.get l }
    threshold := c.threshold }

/-- The image judged: a valid one is loaded, an invalid one sets STORE_INVALID and loads nothing (R171). -/
def State.judgeImage (s : State) : State :=
  if s.image.valid then s.loadImage s.image.contents else { s with storeInvalid := true }

/-- LEAVE_RESET: the cold-start sequence with the pins sampled; the clock's search dates from this instant
(R170, log entry 4). -/
def execLeaveReset (msel a1 a0 autoload : Bool) (s : State) : Host.Outcome State Fault Refusal :=
  .next <|
    if s.inReset then
      let t := { State.cold s.image s.pending with
        port := { Port.cold with msel := msel, a1 := a1, a0 := a0 }
        autoload := autoload
        inReset := false }
      if autoload then t.judgeImage else t
    else s

end Sys2Proof.Machine
end

