-- ==== Sys2Proof/Machine/Dispatch.lean ====
section
/-! DEFINITION. The dispatch: one arm per command, each a direct call of its meaning. -/

namespace Sys2Proof.Machine

def exec (i : Instr) (s : State) : Host.Outcome State Fault Refusal :=
  match i with
  | .acquire l => Sys2Proof.Machine.execAcquire l s
  | .renew l => Sys2Proof.Machine.execRenew l s
  | .release l => Sys2Proof.Machine.execRelease l s
  | .widen l => Sys2Proof.Machine.execWiden l s
  | .narrow l => Sys2Proof.Machine.execNarrow l s
  | .park l => Sys2Proof.Machine.execPark l s
  | .queryLease l => Sys2Proof.Machine.execQueryLease l s
  | .queryZone l => Sys2Proof.Machine.execQueryZone l s
  | .badKind l => Sys2Proof.Machine.execBadKind l s
  | .readZone => Sys2Proof.Machine.execReadZone s
  | .setZone => Sys2Proof.Machine.execSetZone s
  | .readClass => Sys2Proof.Machine.execReadClass s
  | .setClass => Sys2Proof.Machine.execSetClass s
  | .readLease => Sys2Proof.Machine.execReadLease s
  | .setThreshold => Sys2Proof.Machine.execSetThreshold s
  | .readList => Sys2Proof.Machine.execReadList s
  | .nextExpiry => Sys2Proof.Machine.execNextExpiry s
  | .classLoad => Sys2Proof.Machine.execClassLoad s
  | .fenceWait => Sys2Proof.Machine.execFenceWait s
  | .fenceForce => Sys2Proof.Machine.execFenceForce s
  | .lift => Sys2Proof.Machine.execLift s
  | .revoke => Sys2Proof.Machine.execRevoke s
  | .setTimebase elapsed => Sys2Proof.Machine.execSetTimebase elapsed s
  | .readLink => Sys2Proof.Machine.execReadLink s
  | .setLink begun => Sys2Proof.Machine.execSetLink s begun
  | .linkReset begun => Sys2Proof.Machine.execLinkReset s begun
  | .store => Sys2Proof.Machine.execStore s
  | .storeComplete => Sys2Proof.Machine.execStoreComplete s
  | .warmRestart begun => Sys2Proof.Machine.execWarmRestart s begun
  | .badCommand => Sys2Proof.Machine.execBadCommand s
  | .wrstNLow begun finishing => Sys2Proof.Machine.execWrstNLow s begun finishing
  | .restartEnd wrstNHigh => Sys2Proof.Machine.execRestartEnd wrstNHigh s
  | .coldStart => Sys2Proof.Machine.execColdStart s
  | .leaveReset msel a1 a0 autoload => Sys2Proof.Machine.execLeaveReset msel a1 a0 autoload s
  | .syncinPulse elapsed => Sys2Proof.Machine.execSyncinPulse elapsed s
  | .lockRunTimeout => Sys2Proof.Machine.execLockRunTimeout s
  | .syncinLoss => Sys2Proof.Machine.execSyncinLoss s
  | .internalTick => Sys2Proof.Machine.execInternalTick s
  | .searchTimeout => Sys2Proof.Machine.execSearchTimeout s
  | .runningChangeScan => Sys2Proof.Machine.execRunningChangeScan s
  | .tick => Sys2Proof.Machine.execTick s
  | .lapse k => Sys2Proof.Machine.execLapse k s
  | .expiry k => Sys2Proof.Machine.execExpiry k s
  | .revokeForLateness k => Sys2Proof.Machine.execRevokeForLateness k s
  | .characterReceived l idle c => Sys2Proof.Machine.execCharacterReceived l idle c s
  | .decodeEntry l => Sys2Proof.Machine.execDecodeEntry l s
  | .clientRestart l => Sys2Proof.Machine.execClientRestart l s
  | .linkDisable l begun => Sys2Proof.Machine.execLinkDisable l s begun
  | .replySend l => Sys2Proof.Machine.execReplySend l s
  | .noticeBuild l => Sys2Proof.Machine.execNoticeBuild l s
  | .frameComplete l => Sys2Proof.Machine.execFrameComplete l s
  | .causeClear before last => Sys2Proof.Machine.execCauseClear before last s
  | .groupEnableWrite before last => Sys2Proof.Machine.execGroupEnableWrite before last s
  | .ticks0Read events => Sys2Proof.Machine.execTicks0Read events s
  | .i2cPointerSet before last => Sys2Proof.Machine.execI2cPointerSet before last s
  | .registerWrite before last => Sys2Proof.Machine.execRegisterWrite before last s

end Sys2Proof.Machine
end

