-- ==== Sys2Proof/WellFormed.lean ====
section
/-! DEFINITION. When a command's label fits its operands. The ranges of links, slots, bytes and offsets
are in their types; what is left to check is that the byte that names a row of the supervisor port goes the
way of that row (R160 to R162, Table 11-1), as far as its events alone tell where it goes. -/

namespace Sys2Proof

/-- Offsets 0x05 to 0x0B are the cause registers (Table 11-1). -/
def isCauseOffset (o : BitVec 7) : Bool := decide (5 ≤ o.toNat) && decide (o.toNat ≤ 11)

/-- Offset 0x04 is GROUP_ENABLE (Table 11-1). -/
def isGroupEnableOffset (o : BitVec 7) : Bool := o.toNat == 4

/-- What the events since an SPI transfer began tell of the transfer: nothing, that its command byte comes
next, or its direction (true for read) and the offset of its last data byte and of the next. -/
inductive SpiTrace
  | unknown
  | command
  | data (read : Bool) (last : Option (BitVec 7)) (next : BitVec 7)
  deriving DecidableEq, Repr

/-- The trace after one more event (R160). -/
def SpiTrace.step (t : SpiTrace) (e : PortEvent) : SpiTrace :=
  match e, t with
  | .csLow, _ => .command
  | .spiByte b, .command => .data (b.getLsbD 7) none (b.extractLsb' 0 7)
  | .spiByte _, .data read _ o => .data read (some o) (o + 1)
  | _, _ => .unknown

/-- The direction and offset of the byte that the events end in, where they hold the beginning of its SPI
transfer and end in a data byte. -/
def lastSpiByte (es : List PortEvent) : Option (Bool × BitVec 7) :=
  match es.foldl SpiTrace.step .unknown with
  | .data read (some o) _ => some (read, o)
  | _ => none

/-- The events end in a byte that the host sends: a written register byte or a pointer. -/
def endsInHostByte (es : List PortEvent) : Bool :=
  match es.getLast? with
  | some (.spiByte _) => true
  | some (.i2cByte _) => true
  | _ => false

/-- The events may end in a data byte written to a register whose offset satisfies `p`. -/
def mayWrite (p : BitVec 7 → Bool) (es : List PortEvent) : Bool :=
  endsInHostByte es && (match lastSpiByte es with | some (read, o) => !read && p o | none => true)

/-- The events may end in a data byte read from a register. -/
def mayRead (es : List PortEvent) : Bool :=
  match es.getLast? with
  | some (.spiByte _) => match lastSpiByte es with | some (read, _) => read | none => true
  | some (.i2cRead _) => true
  | _ => false

/-- The events may end in the first data byte of an I2C write transfer. -/
def maySetPointer (es : List PortEvent) : Bool :=
  match es.getLast? with
  | some (.i2cByte _) => true
  | _ => false

/-- A command whose label fits its operands. -/
def Instr.wellFormed : Instr → Bool
  | .causeClear es e => mayWrite isCauseOffset (es ++ [e])
  | .groupEnableWrite es e => mayWrite isGroupEnableOffset (es ++ [e])
  | .registerWrite es e => mayWrite (fun o => !isCauseOffset o && !isGroupEnableOffset o) (es ++ [e])
  | .ticks0Read es => mayRead es
  | .i2cPointerSet es e => maySetPointer (es ++ [e])
  | .acquire _ | .renew _ | .release _ | .widen _ | .narrow _ | .park _ | .queryLease _
  | .queryZone _ | .badKind _ | .readZone | .setZone | .readClass | .setClass | .readLease
  | .setThreshold | .readList | .nextExpiry | .classLoad | .fenceWait | .fenceForce | .lift
  | .revoke | .setTimebase _ | .readLink | .setLink _ | .linkReset _ | .store | .storeComplete
  | .warmRestart _ | .badCommand | .wrstNLow _ _ | .restartEnd _ | .coldStart | .leaveReset _ _ _ _
  | .syncinPulse _ | .lockRunTimeout | .syncinLoss | .internalTick | .searchTimeout
  | .runningChangeScan | .tick | .lapse _ | .expiry _ | .revokeForLateness _
  | .characterReceived _ _ _ | .decodeEntry _ | .clientRestart _ | .linkDisable _ _ | .replySend _
  | .noticeBuild _ | .frameComplete _ => true

end Sys2Proof
end

