-- ==== Sys2Proof/Safety.lean ====
section
/-! DEFINITION. What counts as a lawful state of the part, and the shapes of outcome that claims use: a
request answered, a mailbox command completed. -/

namespace Sys2Proof.Machine

/-! ### Laws of the table -/

/-- Slot `i` holds a record in HELD or YIELDING state that lists zone `z`. -/
def State.holdsZone (s : State) (i : SlotId) (z : ZoneId) : Prop :=
  ∃ r, s.lease i = some r ∧ r.phase.holds = true ∧ z ∈ r.zones

/-- R3: a zone in HELD or FENCE_PENDING state names as holder the record in HELD or YIELDING state that lists
it, so at most one such record lists it; a FREE, FENCED or DISABLED zone is listed by no such record and
names no holder; a record in any other state holds no zone. -/
def State.HolderLaw (s : State) : Prop :=
  ∀ z i, (s.zone z).state.holder = some i ↔ s.holdsZone i z

/-- R46: the waiting list holds each record in WAITING or PARKED state exactly once, and no other record,
and never more than 32 entries. -/
def State.ListLaw (s : State) : Prop :=
  s.waiting.Nodup ∧ s.waiting.length ≤ 32 ∧
    ∀ i, i ∈ s.waiting ↔ ∃ r, s.lease i = some r ∧ r.phase.queued = true

/-- An entry may stand before another: it has the higher priority, or the same priority and it is PARKED or
the other is not (R46). -/
def State.mayPrecede (s : State) (a b : SlotId) : Prop :=
  ∀ ra rb, s.lease a = some ra → s.lease b = some rb →
    rb.priority < ra.priority ∨
      (rb.priority = ra.priority ∧ (rb.phase.isParked = true → ra.phase.isParked = true))

/-- R46: the list is ordered by priority descending, then PARKED before WAITING. -/
def State.OrderLaw (s : State) : Prop := s.waiting.Pairwise s.mayPrecede

/-- R19: every record lists one to four distinct zones, and a live record lists no DISABLED zone. -/
def State.ZonesLaw (s : State) : Prop :=
  ∀ i r, s.lease i = some r →
    1 ≤ r.zones.length ∧ r.zones.length ≤ 4 ∧ r.zones.Nodup ∧
      (r.phase.live = true → ∀ z ∈ r.zones, (s.zone z).state ≠ .disabled)

/-- R25: a record in a terminal state belongs to an enabled link. -/
def State.TerminalLaw (s : State) : Prop :=
  ∀ i r, s.lease i = some r → r.phase.terminal = true → (s.link r.owner).line.enabled = true

/-- R23: no two records of one link carry the same tag, terminal records included. -/
def State.TagLaw (s : State) : Prop :=
  ∀ i j r q, s.lease i = some r → s.lease j = some q → i ≠ j → r.owner = q.owner → r.tag ≠ q.tag

/-- The limits of record `r` are the smallest among the classes of its zones (R10), and its term, renewals and
countdowns do not exceed them (R41, R43, R58, R64, R66, R70, R98). -/
def State.WithinLimits (s : State) (r : Lease) : Prop :=
  r.limits = s.limitsOf r.zones ∧ r.term ≤ r.limits.maxDuration ∧ r.renewals ≤ r.limits.renewalLimit ∧
    (r.phase.holds = true → r.phase.countdown ≤ r.limits.maxDuration) ∧
    (r.phase.queued = true → r.phase.countdown ≤ r.limits.maxWait) ∧
    r.phase.yieldCountdown ≤ r.limits.yieldWindow

/-- R64: every live record lies within its effective limits. -/
def State.LimitsLaw (s : State) : Prop :=
  ∀ i r, s.lease i = some r → r.phase.live = true → s.WithinLimits r

/-- How many insertions into the list have taken place since record `r` took its sequence, the counter wrapping
at 2^32 (R47). -/
def State.age (s : State) (r : Lease) : Nat := (s.sequence - r.phase.sequence).toNat

/-- Of two entries of the same priority and kind, the first was inserted earlier (R46, R47). -/
def State.olderThan (s : State) (a b : SlotId) : Prop :=
  ∀ ra rb, s.lease a = some ra → s.lease b = some rb → rb.priority = ra.priority →
    rb.phase.isParked = ra.phase.isParked → s.age rb < s.age ra

/-- R46: within one priority and kind the list is in the order of insertion, and every entry has taken its
sequence from the counter before its present value (R47). -/
def State.SequenceLaw (s : State) : Prop :=
  (∀ i ∈ s.waiting, ∀ r, s.lease i = some r → 0 < s.age r) ∧ s.waiting.Pairwise s.olderThan

/-- No entry of the list has stood there through all but one of the values of the sequence counter (R47). -/
def State.SequenceRoom (s : State) : Prop :=
  ∀ i ∈ s.waiting, ∀ r, s.lease i = some r → s.age r + 1 < 4294967296

/-- R6: an earmark names the slot of a WAITING or PARKED record that lists the zone. -/
def State.EarmarkLaw (s : State) : Prop :=
  ∀ z e, (s.zone z).earmark = some e → ∃ r, s.lease e = some r ∧ r.phase.queued = true ∧ z ∈ r.zones

/-- R81: between the events of the part the term and the lease or wait countdown of every live record are at
least 1 (R41, R43, R98), and so is the yield countdown of a YIELDING one (R58). -/
def State.CountdownLaw (s : State) : Prop :=
  ∀ i r, s.lease i = some r → r.phase.live = true →
    1 ≤ r.term ∧ 1 ≤ r.phase.countdown ∧ (r.phase.isYielding = true → 1 ≤ r.phase.yieldCountdown)

/-- R58: every YIELDING record is yieldable. -/
def State.YieldableLaw (s : State) : Prop :=
  ∀ i r, s.lease i = some r → r.phase.isYielding = true → r.yieldable = true

/-! ### Ranges -/

/-- The parameters of a class lie in their ranges (Table 1-5), the warn lead below the max duration (R9). -/
def ClassInRange (p : ClassParams) : Prop :=
  1 ≤ p.maxDuration ∧ p.maxDuration ≤ 65535 ∧ p.warnLead < p.maxDuration ∧ 1 ≤ p.yieldWindow ∧
    p.yieldWindow ≤ 65535 ∧ p.renewalLimit ≤ 255 ∧ p.maxWait ≤ 65535

/-- The divisor of a link lies in its range (Table 9-1). -/
def LineInRange (p : LineParams) : Prop := 1 ≤ p.div ∧ p.div ≤ 65535

/-- Every value a configuration holds lies in the range of its parameter (R171). -/
def ConfigInRange (c : ImageContents) : Prop :=
  (∀ k, ClassInRange (c.classes.get k)) ∧ (∀ l, LineInRange (c.links.get l)) ∧
    1 ≤ c.threshold ∧ c.threshold ≤ 128

/-- Every configured value lies in its range, in the part, in the image and in a copy being stored
(R8, R34, R132, R171). -/
def State.RangeLaw (s : State) : Prop :=
  ConfigInRange s.configuration ∧ ConfigInRange s.image.contents ∧
    ∀ copy, s.port.phase = .storing copy → ConfigInRange copy

/-- Each receive FIFO holds at most 64 entries (R134) and the lock run counts at most 8 pulses (R123). -/
def State.BoundLaw (s : State) : Prop :=
  (∀ l, (s.link l).fifo.length ≤ 64) ∧ s.clock.lockRun ≤ 8

/-! ### Shapes of outcome -/

/-- `t`, which an evaluation of the link's request has made of `s`, with the request taken and answered with
`reply`, and nothing else changed (R29); the records that became dirty with the transmitter IDLE are kept for
the instant in which a notice may go before the reply (R138, R157, log entry 13). -/
def State.answered (t s : State) (l : Link) (reply : OutFrame) : State :=
  { t with
    arbiter := linkSource l
    links := t.links.set l
      { t.link l with
        requestSlot := none
        replyBuffer := some reply
        replyRace := if (t.link l).tx = .idle then s.newlyDirty t l else [] } }

/-- The lease engine takes the request `f` of link `l` now: the frame waits in the link's slot and the
arbiter's rotation has come to the link (R29). -/
def State.takesRequest (s : State) (l : Link) (f : List Byte) : Prop :=
  (s.link l).requestSlot = some f ∧ s.turn (linkSource l) = true

/-- The mailbox's command completed with a result code and result bytes, and nothing else changed (R167). -/
def State.completed (s : State) (code : ResultCode) (bytes : List Byte) : State :=
  { s with port := { s.port with
      result := code.code
      res := .bytes8 bytes
      phase := .idle
      cmdCause := s.port.cmdCause ||| flagDone } }

/-- The lease engine takes the mailbox's command of code `code` with arguments `args` now (R29, R168). -/
def State.takesCommand (s : State) (code : Byte) (args : Table 8 Byte) : Prop :=
  s.port.phase = .waiting args ∧ s.port.command = code ∧ s.turn mailboxSource = true

/-- The owner of a direct command takes it with arguments `args` now (R168). -/
def State.takesDirect (s : State) (code : Byte) (args : Table 8 Byte) : Prop :=
  s.port.phase = .waiting args ∧ s.port.command = code ∧ s.inReset = false ∧ s.restarting = false

/-- The state with the mailbox served last. -/
def State.served (s : State) : State := { s with arbiter := mailboxSource }

/-- A zone given up (R5): HELD becomes FREE, FENCE_PENDING becomes FENCED, its class and earmark kept. -/
def Zone.givenUp (x : Zone) : Zone :=
  match x.state with
  | .held _ => { x with state := .free }
  | .fencePending _ => { x with state := .fenced }
  | _ => x

/-- The zones of the list given up, with FENCE_DONE when one of them was FENCE_PENDING; nothing else changes
(R5, R112). -/
def State.zonesGivenUp (s : State) (zs : List ZoneId) : State :=
  { s with
    zones := s.zones.mapIdx fun z x => if z ∈ zs then x.givenUp else x
    port := { s.port with tableCause := s.port.tableCause |||
      (if zs.any fun z => (s.zone z).state.isPending then flagFenceDone else 0) } }

/-- The zones of the list HELD by slot `i`; nothing else changes (R4). -/
def State.zonesTaken (s : State) (i : SlotId) (zs : List ZoneId) : State :=
  { s with zones := s.zones.mapIdx fun z x => if z ∈ zs then { x with state := .held i } else x }

/-- Slot `i` FREE under its old generation, the indication re-armed when the count is then below the
threshold; nothing else changes (R24, R34). -/
def State.recordFreed (s : State) (i : SlotId) : State :=
  let t := { s with slots := s.slots.set i ⟨s.generation i, none⟩ }
  { t with armed := s.armed || decide (t.occupied < s.threshold) }

/-- Record `r` in slot `i` under the next generation, TABLE_HIGH set and the indication disarmed when the
count is then at the threshold while armed; nothing else changes (R20, R22, R34). -/
def State.recordAllocated (s : State) (i : SlotId) (r : Lease) : State :=
  let t := { s with slots := s.slots.set i ⟨s.generation i + 1, some r⟩ }
  let high := s.armed && t.occupied == s.threshold
  { t with
    armed := s.armed && !high
    port := { s.port with tableCause := s.port.tableCause ||| (if high then flagTableHigh else 0) } }

/-- The record of slot `i` in the terminal phase `p`, its other fields kept; freed at once when its link is
disabled; nothing else changes (R25). -/
def State.recordEnded (s : State) (i : SlotId) (r : Lease) (p : Phase) : State :=
  if (s.link r.owner).line.enabled then
    { s with slots := s.slots.set i ⟨s.generation i, some { r with phase := p }⟩ }
  else s.recordFreed i

/-- A handle, as two bytes received, names record `r` of slot `i` (R20). -/
def State.handleNames (s : State) (slot generation : Byte) (i : SlotId) (r : Lease) : Prop :=
  slot.toNat = i.1 ∧ s.lease i = some r ∧ s.generation i = generation

/-- The client requests that carry a handle, with kind and length (Tables 10-2 and 10-3). -/
def handleRequests : List ((Link → Instr) × Byte × Nat) :=
  [(.renew, 0x11, 5), (.release, 0x12, 3), (.widen, 0x13, 4), (.narrow, 0x14, 4), (.park, 0x15, 3),
    (.queryLease, 0x18, 3)]

/-- The frame of an ACQUIRE, kind and body (Table 10-3). -/
def acquireFrame (tag : Byte) (p : Priority) (options : Byte) (zs : List ZoneId) (duration wait : Nat) :
    List Byte :=
  [0x10, tag, byteOf p.1, options, byteOf zs.length] ++ zs.map (fun z => byteOf z.1)
    ++ twoBytes duration ++ twoBytes wait

/-- `t` differs from `s` in the zone map, the lease table, the waiting list and its counter, the armed
indication and the table causes at most. -/
def State.tableOnly (s t : State) : Prop :=
  t = { s with
    zones := t.zones
    slots := t.slots
    waiting := t.waiting
    sequence := t.sequence
    armed := t.armed
    port := { s.port with tableCause := t.port.tableCause } }

end Sys2Proof.Machine
end

