-- ==== Sys2Proof/Certificates/Slice0/Obligations.lean ====
section
/-! DEFINITION. The statements for the provers. -/

open Sys2Proof Sys2Proof.Machine

/-! ### The machine as a whole -/

/-- One step takes the command at the front of the queue and carries it out on the state with the queue's
rest. -/
def StepRunsFrontCommand : Prop :=
  ∀ (c : Instr) (rest : List Instr) (s : State),
    s.pending = c :: rest → step s = exec c { s with pending := rest }

/-- On an empty queue the part idles (log entry 2). -/
def StepIdlesOnEmptyQueue : Prop :=
  ∀ s : State, s.pending = [] → step s = .next s

/-- A step carries out the command at the front of the queue on the state with the queue's rest, and idles on
an empty queue. -/
def Obligations.StepTakesFrontOrIdles : Prop :=
  StepRunsFrontCommand ∧ StepIdlesOnEmptyQueue

/-- A command whose occasion does not stand changes nothing (log entry 1): no request or command of the mailbox is
taken, the link does not take part, the part is held in reset. -/
def NoOccasionChangesNothing : Prop :=
  ∀ s : State,
    (∀ l : Link, (∀ f, ¬s.takesRequest l f) →
      ∀ c ∈ [Instr.acquire l, .renew l, .release l, .widen l, .narrow l, .park l, .queryLease l,
        .queryZone l, .badKind l], exec c s = .next s) ∧
    ((∀ code args, ¬s.takesCommand code args) →
      ∀ c ∈ [Instr.readZone, .setZone, .readClass, .setClass, .readLease, .setThreshold, .readList,
        .nextExpiry, .classLoad, .fenceWait, .fenceForce, .lift, .revoke], exec c s = .next s) ∧
    ((∀ code args, ¬s.takesDirect code args) → ∀ (n e : Nat) (b : Table 4 Nat),
      ∀ c ∈ [Instr.readLink, .setLink n, .linkReset n, .store, .warmRestart b, .badCommand,
        .setTimebase e], exec c s = .next s) ∧
    (∀ l : Link, (s.link l).line.enabled = false ∨ s.inReset = true ∨ s.restarting = true →
      ∀ (n idle : Nat) (x : RawChar),
      ∀ c ∈ [Instr.decodeEntry l, .clientRestart l, .linkDisable l n, .replySend l, .noticeBuild l,
        .frameComplete l, .characterReceived l idle x], exec c s = .next s) ∧
    (s.inReset = true ∨ s.restarting = true ∨ s.running = false → ∀ i,
      ∀ c ∈ [Instr.tick, .lapse i, .expiry i, .revokeForLateness i], exec c s = .next s) ∧
    (s.inReset = true → ∀ (e : Nat) (b : Table 4 Nat) (finishing : Bool),
      ∀ c ∈ [Instr.lockRunTimeout, .syncinLoss, .internalTick, .searchTimeout, .runningChangeScan,
        .wrstNLow b finishing, .syncinPulse e], exec c s = .next s)

/-- A source of the request arbiter has a request waiting: a link's request slot is full, or a command of the
lease engine or the expiry engine waits in the mailbox (R29, R168). -/
def SourceWaits (s : State) (k : Fin 5) : Prop :=
  (∃ l : Link, k.1 = l.1 ∧ (s.link l).requestSlot ≠ none) ∨
    (k = 4 ∧ s.port.command ∈ [0x01, 0x02, 0x03, 0x04, 0x05, 0x06, 0x07, 0x08, 0x09, 0x0A, 0x0B, 0x0C] ∧
      ∃ args, s.port.phase = .waiting args)

/-- R29: the engine, when it is free, takes the first waiting request in the rotation L0, L1, L2, L3, mailbox
after the source served last. It is free outside reset and warm restarts, unless the scan of a change into
running is still to be made (R45, R130, log entry 6). -/
def ArbiterRotation : Prop :=
  ∀ (s : State) (k : Fin 5), s.turn k = true ↔
    s.inReset = false ∧ s.restarting = false ∧
      ¬(s.running = true ∧ HandedEvent.runningChange ∈ s.clock.handed) ∧
      SourceWaits s k ∧ ∃ d : Fin 5, s.arbiter + 1 + d = k ∧ ∀ e < d, ¬SourceWaits s (s.arbiter + 1 + e)

/-- No command stops the part, and none touches the queue; one whose occasion does not stand changes nothing (log
entry 1), and the arbiter decides which request stands first (R29). -/
def Obligations.EveryCommandAnswersNext : Prop :=
  (∀ (c : Instr) (s : State), ∃ t, exec c s = .next t ∧ t.pending = s.pending) ∧
    NoOccasionChangesNothing ∧ ArbiterRotation

/-! ### Cold start (R7, R8, R36, R122, R132, R145, R169, R170) -/

/-- What the blocks hold at a cold start, apart from the pins and the image. -/
def Obligations.ColdValues : Prop :=
  ∀ s : State, ∃ t, exec .coldStart s = .next t ∧
    (∀ z, t.zone z = ⟨.free, 0, none⟩) ∧
    (∀ c, t.cls c = ⟨5000, 500, 1000, 16, 10000⟩) ∧
    (∀ i, t.slot i = ⟨0, none⟩) ∧ t.waiting = [] ∧ t.sequence = 0 ∧ t.threshold = 112 ∧
    t.armed = true ∧ t.arbiter = 4 ∧
    t.clock.state.code = 0 ∧ t.clock.mode = .auto ∧ t.clock.latched = false ∧ t.clock.tickCount = 0 ∧
    t.clock.lockRun = 0 ∧ t.clock.lastPulse = none ∧
    (∀ l, (t.link l).line = ⟨false, 13, 0, .none, .one⟩ ∧ (t.link l).fifo = [] ∧
      (t.link l).lossPending = false ∧ (t.link l).decoder = .hunt ∧ (t.link l).requestSlot = none ∧
      (t.link l).replyBuffer = none ∧ (t.link l).tx = .idle ∧ (t.link l).noticePointer = 0) ∧
    (∀ l, t.port.linkCause.get l = 0) ∧ t.port.tableCause = 0 ∧ t.port.timeCause = 0 ∧
    t.port.cmdCause = 0 ∧ t.port.groupEnable = 0 ∧ t.port.busy = false ∧ (∀ k, t.port.args.get k = 0) ∧
    t.port.command = 0 ∧ t.port.result = 0 ∧ (∀ k, t.port.res.get k = 0) ∧ t.port.tickLatch = 0 ∧
    t.port.i2cPointer = 0 ∧ t.irqN = true ∧ t.storeInvalid = false ∧ t.restarting = false ∧
    t.inReset = true ∧ t.image = s.image

/-- Leaving reset with AUTOLOAD high and a valid image loads every content of the image, and only those; the
pins are sampled and the cold values stand elsewhere (R170, R171). -/
def LeaveResetLoadsValidImage : Prop :=
  ∀ (msel a1 a0 : Bool) (s : State), s.inReset = true → s.image.mark = true →
    s.image.check = Config.imageCheck s.image.contents →
    ∃ t, exec (.leaveReset msel a1 a0 true) s = .next t ∧
      (∀ z, t.zone z = ⟨if (s.image.contents.zones.get z).enabled then .free else .disabled,
        (s.image.contents.zones.get z).cls, none⟩) ∧
      t.classes = s.image.contents.classes ∧
      (∀ l, t.link l = { LinkState.cold with line := s.image.contents.links.get l }) ∧
      t.threshold = s.image.contents.threshold ∧ t.storeInvalid = false ∧
      t = { State.cold s.image s.pending with
        zones := t.zones, classes := t.classes, links := t.links, threshold := t.threshold
        port := { Port.cold with msel := msel, a1 := a1, a0 := a0 }
        autoload := true
        inReset := false }

/-- With AUTOLOAD low, or with an invalid image, every cold value stands, and STORE_INVALID is set exactly in
the second case (R170, R171). -/
def LeaveResetKeepsColdValues : Prop :=
  ∀ (msel a1 a0 autoload : Bool) (s : State), s.inReset = true →
    (autoload = true → ¬(s.image.mark = true ∧ s.image.check = Config.imageCheck s.image.contents)) →
    exec (.leaveReset msel a1 a0 autoload) s =
      .next { State.cold s.image s.pending with
        port := { Port.cold with msel := msel, a1 := a1, a0 := a0 }
        autoload := autoload
        storeInvalid := autoload
        inReset := false }

/-- Leaving reset: a valid image is loaded under AUTOLOAD, and otherwise every cold value stands (R170, R171). -/
def Obligations.LeaveResetOutcome : Prop :=
  LeaveResetLoadsValidImage ∧ LeaveResetKeepsColdValues

/-! ### Client requests: refusals common to all (R20, R21, R63, R147, R149, R150) -/

/-- A request that carries a handle is refused BAD_LENGTH first and STALE_HANDLE second, with the handle as
received, and nothing else changes. -/
def BadLengthAndStaleHandleRefused : Prop :=
  ∀ c kind len, (c, kind, len) ∈ handleRequests → ∀ (l : Link) (f : List Byte) (s : State),
    s.takesRequest l f → frameByte f 0 = kind →
    let refused (cause : Byte) : Prop := exec (c l) s =
      .next (s.answered s l ⟨[0x21, kind, frameByte f 1, frameByte f 2, cause], none⟩)
    (f.length ≠ len → refused 2) ∧
    (f.length = len →
      (128 ≤ (frameByte f 1).toNat ∨ ∃ i : SlotId, (frameByte f 1).toNat = i.1 ∧
        (s.lease i = none ∨ s.generation i ≠ frameByte f 2)) → refused 11)

/-- R21: a request on the record of another link is refused NOT_OWNER, third in every check order, and nothing
else changes; REVOKE makes no owner check. -/
def Obligations.NotOwnerRefusedThird : Prop :=
  (∀ c kind len, (c, kind, len) ∈ handleRequests → ∀ (l : Link) (f : List Byte) (s : State) i r,
    s.takesRequest l f → frameByte f 0 = kind → f.length = len →
    s.handleNames (frameByte f 1) (frameByte f 2) i r → r.owner ≠ l →
    exec (c l) s = .next (s.answered s l ⟨[0x21, kind, frameByte f 1, frameByte f 2, 12], none⟩)) ∧
  (∀ (args : Table 8 Byte) (s : State) i r, s.takesCommand 0x0C args →
    s.handleNames (argOf args 0) (argOf args 1) i r → r.phase.live = true →
    ∃ t, exec .revoke s = .next t ∧ t.port.result = 0) ∧
  (∀ (args : Table 8 Byte) (s : State), s.takesCommand 0x0C args →
    (¬∃ i r, s.handleNames (argOf args 0) (argOf args 1) i r) →
    exec .revoke s = .next (s.served.completed .staleHandle []))

/-- A frame whose kind is no request code is refused BAD_KIND whatever its length, and nothing else changes
(R147, R150). -/
def BadKindRefused : Prop :=
  ∀ (l : Link) (f : List Byte) (s : State), s.takesRequest l f →
    frameByte f 0 ∉ [0x10, 0x11, 0x12, 0x13, 0x14, 0x15, 0x18, 0x19] →
    exec (.badKind l) s = .next (s.answered s l ⟨[0x21, frameByte f 0, 1], none⟩)

/-- The refusals that come before a request's own checks: an unknown kind, a bad length, a stale handle. -/
def Obligations.RequestRefusedAtOnce : Prop :=
  BadLengthAndStaleHandleRefused ∧ BadKindRefused

/-! ### ACQUIRE (R39 to R44, R147, R148) -/

/-- ACQUIRE's length and fields (checks 1 and 2 of Table 3-2). -/
def AcquireLengthAndFieldsChecked : Prop :=
  ∀ (l : Link) (f : List Byte) (s : State), s.takesRequest l f → frameByte f 0 = 0x10 →
    let n := (frameByte f 4).toNat
    let refused (cause : Byte) : Prop := exec (.acquire l) s =
      .next (s.answered s l ⟨[0x21, 0x10, frameByte f 1, cause], none⟩)
    (f.length < 5 ∨ f.length ≠ 9 + n → refused 2) ∧
    (5 ≤ f.length → f.length = 9 + n →
      (n = 0 ∨ 4 < n ∨ (∃ b ∈ (f.drop 5).take n, 64 ≤ b.toNat) ∨ ¬((f.drop 5).take n).Nodup ∨
        4 ≤ (frameByte f 2).toNat) → refused 3)

/-- The checks 3 to 7 of Table 3-2, in their order, on a frame of good length and fields; TABLE_FULL also sets
EXHAUSTED. -/
def AcquireChecksInOrder : Prop :=
  ∀ (l : Link) (s : State) (tag : Byte) (p : Priority) (options : Byte) (zs : List ZoneId)
    (duration wait : Nat), 1 ≤ zs.length → zs.length ≤ 4 → zs.Nodup →
    s.takesRequest l (acquireFrame tag p options zs duration wait) →
    let refusal (cause : Byte) : OutFrame := ⟨[0x21, 0x10, tag, cause], none⟩
    let disabled := ∃ z ∈ zs, (s.zone z).state = .disabled
    let tagUsed := ∃ i r, s.lease i = some r ∧ r.owner = l ∧ r.tag = tag
    let own := ∃ z ∈ zs, ∃ h r, (s.zone z).state.holder = some h ∧ s.lease h = some r ∧ r.owner = l
    (disabled → exec (.acquire l) s = .next (s.answered s l (refusal 4))) ∧
    (¬disabled → tagUsed → exec (.acquire l) s = .next (s.answered s l (refusal 5))) ∧
    (¬disabled → ¬tagUsed → own → exec (.acquire l) s = .next (s.answered s l (refusal 6))) ∧
    (¬disabled → ¬tagUsed → ¬own → s.running = false →
      exec (.acquire l) s = .next (s.answered s l (refusal 7))) ∧
    (¬disabled → ¬tagUsed → ¬own → s.running = true → (∀ i, s.lease i ≠ none) →
      exec (.acquire l) s = .next ((s.raiseTable 0x08).answered s l (refusal 8)))

/-- The checks of ACQUIRE in the order of Table 3-2 (R40). -/
def Obligations.AcquireRefusals : Prop :=
  AcquireLengthAndFieldsChecked ∧ AcquireChecksInOrder

/-- The state in which an ACQUIRE of good fields passes its checks (R40). -/
def AcquirePasses (s : State) (l : Link) (tag : Byte) (zs : List ZoneId) (i : SlotId) : Prop :=
  (∀ z ∈ zs, (s.zone z).state ≠ .disabled) ∧ (∀ j r, s.lease j = some r → r.owner = l → r.tag ≠ tag) ∧
    (∀ z ∈ zs, ∀ h r, (s.zone z).state.holder = some h → s.lease h = some r → r.owner ≠ l) ∧
    s.running = true ∧ s.lease i = none ∧ ∀ j, j < i → s.lease j ≠ none

/-- Every zone named is FREE and none carries the earmark of an entry of priority `p` or above (R42). -/
def GrantableAtOnce (s : State) (p : Priority) (zs : List ZoneId) : Prop :=
  (∀ z ∈ zs, (s.zone z).state = .free) ∧
    ∀ z ∈ zs, ∀ e q, (s.zone z).earmark = some e → s.lease e = some q → q.priority < p

/-- A grant at once: the lowest FREE slot is allocated to a HELD record of the clamped term, its zones are
taken, a grant scan runs, and the reply reports the record as the scan left it (R41, R42, R44). -/
def Obligations.AcquireGrantedAtOnce : Prop :=
  ∀ (l : Link) (s : State) (tag : Byte) (p : Priority) (options : Byte) (zs : List ZoneId)
    (duration wait : Nat) (i : SlotId), 1 ≤ zs.length → zs.length ≤ 4 → zs.Nodup → duration < 65536 →
    wait < 65536 → s.takesRequest l (acquireFrame tag p options zs duration wait) →
    AcquirePasses s l tag zs i → GrantableAtOnce s p zs →
    let lim := s.limitsOf zs
    let term := min (max duration 1) lim.maxDuration
    let r : Lease := ⟨l, tag, p, options.getLsbD 0, zs, lim, term, 0, .held term false, none⟩
    let t := (((s.takeSlot l).recordAllocated i r).zonesTaken i zs).grantScan
    ∃ q, t.lease i = some q ∧ q = { r with phase := q.phase } ∧
      exec (.acquire l) s = .next (t.placeReply s l
        ⟨[0x20, 0x10, slotByte i, s.generation i + 1, tag, q.phase.state.code, flagByte q.phase.warned]
            ++ twoBytes term ++ twoBytes q.phase.countdown,
          some ⟨i, s.generation i + 1, q.phase.state, q.phase.warned⟩⟩)

/-- A request that passes its checks and is not granted at once: refused UNAVAILABLE with a wait of 0, refused
LIST_FULL with EXHAUSTED when 32 entries wait, and otherwise entered as WAITING with the next sequence, a
grant scan following (R41, R43, R44). -/
def Obligations.AcquireWaitsOrIsRefused : Prop :=
  ∀ (l : Link) (s : State) (tag : Byte) (p : Priority) (options : Byte) (zs : List ZoneId)
    (duration wait : Nat) (i : SlotId), 1 ≤ zs.length → zs.length ≤ 4 → zs.Nodup → duration < 65536 →
    wait < 65536 → s.takesRequest l (acquireFrame tag p options zs duration wait) →
    AcquirePasses s l tag zs i → ¬GrantableAtOnce s p zs →
    let lim := s.limitsOf zs
    let term := min (max duration 1) lim.maxDuration
    let w := min wait lim.maxWait
    let refusal (cause : Byte) : OutFrame := ⟨[0x21, 0x10, tag, cause], none⟩
    let r : Lease := ⟨l, tag, p, options.getLsbD 0, zs, lim, term, 0, .waiting w s.sequence, none⟩
    let t := (((s.takeSlot l).recordAllocated i r).enterList i p false).grantScan
    (w = 0 → exec (.acquire l) s = .next (s.answered s l (refusal 10))) ∧
    (w ≠ 0 → 32 ≤ s.waiting.length →
      exec (.acquire l) s = .next ((s.raiseTable 0x08).answered s l (refusal 9))) ∧
    (w ≠ 0 → s.waiting.length < 32 → ∃ q, t.lease i = some q ∧
      exec (.acquire l) s = .next (t.placeReply s l
        ⟨[0x20, 0x10, slotByte i, s.generation i + 1, tag, q.phase.state.code, flagByte q.phase.warned]
            ++ twoBytes q.term ++ twoBytes q.phase.countdown,
          some ⟨i, s.generation i + 1, q.phase.state, q.phase.warned⟩⟩))

/-! ### RENEW, RELEASE, WIDEN, NARROW, PARK, QUERY_LEASE, QUERY_ZONE (R63 to R79, R97 to R99, R16, R32) -/

/-- The link's request carries the handle of its own record. -/
def OwnRequest (s : State) (l : Link) (f : List Byte) (kind : Byte) (len : Nat) (i : SlotId) (r : Lease) :
    Prop :=
  s.takesRequest l f ∧ frameByte f 0 = kind ∧ f.length = len ∧
    s.handleNames (frameByte f 1) (frameByte f 2) i r ∧ r.owner = l

/-- RENEW's checks 4 to 8 in order, and the record and reply an accepted RENEW leaves (R65, R66, R67). -/
def Obligations.RenewOutcome : Prop :=
  ∀ (l : Link) (f : List Byte) (s : State) (i : SlotId) (r : Lease), OwnRequest s l f 0x11 5 i r →
    let refused (cause : Byte) : Prop := exec (.renew l) s =
      .next (s.answered s l ⟨[0x21, 0x11, slotByte i, s.generation i, cause], none⟩)
    let term := min (max (frameWord f 3) 1) r.limits.maxDuration
    let r' := { r with term := term, phase := .held term false, renewals := min 255 (r.renewals + 1) }
    (r.phase.terminal = true → refused 13) ∧
    (r.phase.queued = true → refused 14) ∧
    (r.phase.isYielding = true → refused 15) ∧
    (r.phase.state = .held → s.running = false → refused 7) ∧
    (r.phase.state = .held → s.running = true → r.limits.renewalLimit ≤ r.renewals → refused 16) ∧
    (r.phase.state = .held → s.running = true → r.renewals < r.limits.renewalLimit →
      exec (.renew l) s = .next ((s.setLease i r').answered s l
        ⟨[0x20, 0x11, slotByte i, s.generation i, r.tag, 2, 0] ++ twoBytes term ++ twoBytes term
            ++ [byteOf (min 255 (r.renewals + 1))],
          some ⟨i, s.generation i, .held, false⟩⟩))

/-- RELEASE of a live record: its zones are given up or it leaves the list, it is freed, a grant scan runs, and
the reply names the state found (R76, R78). -/
def Obligations.ReleaseOfLiveRecord : Prop :=
  ∀ (l : Link) (f : List Byte) (s : State) (i : SlotId) (r : Lease), OwnRequest s l f 0x12 3 i r →
    let reply : OutFrame :=
      ⟨[0x20, 0x12, slotByte i, s.generation i, r.tag, r.phase.state.code, 0], none⟩
    (r.phase.holds = true → exec (.release l) s =
      .next (((((s.takeSlot l).zonesGivenUp r.zones).recordFreed i).grantScan).placeReply s l reply)) ∧
    (r.phase.queued = true → exec (.release l) s =
      .next (((((s.takeSlot l).leaveList i).recordFreed i).grantScan).placeReply s l reply))

/-- R77: RELEASE of a terminal record frees it and changes no zone and no list entry, and no grant scan runs;
its tag is free again, and no notice of it is found afterwards. -/
def Obligations.ReleaseOfTerminalRecord : Prop :=
  ∀ (l : Link) (f : List Byte) (s : State) (i : SlotId) (r : Lease), OwnRequest s l f 0x12 3 i r →
    r.phase.terminal = true →
    exec (.release l) s = .next ((s.recordFreed i).answered s l
      ⟨[0x20, 0x12, slotByte i, s.generation i, r.tag, r.phase.state.code, r.phase.endCode], none⟩) ∧
    (s.recordFreed i).lease i = none ∧ (s.recordFreed i).occupied + 1 = s.occupied ∧
    ∀ k, (s.recordFreed i).dirtyAt k i = false

/-- WIDEN's checks 4 to 14 in order, and the record, zone and reply an accepted WIDEN leaves (R69, R70, R71,
R152). That the accepted reply has no tag, as Table 10-5 lays it out, where the text of R23 has one, is the
model's choice (log entry 23, DESIGN CHOICE). -/
def Obligations.WidenOutcome : Prop :=
  ∀ (l : Link) (f : List Byte) (s : State) (i : SlotId) (r : Lease), OwnRequest s l f 0x13 4 i r →
    let refused (cause : Byte) : Prop := exec (.widen l) s =
      .next (s.answered s l ⟨[0x21, 0x13, slotByte i, s.generation i, cause], none⟩)
    (r.phase.terminal = true → refused 13) ∧
    (r.phase.queued = true → refused 14) ∧
    (r.phase.isYielding = true → refused 15) ∧
    (r.phase.state = .held → 64 ≤ (frameByte f 3).toNat → refused 3) ∧
    ∀ (z : ZoneId), r.phase.state = .held → (frameByte f 3).toNat = z.1 →
      let lim := s.limitsOf (r.zones ++ [z])
      let r' := { r with
        zones := r.zones ++ [z]
        limits := lim
        term := min r.term lim.maxDuration
        phase := .held (min r.phase.countdown lim.maxDuration) r.phase.warned }
      (z ∈ r.zones → refused 3) ∧
      (z ∉ r.zones → 4 ≤ r.zones.length → refused 17) ∧
      (z ∉ r.zones → r.zones.length < 4 →
        ((s.zone z).state = .disabled → refused 4) ∧
        ((s.zone z).state.isPending = true ∨ (s.zone z).state = .fenced → refused 18) ∧
        ((∃ h, (s.zone z).state = .held h) → refused 19) ∧
        ((s.zone z).state = .free → (s.zone z).earmark ≠ none → refused 20) ∧
        ((s.zone z).state = .free → (s.zone z).earmark = none → s.running = false → refused 7) ∧
        ((s.zone z).state = .free → (s.zone z).earmark = none → s.running = true →
          lim.renewalLimit < r.renewals → refused 16) ∧
        ((s.zone z).state = .free → (s.zone z).earmark = none → s.running = true →
          r.renewals ≤ lim.renewalLimit →
          exec (.widen l) s = .next (((s.setLease i r').zonesTaken i [z]).answered s l
            ⟨[0x20, 0x13, slotByte i, s.generation i, 2, flagByte r.phase.warned]
                ++ twoBytes (min r.term lim.maxDuration)
                ++ twoBytes (min r.phase.countdown lim.maxDuration)
                ++ [frameByte f 3, byteOf (r.zones.length + 1)],
              some ⟨i, s.generation i, .held, r.phase.warned⟩⟩)))

/-- NARROW's checks 4 to 7 in order, with no clock check, and the record, zone and reply an accepted NARROW of
a HELD or YIELDING record leaves (R72, R73, R74, R152). That the accepted reply has no tag, as Table 10-5 lays it
out, where the text of R23 has one, is the model's choice (log entry 23, DESIGN CHOICE). -/
def Obligations.NarrowOutcome : Prop :=
  ∀ (l : Link) (f : List Byte) (s : State) (i : SlotId) (r : Lease), OwnRequest s l f 0x14 4 i r →
    let refused (cause : Byte) : Prop := exec (.narrow l) s =
      .next (s.answered s l ⟨[0x21, 0x14, slotByte i, s.generation i, cause], none⟩)
    (r.phase.terminal = true → refused 13) ∧
    (r.phase.queued = true → refused 14) ∧
    (r.phase.holds = true → (∀ z ∈ r.zones, z.1 ≠ (frameByte f 3).toNat) → refused 21) ∧
    ∀ z ∈ r.zones, r.phase.holds = true → (frameByte f 3).toNat = z.1 →
      let zs := r.zones.filter (· != z)
      let r' := { r with zones := zs, limits := s.limitsOf zs }
      let t := (((s.takeSlot l).setLease i r').zonesGivenUp [z]).grantScan
      (r.zones.length = 1 → refused 22) ∧
      (r.zones.length ≠ 1 → ∃ q, t.lease i = some q ∧ q.zones = zs ∧ q.limits = s.limitsOf zs ∧
        exec (.narrow l) s = .next (t.placeReply s l
          ⟨[0x20, 0x14, slotByte i, s.generation i, q.phase.state.code, flagByte q.phase.warned]
              ++ twoBytes q.term ++ twoBytes q.phase.countdown ++ [frameByte f 3, byteOf zs.length],
            some ⟨i, s.generation i, q.phase.state, q.phase.warned⟩⟩))

/-- PARK's checks 4 to 7 in order, and the changes and reply of an accepted PARK (R97, R98, R99). -/
def Obligations.ParkOutcome : Prop :=
  ∀ (l : Link) (f : List Byte) (s : State) (i : SlotId) (r : Lease), OwnRequest s l f 0x15 3 i r →
    let refusal (cause : Byte) : OutFrame := ⟨[0x21, 0x15, slotByte i, s.generation i, cause], none⟩
    let r' := { r with phase := .parked r.limits.maxWait s.sequence }
    let t := ((((s.takeSlot l).zonesGivenUp r.zones).setLease i r').enterList i r.priority true).grantScan
    (r.phase.terminal = true → exec (.park l) s = .next (s.answered s l (refusal 13))) ∧
    (r.phase.queued = true ∨ r.phase.state = .held →
      exec (.park l) s = .next (s.answered s l (refusal 23))) ∧
    (r.phase.isYielding = true → r.limits.maxWait = 0 →
      exec (.park l) s = .next (s.answered s l (refusal 24))) ∧
    (r.phase.isYielding = true → r.limits.maxWait ≠ 0 → 32 ≤ s.waiting.length →
      exec (.park l) s = .next ((s.raiseTable 0x08).answered s l (refusal 9))) ∧
    (r.phase.isYielding = true → r.limits.maxWait ≠ 0 → s.waiting.length < 32 →
      ∃ q, t.lease i = some q ∧
        exec (.park l) s = .next (t.placeReply s l
          ⟨[0x20, 0x15, slotByte i, s.generation i, r.tag, q.phase.state.code, flagByte q.phase.warned]
              ++ twoBytes r.term ++ twoBytes q.phase.countdown ++ [byteOf q.renewals],
            some ⟨i, s.generation i, q.phase.state, q.phase.warned⟩⟩))

/-- QUERY_LEASE answers with the record whole and changes nothing else (R32, R154). -/
def QueryLeaseOutcome : Prop :=
  ∀ (l : Link) (f : List Byte) (s : State) (i : SlotId) (r : Lease), OwnRequest s l f 0x18 3 i r →
    exec (.queryLease l) s = .next (s.answered s l
      ⟨[0x20, 0x18, slotByte i, s.generation i, r.tag, r.phase.state.code, flagByte r.phase.warned,
            r.phase.endCode, byteOf r.priority.1, flagByte r.yieldable]
          ++ twoBytes r.term ++ twoBytes r.phase.countdown ++ twoBytes r.phase.yieldCountdown
          ++ [byteOf r.renewals, byteOf r.zones.length] ++ r.zones.map (fun z => byteOf z.1),
        some ⟨i, s.generation i, r.phase.state, r.phase.warned⟩⟩)

/-- QUERY_ZONE's checks, and its answer: the zone's state, class and earmark, and the holder's handle only to
the holder's own link (R16, R153). -/
def QueryZoneOutcome : Prop :=
  ∀ (l : Link) (f : List Byte) (s : State), s.takesRequest l f → frameByte f 0 = 0x19 →
    let refused (cause : Byte) : Prop := exec (.queryZone l) s =
      .next (s.answered s l ⟨[0x21, 0x19, frameByte f 1, cause], none⟩)
    (f.length ≠ 2 → refused 2) ∧
    (f.length = 2 → 64 ≤ (frameByte f 1).toNat → refused 3) ∧
    ∀ z : ZoneId, f.length = 2 → (frameByte f 1).toNat = z.1 →
      let answer (holder : List Byte) : Prop := exec (.queryZone l) s =
        .next (s.answered s l ⟨[0x20, 0x19, frameByte f 1, (s.zone z).state.code, byteOf (s.zone z).cls.1,
          if (s.zone z).earmark = none then 0 else 1] ++ holder, none⟩)
      ((s.zone z).state.holder = none → answer [0, 0xFF, 0]) ∧
      (∀ h r, (s.zone z).state.holder = some h → s.lease h = some r →
        (r.owner = l → answer [1, slotByte h, s.generation h]) ∧
        (r.owner ≠ l → answer [2, 0xFF, 0]))

/-- QUERY_LEASE and QUERY_ZONE answer and change nothing else (R16, R32). -/
def Obligations.QueryOutcomes : Prop :=
  QueryLeaseOutcome ∧ QueryZoneOutcome

/-! ### Effective limits and the waiting list (R10, R47) -/

/-- R10: of each parameter the effective limit is the smallest among the classes of the zones listed; of the
warn leads only those above 0 count, and there is none when all are 0. -/
def Obligations.EffectiveLimitsAreSmallest : Prop :=
  ∀ (s : State) (zs : List ZoneId), zs ≠ [] →
    let lim := s.limitsOf zs
    let c (z : ZoneId) := s.cls (s.zone z).cls
    ((∀ z ∈ zs, lim.maxDuration ≤ (c z).maxDuration) ∧ ∃ z ∈ zs, lim.maxDuration = (c z).maxDuration) ∧
    ((∀ z ∈ zs, lim.yieldWindow ≤ (c z).yieldWindow) ∧ ∃ z ∈ zs, lim.yieldWindow = (c z).yieldWindow) ∧
    ((∀ z ∈ zs, lim.renewalLimit ≤ (c z).renewalLimit) ∧ ∃ z ∈ zs, lim.renewalLimit = (c z).renewalLimit) ∧
    ((∀ z ∈ zs, lim.maxWait ≤ (c z).maxWait) ∧ ∃ z ∈ zs, lim.maxWait = (c z).maxWait) ∧
    (lim.warnLead = none ↔ ∀ z ∈ zs, (c z).warnLead = 0) ∧
    ∀ n, lim.warnLead = some n → n ≠ 0 ∧ (∃ z ∈ zs, (c z).warnLead = n) ∧
      ∀ z ∈ zs, (c z).warnLead ≠ 0 → n ≤ (c z).warnLead

/-- A record of priority `p` is inserted before the first entry of lower priority, or, when it is PARKED,
before the first WAITING entry of its priority if that comes sooner, and at the tail when there is none; the
sequence counter is raised by one; nothing else changes (R47). -/
def Obligations.InsertionPlace : Prop :=
  ∀ (s : State) (i : SlotId) (p : Priority) (parked : Bool),
    let passes (x : SlotId) : Prop := ∃ r, s.lease x = some r ∧
      (r.priority < p ∨ (parked = true ∧ r.priority = p ∧ r.phase.isParked = false))
    ∃ a b, s.waiting = a ++ b ∧
      s.enterList i p parked = { s with waiting := a ++ i :: b, sequence := s.sequence + 1 } ∧
      (∀ x ∈ a, ¬passes x) ∧ ∀ x ∈ b.head?, passes x

/-! ### The grant scan (R54 to R61) -/

/-- The scan of a change into running: the oldest event handed over is taken with one grant scan (R130). -/
def RunningChangeIsScanned : Prop :=
  ∀ (s : State) (rest : List HandedEvent), s.clock.handed = .runningChange :: rest →
    s.inReset = false → s.restarting = false →
    exec .runningChangeScan s =
      .next (State.grantScan { s with clock := { s.clock with handed := rest } })

/-- What a grant scan may make of a record: a WAITING or PARKED one stays as it is or is granted, HELD or at once
asked to yield, with its lease countdown at its term and unwarned, its renewals 0 from WAITING and kept from
PARKED; a HELD one may become YIELDING with its yield window and a YIELDING one HELD, the lease countdown and
the warned flag kept; only a yieldable record becomes YIELDING; a terminal one stays as it is (R56, R58 to R60). -/
def ScanMoves (r q : Lease) : Prop :=
  match r.phase with
  | .waiting _ _ => q = r ∨ q = { r with phase := .held r.term false, renewals := 0 } ∨
      (r.yieldable = true ∧ q = { r with phase := .yielding r.term r.limits.yieldWindow false, renewals := 0 })
  | .parked _ _ => q = r ∨ q = { r with phase := .held r.term false } ∨
      (r.yieldable = true ∧ q = { r with phase := .yielding r.term r.limits.yieldWindow false })
  | .held c w => q = r ∨ (r.yieldable = true ∧ q = { r with phase := .yielding c r.limits.yieldWindow w })
  | .yielding c _ w => q = r ∨ q = { r with phase := .held c w }
  | .expired | .revoked _ | .lapsed _ => q = r

/-- A grant scan changes zone states only from FREE to HELD, sets earmarks, removes entries from the list,
and frees, allocates and ends no record; with the list's law a record moves only as R56 and R58 to R60 give.
It sets no cause and touches nothing else (R54). -/
def GrantScanFrame : Prop :=
  ∀ s : State, ∃ t, t = s.grantScan ∧
    t = { s with zones := t.zones, slots := t.slots, waiting := t.waiting } ∧
    (∀ z, (t.zone z).cls = (s.zone z).cls ∧ ((t.zone z).state = (s.zone z).state ∨
      ((s.zone z).state = .free ∧ ∃ i, (t.zone z).state = .held i))) ∧
    t.waiting.Sublist s.waiting ∧
    ∀ i, t.generation i = s.generation i ∧
      ((s.lease i = none ∧ t.lease i = none) ∨ ∃ r q, s.lease i = some r ∧ t.lease i = some q ∧
        q = { r with phase := q.phase, renewals := q.renewals } ∧ (s.ListLaw → ScanMoves r q))

/-- The scan of a change into running, and what a grant scan may touch (R54, R56, R58 to R60, R130). -/
def Obligations.ScanFrame : Prop :=
  RunningChangeIsScanned ∧ GrantScanFrame

/-- R61: with the clock stopped the scan clears every earmark, gives each zone that is FREE or HELD the
earmark of the first entry in list order that lists it, and changes nothing else. -/
def Obligations.StoppedScanOnlyEarmarks : Prop :=
  ∀ s : State, s.running = false →
    s.grantScan = { s with zones := s.zones.mapIdx fun z x =>
      { x with earmark :=
        match x.state with
        | .free | .held _ => s.waiting.find? fun e =>
            match s.lease e with | some r => decide (z ∈ r.zones) | none => false
        | _ => none } }

/-- With the clock running, an entry at the head of the list whose zones are all FREE is granted: it leaves the
list, holds its zones, and is HELD (or at once asked to yield) with its lease countdown at its term,
unwarned, its renewals 0 from WAITING and kept from PARKED (R55, R56). -/
def HeadIsGranted : Prop :=
  ∀ (s : State) (e : SlotId) (rest : List SlotId) (r : Lease), s.running = true → s.waiting = e :: rest →
    e ∉ rest → s.lease e = some r → (∀ z ∈ r.zones, (s.zone z).state = .free) →
    ∃ q, s.grantScan.lease e = some q ∧ q.phase.holds = true ∧ q.phase.countdown = r.term ∧
      q.phase.warned = false ∧ q.renewals = (if r.phase.isParked then r.renewals else 0) ∧
      e ∉ s.grantScan.waiting ∧ ∀ z ∈ r.zones, (s.grantScan.zone z).state = .held e

/-- R55 for every entry of the list: it is granted exactly when each of its zones is FREE before the scan and
listed by no entry before it in the list, since such an entry has taken or earmarked the zone; otherwise it
keeps its place in the list and its record as it is (R55 to R57). -/
def EntryIsGrantedOrNot : Prop :=
  ∀ (s : State) (a b : List SlotId) (e : SlotId) (r : Lease), s.running = true → s.ListLaw →
    s.waiting = a ++ e :: b → s.lease e = some r →
    let unwanted (z : ZoneId) : Prop := ∀ x ∈ a, ∀ q, s.lease x = some q → z ∉ q.zones
    let grantable := ∀ z ∈ r.zones, (s.zone z).state = .free ∧ unwanted z
    let t := s.grantScan
    (grantable → ∃ q, t.lease e = some q ∧ q.phase.holds = true ∧ q.phase.countdown = r.term ∧
      q.phase.warned = false ∧ q.renewals = (if r.phase.isParked then r.renewals else 0) ∧
      e ∉ t.waiting ∧ ∀ z ∈ r.zones, (t.zone z).state = .held e) ∧
    (¬grantable → t.lease e = some r ∧ e ∈ t.waiting)

/-- Which entries of the list a scan with the clock running grants, and what a grant does (R55, R56). -/
def Obligations.HeadEntryIsGranted : Prop :=
  HeadIsGranted ∧ EntryIsGrantedOrNot

/-- The earmarks a scan with the clock running leaves: a zone that is then FREE or HELD carries that of the first
entry left in the list that lists it, and any other zone carries none (R54, R57). -/
def EarmarksAfterScan : Prop :=
  ∀ (s : State), s.running = true → s.ListLaw → ∀ z,
    let t := s.grantScan
    (t.zone z).earmark =
      match (t.zone z).state with
      | .free | .held _ => t.waiting.find? fun e =>
          match t.lease e with | some r => decide (z ∈ r.zones) | none => false
      | _ => none

/-- R58: the holder of a zone that an entry of higher priority has earmarked is YIELDING after the scan if it is
yieldable, its yield countdown at its yield window if it was HELD before the scan, and kept if it was
YIELDING. -/
def EarmarkAsksToYield : Prop :=
  ∀ (s : State) (z : ZoneId) (h e : SlotId) (r q : Lease), s.running = true → s.ListLaw → s.HolderLaw →
    let t := s.grantScan
    (t.zone z).state = .held h → (t.zone z).earmark = some e → t.lease h = some r → t.lease e = some q →
    r.yieldable = true → r.priority < q.priority →
    ∃ r₀, s.lease h = some r₀ ∧
      r.phase = .yielding r.phase.countdown
        (if r₀.phase.isYielding then r₀.phase.yieldCountdown else r.limits.yieldWindow) r.phase.warned

/-- After a scan with the clock running every yieldable record that holds a FENCE_PENDING zone has left HELD,
and every YIELDING record has a reason: such a zone, or a zone earmarked by an entry of higher priority; a
YIELDING record that is not yieldable was YIELDING before, since the scan asks only yieldable holders
(R58 to R60). -/
def YieldsHaveReasons : Prop :=
  ∀ (s : State) (i : SlotId) (r : Lease), s.running = true → s.grantScan.lease i = some r →
    let t := s.grantScan
    let pending := ∃ z ∈ r.zones, (t.zone z).state = .fencePending i
    let contested := ∃ z ∈ r.zones, ∃ e q, (t.zone z).earmark = some e ∧ t.lease e = some q ∧
      r.priority < q.priority
    (r.yieldable = true → pending → r.phase.state ≠ .held) ∧
    (r.phase.isYielding = true → pending ∨ contested) ∧
    (r.phase.isYielding = true → r.yieldable = true ∨ ∃ r₀, s.lease i = some r₀ ∧ r₀.phase.isYielding = true)

/-- What a scan with the clock running leaves on the zones and on their holders: the earmarks, the yields that
they ask for, and no yield without a reason (R54, R57 to R60). -/
def Obligations.YieldsHaveReasonsAfterScan : Prop :=
  YieldsHaveReasons ∧ EarmarksAfterScan ∧ EarmarkAsksToYield

/-! ### The expiry engine (R80 to R86) -/

/-- What a tick takes from a record's countdowns and adds to its warning, when the record does not end (R81,
R82). -/
def tickedPhase (lead : Option Nat) : Phase → Phase
  | .waiting c q => .waiting (c - 1) q
  | .parked c q => .parked (c - 1) q
  | .held c w => .held (c - 1) (w || (match lead with | some n => decide (c - 1 ≤ n) | none => false))
  | .yielding c y w =>
    .yielding (c - 1) (y - 1) (w || (match lead with | some n => decide (c - 1 ≤ n) | none => false))
  | p => p

/-- A tick at which no countdown reaches 0: every countdown of every live record falls by one, every held
record at or below its warn lead is warned, no scan runs and nothing else changes (R80, R81, R82). -/
def Obligations.TickCountsDownAndWarns : Prop :=
  ∀ (s : State) (rest : List HandedEvent), s.clock.handed = .tick :: rest → s.inReset = false →
    s.restarting = false → s.running = true →
    (∀ i r, s.lease i = some r → r.phase.live = true →
      2 ≤ r.phase.countdown ∧ (r.phase.isYielding = true → 2 ≤ r.phase.yieldCountdown)) →
    exec .tick s = .next { s with
      clock := { s.clock with handed := rest }
      slots := s.slots.mapIdx fun _ x => { x with
        lease := x.lease.map fun r => { r with phase := tickedPhase r.limits.warnLead r.phase } } }

/-- The end that a tick brings to a record, if it brings a countdown to 0 (R83 to R86). -/
def tickEnd (r : Lease) : Option Phase :=
  if r.phase.queued then (if r.phase.countdown ≤ 1 then some (.lapsed .waitOut) else none)
  else if r.phase.holds then
    if r.phase.countdown ≤ 1 then some .expired
    else if r.phase.isYielding && decide (r.phase.yieldCountdown ≤ 1) then some (.revoked .yieldLate)
    else none
  else none

/-- Slot `i` holds a record that the tick ends and that satisfies `p`. -/
def endsWith (s : State) (p : Lease → Bool) (i : SlotId) : Bool :=
  match s.lease i with
  | some r => (tickEnd r).isSome && p r
  | none => false

/-- Some record that satisfies `p` ends by the tick. -/
def someEnds (s : State) (p : Lease → Bool) : Bool := (List.finRange 128).any (endsWith s p)

/-- The state that the endings of a tick leave, before its grant scan: the records due are terminal, or freed
where their link is disabled; the zones of the holders among them are given up; the queued among them have
left the list; REVOKE_LATE is set when one of them was late, and FENCE_DONE when one of the zones given up was
FENCE_PENDING; every other record is counted down and warned (R81 to R87, R112). -/
def tickEnded (s : State) (rest : List HandedEvent) : State :=
  let gives (z : ZoneId) : Bool := someEnds s fun r => r.phase.holds && decide (z ∈ r.zones)
  let slots := s.slots.mapIdx fun _ x => { x with
    lease := x.lease.bind fun r =>
      match tickEnd r with
      | some p => if (s.link r.owner).line.enabled then some { r with phase := p } else none
      | none => some { r with phase := tickedPhase r.limits.warnLead r.phase } }
  { s with
    clock := { s.clock with handed := rest }
    slots := slots
    zones := s.zones.mapIdx fun z x => if gives z then x.givenUp else x
    waiting := s.waiting.filter fun i => !endsWith s (fun r => r.phase.queued) i
    armed := s.armed ||
      (someEnds s (fun r => !(s.link r.owner).line.enabled)
        && decide (State.occupied { s with slots := slots } < s.threshold))
    port := { s.port with
      tableCause := s.port.tableCause
        ||| (if someEnds s fun r => tickEnd r == some (.revoked .yieldLate) then 0x01 else 0)
        ||| (if (List.finRange 64).any fun z => gives z && (s.zone z).state.isPending then 0x02 else 0) } }

/-- A tick that ends a record makes the endings of all the records due and then exactly one grant scan (R80 to
R88). -/
def TickEndsThenScans : Prop :=
  ∀ (s : State) (rest : List HandedEvent), s.clock.handed = .tick :: rest → s.inReset = false →
    s.restarting = false → s.running = true → (∃ i r, s.lease i = some r ∧ tickEnd r ≠ none) →
    exec .tick s = .next (tickEnded s rest).grantScan

/-- After a tick no live record that was live before it stands with a lease or wait countdown of 0, nor YIELDING
with a yield countdown of 0: a record whose countdown the tick brought to 0 is terminal, or freed with its
link disabled (R83 to R86); the list obeys its law before the tick (R46). -/
def DueRecordsEnd : Prop :=
  ∀ (s t : State) (rest : List HandedEvent) (i : SlotId) (r : Lease),
    s.clock.handed = .tick :: rest → s.inReset = false → s.restarting = false → s.running = true →
    s.ListLaw → s.lease i = some r → r.phase.live = true →
    (r.phase.countdown ≤ 1 ∨ (r.phase.isYielding = true ∧ r.phase.yieldCountdown ≤ 1)) →
    exec .tick s = .next t →
    t.lease i =
      (if (s.link r.owner).line.enabled then
        some { r with phase :=
          if r.phase.queued then .lapsed .waitOut
          else if r.phase.countdown ≤ 1 then .expired
          else .revoked .yieldLate }
      else none)

/-- A tick ends every record due, gives up their zones, sets its causes and makes one grant scan (R80 to
R88). -/
def Obligations.TickEndsDueRecords : Prop :=
  DueRecordsEnd ∧ TickEndsThenScans

/-- R84, for the command LAPSE run by itself: the command makes one part of a tick on its own, outside the tick,
which is a DESIGN CHOICE (log entry 7). A WAITING or PARKED record whose wait countdown is 0 lapses. It leaves
the list, its other fields are kept, and no zone, earmark or cause changes; on a disabled link it is freed at
once. -/
def Obligations.LapseOutcome : Prop :=
  ∀ (s : State) (i : SlotId) (r : Lease), s.inReset = false → s.restarting = false → s.running = true →
    s.lease i = some r → r.phase.queued = true → r.phase.countdown = 0 →
    exec (.lapse i) s =
      .next (State.recordEnded { s with waiting := s.waiting.filter (· != i) } i r (.lapsed .waitOut))

/-- A HELD or YIELDING record whose lease countdown is 0 expires: its zones are given up, its other fields are
kept, and REVOKE_LATE is not set (R85). -/
def ExpiryOutcome : Prop :=
  ∀ (s : State) (i : SlotId) (r : Lease), s.inReset = false → s.restarting = false → s.running = true →
    s.lease i = some r → r.phase.holds = true → r.phase.countdown = 0 →
    exec (.expiry i) s = .next ((s.zonesGivenUp r.zones).recordEnded i r .expired)

/-- A YIELDING record whose yield countdown is 0 and whose lease countdown is above 0 is revoked for lateness:
its zones are given up and REVOKE_LATE is set (R86). -/
def RevokeForLatenessOutcome : Prop :=
  ∀ (s : State) (i : SlotId) (r : Lease), s.inReset = false → s.restarting = false → s.running = true →
    s.lease i = some r → r.phase.isYielding = true → r.phase.yieldCountdown = 0 → r.phase.countdown ≠ 0 →
    exec (.revokeForLateness i) s =
      .next (((s.zonesGivenUp r.zones).recordEnded i r (.revoked .yieldLate)).raiseTable 0x01)

/-- The two ways a record that holds zones ends by time (R85, R86), for the commands EXPIRY and
REVOKE_FOR_LATENESS run by themselves: each makes one part of a tick on its own, outside the tick, which is a
DESIGN CHOICE (log entry 7). -/
def Obligations.LateEndings : Prop :=
  ExpiryOutcome ∧ RevokeForLatenessOutcome

/-! ### The lease clock (R123 to R129) -/

/-- No deadline of the clock falls due before instant `t`. -/
def QuietUntil (s : State) (t : Nat) : Prop :=
  s.clock.now ≤ t ∧ (∀ p, s.clock.lastPulse = some p → t ≤ p + 25200) ∧
    match s.clock.state with
    | .search since => t ≤ since + 480000
    | .external r => t ≤ r + 25200
    | .internal n => t ≤ n
    | .halted => True

/-- The lock run after a pulse at instant `t` (R123): a pulse taken after a loss of the source at that same
instant is the first of a new run (R124). -/
def runAfter (c : Clock) (t : Nat) : Nat :=
  match c.lastPulse with
  | some p => if p + 22800 ≤ t ∧ t ≤ p + 25200 ∧ c.lossAt ≠ some t then min 8 (c.lockRun + 1) else 0
  | none => 0

/-- A pulse at instant `t` is a lock (R123). -/
def isLock (c : Clock) (t : Nat) : Prop := c.lockRun = 7 ∧ runAfter c t = 8

/-- A tick handed over at instant `t` and counted, if no warm restart is in progress (R129, R131). -/
def tickHanded (s : State) (t : Nat) (c : Clock) : Clock :=
  if s.restarting then c
  else { c with tickCount := c.tickCount + 1, lastTick := some t, handed := c.handed ++ [.tick] }

/-- The clock with the pulse at `t` taken into its lock run. -/
def pulsed (c : Clock) (t : Nat) : Clock := { c with lockRun := runAfter c t, lastPulse := some t, now := t }

/-- In EXTERNAL a pulse no earlier than 0.95 ms after the reference is a tick and the new reference, and an
earlier one is discarded; both are counted by the lock run (R123, R124). -/
def PulseInExternal : Prop :=
  ∀ (s : State) (elapsed r : Nat), s.inReset = false → s.clock.state = .external r →
    QuietUntil s (s.clock.now + elapsed) →
    let t := s.clock.now + elapsed
    (r + 22800 ≤ t → exec (.syncinPulse elapsed) s =
      .next { s with clock := tickHanded s t { pulsed s.clock t with state := .external t } }) ∧
    (t < r + 22800 → exec (.syncinPulse elapsed) s = .next { s with clock := pulsed s.clock t })

/-- In INTERNAL a lock under AUTO moves the clock to EXTERNAL with the pulse as reference, with a tick unless
one was handed over less than 0.5 ms before; any other pulse only counts (R123, R125, R128). -/
def PulseInInternal : Prop :=
  ∀ (s : State) (elapsed n : Nat), s.inReset = false → s.clock.state = .internal n →
    QuietUntil s (s.clock.now + elapsed) →
    let t := s.clock.now + elapsed
    let c := { pulsed s.clock t with state := .external t }
    let u := { s with port := { s.port with timeCause := s.port.timeCause ||| 0x01 } }
    let room := ∀ k, s.clock.lastTick = some k → k + 12000 ≤ t
    (isLock s.clock t → s.clock.mode = .auto → room →
      exec (.syncinPulse elapsed) s = .next { u with clock := tickHanded s t c }) ∧
    (isLock s.clock t → s.clock.mode = .auto → ¬room →
      exec (.syncinPulse elapsed) s = .next { u with clock := c }) ∧
    (¬(isLock s.clock t ∧ s.clock.mode = .auto) →
      exec (.syncinPulse elapsed) s = .next { s with clock := pulsed s.clock t })

/-- In SEARCH and HALTED a lock moves the clock to EXTERNAL: the change to running is handed over and then the
lock pulse as a tick, with SOURCE_CHANGED and CLOCK_STARTED; any other pulse only counts (R123, R124, R126,
R128, R130). -/
def PulseWhileStopped : Prop :=
  ∀ (s : State) (elapsed : Nat), s.inReset = false → s.running = false →
    QuietUntil s (s.clock.now + elapsed) →
    let t := s.clock.now + elapsed
    let c := { pulsed s.clock t with
      state := .external t
      handed := if s.restarting then s.clock.handed else s.clock.handed ++ [.runningChange] }
    (isLock s.clock t → exec (.syncinPulse elapsed) s =
      .next { s with
        port := { s.port with timeCause := s.port.timeCause ||| 0x05 }
        clock := tickHanded s t c }) ∧
    (¬isLock s.clock t → exec (.syncinPulse elapsed) s = .next { s with clock := pulsed s.clock t })

/-- A pulse on SYNCIN in every state of the clock (R123 to R126, R128 to R131). -/
def Obligations.PulseOutcomes : Prop :=
  PulseInExternal ∧ PulseInInternal ∧ PulseWhileStopped

/-- 1.05 ms after the last pulse the lock run is emptied, and nothing else changes (R123). -/
def LockRunTimesOut : Prop :=
  ∀ (s : State) (p : Nat), s.inReset = false → s.clock.lastPulse = some p → QuietUntil s (p + 25200) →
    exec .lockRunTimeout s =
      .next { s with clock := { s.clock with lockRun := 0, lastPulse := none, now := p + 25200 } }

/-- 1.05 ms after the reference the source is lost: HALTED under MANUAL_EXTERNAL with SOURCE_CHANGED and
CLOCK_STOPPED, otherwise INTERNAL with a substitute tick at that instant and SOURCE_CHANGED alone, the next
internal tick 1.000 ms later (R124, R125, R128). -/
def SyncinLossOutcome : Prop :=
  ∀ (s : State) (r : Nat), s.inReset = false → s.clock.state = .external r → QuietUntil s (r + 25200) →
    let now := r + 25200
    (s.clock.mode = .manualExternal → exec .syncinLoss s =
      .next { s with
        port := { s.port with timeCause := s.port.timeCause ||| 0x03 }
        clock := { s.clock with state := .halted, lossAt := some now, now := now } }) ∧
    (s.clock.mode ≠ .manualExternal → exec .syncinLoss s =
      .next { s with
        port := { s.port with timeCause := s.port.timeCause ||| 0x01 }
        clock := tickHanded s now
          { s.clock with state := .internal (now + 24000), lossAt := some now, now := now } })

/-- In INTERNAL a tick is handed over at the scheduled instant and the next is due 1.000 ms later (R125). -/
def InternalTickOutcome : Prop :=
  ∀ (s : State) (n : Nat), s.inReset = false → s.clock.state = .internal n → QuietUntil s n →
    exec .internalTick s =
      .next { s with clock := tickHanded s n { s.clock with state := .internal (n + 24000), now := n } }

/-- 20 ms without a lock end the search in INTERNAL, the first tick due 1.000 ms later, with SOURCE_CHANGED and
CLOCK_STARTED, and the change to running is handed over (R125, R126, R128, R130). -/
def SearchTimesOut : Prop :=
  ∀ (s : State) (b : Nat), s.inReset = false → s.clock.state = .search b → QuietUntil s (b + 480000) →
    exec .searchTimeout s =
      .next { s with
        port := { s.port with timeCause := s.port.timeCause ||| 0x05 }
        clock := { s.clock with
          state := .internal (b + 480000 + 24000)
          now := b + 480000
          handed := if s.restarting then s.clock.handed else s.clock.handed ++ [.runningChange] } }

/-- The four deadlines of the clock (R123 to R126, R128). -/
def Obligations.DeadlineOutcomes : Prop :=
  LockRunTimesOut ∧ SyncinLossOutcome ∧ InternalTickOutcome ∧ SearchTimesOut

/-- The instant at which the deadline a command stands for falls due (R123 to R126). -/
def dueAt (s : State) : Instr → Option Nat
  | .lockRunTimeout => s.clock.lastPulse.map (· + 25200)
  | .syncinLoss => match s.clock.state with | .external r => some (r + 25200) | _ => none
  | .internalTick => match s.clock.state with | .internal n => some n | _ => none
  | .searchTimeout => match s.clock.state with | .search b => some (b + 480000) | _ => none
  | _ => none

/-- A deadline that falls due before an event happens before it: a pulse, a SET_TIMEBASE or a later deadline
leaves what it leaves after the earliest deadline has been taken on its own (R123 to R126, log entry 4). -/
def Obligations.DeadlinesComeFirst : Prop :=
  ∀ (s t : State) (c : Instr) (u : Nat), s.inReset = false → dueAt s c = some u → QuietUntil s u →
    exec c s = .next t →
    (∀ e, u < s.clock.now + e →
      exec (.syncinPulse e) s = exec (.syncinPulse (s.clock.now + e - u)) t ∧
      ∀ args, s.takesDirect 0x10 args →
        exec (.setTimebase e) s = exec (.setTimebase (s.clock.now + e - u)) t) ∧
    ∀ d v, dueAt s d = some v → u < v → exec d s = exec d t

/-- SET_TIMEBASE taken when no deadline falls due before it: LATCHED refuses AUTO after a manual mode; otherwise
mode, latch and state change as Table 8-3 gives, and the results report them (R127, R128); leaving EXTERNAL
with no tick ever handed over, the first internal tick falls at the command (log entry 14). -/
def Obligations.SetTimebaseOutcome : Prop :=
  ∀ (s : State) (args : Table 8 Byte) (elapsed : Nat), s.takesDirect 0x10 args →
    QuietUntil s (s.clock.now + elapsed) →
    let now := s.clock.now + elapsed
    let c := { s.clock with now := now }
    let done (causes : Byte) (c : Clock) : Prop := exec (.setTimebase elapsed) s =
      .next (State.completed { s with
          clock := c
          port := { s.port with timeCause := s.port.timeCause ||| causes } } .ok
        ([c.mode.code, c.state.code, flagByte c.latched, byteOf c.lockRun] ++ fourBytes c.tickCount))
    let refused (code : ResultCode) : Prop := exec (.setTimebase elapsed) s =
      .next (State.completed { s with clock := c } code [])
    let ext := { c with mode := .manualExternal, latched := true }
    let int := { c with mode := .manualInternal, latched := true }
    let started (c : Clock) : Clock :=
      { c with handed := if s.restarting then c.handed else c.handed ++ [.runningChange] }
    (3 ≤ (argOf args 0).toNat → refused .badArgument) ∧
    (argOf args 0 = 0 → s.clock.latched = true → refused .latched) ∧
    (argOf args 0 = 0 → s.clock.latched = false → done 0 c) ∧
    (argOf args 0 = 1 →
      (s.clock.state.code = 0 → done 0x03 { ext with state := .halted }) ∧
      (s.clock.state.code = 1 → done 0 ext) ∧
      (s.clock.state.code = 2 →
        done 0x03 { ext with state := .halted, lockRun := 0, lastPulse := none }) ∧
      (s.clock.state.code = 3 → done 0 ext)) ∧
    (argOf args 0 = 2 →
      (s.clock.state.code = 0 → done 0x05 (started { int with state := .internal (now + 24000) })) ∧
      (∀ k, s.clock.state.code = 1 → s.clock.lastTick = some k →
        done 0x01 { int with state := .internal (max (k + 24000) now) }) ∧
      (s.clock.state.code = 1 → s.clock.lastTick = none → done 0x01 { int with state := .internal now }) ∧
      (s.clock.state.code = 2 → done 0 int) ∧
      (s.clock.state.code = 3 → done 0x05 (started { int with state := .internal (now + 24000) })))

/-! ### Mailbox commands of the lease engine and the expiry engine -/

/-- An argument out of the range its command's rule gives completes with BAD_ARGUMENT, RES0 to RES7 written 0,
and nothing else changes: the zone and class commands (R12, R13, R14, R15), READ_LEASE (R33), SET_THRESHOLD (R35),
READ_LIST (R51), CLASS_LOAD (R92), FENCE and LIFT (R108, R115), SET_LINK (R140), LINK_RESET (R142) and READ_LINK
(R143). That a FENCE with ARG1 above 1 may come under either FENCE row is the model's choice (log entry 19,
DESIGN CHOICE). -/
def BadArgumentsRefused : Prop :=
  ∀ (s : State) (args : Table 8 Byte),
    let a (k : Nat) : Nat := (argOf args k).toNat
    let engine (c : Instr) (code : Byte) (bad : Prop) : Prop := s.takesCommand code args → bad →
      exec c s = .next (s.served.completed .badArgument [])
    let direct (c : Instr) (code : Byte) (bad : Prop) : Prop := s.takesDirect code args → bad →
      exec c s = .next (s.completed .badArgument [])
    engine .readZone 0x01 (64 ≤ a 0) ∧
    engine .setZone 0x02 (64 ≤ a 0 ∨ 2 ≤ a 1 ∨ 8 ≤ a 2) ∧
    engine .readClass 0x03 (8 ≤ a 0 ∨ 2 ≤ a 1) ∧
    engine .setClass 0x04 (8 ≤ a 0 ∨ 5 ≤ a 1 ∨ (a 1 = 3 ∧ 255 < a 2 * 256 + a 3)) ∧
    engine .readLease 0x05 (128 ≤ a 0 ∨ 5 ≤ a 1) ∧
    engine .setThreshold 0x06 (2 ≤ a 1 ∨ (a 1 = 1 ∧ 128 < a 0)) ∧
    engine .readList 0x07 (32 ≤ a 0) ∧
    engine .classLoad 0x09 (8 ≤ a 0) ∧
    engine .fenceWait 0x0A ((64 ≤ a 0 ∧ a 1 = 0) ∨ 2 ≤ a 1) ∧
    engine .fenceForce 0x0A ((64 ≤ a 0 ∧ a 1 = 1) ∨ 2 ≤ a 1) ∧
    engine .lift 0x0B (64 ≤ a 0) ∧
    direct .readLink 0x11 (4 ≤ a 0 ∨ 2 ≤ a 1) ∧
    ∀ n,
      direct (.setLink n) 0x12 (4 ≤ a 0 ∨ 2 ≤ a 1 ∨ 16 ≤ a 4 ∨ 5 ≤ a 5 ∨ (a 6 ≠ 1 ∧ a 6 ≠ 2)) ∧
      direct (.linkReset n) 0x13 (4 ≤ a 0)

/-- The bytes READ_ZONE returns for a zone (Table 1-7). -/
def zoneRecord (s : State) (z : ZoneId) : List Byte :=
  [(s.zone z).state.code, byteOf (s.zone z).cls.1]
    ++ (match (s.zone z).state.holder with
      | some h => [slotByte h, s.generation h,
          match s.lease h with | some r => byteOf r.owner.1 | none => 0xFF]
      | none => [0xFF, 0, 0xFF])
    ++ [match (s.zone z).earmark with | some e => slotByte e | none => 0xFF,
      byteOf (s.countLeases fun r => r.phase.live && r.zones.contains z), 0]

/-- READ_ZONE returns the zone's record and changes nothing else; SET_ZONE is refused IN_USE for a zone that is
HELD, FENCE_PENDING or FENCED or that a live record lists, and otherwise sets the zone's state and class
(R12, R13). -/
def Obligations.ZoneCommandOutcomes : Prop :=
  ∀ (s : State) (args : Table 8 Byte) (z : ZoneId), (argOf args 0).toNat = z.1 →
    (s.takesCommand 0x01 args →
      exec .readZone s = .next (s.served.completed .ok (zoneRecord s z))) ∧
    ∀ c : ClassId, (argOf args 2).toNat = c.1 → (argOf args 1 = 0 ∨ argOf args 1 = 1) →
      s.takesCommand 0x02 args →
      let used := ((s.zone z).state ≠ .free ∧ (s.zone z).state ≠ .disabled) ∨
        ∃ i r, s.lease i = some r ∧ r.phase.live = true ∧ z ∈ r.zones
      let x : Zone := ⟨if argOf args 1 = 1 then .free else .disabled, c, (s.zone z).earmark⟩
      let t := { s.served with zones := s.zones.set z x }
      (used → exec .setZone s = .next (s.served.completed .inUse [])) ∧
      (¬used → exec .setZone s = .next (t.completed .ok (zoneRecord t z)))

/-- READ_CLASS returns the class's parameters, and in part 1 how many zones and records belong to it, and
changes nothing else (R15). -/
def ReadClassOutcome : Prop :=
  ∀ (s : State) (args : Table 8 Byte) (c : ClassId), (argOf args 0).toNat = c.1 →
    s.takesCommand 0x03 args →
    let p := s.cls c
    let lists (r : Lease) : Bool := r.zones.any fun z => (s.zone z).cls == c
    (argOf args 1 = 0 → exec .readClass s = .next (s.served.completed .ok
      (twoBytes p.maxDuration ++ twoBytes p.warnLead ++ twoBytes p.yieldWindow ++ twoBytes p.maxWait))) ∧
    (argOf args 1 = 1 → exec .readClass s = .next (s.served.completed .ok
      [byteOf p.renewalLimit, byteOf (s.zones.count fun x => x.cls == c), byteOf (s.countLeases lists)]))

/-- R9, with R14's check and results: SET_CLASS is refused IN_USE while any record lists a zone of the class;
otherwise the parameter written is stored, a max duration or yield window of 0 as 1, the others unchanged,
and then a warn lead equal to or above the max duration as max duration - 1. -/
def Obligations.SetClassOutcome : Prop :=
  ∀ (s : State) (args : Table 8 Byte) (c : ClassId) (n : Fin 5), (argOf args 0).toNat = c.1 →
    (argOf args 1).toNat = n.1 → s.takesCommand 0x04 args →
    let v := (argOf args 2).toNat * 256 + (argOf args 3).toNat
    let used := ∃ i r z, s.lease i = some r ∧ z ∈ r.zones ∧ (s.zone z).cls = c
    let old := s.cls c
    let maxDuration := if n = 0 then max v 1 else old.maxDuration
    let lead := if n = 1 then v else old.warnLead
    let p : ClassParams :=
      ⟨maxDuration, if maxDuration ≤ lead then maxDuration - 1 else lead,
        if n = 2 then max v 1 else old.yieldWindow, if n = 3 then v else old.renewalLimit,
        if n = 4 then v else old.maxWait⟩
    let stored : Nat := if n = 0 then p.maxDuration else if n = 1 then p.warnLead
      else if n = 2 then p.yieldWindow else if n = 3 then p.renewalLimit else p.maxWait
    (n = 3 → v ≤ 255) →
    (used → exec .setClass s = .next (s.served.completed .inUse [])) ∧
    (¬used → exec .setClass s =
      .next (State.completed { s.served with classes := s.classes.set c p } .ok
        (twoBytes stored ++ twoBytes p.warnLead ++ [argOf args 1, argOf args 0])))

/-- READ_LEASE returns the five parts of Table 2-5 for a record and for a FREE slot, and changes nothing else
(R33). -/
def Obligations.ReadLeaseOutcome : Prop :=
  ∀ (s : State) (args : Table 8 Byte) (i : SlotId), (argOf args 0).toNat = i.1 →
    s.takesCommand 0x05 args →
    let g := s.generation i
    let part (n : Byte) (bytes : List Byte) : Prop := argOf args 1 = n →
      exec .readLease s = .next (s.served.completed .ok bytes)
    (s.lease i = none → part 0 [0, g, 0xFF, 0, 0, 0, 0, 0] ∧
      part 1 [0, 0xFF, 0xFF, 0xFF, 0xFF, 0xFF, 0, g] ∧ part 2 [0, 0, 0, 0, 0, 0, 0, g] ∧
      part 3 [0, 0, 0, 0, 0, 0, 0, g] ∧ part 4 [0, 0, 0, 0, 0, 0, 0, g]) ∧
    ∀ r, s.lease i = some r → r.zones.length ≤ 4 →
      part 0 [r.phase.state.code, g, byteOf r.owner.1, r.tag, byteOf r.priority.1, flagByte r.yieldable,
        flagByte r.phase.warned, r.phase.endCode] ∧
      part 1 ([byteOf r.zones.length] ++ r.zones.map (fun z => byteOf z.1)
        ++ List.replicate (4 - r.zones.length) 0xFF
        ++ (match r.reported with | some (q, w) => [q.code, flagByte w] | none => [0xFF, 0]) ++ [g]) ∧
      part 2 (twoBytes r.term ++ twoBytes r.phase.countdown ++ twoBytes r.phase.yieldCountdown
        ++ [byteOf r.renewals, g]) ∧
      part 3 (fourBytes r.phase.sequence ++ twoBytes r.limits.maxWait ++ [0, g]) ∧
      part 4 (twoBytes r.limits.maxDuration ++ twoBytes (r.limits.warnLead.getD 0)
        ++ twoBytes r.limits.yieldWindow ++ [byteOf r.limits.renewalLimit, g])

/-- SET_THRESHOLD reports the table's occupancy; writing, it stores a threshold of 0 as 1 and arms the
indication exactly when the count is below the threshold; TABLE_HIGH is not set (R35). -/
def Obligations.SetThresholdOutcome : Prop :=
  ∀ (s : State) (args : Table 8 Byte), s.takesCommand 0x06 args →
    let report (threshold : Nat) (armed : Bool) (lowest : Byte) : List Byte :=
      [byteOf threshold, byteOf s.occupied, byteOf (s.countLeases fun r => r.phase.queued),
        byteOf (s.countLeases fun r => r.phase.terminal), flagByte armed, lowest]
    ∀ lowest, ((∀ i, s.lease i ≠ none) ∧ lowest = 0xFF ∨
        ∃ i : SlotId, s.lease i = none ∧ (∀ j, j < i → s.lease j ≠ none) ∧ lowest = slotByte i) →
      (argOf args 1 = 0 → exec .setThreshold s =
        .next (s.served.completed .ok (report s.threshold s.armed lowest))) ∧
      (argOf args 1 = 1 → (argOf args 0).toNat ≤ 128 →
        let v := max (argOf args 0).toNat 1
        exec .setThreshold s =
          .next (State.completed { s.served with threshold := v, armed := decide (s.occupied < v) } .ok
            (report v (decide (s.occupied < v)) lowest)))

/-- READ_LIST returns one position of the list, NEXT_EXPIRY the held record of least lease countdown, the lowest
slot first, and neither changes anything else (R51, R91). -/
def Obligations.ListQueriesOutcome : Prop :=
  ∀ (s : State) (args : Table 8 Byte),
    (s.takesCommand 0x07 args → (argOf args 0).toNat < 32 →
      let len := byteOf s.waiting.length
      (s.waiting.length ≤ (argOf args 0).toNat →
        exec .readList s = .next (s.served.completed .ok [0xFF, len, 0, 0, 0, 0xFF, 0, 0])) ∧
      ∀ i r, s.waiting[(argOf args 0).toNat]? = some i → s.lease i = some r →
        exec .readList s = .next (s.served.completed .ok
          ([slotByte i, len, s.generation i, r.phase.state.code, byteOf r.priority.1, byteOf r.owner.1]
            ++ twoBytes r.phase.countdown))) ∧
    (s.takesCommand 0x08 args →
      let held := byteOf (s.countLeases fun r => r.phase.holds)
      ((∀ i r, s.lease i = some r → r.phase.holds = false) →
        exec .nextExpiry s = .next (s.served.completed .ok [0xFF, 0, 0, 0, 0xFF, 0, held, 0])) ∧
      ∀ i r, s.lease i = some r → r.phase.holds = true →
        (∀ j q, s.lease j = some q → q.phase.holds = true → r.phase.countdown ≤ q.phase.countdown) →
        (∀ j q, j < i → s.lease j = some q → q.phase.holds = true →
          r.phase.countdown < q.phase.countdown) →
        exec .nextExpiry s = .next (s.served.completed .ok
          ([slotByte i, s.generation i] ++ twoBytes r.phase.countdown
            ++ [byteOf r.owner.1, r.phase.state.code, held,
              byteOf (s.countLeases fun q =>
                q.phase.holds && q.phase.countdown == r.phase.countdown)])))

/-- CLASS_LOAD reports the use of a class's zones, with the sum of the lease countdowns of the held records that
list one of them saturating at 65535, and changes nothing else (R92). -/
def ClassLoadOutcome : Prop :=
  ∀ (s : State) (args : Table 8 Byte) (c : ClassId), (argOf args 0).toNat = c.1 →
    s.takesCommand 0x09 args →
    let lists (r : Lease) : Bool := r.phase.holds && r.zones.any fun z => (s.zone z).cls == c
    let zones (p : Zone → Bool) : Byte := byteOf (s.zones.count fun x => x.cls == c && p x)
    let sum : Nat := min 65535 ((List.finRange 128).map fun i =>
      match s.lease i with | some r => if lists r then r.phase.countdown else 0 | none => 0).sum
    exec .classLoad s = .next (s.served.completed .ok
      ([zones fun x => x.state.holder.isSome, zones fun x => x.state == .fenced,
          zones fun x => x.earmark.isSome]
        ++ twoBytes sum
        ++ [byteOf (s.countLeases lists), zones fun x => x.state == .free,
          zones fun x => x.state == .disabled]))

/-- READ_CLASS and CLASS_LOAD report a class and change nothing else (R15, R92). -/
def Obligations.ClassReports : Prop :=
  ReadClassOutcome ∧ ClassLoadOutcome

/-! ### Overrides (R108 to R118) -/

/-- The results of FENCE and LIFT, the zone as the scan left it (Table 7-1). -/
def fenceRecord (t : State) (z : ZoneId) (outcome : Byte) (revoked : List Byte) : List Byte :=
  [(t.zone z).state.code, outcome]
    ++ (match (t.zone z).state.holder with
      | some h => [slotByte h, t.generation h]
      | none => [0xFF, 0])
    ++ revoked
    ++ [match (t.zone z).earmark with | some e => slotByte e | none => 0xFF,
      byteOf (t.countLeases fun r => r.phase.live && r.zones.contains z)]

/-- FENCE WAIT by the state it finds, with FENCE_DONE only on a FREE zone, each time with a grant scan (R108,
R109, R112). -/
def FenceWaitOutcome : Prop :=
  ∀ (s : State) (args : Table 8 Byte) (z : ZoneId), (argOf args 0).toNat = z.1 → argOf args 1 = 0 →
    s.takesCommand 0x0A args →
    let answers (u : State) (outcome : Byte) : Prop := exec .fenceWait s =
      .next (u.grantScan.completed .ok (fenceRecord u.grantScan z outcome [0xFF, 0]))
    let withState (x : ZoneState) : State :=
      { s.served with zones := s.zones.set z { s.zone z with state := x } }
    ((s.zone z).state = .disabled → exec .fenceWait s = .next (s.served.completed .wrongState [])) ∧
    ((s.zone z).state = .free → answers ((withState .fenced).raiseTable 0x02) 1) ∧
    (∀ h, (s.zone z).state = .held h → answers (withState (.fencePending h)) 2) ∧
    (∀ h, (s.zone z).state = .fencePending h → answers s.served 0) ∧
    ((s.zone z).state = .fenced → answers s.served 0)

/-- FENCE FORCE on a zone with a holder: the zone is FENCED, the holder REVOKED with end cause FENCE, its other
zones given up, FENCE_DONE set and a grant scan run; on another zone it acts as WAIT (R108, R111, R112). -/
def FenceForceOutcome : Prop :=
  ∀ (s : State) (args : Table 8 Byte) (z : ZoneId), (argOf args 0).toNat = z.1 → argOf args 1 = 1 →
    s.takesCommand 0x0A args →
    let answers (u : State) (outcome : Byte) (revoked : List Byte) : Prop := exec .fenceForce s =
      .next (u.grantScan.completed .ok (fenceRecord u.grantScan z outcome revoked))
    let closed := State.raiseTable 0x02
      { s.served with zones := s.zones.set z { s.zone z with state := .fenced } }
    ((s.zone z).state = .disabled → exec .fenceForce s = .next (s.served.completed .wrongState [])) ∧
    ((s.zone z).state = .free → answers closed 1 [0xFF, 0]) ∧
    ((s.zone z).state = .fenced → answers s.served 0 [0xFF, 0]) ∧
    ∀ h r, (s.zone z).state.holder = some h → s.lease h = some r →
      answers ((closed.zonesGivenUp (r.zones.filter (· != z))).recordEnded h r (.revoked .fence)) 3
        [slotByte h, s.generation h]

/-- LIFT by the state it finds, with a grant scan when the zone changes (R115). -/
def LiftOutcome : Prop :=
  ∀ (s : State) (args : Table 8 Byte) (z : ZoneId), (argOf args 0).toNat = z.1 →
    s.takesCommand 0x0B args →
    let answers (x : ZoneState) (outcome : Byte) : Prop :=
      let u := { s.served with zones := s.zones.set z { s.zone z with state := x } }
      exec .lift s = .next (u.grantScan.completed .ok (fenceRecord u.grantScan z outcome [0xFF, 0]))
    ((s.zone z).state = .fenced → answers .free 4) ∧
    (∀ h, (s.zone z).state = .fencePending h → answers (.held h) 5) ∧
    ((s.zone z).state = .free ∨ (s.zone z).state = .disabled ∨ (∃ h, (s.zone z).state = .held h) →
      exec .lift s = .next (s.served.completed .wrongState []))

/-- FENCE in both forms and LIFT in every zone state (R108 to R112, R115). -/
def Obligations.FenceAndLiftOutcomes : Prop :=
  FenceWaitOutcome ∧ FenceForceOutcome ∧ LiftOutcome

/-- REVOKE ends a live record with end cause SUPERVISOR: a held one gives up its zones, a waiting one leaves the
list, and a grant scan runs; a terminal record is refused WRONG_STATE (R117, R118). -/
def Obligations.RevokeOutcome : Prop :=
  ∀ (s : State) (args : Table 8 Byte) (i : SlotId) (r : Lease), s.takesCommand 0x0C args →
    s.handleNames (argOf args 0) (argOf args 1) i r →
    let freed := flagByte (!(s.link r.owner).line.enabled)
    (r.phase.terminal = true → exec .revoke s = .next (s.served.completed .wrongState [])) ∧
    (r.phase.holds = true → exec .revoke s =
      .next ((((s.served.zonesGivenUp r.zones).recordEnded i r (.revoked .supervisor)).grantScan).completed
        .ok [r.phase.state.code, byteOf r.owner.1, r.tag, byteOf r.zones.length,
          byteOf (r.zones.countP fun z => (s.zone z).state.isPending), freed])) ∧
    (r.phase.queued = true → exec .revoke s =
      .next ((((s.served.leaveList i).recordEnded i r (.revoked .supervisor)).grantScan).completed
        .ok [r.phase.state.code, byteOf r.owner.1, r.tag, 0, 0, freed]))

/-! ### What a link sends and drops (R132, R139, R146) -/

/-- The bytes of a frame on the line: the start byte, the length, the kind and body, and the checksum that makes
the 8-bit sum of all but the start byte 0 (R146). -/
def frameBytes : Transmitter → List Byte
  | .idle => []
  | .reply f | .notice _ f =>
    [0xD5, byteOf f.payload.length] ++ f.payload
      ++ [0 - (byteOf f.payload.length + f.payload.foldr (· + ·) 0)]

/-- A character as sent under line parameters `p`: the start bit, 8 data bits lowest-order first, the parity bit
unless there is none, one or two stop bits, each bit lasting 16 DIV + FRAC cycles of CLKIN (R132). -/
def sentChar (p : LineParams) (b : Byte) : TxChar :=
  let ones := (List.range 8).countP fun k => b.getLsbD k
  { bits := [false, b.getLsbD 0, b.getLsbD 1, b.getLsbD 2, b.getLsbD 3, b.getLsbD 4, b.getLsbD 5,
        b.getLsbD 6, b.getLsbD 7]
      ++ (match p.parity with
        | .none => []
        | .zero => [false]
        | .one => [true]
        | .odd => [decide (ones % 2 = 0)]
        | .even => [decide (ones % 2 = 1)])
      ++ (if p.stopBits = .two then [true, true] else [true])
    bitTime := 16 * p.div + p.frac.1 }

/-- The characters begun on TXDn when the transmitter has begun `n` characters of its frame: those begun before
stay as they were sent, and the others go under the present line parameters (R132, R140, log entry 24). -/
def sentBy (x : LinkState) (n : Nat) : List TxChar :=
  x.txd ++ (((frameBytes x.tx).take n).drop x.txd.length).map (sentChar x.line)

/-- A link with its traffic emptied when its transmitter has begun `n` characters of its frame: the FIFO, the
decoder, the request slot and the reply buffer are empty, the frame is abandoned and the characters not begun
are not sent, a pending loss is cleared and the next character is the first (R133, R134, R139). -/
def emptied (x : LinkState) (n : Nat) : LinkState :=
  { x with
    fifo := [], lossPending := false, gapNext := true, decoder := .hunt, requestSlot := none
    replyBuffer := none, tx := .idle, replyRace := [], txd := sentBy x n }

/-! ### Commands of the links, the store and the restart sequence -/

/-- The line parameters READ_LINK part 0 returns (Table 9-3). -/
def lineRecord (p : LineParams) : List Byte :=
  [flagByte p.enabled] ++ twoBytes p.div ++ [byteOf p.frac.1, parityCode p.parity, stopBitsCode p.stopBits]

/-- READ_LINK returns the line parameters or the traffic of a link and changes nothing else (R143). -/
def ReadLinkOutcome : Prop :=
  ∀ (s : State) (args : Table 8 Byte) (l : Link), (argOf args 0).toNat = l.1 → s.takesDirect 0x11 args →
    (argOf args 1 = 0 → exec .readLink s = .next (s.completed .ok (lineRecord (s.link l).line))) ∧
    (argOf args 1 = 1 → exec .readLink s = .next (s.completed .ok
      [byteOf (s.link l).fifo.length, (s.link l).decoder.code, (s.link l).tx.code,
        slotByte (s.link l).noticePointer, flagByte (s.link l).requestSlot.isSome,
        flagByte (s.link l).replyBuffer.isSome,
        byteOf (s.countLeases fun r => r.owner == l && r.reported != some (r.phase.state, r.phase.warned)),
        byteOf (s.countLeases fun r => r.owner == l)]))

/-- SET_LINK stores the line parameters, a DIV of 0 as 1: an enabled link that stays enabled keeps its traffic,
the characters begun by then going under the old parameters; a disabled link that is enabled starts with its
traffic empty, its next character the first and its receiver waiting for the line to be high; and an enabled
link that is disabled takes the parameters and then the disable, in the same event (R133, R140, R141). -/
def Obligations.SetLinkOutcome : Prop :=
  ∀ (s : State) (args : Table 8 Byte) (l : Link) (n : Nat) (enable : Bool) (frac : Fin 16) (parity : Parity)
    (stop : StopBits), (argOf args 0).toNat = l.1 → argOf args 1 = flagByte enable →
    (argOf args 4).toNat = frac.1 → argOf args 5 = parityCode parity → argOf args 6 = stopBitsCode stop →
    s.takesDirect 0x12 args →
    let div := max ((argOf args 2).toNat * 256 + (argOf args 3).toNat) 1
    let p : LineParams := ⟨enable, div, frac, parity, stop⟩
    let x := s.link l
    ((x.line.enabled = true → enable = true → exec (.setLink n) s =
      .next (State.completed (s.setLink l
        { x with line := p, prevLines := x.line :: x.prevLines, txd := sentBy x n }) .ok
        (lineRecord p))) ∧
    (x.line.enabled = false → enable = false → exec (.setLink n) s =
      .next (State.completed (s.setLink l { x with line := p }) .ok (lineRecord p))) ∧
    (x.line.enabled = false → enable = true → exec (.setLink n) s =
      .next (State.completed (s.setLink l
        { emptied x 0 with line := p, prevLines := [], rxWait := true }) .ok
        (lineRecord p))) ∧
    (x.line.enabled = true → enable = false → ∃ u, exec (.linkDisable l n) (s.setLink l
        { x with
          line := { p with enabled := true }, prevLines := x.line :: x.prevLines, txd := sentBy x n }) =
          .next u ∧
      exec (.setLink n) s = .next (u.completed .ok (lineRecord p))))

/-- The records that satisfy `gone` freed, the others passed through `f`; the queued among those freed leave the
list, and the indication is re-armed when a record was freed and the count is then below the threshold
(R24, R34, R49). -/
def recordsFreed (s : State) (gone : Lease → Bool) (f : Lease → Lease) : State :=
  let slots := s.slots.mapIdx fun _ x => { x with lease := (x.lease.filter fun r => !gone r).map f }
  { s with
    slots := slots
    waiting := s.waiting.filter fun i =>
      match s.lease i with | some r => !(gone r && r.phase.queued) | none => true
    armed := s.armed ||
      ((List.finRange 128).any (fun i => match s.lease i with | some r => gone r | none => false)
      && decide (State.occupied { s with slots := slots } < s.threshold)) }

/-- The reported value of a record of link `l` in HELD or YIELDING state set to NONE (R26). -/
def reportForgotten (l : Link) (r : Lease) : Lease :=
  if r.owner = l ∧ r.phase.holds = true then { r with reported := none } else r

/-- The disable of a link empties its traffic, frees its waiting, parked and terminal records, forgets what its
held records were reported as, and ends with a grant scan; nothing else changes (R141). That LINK_DISABLE
makes a disable on its own, outside SET_LINK, is a DESIGN CHOICE (log entry 7). -/
def Obligations.LinkDisableOutcome : Prop :=
  ∀ (s : State) (l : Link) (n : Nat), (s.link l).line.enabled = true → s.inReset = false →
    s.restarting = false →
    let x := s.link l
    let t := { s with links := s.links.set l { emptied x n with line := { x.line with enabled := false } } }
    exec (.linkDisable l n) s = .next
      (recordsFreed t (fun r => r.owner == l && !r.phase.holds) (reportForgotten l)).grantScan

/-- LINK_RESET empties a link's traffic and reports what it dropped; the line parameters, the notice pointer and
every record stay, and no scan runs (R142). -/
def LinkResetOutcome : Prop :=
  ∀ (s : State) (args : Table 8 Byte) (l : Link) (n : Nat), (argOf args 0).toNat = l.1 →
    s.takesDirect 0x13 args →
    exec (.linkReset n) s = .next (State.completed (s.setLink l (emptied (s.link l) n)) .ok
      [if (s.link l).requestSlot = none then 0 else 1, if (s.link l).replyBuffer = none then 0 else 1,
        if (s.link l).tx = .idle then 0 else 1, byteOf (s.link l).fifo.length])

/-- READ_LINK and LINK_RESET (R142, R143). -/
def Obligations.ReadAndResetLinkOutcomes : Prop :=
  ReadLinkOutcome ∧ LinkResetOutcome

/-- STORE copies the configuration and clears the image's mark while BUSY stays; its completion writes the copy
with its check value, sets the mark, clears STORE_INVALID and completes OK (R172). -/
def Obligations.StoreOutcome : Prop :=
  (∀ (s : State) (args : Table 8 Byte), s.takesDirect 0x20 args →
    let copy : ImageContents :=
      ⟨s.zones.mapIdx fun _ x => ⟨x.state != .disabled, x.cls⟩, s.classes,
        s.links.mapIdx fun _ x => x.line, s.threshold⟩
    exec .store s = .next { s with
      port := { s.port with phase := .storing copy }
      image := { s.image with mark := false } }) ∧
  (∀ (s : State) (copy : ImageContents), s.port.phase = .storing copy →
    exec .storeComplete s = .next (State.completed
      { s with image := ⟨copy, true, Config.imageCheck copy⟩, storeInvalid := false } .ok []))

/-- A latched code that names no command completes at once with BAD_COMMAND, and nothing else changes (R167). -/
def BadCommandOutcome : Prop :=
  ∀ (s : State) (args : Table 8 Byte) (code : Byte), s.takesDirect code args →
    code ∉ [0x01, 0x02, 0x03, 0x04, 0x05, 0x06, 0x07, 0x08, 0x09, 0x0A, 0x0B, 0x0C, 0x10, 0x11, 0x12,
      0x13, 0x20, 0x21] →
    exec .badCommand s = .next (s.completed .badCommand [])

/-- A bad argument and an unknown code complete their command and change nothing else (R167). -/
def Obligations.BadCommandsRefused : Prop :=
  BadArgumentsRefused ∧ BadCommandOutcome

/-! ### Restarts (R37, R145, R169, R173, R174) -/

/-- What a warm restart has done when it has begun, link `l`'s transmitter having begun `begun l` characters of its
frame (R37, R52, R145, R173), apart from the mailbox. That the clock's list of ticks and changes handed over
is kept is a DESIGN CHOICE (log entry 5). -/
def RestartBegun (s t : State) (begun : Table 4 Nat) : Prop :=
  t.restarting = true ∧ t.arbiter = 4 ∧ t.waiting = [] ∧
    (∀ z, t.zone z = { s.zone z with earmark := none }) ∧
    (∀ i, t.generation i = s.generation i) ∧
    (∀ i r, s.lease i = some r → r.phase.queued = false → t.lease i = some r) ∧
    (∀ i r, s.lease i = some r → r.phase.queued = true → t.lease i =
      (if (s.link r.owner).line.enabled then some { r with phase := .lapsed .restart } else none)) ∧
    (∀ i, s.lease i = none → t.lease i = none) ∧
    (∀ l, t.link l = { emptied (s.link l) (begun.get l) with noticePointer := 0 }) ∧
    t.classes = s.classes ∧ t.sequence = s.sequence ∧ t.threshold = s.threshold ∧ t.clock = s.clock ∧
    t.image = s.image ∧ t.storeInvalid = s.storeInvalid ∧ t.inReset = s.inReset

/-- The cause flags are clear but for `cmd` in CMD_CAUSE; the enables, the arguments, the latched code, the tick
latch and the I2C pointer are kept (R169). -/
def CausesCleared (s t : State) (cmd : Byte) : Prop :=
  (∀ l, t.port.linkCause.get l = 0) ∧ t.port.tableCause = 0 ∧ t.port.timeCause = 0 ∧
    t.port.cmdCause = cmd ∧ t.port.groupEnable = s.port.groupEnable ∧ t.port.args = s.port.args ∧
    t.port.command = s.port.command ∧ t.port.tickLatch = s.port.tickLatch ∧
    t.port.i2cPointer = s.port.i2cPointer

/-- WRST_N going low begins a warm restart: waits end, traffic is emptied, causes are cleared, and a command not
carried out, a STORE included, completes ABORTED (R37, R145, R169, R173). The bit that keeps WRST_N's level is
the model's (log entry 12). -/
def WrstNLowBeginsRestart : Prop :=
  ∀ (s : State) (begun : Table 4 Nat), s.inReset = false → s.restarting = false →
    ∃ t, exec (.wrstNLow begun false) s = .next t ∧ RestartBegun s t begun ∧ t.wrstN = false ∧
      (s.port.phase = .idle → CausesCleared s t 0 ∧ t.port.result = s.port.result ∧
        t.port.res = s.port.res ∧ t.port.phase = .idle) ∧
      (∀ args, s.port.phase = .waiting args →
        s.port.command ∈ [0x01, 0x02, 0x03, 0x04, 0x05, 0x06, 0x07, 0x08, 0x09, 0x0A, 0x0B, 0x0C, 0x10,
          0x11, 0x12, 0x13, 0x20, 0x21] →
        CausesCleared s t 0x01 ∧ t.port.result = 7 ∧ (∀ k, t.port.res.get k = 0) ∧ t.port.phase = .idle) ∧
      (∀ copy, s.port.phase = .storing copy →
        CausesCleared s t 0x01 ∧ t.port.result = 7 ∧ (∀ k, t.port.res.get k = 0) ∧ t.port.phase = .idle)

/-- The commands by which the mailbox's command completes, each link's transmitter having come as far as `begun`
says, and no time passing before a SET_TIMEBASE. -/
def completingCommands (args : Table 8 Byte) (begun : Table 4 Nat) : List Instr :=
  let n := if h : (argOf args 0).toNat < 4 then begun.get ⟨(argOf args 0).toNat, h⟩ else 0
  [.readZone, .setZone, .readClass, .setClass, .readLease, .setThreshold, .readList, .nextExpiry,
    .classLoad, .fenceWait, .fenceForce, .lift, .revoke, .setTimebase 0, .readLink, .setLink n,
    .linkReset n, .badCommand]

/-- WRST_N going low with the mailbox's command already taken by its owner: the command is carried out with its
own result before the waits end and the traffic is emptied, and its completion falls after the flags are
cleared, so its DONE stands (R169, R173, log entry 25). The same with a STORE that completes. Where no command
can complete, the restart begins as it does otherwise. -/
def WrstNLowWhileCommandCompletes : Prop :=
  ∀ (s u : State) (begun : Table 4 Nat), s.inReset = false → s.restarting = false →
    let outlives := ∃ t, exec (.wrstNLow begun true) s = .next t ∧ RestartBegun u t begun ∧ t.wrstN = false ∧
      CausesCleared u t 0x01 ∧ t.port.result = u.port.result ∧ t.port.res = u.port.res ∧
      t.port.phase = .idle
    (∀ args, s.port.phase = .waiting args → ∀ c ∈ completingCommands args begun,
      exec c s = .next u → u.port.busy = false → outlives) ∧
    (∀ copy, s.port.phase = .storing copy → exec .storeComplete s = .next u → outlives) ∧
    ((∀ args, s.port.phase = .waiting args → ∀ c ∈ completingCommands args begun, exec c s = .next s) →
      (∀ copy, s.port.phase ≠ .storing copy) →
      exec (.wrstNLow begun true) s = exec (.wrstNLow begun false) s)

/-- A low level on WRST_N during a restart begins no second one (R173). The bit that keeps the level, and the level
that RESTART_END carries, are the model's (log entry 12). -/
def WrstNLowHoldsRestart : Prop :=
  ∀ (s : State) (begun : Table 4 Nat) (finishing : Bool), s.inReset = false → s.restarting = true →
    exec (.wrstNLow begun finishing) s = .next { s with wrstN := false } ∧
    exec (.restartEnd false) s = .next { s with wrstN := false }

/-- The WARM_RESTART command begins a warm restart and stays in progress through it (R173). -/
def WarmRestartBeginsRestart : Prop :=
  ∀ (s : State) (args : Table 8 Byte) (begun : Table 4 Nat), s.takesDirect 0x21 args →
    ∃ t, exec (.warmRestart begun) s = .next t ∧ RestartBegun s t begun ∧ CausesCleared s t 0 ∧
      t.port.phase = .restarting ∧ t.port.result = s.port.result ∧ t.port.res = s.port.res ∧
      t.wrstN = s.wrstN

/-- The two ways into a warm restart, the command that completes with its beginning, and the level on WRST_N that
begins no second one (R169, R173). That the clock's list of events handed over is kept, the level of WRST_N, and
what a command that finishes with the restart leaves, are DESIGN CHOICES (log entries 5, 12 and 25). -/
def Obligations.WarmRestartBegins : Prop :=
  WrstNLowBeginsRestart ∧ WrstNLowHoldsRestart ∧ WarmRestartBeginsRestart ∧ WrstNLowWhileCommandCompletes

/-- A warm restart ends with a grant scan, the completion of a WARM_RESTART command, RESTART_DONE, RESTARTING 0
and the armed indication set from the count (R34, R174). -/
def Obligations.RestartEndOutcome : Prop :=
  ∀ s : State, s.restarting = true →
    let t := s.grantScan
    let ended (u : State) : State := { u with
      restarting := false
      wrstN := true
      armed := decide (s.occupied < s.threshold)
      port := { u.port with cmdCause := u.port.cmdCause ||| 0x04 } }
    (s.port.phase = .restarting → exec (.restartEnd true) s = .next (ended (t.completed .ok []))) ∧
    (s.port.phase ≠ .restarting → exec (.restartEnd true) s = .next (ended t))

/-! ### The links (R28, R133 to R139, R155) -/

/-- A character completing on a full FIFO is lost: OVERRUN is set and a loss is pending; the entries already
there stay. One that finds room is stored with the pending loss as its OVERRUN flag, and clears it (R134). After
a break and after the enable of the link, no character is taken until the line has been high (R133). That a
lost character counts for the gap of the next is a DESIGN CHOICE (log entry 8). -/
def CharacterReceivedOutcome : Prop :=
  ∀ (s : State) (l : Link) (idle : Nat) (c : RawChar), (s.link l).line.enabled = true →
    s.inReset = false → s.restarting = false →
    let x := s.link l
    (x.rxWait = true → c.highBefore = false → exec (.characterReceived l idle c) s = .next s) ∧
    (x.rxWait = false ∨ c.highBefore = true → ∃ brk : Bool,
      let y := { x with gapNext := false, prevLines := [], rxWait := brk }
      (64 ≤ x.fifo.length → exec (.characterReceived l idle c) s =
        .next ((s.setLink l { y with lossPending := true }).raiseLink l 0x02)) ∧
      (x.fifo.length < 64 → ∃ e : FifoEntry, e.overrun = x.lossPending ∧ e.brk = brk ∧
        exec (.characterReceived l idle c) s =
          .next (s.setLink l { y with fifo := x.fifo ++ [e], lossPending := false })))

/-- The entry stored for a character received under the settings it began with, the present ones or ones that a
SET_LINK has replaced since (R140): BREAK alone when every position was low, else its data with PARITY and
FRAMING as the bits sampled give them; GAP when it is the first or at least 4 character times have passed
(R132, R133), the times of the character's own settings, a DESIGN CHOICE (log entry 8). After a character the
receiver waits for the line to be high exactly when every position was low, and a character taken is the last
under settings replaced before it. -/
def EntryOfCharacter : Prop :=
  ∀ (s : State) (l : Link) (idle : Nat) (c : RawChar) (t : State), (s.link l).line.enabled = true →
    s.inReset = false → s.restarting = false → (s.link l).rxWait = false ∨ c.highBefore = true →
    exec (.characterReceived l idle c) s = .next t →
    let p := ((s.link l).line :: (s.link l).prevLines).getD c.settingsAgo (s.link l).line
    let two := p.stopBits = .two
    let bits := 9 + (if p.parity = .none then 0 else 1) + (if p.stopBits = .two then 2 else 1)
    let gap := (s.link l).gapNext || decide (4 * (bits * (16 * p.div + p.frac.1)) ≤ idle)
    let allLow := c.data = 0 ∧ (p.parity = .none ∨ c.parityBit = false) ∧ c.stop1 = false ∧
      (two → c.stop2 = false)
    let ones := (List.range 8).countP fun k => c.data.getLsbD k
    let wrong := match p.parity with
      | .none => false
      | .zero => c.parityBit
      | .one => !c.parityBit
      | .odd => decide ((ones + (if c.parityBit then 1 else 0)) % 2 = 0)
      | .even => decide ((ones + (if c.parityBit then 1 else 0)) % 2 = 1)
    let low := !c.stop1 || (p.stopBits == .two && !c.stop2)
    ((t.link l).rxWait = true ↔ allLow) ∧ (t.link l).prevLines = [] ∧
    ((s.link l).fifo.length < 64 → ∃ e, (t.link l).fifo = (s.link l).fifo ++ [e] ∧ e.gap = gap ∧
      (allLow → e.brk = true ∧ e.data = 0 ∧ e.parity = false ∧ e.framing = false) ∧
      (¬allLow → e.brk = false ∧ e.data = c.data ∧ e.parity = wrong ∧ e.framing = low))

/-- The receiver on one character (R133, R134). -/
def Obligations.ReceiverOutcome : Prop :=
  CharacterReceivedOutcome ∧ EntryOfCharacter

/-- The decoder takes the entry at the head of the link's FIFO. -/
def TakesEntry (s : State) (l : Link) (e : FifoEntry) (rest : List FifoEntry) : Prop :=
  (s.link l).line.enabled = true ∧ s.inReset = false ∧ s.restarting = false ∧
    (s.link l).decoder ≠ .hold ∧ (s.link l).fifo = e :: rest

/-- R136: an entry with PARITY, FRAMING or OVERRUN inside a frame discards the frame with LINE_ERROR; one with
GAP alone discards it with GAP_DISCARD and is then taken in HUNT; in HUNT a PARITY or FRAMING entry is
discarded and sets no cause, and one with GAP or OVERRUN and no other flag is taken by its value. Nothing
else changes. -/
def Obligations.FlaggedEntryOutcome : Prop :=
  ∀ (s : State) (l : Link) (e : FifoEntry) (rest : List FifoEntry), TakesEntry s l e rest → e.brk = false →
    let moved (d : Decoder) : State := s.setLink l { s.link l with fifo := rest, decoder := d }
    let inside := (s.link l).decoder ≠ .hunt
    (inside → e.parity = true ∨ e.framing = true ∨ e.overrun = true →
      exec (.decodeEntry l) s = .next ((moved .hunt).raiseLink l 0x01)) ∧
    (inside → e.parity = false → e.framing = false → e.overrun = false → e.gap = true →
      exec (.decodeEntry l) s =
        .next ((moved (if e.data = 0xD5 then .length else .hunt)).raiseLink l 0x04)) ∧
    (¬inside → e.parity = true ∨ e.framing = true → exec (.decodeEntry l) s = .next (moved .hunt)) ∧
    (¬inside → e.parity = false → e.framing = false →
      exec (.decodeEntry l) s = .next (moved (if e.data = 0xD5 then .length else .hunt)))

/-- An entry without flags by the decoder's state (Table 9-2): a good length byte begins the body, a bad one or a
wrong checksum sets BAD_FRAME, and a right checksum places the frame in the request slot (R135). -/
def Obligations.CleanEntryOutcome : Prop :=
  ∀ (s : State) (l : Link) (e : FifoEntry) (rest : List FifoEntry), TakesEntry s l e rest → e.brk = false →
    e.parity = false → e.framing = false → e.overrun = false → e.gap = false →
    let moved (d : Decoder) : State := s.setLink l { s.link l with fifo := rest, decoder := d }
    ((s.link l).decoder = .length →
      (e.data = 0xD5 → exec (.decodeEntry l) s = .next (moved .length)) ∧
      (1 ≤ e.data.toNat → e.data.toNat ≤ 14 →
        exec (.decodeEntry l) s = .next (moved (.body e.data []))) ∧
      (e.data ≠ 0xD5 → e.data.toNat = 0 ∨ 15 ≤ e.data.toNat →
        exec (.decodeEntry l) s = .next ((moved .hunt).raiseLink l 0x08))) ∧
    (∀ len taken, (s.link l).decoder = .body len taken →
      (taken.length + 1 = len.toNat →
        exec (.decodeEntry l) s = .next (moved (.check len (taken ++ [e.data])))) ∧
      (taken.length + 1 ≠ len.toNat →
        exec (.decodeEntry l) s = .next (moved (.body len (taken ++ [e.data]))))) ∧
    (∀ len bytes, (s.link l).decoder = .check len bytes →
      (len + bytes.foldr (· + ·) 0 + e.data = 0 → exec (.decodeEntry l) s =
        .next (s.setLink l { s.link l with fifo := rest, decoder := .hold, requestSlot := some bytes })) ∧
      (len + bytes.foldr (· + ·) 0 + e.data ≠ 0 →
        exec (.decodeEntry l) s = .next ((moved .hunt).raiseLink l 0x08)))

/-- A BREAK discards a partial frame, sets BREAK, frees the link's waiting and parked records, forgets what its
held records were reported as, leaves its terminal records, and ends with a grant scan; nothing else changes
(R137). That CLIENT_RESTART takes the BREAK entry itself is a DESIGN CHOICE (log entry 7). -/
def Obligations.BreakOutcome : Prop :=
  ∀ (s : State) (l : Link) (e : FifoEntry) (rest : List FifoEntry), TakesEntry s l e rest → e.brk = true →
    let t := { s with
      links := s.links.set l { s.link l with fifo := rest, decoder := .hunt }
      port := { s.port with linkCause := s.port.linkCause.set l (s.port.linkCause.get l ||| 0x10) } }
    let u := recordsFreed t (fun r => r.owner == l && r.phase.queued) (reportForgotten l)
    exec (.decodeEntry l) s = .next u.grantScan ∧ exec (.clientRestart l) s = .next u.grantScan

/-- An idle transmitter takes the reply in the buffer and begins its first character, and a decoder in HOLD whose
request has been taken returns to HUNT (R132, R135, R138). -/
def ReplySendOutcome : Prop :=
  ∀ (s : State) (l : Link) (r : OutFrame), (s.link l).line.enabled = true → s.inReset = false →
    s.restarting = false → (s.link l).tx = .idle → (s.link l).replyBuffer = some r →
    exec (.replySend l) s = .next (s.setLink l { s.link l with
      replyBuffer := none
      tx := .reply r
      txd := [sentChar (s.link l).line 0xD5]
      replyRace := []
      decoder := if (s.link l).decoder = .hold ∧ (s.link l).requestSlot = none then .hunt
        else (s.link l).decoder })

/-- An idle transmitter with no reply to send builds a notice of the first dirty record of its link, from the
notice pointer upwards and round from S127 to S0 (R138, R155). With a reply waiting it does so only for a
record that became dirty in the instant in which the reply was placed and has not changed since, and otherwise
leaves the reply to go first (R138, R157, log entry 13). -/
def NoticeBuildOutcome : Prop :=
  ∀ (s : State) (l : Link) (k : Fin 128) (r : Lease), (s.link l).line.enabled = true →
    s.inReset = false → s.restarting = false → (s.link l).tx = .idle →
    let at_ (j : Fin 128) : SlotId := (s.link l).noticePointer + j
    let dirty (q : Lease) : Prop :=
      q.owner = l ∧ q.reported ≠ some (q.phase.state, q.phase.warned)
    s.lease (at_ k) = some r → dirty r →
    (∀ j, j < k → ∀ q, s.lease (at_ j) = some q → ¬dirty q) →
    let goes := (s.link l).replyBuffer = none ∨ (at_ k, r) ∈ (s.link l).replyRace
    (goes → exec (.noticeBuild l) s = .next (s.setLink l { s.link l with
      replyRace := []
      txd := [sentChar (s.link l).line 0xD5]
      tx := .notice (at_ k)
        ⟨[0x30, slotByte (at_ k), s.generation (at_ k), r.tag, r.phase.state.code,
            flagByte r.phase.warned, r.phase.endCode] ++ twoBytes r.phase.countdown
            ++ [byteOf r.zones.length] ++ r.zones.map (fun z => byteOf z.1),
          some ⟨at_ k, s.generation (at_ k), r.phase.state, r.phase.warned⟩⟩ })) ∧
    (¬goes → exec (.noticeBuild l) s = .next s)

/-- What a reply placed leaves for the race of R157: with the transmitter IDLE the records of the link that were
not dirty before the evaluation and are after it, as they then stand, and with a frame on the line none (R138,
R157, log entry 13). -/
def ReplyRaceIsOfOneInstant : Prop :=
  ∀ (s t : State) (l : Link) (reply : OutFrame) (i : SlotId) (r : Lease),
    (i, r) ∈ ((t.placeReply s l reply).link l).replyRace ↔
      (t.link l).tx = .idle ∧ t.lease i = some r ∧ r.owner = l ∧
        r.reported ≠ some (r.phase.state, r.phase.warned) ∧
        ¬∃ q, s.lease i = some q ∧ q.owner = l ∧ q.reported ≠ some (q.phase.state, q.phase.warned)

/-- An idle transmitter begins a reply, and otherwise a notice of a dirty record; which records may go before a
waiting reply (R138, R155, R157). -/
def Obligations.TransmitterBegins : Prop :=
  ReplySendOutcome ∧ NoticeBuildOutcome ∧ ReplyRaceIsOfOneInstant

/-- A completing frame has sent every one of its characters and returns the transmitter to IDLE, a notice moving
the pointer past its slot; its pair is applied: nothing when the slot is FREE or reallocated, a record in the
terminal state carried is freed, any other takes the pair as its reported value (R28, R132, R139, R146, R156). -/
def Obligations.FrameCompleteOutcome : Prop :=
  ∀ (s : State) (l : Link) (f : OutFrame), (s.link l).line.enabled = true → s.inReset = false →
    s.restarting = false →
    let sent := sentBy (s.link l) (f.payload.length + 3)
    ∀ u, ((s.link l).tx = .reply f ∧ u = s.setLink l { s.link l with tx := .idle, txd := sent } ∨
        ∃ i, (s.link l).tx = .notice i f ∧
          u = s.setLink l { s.link l with tx := .idle, txd := sent, noticePointer := i + 1 }) →
      (f.report = none → exec (.frameComplete l) s = .next u) ∧
      ∀ p, f.report = some p →
        (s.lease p.slot = none ∨ s.generation p.slot ≠ p.generation →
          exec (.frameComplete l) s = .next u) ∧
        ∀ r, s.lease p.slot = some r → s.generation p.slot = p.generation →
          (r.phase.terminal = true → r.phase.state = p.state →
            exec (.frameComplete l) s = .next (u.recordFreed p.slot)) ∧
          (¬(r.phase.terminal = true ∧ r.phase.state = p.state) →
            exec (.frameComplete l) s =
              .next (u.setLease p.slot { r with reported := some (p.state, p.warned) }))

/-! ### The supervisor port (R129, R159 to R167) -/

/-- The part's own I2C address, 1, 0, 1, 1, 0, A1, A0 (R159). -/
def ownAddress (s : State) : BitVec 7 :=
  0x58 + (if s.port.a1 then 2 else 0) + (if s.port.a0 then 1 else 0)

/-- The commands of the port for events on its wires that end in `e`. -/
def portRows (es : List PortEvent) (e : PortEvent) : List Instr :=
  [.causeClear es e, .groupEnableWrite es e, .ticks0Read (es ++ [e]), .i2cPointerSet es e,
    .registerWrite es e]

/-- The state with port `p`, what it drove in the last command being `d`. -/
def wired (s : State) (p : Port) (d : List PortDrive) : State :=
  { s with port := { p with portOut := d } }

/-- Event `e` on the wires, whichever command brings it, leaves the port at `p` and has it drive `d`; nothing else
changes. -/
def Happens (s : State) (e : PortEvent) (p : Port) (d : List PortDrive) : Prop :=
  ∀ c ∈ portRows [] e, exec c s = .next (wired s p d)

/-- Events on the wires are taken one after another, with what the port drives in each (log entry 9). -/
def PortEventsInOrder : Prop :=
  (∀ s : State, exec (.ticks0Read []) s = .next (wired s s.port [])) ∧
  ∀ (s : State) (es : List PortEvent) (d e : PortEvent), ∃ t u,
    (∀ c ∈ portRows es d, exec c s = .next t) ∧ (∀ c ∈ portRows [] e, exec c t = .next u) ∧
    ∀ c ∈ portRows (es ++ [d]) e, exec c s = .next (wired u u.port (t.port.portOut ++ u.port.portOut))

/-- Under SPI a transfer begins when CS_N goes low and ends when it goes high. Its first byte is the command byte:
bit 7 selects the direction, the low seven bits the offset, and MISO carries STATUS meanwhile. Outside a
transfer nothing is driven, and the I2C lines mean nothing (R159, R160). -/
def SpiFraming : Prop :=
  ∀ (s : State) (b : Byte) (a : Bool), s.inReset = false → s.port.msel = false →
    let p := s.port
    Happens s .csLow { p with transfer := .spiCommand } [] ∧
    Happens s .csHigh { p with transfer := .none } [] ∧
    (p.transfer = .spiCommand → Happens s (.spiByte b)
      { p with transfer := if b.getLsbD 7 then .spiRead (b.extractLsb' 0 7)
        else .spiWrite (b.extractLsb' 0 7) } [.byte (s.readReg 0x02)]) ∧
    (p.transfer = .none → Happens s (.spiByte b) p [.released]) ∧
    Happens s .i2cStart p [] ∧ Happens s .i2cStop p [] ∧ Happens s (.i2cByte b) p [.released] ∧
    Happens s (.i2cRead a) p [.released]

/-- Under I2C a transfer begins with a start or a repeated start and ends with a stop. Its first byte carries the
address and, lowest, the direction: the part acknowledges its own address in both directions and ignores any
other. Outside a transfer nothing is driven, and the SPI pins mean nothing (R159, R161). -/
def I2cFraming : Prop :=
  ∀ (s : State) (b : Byte) (a : Bool), s.inReset = false → s.port.msel = true →
    let p := s.port
    Happens s .i2cStart { p with transfer := .i2cAddress } [] ∧
    Happens s .i2cStop { p with transfer := .none } [] ∧
    (p.transfer = .i2cAddress →
      (b.extractLsb' 1 7 = ownAddress s → Happens s (.i2cByte b)
        { p with transfer := if b.getLsbD 0 then .i2cRead else .i2cPointer } [.acknowledge]) ∧
      (b.extractLsb' 1 7 ≠ ownAddress s →
        Happens s (.i2cByte b) { p with transfer := .none } [.released])) ∧
    (p.transfer = .none → Happens s (.i2cByte b) p [.released] ∧ Happens s (.i2cRead a) p [.released]) ∧
    Happens s .csLow p [] ∧ Happens s .csHigh p [] ∧ Happens s (.spiByte b) p [.released]

/-- While the part is held in reset no event on the wires changes the port, and nothing is driven; a transfer begun
then stays unanswered after it (R170). -/
def PortSilentInReset : Prop :=
  ∀ (s : State) (b : Byte) (a : Bool), s.inReset = true →
    (∀ e ∈ [PortEvent.csLow, .csHigh, .i2cStart, .i2cStop], Happens s e s.port []) ∧
    (∀ e ∈ [PortEvent.spiByte b, .i2cByte b, .i2cRead a], Happens s e s.port [.released]) ∧
    ∀ (msel a1 a0 autoload : Bool) (t : State),
      exec (.leaveReset msel a1 a0 autoload) s = .next t → t.port.transfer = .none

/-- Event `e` is the data byte `v` written to the register at offset `o`, with the port driving `d`; `after` moves
the offset or the pointer on by one, wrapping (R160, R161). -/
def WritesByte (s : State) (e : PortEvent) (o : BitVec 7) (v : Byte) (after : Port → Port) (d : PortDrive) :
    Prop :=
  s.inReset = false ∧
    ((s.port.msel = false ∧ s.port.transfer = .spiWrite o ∧ e = .spiByte v ∧ d = .byte 0 ∧
        after = fun p => { p with transfer := .spiWrite (o + 1) }) ∨
      (s.port.msel = true ∧ s.port.transfer = .i2cWrite ∧ o = s.port.i2cPointer ∧ e = .i2cByte v ∧
        d = .acknowledge ∧ after = fun p => { p with i2cPointer := o + 1 }))

/-- Event `e` is a byte read from the register at offset `o`; `after` moves the offset or the pointer on by one, and
ends an I2C read that the host did not acknowledge (R160, R161). -/
def ReadsByte (s : State) (e : PortEvent) (o : BitVec 7) (after : Port → Port) : Prop :=
  s.inReset = false ∧
    ((s.port.msel = false ∧ s.port.transfer = .spiRead o ∧ (∃ b, e = .spiByte b) ∧
        after = fun p => { p with transfer := .spiRead (o + 1) }) ∨
      (s.port.msel = true ∧ s.port.transfer = .i2cRead ∧ o = s.port.i2cPointer ∧
        ∃ a, e = .i2cRead a ∧
          after = fun p => { p with i2cPointer := o + 1, transfer := if a then .i2cRead else .none }))

/-- Writes by register: a cause register clears the flags whose bits are 1, GROUP_ENABLE takes the byte less bit
7, an ARG takes the byte, and a register whose access is R or an offset above 0x21 ignores it (R160, R162,
R164, R165). -/
def RegisterWriteOutcomes : Prop :=
  ∀ (s : State) (e : PortEvent) (o : BitVec 7) (v : Byte) (after : Port → Port) (d : PortDrive),
    WritesByte s e o v after d →
    let p := s.port
    let wrote (u : Port) : Prop := Happens s e (after u) [d]
    (∀ l : Link, o.toNat = 5 + l.1 →
      wrote { p with linkCause := p.linkCause.set l (p.linkCause.get l &&& ~~~v) }) ∧
    (o.toNat = 0x09 → wrote { p with tableCause := p.tableCause &&& ~~~v }) ∧
    (o.toNat = 0x0A → wrote { p with timeCause := p.timeCause &&& ~~~v }) ∧
    (o.toNat = 0x0B → wrote { p with cmdCause := p.cmdCause &&& ~~~v }) ∧
    (o.toNat = 0x04 → wrote { p with groupEnable := v &&& 0x7F }) ∧
    (∀ k : Fin 8, o.toNat = 0x0C + k.1 → wrote { p with args := p.args.set k v }) ∧
    (o.toNat < 0x04 ∨ 0x15 ≤ o.toNat → wrote p)

/-- A write to COMMAND is accepted when BUSY and RESTARTING are both 0, latching the code and the arguments, and
is otherwise ignored with OVERRUN (R166). -/
def CommandWriteOutcome : Prop :=
  ∀ (s : State) (e : PortEvent) (v : Byte) (after : Port → Port) (d : PortDrive),
    WritesByte s e 0x14 v after d →
    (s.port.busy = false → s.restarting = false →
      Happens s e (after { s.port with command := v, phase := .waiting s.port.args }) [d]) ∧
    (s.port.busy = true ∨ s.restarting = true →
      Happens s e (after { s.port with cmdCause := s.port.cmdCause ||| 0x02 }) [d])

/-- Writes through the port by register (R162, R164 to R166), after the events that lead to them (R159 to
R161). -/
def Obligations.PortWriteOutcomes : Prop :=
  PortEventsInOrder ∧ SpiFraming ∧ RegisterWriteOutcomes ∧ CommandWriteOutcome

/-- The first data byte of an I2C write transfer sets the pointer to its low seven bits and is acknowledged; further
bytes are data (R161). -/
def PointerByteOutcome : Prop :=
  ∀ (s : State) (v : Byte), s.inReset = false → s.port.msel = true → s.port.transfer = .i2cPointer →
    Happens s (.i2cByte v) { s.port with i2cPointer := v.extractLsb' 0 7, transfer := .i2cWrite }
      [.acknowledge]

/-- The I2C transfers: how they begin and end, what is acknowledged, and the byte that sets the pointer; no
interface answers while the part is held in reset (R159, R161, R170). -/
def Obligations.I2cPointerOutcome : Prop :=
  PointerByteOutcome ∧ I2cFraming ∧ PortSilentInReset

/-- A read of TICKS0 returns the low byte of the tick count and latches the other three, which TICKS1 to TICKS3
then return (R129); a read of any other register returns it and changes nothing but the place in the transfer
(R160 to R162). -/
def ReadOutcomes : Prop :=
  ∀ (s : State) (e : PortEvent) (o : BitVec 7) (after : Port → Port), ReadsByte s e o after →
    (o.toNat ≠ 0x1E → Happens s e (after s.port) [.byte (s.readReg o)]) ∧
    (o.toNat = 0x1E → ∃ latch,
      Happens s e (after { s.port with tickLatch := latch }) [.byte (s.clock.tickCount.extractLsb' 0 8)] ∧
      ∀ t : State, t.port.tickLatch = latch →
        t.readReg 0x1F = s.clock.tickCount.extractLsb' 8 8 ∧
        t.readReg 0x20 = s.clock.tickCount.extractLsb' 16 8 ∧
        t.readReg 0x21 = s.clock.tickCount.extractLsb' 24 8)

/-- The content of every register but STATUS, and 0 above 0x21 (R162, R165, Table 11-1, Table 11-2). -/
def RegisterContents : Prop :=
  ∀ (s : State) (o : BitVec 7),
    let p := s.port
    let flags := s.readReg 0x03
    s.readReg 0x00 = 0x6C ∧ s.readReg 0x01 = 0x02 ∧
    (∀ l : Link, flags.getLsbD l.1 = true ↔ p.linkCause.get l ≠ 0) ∧
    (flags.getLsbD 4 = true ↔ p.tableCause ≠ 0) ∧ (flags.getLsbD 5 = true ↔ p.timeCause ≠ 0) ∧
    (flags.getLsbD 6 = true ↔ p.cmdCause ≠ 0) ∧ flags.getLsbD 7 = false ∧
    s.readReg 0x04 = p.groupEnable ∧
    (∀ l : Link, o.toNat = 0x05 + l.1 → s.readReg o = p.linkCause.get l) ∧
    s.readReg 0x09 = p.tableCause ∧ s.readReg 0x0A = p.timeCause ∧ s.readReg 0x0B = p.cmdCause ∧
    (∀ k : Fin 8, o.toNat = 0x0C + k.1 → s.readReg o = p.args.get k) ∧
    s.readReg 0x14 = p.command ∧ s.readReg 0x15 = p.result ∧
    (∀ k : Fin 8, o.toNat = 0x16 + k.1 → s.readReg o = p.res.get k) ∧
    s.readReg 0x1E = s.clock.tickCount.extractLsb' 0 8 ∧
    (0x22 ≤ o.toNat → s.readReg o = 0)

/-- Reads through the port: what each register returns, and the latch of the tick count (R129, R160 to R162). -/
def Obligations.PortReadOutcomes : Prop :=
  ReadOutcomes ∧ RegisterContents

/-- The bits of STATUS, and IRQ_N as a level: low exactly while some group has both its flag and its enable at
1, outside reset (R163, R165, Table 11-2). -/
def Obligations.StatusAndIrq : Prop :=
  ∀ s : State,
    ((s.readReg 0x02).getLsbD 0 = s.port.busy ∧ (s.readReg 0x02).getLsbD 1 = s.restarting ∧
      (s.readReg 0x02).extractLsb' 2 2 = s.clock.state.code.extractLsb' 0 2 ∧
      (s.readReg 0x02).getLsbD 4 = s.clock.latched ∧ (s.readReg 0x02).getLsbD 5 = s.storeInvalid ∧
      (s.readReg 0x02).getLsbD 6 = false ∧ (s.readReg 0x02).getLsbD 7 = false) ∧
    (s.inReset = false → (s.irqN = false ↔
      (∃ l : Link, s.port.linkCause.get l ≠ 0 ∧ s.port.groupEnable.getLsbD l.1 = true) ∨
      (s.port.tableCause ≠ 0 ∧ s.port.groupEnable.getLsbD 4 = true) ∨
      (s.port.timeCause ≠ 0 ∧ s.port.groupEnable.getLsbD 5 = true) ∨
      (s.port.cmdCause ≠ 0 ∧ s.port.groupEnable.getLsbD 6 = true)))

/-! ### Laws that every step keeps -/

/-- R3 is kept by every step. -/
def Obligations.StepKeepsHolderLaw : Prop :=
  ∀ s t : State, s.HolderLaw → step s = .next t → t.HolderLaw

/-- The waiting list's law and the first two keys of its order, by priority and then PARKED before WAITING, are
kept by every step, R3 being kept too (R46); and the third key, ascending sequence, is kept while no entry has stood
in the list through all but one of the values of the 32-bit counter (R46, R47): how old an entry is, is counted in
insertions modulo 2^32. -/
def Obligations.StepKeepsListLaws : Prop :=
  (∀ s t : State, s.HolderLaw → s.ListLaw → s.OrderLaw → step s = .next t →
    t.HolderLaw ∧ t.ListLaw ∧ t.OrderLaw) ∧
  ∀ s t : State, s.HolderLaw → s.ZonesLaw → s.ListLaw → s.OrderLaw → s.SequenceRoom → s.SequenceLaw →
    step s = .next t → t.SequenceLaw

/-- Every record lists one to four distinct zones, a live one none that is DISABLED, and a terminal record belongs to
an enabled link, after every step (R19, and of R25 that half alone: that the value last reported of a terminal record
differs from its state is not claimed here). No two records of a link share a tag (R23), and the live records lie
within their effective limits (R10, R64). Every term and countdown of a live record is at least 1 (R81) and every
YIELDING record is yieldable (R58). With every countdown at least 1, LAPSE, EXPIRY and REVOKE_FOR_LATENESS taken by
themselves outside a tick have no occasion (log entry 7, DESIGN CHOICE). Every earmark names a waiting record that
lists its zone (R6) after every step from such a state, and from any other after every step but one whose command is
LAPSE taken by itself, which no grant scan follows. -/
def Obligations.StepKeepsRecordLaws : Prop :=
  (∀ s t : State, s.ZonesLaw → s.TerminalLaw → step s = .next t → t.ZonesLaw ∧ t.TerminalLaw) ∧
  (∀ s t : State, s.HolderLaw → s.ZonesLaw → s.ListLaw → s.TagLaw → s.LimitsLaw → step s = .next t →
    t.TagLaw ∧ t.LimitsLaw) ∧
  (∀ s t : State, s.HolderLaw → s.ZonesLaw → s.ListLaw → s.LimitsLaw → s.RangeLaw → s.CountdownLaw →
    s.YieldableLaw → step s = .next t → t.CountdownLaw ∧ t.YieldableLaw) ∧
  (∀ (s : State) i, s.CountdownLaw → exec (.lapse i) s = .next s ∧ exec (.expiry i) s = .next s ∧
    exec (.revokeForLateness i) s = .next s) ∧
  ∀ s t : State, s.HolderLaw → s.ListLaw → s.EarmarkLaw →
    (s.CountdownLaw ∨ ∀ i rest, s.pending ≠ .lapse i :: rest) → step s = .next t → t.EarmarkLaw

/-- Every configured value stays in its range, no FIFO grows beyond 64 entries and the lock run not beyond 8
(R8, R34, R123, R132, R134, R171). -/
def Obligations.StepKeepsRanges : Prop :=
  ∀ s t : State, s.RangeLaw → s.BoundLaw → step s = .next t → t.RangeLaw ∧ t.BoundLaw

/-- The state right after reset is what the cold-start sequence leaves with its pins low and an image never
stored (log entry 3), and it obeys every law. -/
def Obligations.ResetState : Prop :=
  exec (.leaveReset false false false false) (State.cold .blank []) = .next State.reset ∧
    State.reset.HolderLaw ∧ State.reset.ListLaw ∧ State.reset.OrderLaw ∧ State.reset.ZonesLaw ∧
    State.reset.TerminalLaw ∧ State.reset.RangeLaw ∧ State.reset.BoundLaw ∧ State.reset.SequenceLaw ∧
    State.reset.SequenceRoom ∧ State.reset.TagLaw ∧ State.reset.LimitsLaw ∧ State.reset.EarmarkLaw ∧
    State.reset.CountdownLaw ∧ State.reset.YieldableLaw
end

