-- ==== Sys2Proof/Laws/Table.lean ====
section
/-! SUPPORT. Reading a table after writing it. -/

namespace Sys2Proof.Machine

variable {n : Nat} {α β : Type}

theorem Table.ext_get {t u : Table n α} (h : ∀ i, t.get i = u.get i) : t = u := by
  obtain ⟨a, ha⟩ := t
  obtain ⟨b, hb⟩ := u
  congr
  apply List.ext_getElem (by rw [ha, hb])
  intro i h₁ h₂
  exact h ⟨i, by omega⟩

theorem Table.get_set (t : Table n α) (i j : Fin n) (x : α) :
    (t.set i x).get j = if j = i then x else t.get j := by
  unfold Table.get Table.set
  simp only [List.getElem_set, Fin.ext_iff]
  by_cases h : i.1 = j.1
  · simp [h]
  · simp [h, Ne.symm h]

@[simp] theorem Table.get_set_self (t : Table n α) (i : Fin n) (x : α) : (t.set i x).get i = x := by
  simp [Table.get_set]

theorem Table.get_set_ne (t : Table n α) {i j : Fin n} (x : α) (h : j ≠ i) :
    (t.set i x).get j = t.get j := by simp [Table.get_set, h]

@[simp] theorem Table.set_set (t : Table n α) (i : Fin n) (x y : α) : (t.set i x).set i y = t.set i y :=
  Table.ext_get fun j => by by_cases h : j = i <;> simp [Table.get_set, h]

@[simp] theorem Table.set_get (t : Table n α) (i : Fin n) : t.set i (t.get i) = t :=
  Table.ext_get fun j => by by_cases h : j = i <;> simp [Table.get_set, h]

@[simp] theorem Table.get_fill (x : α) (i : Fin n) : (Table.fill n x).get i = x := by
  simp [Table.get, Table.fill]

@[simp] theorem Table.get_mapIdx (f : Fin n → α → β) (t : Table n α) (i : Fin n) :
    (t.mapIdx f).get i = f i (t.get i) := by
  simp [Table.get, Table.mapIdx]

theorem Table.lowest_some {p : α → Bool} {t : Table n α} {i : Fin n} (h : t.lowest p = some i) :
    p (t.get i) = true := by
  have := List.find?_some h
  simpa using this

theorem Table.lowest_none {p : α → Bool} {t : Table n α} (h : t.lowest p = none) (i : Fin n) :
    p (t.get i) = false := by
  have := List.find?_eq_none.mp h i (List.mem_finRange i)
  simpa using this

theorem Table.any_list (p : α → Bool) (t : Table n α) :
    (t.list.any p = true) ↔ ∃ i, p (t.get i) = true := by
  rw [List.any_eq_true]
  constructor
  · rintro ⟨x, hx, hp⟩
    obtain ⟨k, hk, rfl⟩ := List.getElem_of_mem hx
    exact ⟨⟨k, by rw [← t.size_eq]; exact hk⟩, hp⟩
  · rintro ⟨i, hi⟩
    exact ⟨t.get i, List.getElem_mem _, hi⟩

/-- A count after one entry is replaced. -/
theorem Table.count_set (p : α → Bool) (t : Table n α) (i : Fin n) (x : α) :
    (t.set i x).count p + (if p (t.get i) then 1 else 0) = t.count p + (if p x then 1 else 0) := by
  have hi : i.1 < t.list.length := by rw [t.size_eq]; exact i.2
  have h : (t.set i x).count p = t.list.countP p - (if p (t.get i) then 1 else 0) + (if p x then 1 else 0) :=
    List.countP_set hi
  have hle : (if p (t.get i) then 1 else 0) ≤ t.list.countP p := by
    split
    · next hp => exact List.countP_pos_iff.mpr ⟨t.get i, List.getElem_mem _, hp⟩
    · exact Nat.zero_le _
  have hc : t.count p = t.list.countP p := rfl
  omega

end Sys2Proof.Machine
end

