-- ==== Sys2Proof/Laws/State.lean ====
section
/-! SUPPORT. What each named update of State does to each field: one statement for an update, which simp
splits into one rewriting per field. -/

namespace Sys2Proof.Machine

@[simp] theorem State.setZone_fields (s : State) (z : ZoneId) (x : Zone) :
    (s.setZone z x).zones = s.zones.set z x ∧
    (s.setZone z x).classes = s.classes ∧
    (s.setZone z x).slots = s.slots ∧
    (s.setZone z x).waiting = s.waiting ∧
    (s.setZone z x).sequence = s.sequence ∧
    (s.setZone z x).threshold = s.threshold ∧
    (s.setZone z x).armed = s.armed ∧
    (s.setZone z x).arbiter = s.arbiter ∧
    (s.setZone z x).clock = s.clock ∧
    (s.setZone z x).links = s.links ∧
    (s.setZone z x).port = s.port ∧
    (s.setZone z x).image = s.image ∧
    (s.setZone z x).storeInvalid = s.storeInvalid ∧
    (s.setZone z x).autoload = s.autoload ∧
    (s.setZone z x).restarting = s.restarting ∧
    (s.setZone z x).wrstN = s.wrstN ∧
    (s.setZone z x).inReset = s.inReset ∧
    (s.setZone z x).pending = s.pending :=
  ⟨rfl, rfl, rfl, rfl, rfl, rfl, rfl, rfl, rfl, rfl, rfl, rfl, rfl, rfl, rfl, rfl, rfl, rfl⟩

@[simp] theorem State.setSlot_fields (s : State) (i : SlotId) (x : Slot) :
    (s.setSlot i x).zones = s.zones ∧
    (s.setSlot i x).classes = s.classes ∧
    (s.setSlot i x).slots = s.slots.set i x ∧
    (s.setSlot i x).waiting = s.waiting ∧
    (s.setSlot i x).sequence = s.sequence ∧
    (s.setSlot i x).threshold = s.threshold ∧
    (s.setSlot i x).armed = s.armed ∧
    (s.setSlot i x).arbiter = s.arbiter ∧
    (s.setSlot i x).clock = s.clock ∧
    (s.setSlot i x).links = s.links ∧
    (s.setSlot i x).port = s.port ∧
    (s.setSlot i x).image = s.image ∧
    (s.setSlot i x).storeInvalid = s.storeInvalid ∧
    (s.setSlot i x).autoload = s.autoload ∧
    (s.setSlot i x).restarting = s.restarting ∧
    (s.setSlot i x).wrstN = s.wrstN ∧
    (s.setSlot i x).inReset = s.inReset ∧
    (s.setSlot i x).pending = s.pending :=
  ⟨rfl, rfl, rfl, rfl, rfl, rfl, rfl, rfl, rfl, rfl, rfl, rfl, rfl, rfl, rfl, rfl, rfl, rfl⟩

@[simp] theorem State.setClass_fields (s : State) (d : ClassId) (x : ClassParams) :
    (s.setClass d x).zones = s.zones ∧
    (s.setClass d x).classes = s.classes.set d x ∧
    (s.setClass d x).slots = s.slots ∧
    (s.setClass d x).waiting = s.waiting ∧
    (s.setClass d x).sequence = s.sequence ∧
    (s.setClass d x).threshold = s.threshold ∧
    (s.setClass d x).armed = s.armed ∧
    (s.setClass d x).arbiter = s.arbiter ∧
    (s.setClass d x).clock = s.clock ∧
    (s.setClass d x).links = s.links ∧
    (s.setClass d x).port = s.port ∧
    (s.setClass d x).image = s.image ∧
    (s.setClass d x).storeInvalid = s.storeInvalid ∧
    (s.setClass d x).autoload = s.autoload ∧
    (s.setClass d x).restarting = s.restarting ∧
    (s.setClass d x).wrstN = s.wrstN ∧
    (s.setClass d x).inReset = s.inReset ∧
    (s.setClass d x).pending = s.pending :=
  ⟨rfl, rfl, rfl, rfl, rfl, rfl, rfl, rfl, rfl, rfl, rfl, rfl, rfl, rfl, rfl, rfl, rfl, rfl⟩

@[simp] theorem State.setLink_fields (s : State) (l : Link) (x : LinkState) :
    (s.setLink l x).zones = s.zones ∧
    (s.setLink l x).classes = s.classes ∧
    (s.setLink l x).slots = s.slots ∧
    (s.setLink l x).waiting = s.waiting ∧
    (s.setLink l x).sequence = s.sequence ∧
    (s.setLink l x).threshold = s.threshold ∧
    (s.setLink l x).armed = s.armed ∧
    (s.setLink l x).arbiter = s.arbiter ∧
    (s.setLink l x).clock = s.clock ∧
    (s.setLink l x).links = s.links.set l x ∧
    (s.setLink l x).port = s.port ∧
    (s.setLink l x).image = s.image ∧
    (s.setLink l x).storeInvalid = s.storeInvalid ∧
    (s.setLink l x).autoload = s.autoload ∧
    (s.setLink l x).restarting = s.restarting ∧
    (s.setLink l x).wrstN = s.wrstN ∧
    (s.setLink l x).inReset = s.inReset ∧
    (s.setLink l x).pending = s.pending :=
  ⟨rfl, rfl, rfl, rfl, rfl, rfl, rfl, rfl, rfl, rfl, rfl, rfl, rfl, rfl, rfl, rfl, rfl, rfl⟩

@[simp] theorem State.setClock_fields (s : State) (c : Clock) :
    (s.setClock c).zones = s.zones ∧
    (s.setClock c).classes = s.classes ∧
    (s.setClock c).slots = s.slots ∧
    (s.setClock c).waiting = s.waiting ∧
    (s.setClock c).sequence = s.sequence ∧
    (s.setClock c).threshold = s.threshold ∧
    (s.setClock c).armed = s.armed ∧
    (s.setClock c).arbiter = s.arbiter ∧
    (s.setClock c).clock = c ∧
    (s.setClock c).links = s.links ∧
    (s.setClock c).port = s.port ∧
    (s.setClock c).image = s.image ∧
    (s.setClock c).storeInvalid = s.storeInvalid ∧
    (s.setClock c).autoload = s.autoload ∧
    (s.setClock c).restarting = s.restarting ∧
    (s.setClock c).wrstN = s.wrstN ∧
    (s.setClock c).inReset = s.inReset ∧
    (s.setClock c).pending = s.pending :=
  ⟨rfl, rfl, rfl, rfl, rfl, rfl, rfl, rfl, rfl, rfl, rfl, rfl, rfl, rfl, rfl, rfl, rfl, rfl⟩

@[simp] theorem State.setPort_fields (s : State) (p : Port) :
    (s.setPort p).zones = s.zones ∧
    (s.setPort p).classes = s.classes ∧
    (s.setPort p).slots = s.slots ∧
    (s.setPort p).waiting = s.waiting ∧
    (s.setPort p).sequence = s.sequence ∧
    (s.setPort p).threshold = s.threshold ∧
    (s.setPort p).armed = s.armed ∧
    (s.setPort p).arbiter = s.arbiter ∧
    (s.setPort p).clock = s.clock ∧
    (s.setPort p).links = s.links ∧
    (s.setPort p).port = p ∧
    (s.setPort p).image = s.image ∧
    (s.setPort p).storeInvalid = s.storeInvalid ∧
    (s.setPort p).autoload = s.autoload ∧
    (s.setPort p).restarting = s.restarting ∧
    (s.setPort p).wrstN = s.wrstN ∧
    (s.setPort p).inReset = s.inReset ∧
    (s.setPort p).pending = s.pending :=
  ⟨rfl, rfl, rfl, rfl, rfl, rfl, rfl, rfl, rfl, rfl, rfl, rfl, rfl, rfl, rfl, rfl, rfl, rfl⟩

@[simp] theorem State.setZoneState_fields (s : State) (z : ZoneId) (x : ZoneState) :
    (s.setZoneState z x).zones = s.zones.set z { s.zone z with state := x } ∧
    (s.setZoneState z x).classes = s.classes ∧
    (s.setZoneState z x).slots = s.slots ∧
    (s.setZoneState z x).waiting = s.waiting ∧
    (s.setZoneState z x).sequence = s.sequence ∧
    (s.setZoneState z x).threshold = s.threshold ∧
    (s.setZoneState z x).armed = s.armed ∧
    (s.setZoneState z x).arbiter = s.arbiter ∧
    (s.setZoneState z x).clock = s.clock ∧
    (s.setZoneState z x).links = s.links ∧
    (s.setZoneState z x).port = s.port ∧
    (s.setZoneState z x).image = s.image ∧
    (s.setZoneState z x).storeInvalid = s.storeInvalid ∧
    (s.setZoneState z x).autoload = s.autoload ∧
    (s.setZoneState z x).restarting = s.restarting ∧
    (s.setZoneState z x).wrstN = s.wrstN ∧
    (s.setZoneState z x).inReset = s.inReset ∧
    (s.setZoneState z x).pending = s.pending :=
  ⟨rfl, rfl, rfl, rfl, rfl, rfl, rfl, rfl, rfl, rfl, rfl, rfl, rfl, rfl, rfl, rfl, rfl, rfl⟩

@[simp] theorem State.setEarmark_fields (s : State) (z : ZoneId) (e : Option SlotId) :
    (s.setEarmark z e).zones = s.zones.set z { s.zone z with earmark := e } ∧
    (s.setEarmark z e).classes = s.classes ∧
    (s.setEarmark z e).slots = s.slots ∧
    (s.setEarmark z e).waiting = s.waiting ∧
    (s.setEarmark z e).sequence = s.sequence ∧
    (s.setEarmark z e).threshold = s.threshold ∧
    (s.setEarmark z e).armed = s.armed ∧
    (s.setEarmark z e).arbiter = s.arbiter ∧
    (s.setEarmark z e).clock = s.clock ∧
    (s.setEarmark z e).links = s.links ∧
    (s.setEarmark z e).port = s.port ∧
    (s.setEarmark z e).image = s.image ∧
    (s.setEarmark z e).storeInvalid = s.storeInvalid ∧
    (s.setEarmark z e).autoload = s.autoload ∧
    (s.setEarmark z e).restarting = s.restarting ∧
    (s.setEarmark z e).wrstN = s.wrstN ∧
    (s.setEarmark z e).inReset = s.inReset ∧
    (s.setEarmark z e).pending = s.pending :=
  ⟨rfl, rfl, rfl, rfl, rfl, rfl, rfl, rfl, rfl, rfl, rfl, rfl, rfl, rfl, rfl, rfl, rfl, rfl⟩

@[simp] theorem State.setLease_fields (s : State) (i : SlotId) (r : Lease) :
    (s.setLease i r).zones = s.zones ∧
    (s.setLease i r).classes = s.classes ∧
    (s.setLease i r).slots = s.slots.set i ⟨s.generation i, some r⟩ ∧
    (s.setLease i r).waiting = s.waiting ∧
    (s.setLease i r).sequence = s.sequence ∧
    (s.setLease i r).threshold = s.threshold ∧
    (s.setLease i r).armed = s.armed ∧
    (s.setLease i r).arbiter = s.arbiter ∧
    (s.setLease i r).clock = s.clock ∧
    (s.setLease i r).links = s.links ∧
    (s.setLease i r).port = s.port ∧
    (s.setLease i r).image = s.image ∧
    (s.setLease i r).storeInvalid = s.storeInvalid ∧
    (s.setLease i r).autoload = s.autoload ∧
    (s.setLease i r).restarting = s.restarting ∧
    (s.setLease i r).wrstN = s.wrstN ∧
    (s.setLease i r).inReset = s.inReset ∧
    (s.setLease i r).pending = s.pending :=
  ⟨rfl, rfl, rfl, rfl, rfl, rfl, rfl, rfl, rfl, rfl, rfl, rfl, rfl, rfl, rfl, rfl, rfl, rfl⟩

@[simp] theorem State.raiseTable_fields (s : State) (f : Byte) :
    (s.raiseTable f).zones = s.zones ∧
    (s.raiseTable f).classes = s.classes ∧
    (s.raiseTable f).slots = s.slots ∧
    (s.raiseTable f).waiting = s.waiting ∧
    (s.raiseTable f).sequence = s.sequence ∧
    (s.raiseTable f).threshold = s.threshold ∧
    (s.raiseTable f).armed = s.armed ∧
    (s.raiseTable f).arbiter = s.arbiter ∧
    (s.raiseTable f).clock = s.clock ∧
    (s.raiseTable f).links = s.links ∧
    (s.raiseTable f).port = { s.port with tableCause := s.port.tableCause ||| f } ∧
    (s.raiseTable f).image = s.image ∧
    (s.raiseTable f).storeInvalid = s.storeInvalid ∧
    (s.raiseTable f).autoload = s.autoload ∧
    (s.raiseTable f).restarting = s.restarting ∧
    (s.raiseTable f).wrstN = s.wrstN ∧
    (s.raiseTable f).inReset = s.inReset ∧
    (s.raiseTable f).pending = s.pending :=
  ⟨rfl, rfl, rfl, rfl, rfl, rfl, rfl, rfl, rfl, rfl, rfl, rfl, rfl, rfl, rfl, rfl, rfl, rfl⟩

@[simp] theorem State.raiseTime_fields (s : State) (f : Byte) :
    (s.raiseTime f).zones = s.zones ∧
    (s.raiseTime f).classes = s.classes ∧
    (s.raiseTime f).slots = s.slots ∧
    (s.raiseTime f).waiting = s.waiting ∧
    (s.raiseTime f).sequence = s.sequence ∧
    (s.raiseTime f).threshold = s.threshold ∧
    (s.raiseTime f).armed = s.armed ∧
    (s.raiseTime f).arbiter = s.arbiter ∧
    (s.raiseTime f).clock = s.clock ∧
    (s.raiseTime f).links = s.links ∧
    (s.raiseTime f).port = { s.port with timeCause := s.port.timeCause ||| f } ∧
    (s.raiseTime f).image = s.image ∧
    (s.raiseTime f).storeInvalid = s.storeInvalid ∧
    (s.raiseTime f).autoload = s.autoload ∧
    (s.raiseTime f).restarting = s.restarting ∧
    (s.raiseTime f).wrstN = s.wrstN ∧
    (s.raiseTime f).inReset = s.inReset ∧
    (s.raiseTime f).pending = s.pending :=
  ⟨rfl, rfl, rfl, rfl, rfl, rfl, rfl, rfl, rfl, rfl, rfl, rfl, rfl, rfl, rfl, rfl, rfl, rfl⟩

@[simp] theorem State.raiseCmd_fields (s : State) (f : Byte) :
    (s.raiseCmd f).zones = s.zones ∧
    (s.raiseCmd f).classes = s.classes ∧
    (s.raiseCmd f).slots = s.slots ∧
    (s.raiseCmd f).waiting = s.waiting ∧
    (s.raiseCmd f).sequence = s.sequence ∧
    (s.raiseCmd f).threshold = s.threshold ∧
    (s.raiseCmd f).armed = s.armed ∧
    (s.raiseCmd f).arbiter = s.arbiter ∧
    (s.raiseCmd f).clock = s.clock ∧
    (s.raiseCmd f).links = s.links ∧
    (s.raiseCmd f).port = { s.port with cmdCause := s.port.cmdCause ||| f } ∧
    (s.raiseCmd f).image = s.image ∧
    (s.raiseCmd f).storeInvalid = s.storeInvalid ∧
    (s.raiseCmd f).autoload = s.autoload ∧
    (s.raiseCmd f).restarting = s.restarting ∧
    (s.raiseCmd f).wrstN = s.wrstN ∧
    (s.raiseCmd f).inReset = s.inReset ∧
    (s.raiseCmd f).pending = s.pending :=
  ⟨rfl, rfl, rfl, rfl, rfl, rfl, rfl, rfl, rfl, rfl, rfl, rfl, rfl, rfl, rfl, rfl, rfl, rfl⟩

@[simp] theorem State.raiseLink_fields (s : State) (l : Link) (f : Byte) :
    (s.raiseLink l f).zones = s.zones ∧
    (s.raiseLink l f).classes = s.classes ∧
    (s.raiseLink l f).slots = s.slots ∧
    (s.raiseLink l f).waiting = s.waiting ∧
    (s.raiseLink l f).sequence = s.sequence ∧
    (s.raiseLink l f).threshold = s.threshold ∧
    (s.raiseLink l f).armed = s.armed ∧
    (s.raiseLink l f).arbiter = s.arbiter ∧
    (s.raiseLink l f).clock = s.clock ∧
    (s.raiseLink l f).links = s.links ∧
    (s.raiseLink l f).port = { s.port with linkCause := s.port.linkCause.set l (s.port.linkCause.get l ||| f) } ∧
    (s.raiseLink l f).image = s.image ∧
    (s.raiseLink l f).storeInvalid = s.storeInvalid ∧
    (s.raiseLink l f).autoload = s.autoload ∧
    (s.raiseLink l f).restarting = s.restarting ∧
    (s.raiseLink l f).wrstN = s.wrstN ∧
    (s.raiseLink l f).inReset = s.inReset ∧
    (s.raiseLink l f).pending = s.pending :=
  ⟨rfl, rfl, rfl, rfl, rfl, rfl, rfl, rfl, rfl, rfl, rfl, rfl, rfl, rfl, rfl, rfl, rfl, rfl⟩

@[simp] theorem State.leaveList_fields (s : State) (i : SlotId) :
    (s.leaveList i).zones = s.zones ∧
    (s.leaveList i).classes = s.classes ∧
    (s.leaveList i).slots = s.slots ∧
    (s.leaveList i).waiting = s.waiting.filter (· != i) ∧
    (s.leaveList i).sequence = s.sequence ∧
    (s.leaveList i).threshold = s.threshold ∧
    (s.leaveList i).armed = s.armed ∧
    (s.leaveList i).arbiter = s.arbiter ∧
    (s.leaveList i).clock = s.clock ∧
    (s.leaveList i).links = s.links ∧
    (s.leaveList i).port = s.port ∧
    (s.leaveList i).image = s.image ∧
    (s.leaveList i).storeInvalid = s.storeInvalid ∧
    (s.leaveList i).autoload = s.autoload ∧
    (s.leaveList i).restarting = s.restarting ∧
    (s.leaveList i).wrstN = s.wrstN ∧
    (s.leaveList i).inReset = s.inReset ∧
    (s.leaveList i).pending = s.pending :=
  ⟨rfl, rfl, rfl, rfl, rfl, rfl, rfl, rfl, rfl, rfl, rfl, rfl, rfl, rfl, rfl, rfl, rfl, rfl⟩

@[simp] theorem State.enterList_fields (s : State) (i : SlotId) (q : Priority) (b : Bool) :
    (s.enterList i q b).zones = s.zones ∧
    (s.enterList i q b).classes = s.classes ∧
    (s.enterList i q b).slots = s.slots ∧
    (s.enterList i q b).waiting = insertBefore (s.behind q b) i s.waiting ∧
    (s.enterList i q b).sequence = s.sequence + 1 ∧
    (s.enterList i q b).threshold = s.threshold ∧
    (s.enterList i q b).armed = s.armed ∧
    (s.enterList i q b).arbiter = s.arbiter ∧
    (s.enterList i q b).clock = s.clock ∧
    (s.enterList i q b).links = s.links ∧
    (s.enterList i q b).port = s.port ∧
    (s.enterList i q b).image = s.image ∧
    (s.enterList i q b).storeInvalid = s.storeInvalid ∧
    (s.enterList i q b).autoload = s.autoload ∧
    (s.enterList i q b).restarting = s.restarting ∧
    (s.enterList i q b).wrstN = s.wrstN ∧
    (s.enterList i q b).inReset = s.inReset ∧
    (s.enterList i q b).pending = s.pending :=
  ⟨rfl, rfl, rfl, rfl, rfl, rfl, rfl, rfl, rfl, rfl, rfl, rfl, rfl, rfl, rfl, rfl, rfl, rfl⟩

@[simp] theorem State.clearEarmarks_fields (s : State) :
    (s.clearEarmarks).zones = (s.zones.mapIdx fun _ x => { x with earmark := none }) ∧
    (s.clearEarmarks).classes = s.classes ∧
    (s.clearEarmarks).slots = s.slots ∧
    (s.clearEarmarks).waiting = s.waiting ∧
    (s.clearEarmarks).sequence = s.sequence ∧
    (s.clearEarmarks).threshold = s.threshold ∧
    (s.clearEarmarks).armed = s.armed ∧
    (s.clearEarmarks).arbiter = s.arbiter ∧
    (s.clearEarmarks).clock = s.clock ∧
    (s.clearEarmarks).links = s.links ∧
    (s.clearEarmarks).port = s.port ∧
    (s.clearEarmarks).image = s.image ∧
    (s.clearEarmarks).storeInvalid = s.storeInvalid ∧
    (s.clearEarmarks).autoload = s.autoload ∧
    (s.clearEarmarks).restarting = s.restarting ∧
    (s.clearEarmarks).wrstN = s.wrstN ∧
    (s.clearEarmarks).inReset = s.inReset ∧
    (s.clearEarmarks).pending = s.pending :=
  ⟨rfl, rfl, rfl, rfl, rfl, rfl, rfl, rfl, rfl, rfl, rfl, rfl, rfl, rfl, rfl, rfl, rfl, rfl⟩

@[simp] theorem State.mapLeases_fields (s : State) (f : SlotId → Lease → Lease) :
    (s.mapLeases f).zones = s.zones ∧
    (s.mapLeases f).classes = s.classes ∧
    (s.mapLeases f).slots = (s.slots.mapIdx fun i x => { x with lease := x.lease.map (f i) }) ∧
    (s.mapLeases f).waiting = s.waiting ∧
    (s.mapLeases f).sequence = s.sequence ∧
    (s.mapLeases f).threshold = s.threshold ∧
    (s.mapLeases f).armed = s.armed ∧
    (s.mapLeases f).arbiter = s.arbiter ∧
    (s.mapLeases f).clock = s.clock ∧
    (s.mapLeases f).links = s.links ∧
    (s.mapLeases f).port = s.port ∧
    (s.mapLeases f).image = s.image ∧
    (s.mapLeases f).storeInvalid = s.storeInvalid ∧
    (s.mapLeases f).autoload = s.autoload ∧
    (s.mapLeases f).restarting = s.restarting ∧
    (s.mapLeases f).wrstN = s.wrstN ∧
    (s.mapLeases f).inReset = s.inReset ∧
    (s.mapLeases f).pending = s.pending :=
  ⟨rfl, rfl, rfl, rfl, rfl, rfl, rfl, rfl, rfl, rfl, rfl, rfl, rfl, rfl, rfl, rfl, rfl, rfl⟩

@[simp] theorem State.setZone_views (s : State) (z : ZoneId) (x : Zone) :
    (∀ w, (s.setZone z x).zone w = (if w = z then x else s.zone w)) ∧
    (∀ j, (s.setZone z x).slot j = s.slot j) ∧
    (∀ j, (s.setZone z x).lease j = s.lease j) ∧
    (∀ j, (s.setZone z x).generation j = s.generation j) ∧
    (∀ k, (s.setZone z x).link k = s.link k) ∧
    (∀ c, (s.setZone z x).cls c = s.cls c) := by
  refine ⟨fun _ => ?_, fun _ => ?_, fun _ => ?_, fun _ => ?_, fun _ => ?_, fun _ => ?_⟩ <;>
    simp only [State.zone, State.slot, State.lease, State.generation, State.link, State.cls, State.setZone_fields, Table.get_set]

@[simp] theorem State.setSlot_views (s : State) (i : SlotId) (x : Slot) :
    (∀ w, (s.setSlot i x).zone w = s.zone w) ∧
    (∀ j, (s.setSlot i x).slot j = (if j = i then x else s.slot j)) ∧
    (∀ j, (s.setSlot i x).lease j = (if j = i then x.lease else s.lease j)) ∧
    (∀ j, (s.setSlot i x).generation j = (if j = i then x.generation else s.generation j)) ∧
    (∀ k, (s.setSlot i x).link k = s.link k) ∧
    (∀ c, (s.setSlot i x).cls c = s.cls c) := by
  refine ⟨fun _ => ?_, fun _ => ?_, fun _ => ?_, fun _ => ?_, fun _ => ?_, fun _ => ?_⟩ <;>
    simp only [State.zone, State.slot, State.lease, State.generation, State.link, State.cls, State.setSlot_fields, Table.get_set] <;> split <;> simp_all

@[simp] theorem State.setClass_views (s : State) (d : ClassId) (x : ClassParams) :
    (∀ w, (s.setClass d x).zone w = s.zone w) ∧
    (∀ j, (s.setClass d x).slot j = s.slot j) ∧
    (∀ j, (s.setClass d x).lease j = s.lease j) ∧
    (∀ j, (s.setClass d x).generation j = s.generation j) ∧
    (∀ k, (s.setClass d x).link k = s.link k) ∧
    (∀ c, (s.setClass d x).cls c = (if c = d then x else s.cls c)) := by
  refine ⟨fun _ => ?_, fun _ => ?_, fun _ => ?_, fun _ => ?_, fun _ => ?_, fun _ => ?_⟩ <;>
    simp only [State.zone, State.slot, State.lease, State.generation, State.link, State.cls, State.setClass_fields, Table.get_set]

@[simp] theorem State.setLink_views (s : State) (l : Link) (x : LinkState) :
    (∀ w, (s.setLink l x).zone w = s.zone w) ∧
    (∀ j, (s.setLink l x).slot j = s.slot j) ∧
    (∀ j, (s.setLink l x).lease j = s.lease j) ∧
    (∀ j, (s.setLink l x).generation j = s.generation j) ∧
    (∀ k, (s.setLink l x).link k = (if k = l then x else s.link k)) ∧
    (∀ c, (s.setLink l x).cls c = s.cls c) := by
  refine ⟨fun _ => ?_, fun _ => ?_, fun _ => ?_, fun _ => ?_, fun _ => ?_, fun _ => ?_⟩ <;>
    simp only [State.zone, State.slot, State.lease, State.generation, State.link, State.cls, State.setLink_fields, Table.get_set]

@[simp] theorem State.setClock_views (s : State) (c : Clock) :
    (∀ w, (s.setClock c).zone w = s.zone w) ∧
    (∀ j, (s.setClock c).slot j = s.slot j) ∧
    (∀ j, (s.setClock c).lease j = s.lease j) ∧
    (∀ j, (s.setClock c).generation j = s.generation j) ∧
    (∀ k, (s.setClock c).link k = s.link k) ∧
    (∀ d, (s.setClock c).cls d = s.cls d) :=
  ⟨fun _ => rfl, fun _ => rfl, fun _ => rfl, fun _ => rfl, fun _ => rfl, fun _ => rfl⟩

@[simp] theorem State.setPort_views (s : State) (p : Port) :
    (∀ w, (s.setPort p).zone w = s.zone w) ∧
    (∀ j, (s.setPort p).slot j = s.slot j) ∧
    (∀ j, (s.setPort p).lease j = s.lease j) ∧
    (∀ j, (s.setPort p).generation j = s.generation j) ∧
    (∀ k, (s.setPort p).link k = s.link k) ∧
    (∀ d, (s.setPort p).cls d = s.cls d) :=
  ⟨fun _ => rfl, fun _ => rfl, fun _ => rfl, fun _ => rfl, fun _ => rfl, fun _ => rfl⟩

@[simp] theorem State.setZoneState_views (s : State) (z : ZoneId) (x : ZoneState) :
    (∀ w, (s.setZoneState z x).zone w = (if w = z then { s.zone z with state := x } else s.zone w)) ∧
    (∀ j, (s.setZoneState z x).slot j = s.slot j) ∧
    (∀ j, (s.setZoneState z x).lease j = s.lease j) ∧
    (∀ j, (s.setZoneState z x).generation j = s.generation j) ∧
    (∀ k, (s.setZoneState z x).link k = s.link k) ∧
    (∀ c, (s.setZoneState z x).cls c = s.cls c) := by
  refine ⟨fun _ => ?_, fun _ => ?_, fun _ => ?_, fun _ => ?_, fun _ => ?_, fun _ => ?_⟩ <;>
    simp only [State.zone, State.slot, State.lease, State.generation, State.link, State.cls, State.setZoneState_fields, Table.get_set]

@[simp] theorem State.setEarmark_views (s : State) (z : ZoneId) (e : Option SlotId) :
    (∀ w, (s.setEarmark z e).zone w = (if w = z then { s.zone z with earmark := e } else s.zone w)) ∧
    (∀ j, (s.setEarmark z e).slot j = s.slot j) ∧
    (∀ j, (s.setEarmark z e).lease j = s.lease j) ∧
    (∀ j, (s.setEarmark z e).generation j = s.generation j) ∧
    (∀ k, (s.setEarmark z e).link k = s.link k) ∧
    (∀ c, (s.setEarmark z e).cls c = s.cls c) := by
  refine ⟨fun _ => ?_, fun _ => ?_, fun _ => ?_, fun _ => ?_, fun _ => ?_, fun _ => ?_⟩ <;>
    simp only [State.zone, State.slot, State.lease, State.generation, State.link, State.cls, State.setEarmark_fields, Table.get_set]

@[simp] theorem State.setLease_views (s : State) (i : SlotId) (r : Lease) :
    (∀ w, (s.setLease i r).zone w = s.zone w) ∧
    (∀ j, (s.setLease i r).slot j = (if j = i then ⟨s.generation i, some r⟩ else s.slot j)) ∧
    (∀ j, (s.setLease i r).lease j = (if j = i then some r else s.lease j)) ∧
    (∀ j, (s.setLease i r).generation j = s.generation j) ∧
    (∀ k, (s.setLease i r).link k = s.link k) ∧
    (∀ c, (s.setLease i r).cls c = s.cls c) := by
  refine ⟨fun _ => ?_, fun _ => ?_, fun _ => ?_, fun _ => ?_, fun _ => ?_, fun _ => ?_⟩ <;>
    simp only [State.zone, State.slot, State.lease, State.generation, State.link, State.cls, State.setLease_fields, Table.get_set] <;> split <;> simp_all

@[simp] theorem State.raiseTable_views (s : State) (f : Byte) :
    (∀ w, (s.raiseTable f).zone w = s.zone w) ∧
    (∀ j, (s.raiseTable f).slot j = s.slot j) ∧
    (∀ j, (s.raiseTable f).lease j = s.lease j) ∧
    (∀ j, (s.raiseTable f).generation j = s.generation j) ∧
    (∀ k, (s.raiseTable f).link k = s.link k) ∧
    (∀ c, (s.raiseTable f).cls c = s.cls c) :=
  ⟨fun _ => rfl, fun _ => rfl, fun _ => rfl, fun _ => rfl, fun _ => rfl, fun _ => rfl⟩

@[simp] theorem State.raiseTime_views (s : State) (f : Byte) :
    (∀ w, (s.raiseTime f).zone w = s.zone w) ∧
    (∀ j, (s.raiseTime f).slot j = s.slot j) ∧
    (∀ j, (s.raiseTime f).lease j = s.lease j) ∧
    (∀ j, (s.raiseTime f).generation j = s.generation j) ∧
    (∀ k, (s.raiseTime f).link k = s.link k) ∧
    (∀ c, (s.raiseTime f).cls c = s.cls c) :=
  ⟨fun _ => rfl, fun _ => rfl, fun _ => rfl, fun _ => rfl, fun _ => rfl, fun _ => rfl⟩

@[simp] theorem State.raiseCmd_views (s : State) (f : Byte) :
    (∀ w, (s.raiseCmd f).zone w = s.zone w) ∧
    (∀ j, (s.raiseCmd f).slot j = s.slot j) ∧
    (∀ j, (s.raiseCmd f).lease j = s.lease j) ∧
    (∀ j, (s.raiseCmd f).generation j = s.generation j) ∧
    (∀ k, (s.raiseCmd f).link k = s.link k) ∧
    (∀ c, (s.raiseCmd f).cls c = s.cls c) :=
  ⟨fun _ => rfl, fun _ => rfl, fun _ => rfl, fun _ => rfl, fun _ => rfl, fun _ => rfl⟩

@[simp] theorem State.raiseLink_views (s : State) (l : Link) (f : Byte) :
    (∀ w, (s.raiseLink l f).zone w = s.zone w) ∧
    (∀ j, (s.raiseLink l f).slot j = s.slot j) ∧
    (∀ j, (s.raiseLink l f).lease j = s.lease j) ∧
    (∀ j, (s.raiseLink l f).generation j = s.generation j) ∧
    (∀ k, (s.raiseLink l f).link k = s.link k) ∧
    (∀ c, (s.raiseLink l f).cls c = s.cls c) :=
  ⟨fun _ => rfl, fun _ => rfl, fun _ => rfl, fun _ => rfl, fun _ => rfl, fun _ => rfl⟩

@[simp] theorem State.leaveList_views (s : State) (i : SlotId) :
    (∀ w, (s.leaveList i).zone w = s.zone w) ∧
    (∀ j, (s.leaveList i).slot j = s.slot j) ∧
    (∀ j, (s.leaveList i).lease j = s.lease j) ∧
    (∀ j, (s.leaveList i).generation j = s.generation j) ∧
    (∀ k, (s.leaveList i).link k = s.link k) ∧
    (∀ c, (s.leaveList i).cls c = s.cls c) :=
  ⟨fun _ => rfl, fun _ => rfl, fun _ => rfl, fun _ => rfl, fun _ => rfl, fun _ => rfl⟩

@[simp] theorem State.enterList_views (s : State) (i : SlotId) (q : Priority) (b : Bool) :
    (∀ w, (s.enterList i q b).zone w = s.zone w) ∧
    (∀ j, (s.enterList i q b).slot j = s.slot j) ∧
    (∀ j, (s.enterList i q b).lease j = s.lease j) ∧
    (∀ j, (s.enterList i q b).generation j = s.generation j) ∧
    (∀ k, (s.enterList i q b).link k = s.link k) ∧
    (∀ c, (s.enterList i q b).cls c = s.cls c) :=
  ⟨fun _ => rfl, fun _ => rfl, fun _ => rfl, fun _ => rfl, fun _ => rfl, fun _ => rfl⟩

@[simp] theorem State.clearEarmarks_views (s : State) :
    (∀ w, (s.clearEarmarks).zone w = { s.zone w with earmark := none }) ∧
    (∀ j, (s.clearEarmarks).slot j = s.slot j) ∧
    (∀ j, (s.clearEarmarks).lease j = s.lease j) ∧
    (∀ j, (s.clearEarmarks).generation j = s.generation j) ∧
    (∀ k, (s.clearEarmarks).link k = s.link k) ∧
    (∀ c, (s.clearEarmarks).cls c = s.cls c) := by
  refine ⟨fun _ => ?_, fun _ => ?_, fun _ => ?_, fun _ => ?_, fun _ => ?_, fun _ => ?_⟩ <;>
    simp only [State.zone, State.slot, State.lease, State.generation, State.link, State.cls, State.clearEarmarks_fields, Table.get_mapIdx]

@[simp] theorem State.mapLeases_views (s : State) (f : SlotId → Lease → Lease) :
    (∀ w, (s.mapLeases f).zone w = s.zone w) ∧
    (∀ j, (s.mapLeases f).slot j = { s.slot j with lease := (s.lease j).map (f j) }) ∧
    (∀ j, (s.mapLeases f).lease j = (s.lease j).map (f j)) ∧
    (∀ j, (s.mapLeases f).generation j = s.generation j) ∧
    (∀ k, (s.mapLeases f).link k = s.link k) ∧
    (∀ c, (s.mapLeases f).cls c = s.cls c) := by
  refine ⟨fun _ => ?_, fun _ => ?_, fun _ => ?_, fun _ => ?_, fun _ => ?_, fun _ => ?_⟩ <;>
    simp only [State.zone, State.slot, State.lease, State.generation, State.link, State.cls, State.mapLeases_fields, Table.get_mapIdx]

end Sys2Proof.Machine
end

