-- ==== Sys2Proof/Laws/Frame.lean ====
section
/-! SUPPORT. What the operations of the lease engine and the expiry engine leave alone: one statement for
each, that it changes the zone map, the lease table, the waiting list with its counter, the armed indication
and the table causes at most. -/

namespace Sys2Proof.Machine

theorem State.tableOnly.refl (s : State) : s.tableOnly s := rfl

theorem State.tableOnly.trans {s t u : State} (h₁ : s.tableOnly t) (h₂ : t.tableOnly u) : s.tableOnly u := by
  unfold State.tableOnly at *
  rw [h₁] at h₂
  exact h₂

/-- The fields that such a change keeps. -/
theorem State.tableOnly.fields {s t : State} (h : s.tableOnly t) :
    t.classes = s.classes ∧ t.threshold = s.threshold ∧ t.arbiter = s.arbiter ∧ t.clock = s.clock ∧
    t.links = s.links ∧ t.image = s.image ∧ t.storeInvalid = s.storeInvalid ∧ t.autoload = s.autoload ∧
    t.restarting = s.restarting ∧ t.wrstN = s.wrstN ∧ t.inReset = s.inReset ∧ t.pending = s.pending ∧
    t.port = { s.port with tableCause := t.port.tableCause } := by
  refine ⟨?_, ?_, ?_, ?_, ?_, ?_, ?_, ?_, ?_, ?_, ?_, ?_, ?_⟩ <;> rw [h]

/-- Two such changes of one state are equal when they agree on what they may change. -/
theorem State.tableOnly.ext {s t u : State} (h₁ : s.tableOnly t) (h₂ : s.tableOnly u)
    (hz : t.zones = u.zones) (hs : t.slots = u.slots) (hw : t.waiting = u.waiting)
    (hq : t.sequence = u.sequence) (ha : t.armed = u.armed)
    (hc : t.port.tableCause = u.port.tableCause) : t = u := by
  rw [h₁, h₂, hz, hs, hw, hq, ha, hc]

theorem State.tableOnly.foldl {α : Type} {f : State → α → State} (h : ∀ (s : State) x, s.tableOnly (f s x))
    (xs : List α) (s : State) : s.tableOnly (xs.foldl f s) := by
  induction xs generalizing s with
  | nil => exact .refl s
  | cons x xs ih => exact (h s x).trans (ih _)

theorem setZone_tableOnly (s : State) (z : ZoneId) (x : Zone) : s.tableOnly (s.setZone z x) := rfl
theorem setSlot_tableOnly (s : State) (i : SlotId) (x : Slot) : s.tableOnly (s.setSlot i x) := rfl
theorem setZoneState_tableOnly (s : State) (z : ZoneId) (x : ZoneState) :
    s.tableOnly (s.setZoneState z x) := rfl
theorem setEarmark_tableOnly (s : State) (z : ZoneId) (e : Option SlotId) :
    s.tableOnly (s.setEarmark z e) := rfl
theorem setLease_tableOnly (s : State) (i : SlotId) (r : Lease) : s.tableOnly (s.setLease i r) := rfl
theorem mapLeases_tableOnly (s : State) (f : SlotId → Lease → Lease) : s.tableOnly (s.mapLeases f) := rfl
theorem raiseTable_tableOnly (s : State) (f : Byte) : s.tableOnly (s.raiseTable f) := rfl
theorem leaveList_tableOnly (s : State) (i : SlotId) : s.tableOnly (s.leaveList i) := rfl
theorem enterList_tableOnly (s : State) (i : SlotId) (q : Priority) (b : Bool) :
    s.tableOnly (s.enterList i q b) := rfl
theorem clearEarmarks_tableOnly (s : State) : s.tableOnly s.clearEarmarks := rfl

theorem countAllocation_tableOnly (s : State) : s.tableOnly s.countAllocation := by
  unfold State.countAllocation
  split <;> rfl

theorem rearm_tableOnly (s : State) : s.tableOnly s.rearm := by
  unfold State.rearm
  split <;> rfl

theorem allocate_tableOnly (s : State) (i : SlotId) (r : Lease) : s.tableOnly (s.allocate i r) :=
  (setSlot_tableOnly _ _ _).trans (countAllocation_tableOnly _)

theorem freeSlot_tableOnly (s : State) (i : SlotId) : s.tableOnly (s.freeSlot i) :=
  (setSlot_tableOnly _ _ _).trans (rearm_tableOnly _)

theorem takeZones_tableOnly (s : State) (i : SlotId) (zs : List ZoneId) : s.tableOnly (s.takeZones i zs) :=
  State.tableOnly.foldl (fun _ _ => setZoneState_tableOnly _ _ _) zs s

theorem giveUpZone_tableOnly (s : State) (z : ZoneId) : s.tableOnly (s.giveUpZone z) := by
  unfold State.giveUpZone
  split
  · exact setZoneState_tableOnly _ _ _
  · exact (setZoneState_tableOnly _ _ _).trans (raiseTable_tableOnly _ _)
  · exact .refl s

theorem giveUpZones_tableOnly (s : State) (zs : List ZoneId) : s.tableOnly (s.giveUpZones zs) :=
  State.tableOnly.foldl giveUpZone_tableOnly zs s

theorem terminate_tableOnly (s : State) (i : SlotId) (r : Lease) (p : Phase) :
    s.tableOnly (s.terminate i r p) := by
  unfold State.terminate
  split
  · exact setLease_tableOnly _ _ _
  · exact freeSlot_tableOnly _ _

theorem endHeld_tableOnly (s : State) (i : SlotId) (r : Lease) (p : Phase) : s.tableOnly (s.endHeld i r p) :=
  (giveUpZones_tableOnly _ _).trans (terminate_tableOnly _ _ _ _)

theorem endQueued_tableOnly (s : State) (i : SlotId) (r : Lease) (p : Phase) :
    s.tableOnly (s.endQueued i r p) :=
  (leaveList_tableOnly _ _).trans (terminate_tableOnly _ _ _ _)

theorem grant_tableOnly (s : State) (i : SlotId) (r : Lease) : s.tableOnly (s.grant i r) :=
  ((leaveList_tableOnly _ _).trans (setLease_tableOnly _ _ _)).trans (takeZones_tableOnly _ _ _)

theorem askYield_tableOnly (s : State) (h : SlotId) (p : Priority) : s.tableOnly (s.askYield h p) := by
  unfold State.askYield
  split
  · split
    · exact setLease_tableOnly _ _ _
    · exact .refl s
  · exact .refl s

theorem earmarkZone_tableOnly (b : Bool) (e : SlotId) (p : Priority) (s : State) (z : ZoneId) :
    s.tableOnly (s.earmarkZone b e p z) := by
  unfold State.earmarkZone
  split
  · exact setEarmark_tableOnly _ _ _
  · split
    · exact (setEarmark_tableOnly _ _ _).trans (askYield_tableOnly _ _ _)
    · exact setEarmark_tableOnly _ _ _
  · exact .refl s

theorem walkEntry_tableOnly (b : Bool) (s : State) (e : SlotId) : s.tableOnly (s.walkEntry b e) := by
  unfold State.walkEntry
  split
  · split
    · exact grant_tableOnly _ _ _
    · exact State.tableOnly.foldl (earmarkZone_tableOnly _ _ _) _ s
  · exact .refl s

theorem walk_tableOnly (b : Bool) (s : State) : s.tableOnly (s.walk b) :=
  State.tableOnly.foldl (walkEntry_tableOnly b) _ s

/-- The grant scan changes the table at most (R54). -/
theorem grantScan_tableOnly (s : State) : s.tableOnly s.grantScan := by
  unfold State.grantScan
  split
  · exact (((clearEarmarks_tableOnly _).trans (walk_tableOnly _ _)).trans (mapLeases_tableOnly _ _)).trans
      (mapLeases_tableOnly _ _)
  · exact (clearEarmarks_tableOnly _).trans (walk_tableOnly _ _)

theorem lapseAt_tableOnly (s : State) (i : SlotId) : s.tableOnly (s.lapseAt i) := by
  unfold State.lapseAt
  split
  · split
    · exact endQueued_tableOnly _ _ _ _
    · exact .refl s
  · exact .refl s

theorem expireAt_tableOnly (s : State) (i : SlotId) : s.tableOnly (s.expireAt i) := by
  unfold State.expireAt
  split
  · split
    · exact endHeld_tableOnly _ _ _ _
    · exact .refl s
  · exact .refl s

theorem revokeLateAt_tableOnly (s : State) (i : SlotId) : s.tableOnly (s.revokeLateAt i) := by
  unfold State.revokeLateAt
  split
  · split
    · exact (endHeld_tableOnly _ _ _ _).trans (raiseTable_tableOnly _ _)
    · exact .refl s
  · exact .refl s

theorem endIfDue_tableOnly (s : State) (i : SlotId) : s.tableOnly (s.endIfDue i) := by
  unfold State.endIfDue
  split
  · split
    · exact .refl s
    · split
      · exact lapseAt_tableOnly _ _
      · split
        · exact expireAt_tableOnly _ _
        · exact revokeLateAt_tableOnly _ _
  · exact .refl s

theorem endAndScan_tableOnly (s : State) : s.tableOnly s.endAndScan := by
  unfold State.endAndScan
  split
  · exact (State.tableOnly.foldl endIfDue_tableOnly _ s).trans (grantScan_tableOnly _)
  · exact .refl s

/-- A tick changes the table at most (R80). -/
theorem takeTick_tableOnly (s : State) : s.tableOnly s.takeTick :=
  ((mapLeases_tableOnly _ _).trans (mapLeases_tableOnly _ _)).trans (endAndScan_tableOnly _)

theorem freeWhere_tableOnly (s : State) (p : Lease → Bool) : s.tableOnly (s.freeWhere p) := by
  refine State.tableOnly.foldl (fun t i => ?_) _ s
  unfold State.freeAt
  split
  · split
    · split
      · exact (leaveList_tableOnly _ _).trans (freeSlot_tableOnly _ _)
      · exact freeSlot_tableOnly _ _
    · exact .refl t
  · exact .refl t

/-- The client-restart action changes the table at most (R137). -/
theorem clientRestart_tableOnly (s : State) (l : Link) : s.tableOnly (s.clientRestart l) :=
  ((freeWhere_tableOnly _ _).trans (mapLeases_tableOnly _ _)).trans (grantScan_tableOnly _)

theorem releaseLease_tableOnly (s : State) (i : SlotId) (r : Lease) : s.tableOnly (s.releaseLease i r) := by
  unfold State.releaseLease
  split
  · exact ((giveUpZones_tableOnly _ _).trans (freeSlot_tableOnly _ _)).trans (grantScan_tableOnly _)
  · split
    · exact ((leaveList_tableOnly _ _).trans (freeSlot_tableOnly _ _)).trans (grantScan_tableOnly _)
    · exact freeSlot_tableOnly _ _

theorem parkLease_tableOnly (s : State) (i : SlotId) (r : Lease) : s.tableOnly (s.parkLease i r) :=
  (((giveUpZones_tableOnly _ _).trans (setLease_tableOnly _ _ _)).trans (enterList_tableOnly _ _ _ _)).trans
    (grantScan_tableOnly _)

theorem acquireGrant_tableOnly (l : Link) (q : AcquireReq) (i : SlotId) (s : State) :
    s.tableOnly (acquireGrant l q i s) :=
  ((allocate_tableOnly _ _ _).trans (takeZones_tableOnly _ _ _)).trans (grantScan_tableOnly _)

theorem acquireWait_tableOnly (l : Link) (q : AcquireReq) (i : SlotId) (s : State) :
    s.tableOnly (acquireWait l q i s) :=
  ((allocate_tableOnly _ _ _).trans (enterList_tableOnly _ _ _ _)).trans (grantScan_tableOnly _)

theorem revokeLease_tableOnly (s : State) (i : SlotId) (r : Lease) : s.tableOnly (s.revokeLease i r) := by
  unfold State.revokeLease
  split
  · exact (endHeld_tableOnly _ _ _ _).trans (grantScan_tableOnly _)
  · exact (endQueued_tableOnly _ _ _ _).trans (grantScan_tableOnly _)

theorem forceFence_tableOnly (s : State) (z : ZoneId) (h : SlotId) : s.tableOnly (s.forceFence z h) := by
  have hc : s.tableOnly (s.closeFree z) := (setZoneState_tableOnly _ _ _).trans (raiseTable_tableOnly _ _)
  unfold State.forceFence
  split
  · exact (hc.trans (giveUpZones_tableOnly _ _)).trans (terminate_tableOnly _ _ _ _)
  · exact hc

theorem applyReport_tableOnly (s : State) (p : Report) : s.tableOnly (s.applyReport p) := by
  unfold State.applyReport
  split
  · split
    · split
      · exact freeSlot_tableOnly _ _
      · exact setLease_tableOnly _ _ _
    · exact .refl s
  · exact .refl s

theorem applyFrame_tableOnly (s : State) (f : OutFrame) : s.tableOnly (s.applyFrame f) := by
  unfold State.applyFrame
  split
  · exact applyReport_tableOnly _ _
  · exact .refl s

end Sys2Proof.Machine
end

