-- ==== Sys2Proof/Laws/Outside.lean ====
section
/-! SUPPORT. What the operations of the lease clock, of a link's traffic and of the supervisor port leave
alone: the lease clock changes itself and the time causes at most, a link's traffic the links and the link
causes, a byte on the port the port. -/

namespace Sys2Proof.Machine

/-! ### The lease clock -/

/-- `t` differs from `s` in the clock and the time causes at most. -/
def State.clockOnly (s t : State) : Prop :=
  t = { s with clock := t.clock, port := { s.port with timeCause := t.port.timeCause } }

theorem State.clockOnly.refl (s : State) : s.clockOnly s := rfl

theorem State.clockOnly.trans {s t u : State} (h₁ : s.clockOnly t) (h₂ : t.clockOnly u) : s.clockOnly u := by
  unfold State.clockOnly at *
  rw [h₁] at h₂
  exact h₂

/-- The fields that such a change keeps. -/
theorem State.clockOnly.fields {s t : State} (h : s.clockOnly t) :
    t.zones = s.zones ∧ t.slots = s.slots ∧ t.waiting = s.waiting ∧ t.classes = s.classes ∧
    t.threshold = s.threshold ∧ t.armed = s.armed ∧ t.sequence = s.sequence ∧ t.arbiter = s.arbiter ∧
    t.links = s.links ∧ t.image = s.image ∧ t.storeInvalid = s.storeInvalid ∧ t.autoload = s.autoload ∧
    t.restarting = s.restarting ∧ t.wrstN = s.wrstN ∧ t.inReset = s.inReset ∧ t.pending = s.pending ∧
    t.port = { s.port with timeCause := t.port.timeCause } := by
  refine ⟨?_, ?_, ?_, ?_, ?_, ?_, ?_, ?_, ?_, ?_, ?_, ?_, ?_, ?_, ?_, ?_, ?_⟩ <;> rw [h]

theorem enterClock_clockOnly (s : State) (x : ClockState) : s.clockOnly (s.enterClock x) := by
  unfold State.enterClock
  dsimp only
  split <;> rfl

theorem handTick_clockOnly (s : State) (t : Nat) : s.clockOnly (s.handTick t) := by
  unfold State.handTick
  split <;> rfl

theorem setClock_clockOnly (s : State) (c : Clock) : s.clockOnly (s.setClock c) := rfl

theorem fire_clockOnly (s : State) (d : Deadline) : s.clockOnly (s.fire d) := by
  unfold State.fire
  split
  · exact setClock_clockOnly _ _
  · split
    · exact enterClock_clockOnly _ _
    · exact .refl s
  · split
    · split
      · exact enterClock_clockOnly _ _
      · exact ((setClock_clockOnly _ _).trans (enterClock_clockOnly _ _)).trans (handTick_clockOnly _ _)
    · exact .refl s
  · split
    · exact (enterClock_clockOnly _ _).trans (handTick_clockOnly _ _)
    · exact .refl s

theorem passFor_clockOnly (n t : Nat) (s : State) : s.clockOnly (s.passFor n t) := by
  induction n generalizing s with
  | zero => exact setClock_clockOnly _ _
  | succ n ih =>
    unfold State.passFor
    split
    · exact (fire_clockOnly _ _).trans (ih _)
    · exact setClock_clockOnly _ _

/-- Time that passes changes the clock at most. -/
theorem passTo_clockOnly (s : State) (t : Nat) : s.clockOnly (s.passTo t) := passFor_clockOnly _ _ _

theorem awaitDue_clockOnly (s : State) (d : Deadline) : s.clockOnly (s.awaitDue d) := by
  unfold State.awaitDue
  split
  · exact .refl s
  · split
    · exact (passTo_clockOnly _ _).trans (fire_clockOnly _ _)
    · exact .refl s

theorem pulseAt_clockOnly (s : State) (t : Nat) : s.clockOnly (s.pulseAt t) := by
  have h : s.clockOnly (s.countPulse t) := setClock_clockOnly _ _
  have h₁ : s.clockOnly ((s.countPulse t).enterClock (.external t)) := h.trans (enterClock_clockOnly _ _)
  have h₂ := h₁.trans (handTick_clockOnly _ t)
  unfold State.pulseAt
  dsimp only
  split
  · split <;> assumption
  · split
    · split <;> assumption
    · assumption
  · split <;> assumption
  · split <;> assumption

theorem chooseMode_clockOnly (s : State) (m : TimeMode) : s.clockOnly (s.chooseMode m) := by
  have hc : ∀ (u : State) b, u.clockOnly (u.chooseManual b) := by
    intro u b
    unfold State.chooseManual
    dsimp only
    split
    · exact enterClock_clockOnly _ _
    · split
      · exact .refl u
      · exact enterClock_clockOnly _ _
    · split
      · exact (setClock_clockOnly _ _).trans (enterClock_clockOnly _ _)
      · exact .refl u
    · split
      · exact .refl u
      · exact enterClock_clockOnly _ _
  unfold State.chooseMode
  split
  · exact .refl s
  · exact (setClock_clockOnly _ _).trans (hc _ _)
  · exact (setClock_clockOnly _ _).trans (hc _ _)

/-! ### A link's traffic -/

/-- `t` differs from `s` in the links and the link causes at most, and every link keeps its line. -/
def State.trafficOnly (s t : State) : Prop :=
  t = { s with links := t.links, port := { s.port with linkCause := t.port.linkCause } } ∧
    ∀ l, (t.link l).line = (s.link l).line

theorem State.trafficOnly.refl (s : State) : s.trafficOnly s := ⟨rfl, fun _ => rfl⟩

/-- The fields that such a change keeps. -/
theorem State.trafficOnly.fields {s t : State} (h : s.trafficOnly t) :
    t.zones = s.zones ∧ t.slots = s.slots ∧ t.waiting = s.waiting ∧ t.classes = s.classes ∧
    t.threshold = s.threshold ∧ t.armed = s.armed ∧ t.sequence = s.sequence ∧ t.arbiter = s.arbiter ∧
    t.clock = s.clock ∧ t.image = s.image ∧ t.storeInvalid = s.storeInvalid ∧ t.autoload = s.autoload ∧
    t.restarting = s.restarting ∧ t.wrstN = s.wrstN ∧ t.inReset = s.inReset ∧ t.pending = s.pending ∧
    t.port = { s.port with linkCause := t.port.linkCause } := by
  refine ⟨?_, ?_, ?_, ?_, ?_, ?_, ?_, ?_, ?_, ?_, ?_, ?_, ?_, ?_, ?_, ?_, ?_⟩ <;> rw [h.1]

/-- A link replaced by one of the same line. -/
theorem setLink_trafficOnly (s : State) (l : Link) (x : LinkState) (h : x.line = (s.link l).line) :
    s.trafficOnly (s.setLink l x) := by
  refine ⟨rfl, fun k => ?_⟩
  by_cases hk : k = l
  · subst hk
    simpa using h
  · simp [hk]

theorem receive_trafficOnly (s : State) (l : Link) (idle : Nat) (c : RawChar) :
    s.trafficOnly (s.receive l idle c) := by
  unfold State.receive
  dsimp only
  split
  · refine ⟨rfl, fun k => ?_⟩
    by_cases hk : k = l
    · subst hk
      simp
    · simp [hk]
  · exact setLink_trafficOnly s l _ rfl

theorem takeEntry_trafficOnly (s : State) (l : Link) (e : FifoEntry) (rest : List FifoEntry) :
    s.trafficOnly (s.takeEntry l e rest) := by
  unfold State.takeEntry
  refine ⟨rfl, fun k => ?_⟩
  by_cases hk : k = l
  · subst hk
    simp
  · simp [hk]

/-! ### A byte on the port -/

/-- `t` differs from `s` in the supervisor port at most. -/
def State.portOnly (s t : State) : Prop := t = { s with port := t.port }

theorem State.portOnly.refl (s : State) : s.portOnly s := rfl

/-- The fields that such a change keeps. -/
theorem State.portOnly.fields {s t : State} (h : s.portOnly t) :
    t.zones = s.zones ∧ t.slots = s.slots ∧ t.waiting = s.waiting ∧ t.classes = s.classes ∧
    t.threshold = s.threshold ∧ t.armed = s.armed ∧ t.sequence = s.sequence ∧ t.arbiter = s.arbiter ∧
    t.clock = s.clock ∧ t.links = s.links ∧ t.image = s.image ∧ t.storeInvalid = s.storeInvalid ∧
    t.autoload = s.autoload ∧ t.restarting = s.restarting ∧ t.wrstN = s.wrstN ∧ t.inReset = s.inReset ∧
    t.pending = s.pending := by
  refine ⟨?_, ?_, ?_, ?_, ?_, ?_, ?_, ?_, ?_, ?_, ?_, ?_, ?_, ?_, ?_, ?_, ?_⟩ <;> rw [h]

theorem writeReg_portOnly (s : State) (o : BitVec 7) (v : Byte) : s.portOnly (s.writeReg o v) := by
  unfold State.writeReg State.writeCommand
  dsimp only
  repeat' split
  all_goals rfl

/-- A write changes the port at most, and a copy being stored is not replaced. -/
theorem writeReg_phase (s : State) (o : BitVec 7) (v : Byte) :
    (s.writeReg o v).port.phase = s.port.phase ∨
      (s.writeReg o v).port.phase = .waiting s.port.args := by
  unfold State.writeReg State.writeCommand
  dsimp only
  repeat' split
  all_goals first | exact .inl rfl | exact .inr rfl

theorem readEffect_portOnly (s : State) (o : BitVec 7) : s.portOnly (s.readEffect o) := by
  unfold State.readEffect
  split <;> rfl

theorem setTransfer_portOnly (s : State) (x : Transfer) : s.portOnly (s.setTransfer x) := rfl

theorem drive_portOnly (s : State) (d : PortDrive) : s.portOnly (s.drive d) := rfl

theorem raisePointer_portOnly (s : State) : s.portOnly s.raisePointer := rfl

theorem State.portOnly.trans {s t u : State} (h₁ : s.portOnly t) (h₂ : t.portOnly u) : s.portOnly u := by
  unfold State.portOnly at *
  rw [h₁] at h₂
  exact h₂

theorem spiByte_portOnly (s : State) (b : Byte) : s.portOnly (s.spiByte b) := by
  unfold State.spiByte
  split
  · exact (setTransfer_portOnly _ _).trans (drive_portOnly _ _)
  · exact ((writeReg_portOnly _ _ _).trans (setTransfer_portOnly _ _)).trans (drive_portOnly _ _)
  · exact ((readEffect_portOnly _ _).trans (setTransfer_portOnly _ _)).trans (drive_portOnly _ _)
  · exact drive_portOnly _ _

theorem i2cByte_portOnly (s : State) (b : Byte) : s.portOnly (s.i2cByte b) := by
  unfold State.i2cByte
  split
  · split
    · exact (setTransfer_portOnly _ _).trans (drive_portOnly _ _)
    · exact (setTransfer_portOnly _ _).trans (drive_portOnly _ _)
  · rfl
  · exact ((writeReg_portOnly _ _ _).trans (raisePointer_portOnly _)).trans (drive_portOnly _ _)
  · exact drive_portOnly _ _

theorem i2cReadByte_portOnly (s : State) (a : Bool) : s.portOnly (s.i2cReadByte a) := by
  unfold State.i2cReadByte
  split
  · exact (((readEffect_portOnly _ _).trans (raisePointer_portOnly _)).trans (setTransfer_portOnly _ _)).trans
      (drive_portOnly _ _)
  · exact drive_portOnly _ _

/-- An event on the wires of the port changes the port at most. -/
theorem portEvent_portOnly (s : State) (e : PortEvent) : s.portOnly (s.portEvent e) := by
  cases e <;> unfold State.portEvent <;> dsimp only <;> split
  all_goals first
    | exact .refl s
    | exact setTransfer_portOnly _ _
    | exact drive_portOnly _ _
    | exact spiByte_portOnly _ _
    | exact i2cByte_portOnly _ _
    | exact i2cReadByte_portOnly _ _

theorem readEffect_phase (s : State) (o : BitVec 7) : (s.readEffect o).port.phase = s.port.phase := by
  unfold State.readEffect
  split <;> rfl

@[simp] theorem setTransfer_phase (s : State) (x : Transfer) :
    (s.setTransfer x).port.phase = s.port.phase := rfl

@[simp] theorem drive_phase (s : State) (d : PortDrive) : (s.drive d).port.phase = s.port.phase := rfl

@[simp] theorem raisePointer_phase (s : State) : s.raisePointer.port.phase = s.port.phase := rfl

/-- A byte of an SPI transfer accepts a command at most: it ends none. -/
theorem spiByte_phase (s : State) (b : Byte) :
    (s.spiByte b).port.phase = s.port.phase ∨ (s.spiByte b).port.phase = .waiting s.port.args := by
  unfold State.spiByte
  split <;> simp only [drive_phase, setTransfer_phase, readEffect_phase]
  · exact .inl trivial
  · exact writeReg_phase s _ _
  · exact .inl trivial
  · exact .inl trivial

/-- A byte that the host sends on the I2C bus accepts a command at most: it ends none. -/
theorem i2cByte_phase (s : State) (b : Byte) :
    (s.i2cByte b).port.phase = s.port.phase ∨ (s.i2cByte b).port.phase = .waiting s.port.args := by
  unfold State.i2cByte
  split
  · split <;> exact .inl rfl
  · exact .inl rfl
  · simp only [drive_phase, raisePointer_phase]
    exact writeReg_phase s _ _
  · exact .inl rfl

theorem i2cReadByte_phase (s : State) (a : Bool) : (s.i2cReadByte a).port.phase = s.port.phase := by
  unfold State.i2cReadByte
  split <;> simp only [drive_phase, setTransfer_phase, raisePointer_phase, readEffect_phase]

/-- An event on the wires accepts a command at most: it ends none. -/
theorem portEvent_phase (s : State) (e : PortEvent) :
    (s.portEvent e).port.phase = s.port.phase ∨ (s.portEvent e).port.phase = .waiting s.port.args := by
  cases e <;> unfold State.portEvent <;> dsimp only <;> split
  all_goals first
    | exact spiByte_phase s _
    | exact i2cByte_phase s _
    | simp only [drive_phase, setTransfer_phase, i2cReadByte_phase, true_or]

/-- Events on the wires, taken one after another, keep what each keeps. -/
theorem portEvents_induction {p : State → Prop} {s : State} (es : List PortEvent)
    (h₀ : p (s.setPort { s.port with portOut := [] })) (h : ∀ t e, p t → p (State.portEvent t e)) :
    p (s.portEvents es) := by
  unfold State.portEvents
  generalize s.setPort { s.port with portOut := [] } = t at h₀
  induction es generalizing t with
  | nil => exact h₀
  | cons e es ih => exact ih _ (h t e h₀)

/-- Events on the wires of the port change the port at most. -/
theorem portEvents_portOnly (s : State) (es : List PortEvent) : s.portOnly (s.portEvents es) :=
  portEvents_induction es rfl fun t e h => h.trans (portEvent_portOnly t e)

/-- Events on the wires leave the mailbox as it was, or with a command waiting for its owner. -/
theorem portEvents_phase (s : State) (es : List PortEvent) :
    (s.portEvents es).port.phase = s.port.phase ∨ ∃ a, (s.portEvents es).port.phase = .waiting a := by
  refine portEvents_induction (p := fun t => t.port.phase = s.port.phase ∨ ∃ a, t.port.phase = .waiting a)
    es (.inl rfl) fun t e h => ?_
  rcases portEvent_phase t e with h' | h'
  · rw [h']
    exact h
  · exact .inr ⟨_, h'⟩

/-- Events one after another are the later ones after the earlier, with what both drive. -/
theorem portEvents_append (s : State) (es : List PortEvent) (e : PortEvent) :
    s.portEvents (es ++ [e]) = (s.portEvents es).portEvent e := by
  unfold State.portEvents
  rw [List.foldl_append]
  rfl

end Sys2Proof.Machine
end

