-- ==== Sys2Proof/Laws/Records.lean ====
section
/-! SUPPORT. What the operations on zones, slots and records do to each zone, each slot and the waiting
list: one statement for each operation. -/

namespace Sys2Proof.Machine

/-! ### Allocation and freeing -/

@[simp] theorem countAllocation_table (s : State) :
    s.countAllocation.zones = s.zones ∧ s.countAllocation.slots = s.slots ∧
      s.countAllocation.waiting = s.waiting ∧ s.countAllocation.links = s.links ∧
      s.countAllocation.classes = s.classes ∧ s.countAllocation.clock = s.clock ∧
      s.countAllocation.sequence = s.sequence := by
  unfold State.countAllocation
  split <;> simp

@[simp] theorem rearm_table (s : State) :
    s.rearm.zones = s.zones ∧ s.rearm.slots = s.slots ∧ s.rearm.waiting = s.waiting ∧
      s.rearm.links = s.links ∧ s.rearm.classes = s.classes ∧ s.rearm.clock = s.clock ∧
      s.rearm.sequence = s.sequence := by
  unfold State.rearm
  split <;> simp

/-- An allocated slot holds the record under the next generation; every other slot, every zone and the list
stay (R22). -/
@[simp] theorem allocate_views (s : State) (i : SlotId) (r : Lease) :
    (∀ j, (s.allocate i r).lease j = (if j = i then some r else s.lease j)) ∧
      (∀ j, (s.allocate i r).generation j = (if j = i then s.generation i + 1 else s.generation j)) ∧
      (∀ z, (s.allocate i r).zone z = s.zone z) ∧ (∀ l, (s.allocate i r).link l = s.link l) ∧
      (s.allocate i r).waiting = s.waiting ∧ (s.allocate i r).sequence = s.sequence := by
  have h₁ : (s.allocate i r).slots = (s.setSlot i ⟨s.generation i + 1, some r⟩).slots := by
    simp [State.allocate]
  have h₂ : (s.allocate i r).zones = s.zones := by simp [State.allocate]
  have h₃ : (s.allocate i r).links = s.links := by simp [State.allocate]
  refine ⟨fun j => ?_, fun j => ?_, fun z => ?_, fun l => ?_, ?_, ?_⟩
  · show ((s.allocate i r).slots.get j).lease = _
    rw [h₁]
    exact (State.setSlot_views s i _).2.2.1 j
  · show ((s.allocate i r).slots.get j).generation = _
    rw [h₁]
    exact (State.setSlot_views s i _).2.2.2.1 j
  · show (s.allocate i r).zones.get z = _
    rw [h₂]
    rfl
  · show (s.allocate i r).links.get l = _
    rw [h₃]
    rfl
  · simp [State.allocate]
  · simp [State.allocate]

/-- A freed slot is FREE under its old generation; every other slot, every zone and the list stay (R24). -/
@[simp] theorem freeSlot_views (s : State) (i : SlotId) :
    (∀ j, (s.freeSlot i).lease j = (if j = i then none else s.lease j)) ∧
      (∀ j, (s.freeSlot i).generation j = s.generation j) ∧
      (∀ z, (s.freeSlot i).zone z = s.zone z) ∧ (∀ l, (s.freeSlot i).link l = s.link l) ∧
      (s.freeSlot i).waiting = s.waiting ∧ (s.freeSlot i).sequence = s.sequence := by
  have h₁ : (s.freeSlot i).slots = (s.setSlot i ⟨s.generation i, none⟩).slots := by simp [State.freeSlot]
  have h₂ : (s.freeSlot i).zones = s.zones := by simp [State.freeSlot]
  have h₃ : (s.freeSlot i).links = s.links := by simp [State.freeSlot]
  refine ⟨fun j => ?_, fun j => ?_, fun z => ?_, fun l => ?_, ?_, ?_⟩
  · show ((s.freeSlot i).slots.get j).lease = _
    rw [h₁]
    exact (State.setSlot_views s i _).2.2.1 j
  · show ((s.freeSlot i).slots.get j).generation = _
    rw [h₁]
    have := (State.setSlot_views s i ⟨s.generation i, none⟩).2.2.2.1 j
    rw [show (((s.setSlot i ⟨s.generation i, none⟩).slots.get j).generation) =
      (s.setSlot i ⟨s.generation i, none⟩).generation j from rfl, this]
    split
    · next h => rw [h]
    · rfl
  · show (s.freeSlot i).zones.get z = _
    rw [h₂]
    rfl
  · show (s.freeSlot i).links.get l = _
    rw [h₃]
    rfl
  · simp [State.freeSlot]
  · simp [State.freeSlot]

/-- The record of a slot that ends is there in its terminal state, or gone when its link is disabled (R25). -/
@[simp] theorem terminate_views (s : State) (i : SlotId) (r : Lease) (p : Phase) :
    (∀ j, (s.terminate i r p).lease j =
        (if j = i then
          (if (s.link r.owner).line.enabled then some { r with phase := p } else none)
        else s.lease j)) ∧
      (∀ j, (s.terminate i r p).generation j = s.generation j) ∧
      (∀ z, (s.terminate i r p).zone z = s.zone z) ∧ (∀ l, (s.terminate i r p).link l = s.link l) ∧
      (s.terminate i r p).waiting = s.waiting ∧ (s.terminate i r p).sequence = s.sequence := by
  unfold State.terminate
  split <;> simp_all

/-! ### Zones taken and given up -/

theorem takeZones_slots (s : State) (i : SlotId) (zs : List ZoneId) :
    (s.takeZones i zs).slots = s.slots ∧ (s.takeZones i zs).waiting = s.waiting ∧
      (s.takeZones i zs).sequence = s.sequence ∧ (s.takeZones i zs).armed = s.armed ∧
      (s.takeZones i zs).port = s.port ∧ (s.takeZones i zs).links = s.links := by
  unfold State.takeZones
  induction zs generalizing s with
  | nil => simp
  | cons z zs ih => simpa using ih (s.setZoneState z (.held i))

theorem takeZones_zone (s : State) (i : SlotId) (zs : List ZoneId) (w : ZoneId) :
    (s.takeZones i zs).zone w = if w ∈ zs then { s.zone w with state := .held i } else s.zone w := by
  unfold State.takeZones
  induction zs generalizing s with
  | nil => simp
  | cons z zs ih =>
    rw [List.foldl_cons, ih]
    by_cases h₁ : w ∈ zs <;> by_cases h₂ : w = z <;> simp_all

/-- The zones of the list become HELD with the slot as holder; every other zone, every slot and the list stay
(R4). -/
@[simp] theorem takeZones_views (s : State) (i : SlotId) (zs : List ZoneId) :
    (∀ w, (s.takeZones i zs).zone w = (if w ∈ zs then { s.zone w with state := .held i } else s.zone w)) ∧
      (∀ j, (s.takeZones i zs).lease j = s.lease j) ∧
      (∀ j, (s.takeZones i zs).generation j = s.generation j) ∧
      (s.takeZones i zs).waiting = s.waiting ∧ (s.takeZones i zs).sequence = s.sequence ∧
      (∀ l, (s.takeZones i zs).link l = s.link l) := by
  obtain ⟨h₁, h₂, h₃, -, -, h₆⟩ := takeZones_slots s i zs
  exact ⟨takeZones_zone s i zs, fun j => by simp [State.lease, State.slot, h₁],
    fun j => by simp [State.generation, State.slot, h₁], h₂, h₃, fun l => by simp [State.link, h₆]⟩

theorem giveUpZone_zone (s : State) (z w : ZoneId) :
    (s.giveUpZone z).zone w = if w = z then (s.zone w).givenUp else s.zone w := by
  unfold State.giveUpZone Zone.givenUp
  by_cases h : w = z
  · subst h
    split <;> simp_all
  · split <;> simp_all

theorem giveUpZone_slots (s : State) (z : ZoneId) :
    (s.giveUpZone z).slots = s.slots ∧ (s.giveUpZone z).waiting = s.waiting ∧
      (s.giveUpZone z).sequence = s.sequence ∧ (s.giveUpZone z).armed = s.armed ∧
      (s.giveUpZone z).links = s.links := by
  unfold State.giveUpZone
  split <;> simp

@[simp] theorem givenUp_givenUp (x : Zone) : x.givenUp.givenUp = x.givenUp := by
  obtain ⟨st, c, e⟩ := x
  cases st <;> rfl

theorem giveUpZones_zone (s : State) (zs : List ZoneId) (w : ZoneId) :
    (s.giveUpZones zs).zone w = if w ∈ zs then (s.zone w).givenUp else s.zone w := by
  unfold State.giveUpZones
  induction zs generalizing s with
  | nil => simp
  | cons z zs ih =>
    rw [List.foldl_cons, ih, giveUpZone_zone]
    by_cases h₁ : w ∈ zs <;> by_cases h₂ : w = z <;> simp_all

theorem giveUpZones_slots (s : State) (zs : List ZoneId) :
    (s.giveUpZones zs).slots = s.slots ∧ (s.giveUpZones zs).waiting = s.waiting ∧
      (s.giveUpZones zs).sequence = s.sequence ∧ (s.giveUpZones zs).armed = s.armed ∧
      (s.giveUpZones zs).links = s.links := by
  unfold State.giveUpZones
  induction zs generalizing s with
  | nil => simp
  | cons z zs ih =>
    obtain ⟨h₁, h₂, h₃, h₄, h₅⟩ := giveUpZone_slots s z
    simpa [h₁, h₂, h₃, h₄, h₅] using ih (s.giveUpZone z)

/-- The zones of the list are given up; every other zone, every slot and the list stay (R5). -/
@[simp] theorem giveUpZones_views (s : State) (zs : List ZoneId) :
    (∀ w, (s.giveUpZones zs).zone w = (if w ∈ zs then (s.zone w).givenUp else s.zone w)) ∧
      (∀ j, (s.giveUpZones zs).lease j = s.lease j) ∧
      (∀ j, (s.giveUpZones zs).generation j = s.generation j) ∧
      (s.giveUpZones zs).waiting = s.waiting ∧ (s.giveUpZones zs).sequence = s.sequence ∧
      (∀ l, (s.giveUpZones zs).link l = s.link l) := by
  obtain ⟨h₁, h₂, h₃, -, h₅⟩ := giveUpZones_slots s zs
  exact ⟨giveUpZones_zone s zs, fun j => by simp [State.lease, State.slot, h₁],
    fun j => by simp [State.generation, State.slot, h₁], h₂, h₃, fun l => by simp [State.link, h₅]⟩

/-- The zone is given up; every other zone, every slot and the list stay (R5). -/
@[simp] theorem giveUpZone_views (s : State) (z : ZoneId) :
    (∀ w, (s.giveUpZone z).zone w = (if w = z then (s.zone w).givenUp else s.zone w)) ∧
      (∀ j, (s.giveUpZone z).lease j = s.lease j) ∧
      (∀ j, (s.giveUpZone z).generation j = s.generation j) ∧
      (s.giveUpZone z).waiting = s.waiting ∧ (s.giveUpZone z).sequence = s.sequence ∧
      (∀ l, (s.giveUpZone z).link l = s.link l) := by
  obtain ⟨h₁, h₂, h₃, -, h₅⟩ := giveUpZone_slots s z
  exact ⟨giveUpZone_zone s z, fun j => by simp [State.lease, State.slot, h₁],
    fun j => by simp [State.generation, State.slot, h₁], h₂, h₃, fun l => by simp [State.link, h₅]⟩

theorem zonesGivenUp_zone (s : State) (zs : List ZoneId) (w : ZoneId) :
    (s.zonesGivenUp zs).zone w = if w ∈ zs then (s.zone w).givenUp else s.zone w := by
  simp only [State.zonesGivenUp, State.zone, Table.get_mapIdx]

theorem givenUp_isPending (x : Zone) : x.givenUp.state.isPending = false := by
  obtain ⟨st, c, e⟩ := x
  cases st <;> rfl

theorem giveUpZone_cause (s : State) (z : ZoneId) :
    (s.giveUpZone z).port.tableCause =
      s.port.tableCause ||| (if (s.zone z).state.isPending then flagFenceDone else 0) := by
  unfold State.giveUpZone
  cases hs : (s.zone z).state <;> simp [ZoneState.isPending]

theorem giveUpZones_cause (s : State) (zs : List ZoneId) :
    (s.giveUpZones zs).port.tableCause =
      s.port.tableCause ||| (if zs.any fun z => (s.zone z).state.isPending then flagFenceDone else 0) := by
  unfold State.giveUpZones
  induction zs generalizing s with
  | nil => simp
  | cons z zs ih =>
    rw [List.foldl_cons, ih, giveUpZone_cause]
    by_cases hz : (s.zone z).state.isPending = true
    · simp only [hz, List.any_cons, Bool.true_or, if_true]
      split
      · rw [BitVec.or_assoc, BitVec.or_self]
      · simp
    · have h : ∀ w, ((s.giveUpZone z).zone w).state.isPending = (s.zone w).state.isPending := by
        intro w
        rw [giveUpZone_zone]
        split
        · next hw =>
          subst hw
          rw [givenUp_isPending]
          simpa using hz
        · rfl
      simp only [hz, h, List.any_cons, Bool.false_or, Bool.false_eq_true, if_false]
      rw [show s.port.tableCause ||| (0 : Byte) = s.port.tableCause from BitVec.or_zero]

/-- The zones of the list given up one by one are given up together. -/
theorem giveUpZones_eq (s : State) (zs : List ZoneId) : s.giveUpZones zs = s.zonesGivenUp zs := by
  obtain ⟨h₁, h₂, h₃, h₄, -⟩ := giveUpZones_slots s zs
  refine State.tableOnly.ext (giveUpZones_tableOnly s zs) rfl ?_ h₁ h₂ h₃ h₄ (giveUpZones_cause s zs)
  refine Table.ext_get fun w => ?_
  exact (giveUpZones_zone s zs w).trans (zonesGivenUp_zone s zs w).symm

theorem giveUpZone_eq (s : State) (z : ZoneId) : s.giveUpZone z = s.zonesGivenUp [z] :=
  giveUpZones_eq s [z]

theorem takeZones_eq (s : State) (i : SlotId) (zs : List ZoneId) : s.takeZones i zs = s.zonesTaken i zs := by
  obtain ⟨h₁, h₂, h₃, h₄, h₅, -⟩ := takeZones_slots s i zs
  refine State.tableOnly.ext (takeZones_tableOnly s i zs) rfl ?_ h₁ h₂ h₃ h₄ (by rw [h₅]; rfl)
  refine Table.ext_get fun w => (takeZones_zone s i zs w).trans ?_
  simp only [State.zonesTaken, Table.get_mapIdx, State.zone]

theorem freeSlot_eq (s : State) (i : SlotId) : s.freeSlot i = s.recordFreed i := by
  unfold State.freeSlot State.rearm State.recordFreed State.setSlot
  dsimp only
  split
  · next h => simp [h]
  · next h => simp [h]

theorem allocate_eq (s : State) (i : SlotId) (r : Lease) : s.allocate i r = s.recordAllocated i r := by
  unfold State.allocate State.countAllocation State.recordAllocated State.setSlot State.raiseTable
  dsimp only
  generalize State.occupied _ = n
  by_cases h : (s.armed && n == s.threshold) = true
  · simp only [h, if_true, Bool.not_true, Bool.and_false]
  · simp only [Bool.not_eq_true] at h
    simp [h]

theorem terminate_eq (s : State) (i : SlotId) (r : Lease) (p : Phase) :
    s.terminate i r p = s.recordEnded i r p := by
  unfold State.terminate State.recordEnded
  rw [freeSlot_eq]
  rfl

/-! ### Records replaced in place -/

@[simp] theorem startYield_keeps (r : Lease) :
    r.startYield.owner = r.owner ∧ r.startYield.zones = r.zones ∧ r.startYield.priority = r.priority ∧
      r.startYield.phase.holds = r.phase.holds ∧ r.startYield.phase.queued = r.phase.queued ∧
      r.startYield.phase.isParked = r.phase.isParked ∧ r.startYield.yieldable = r.yieldable ∧
      r.startYield.limits = r.limits := by
  unfold Lease.startYield
  split <;> simp_all [Phase.holds, Phase.queued, Phase.isParked]

@[simp] theorem withdrawYield_keeps (r : Lease) :
    r.withdrawYield.owner = r.owner ∧ r.withdrawYield.zones = r.zones ∧
      r.withdrawYield.priority = r.priority ∧ r.withdrawYield.phase.holds = r.phase.holds ∧
      r.withdrawYield.phase.queued = r.phase.queued ∧
      r.withdrawYield.phase.isParked = r.phase.isParked ∧ r.withdrawYield.yieldable = r.yieldable ∧
      r.withdrawYield.limits = r.limits := by
  unfold Lease.withdrawYield
  split <;> simp_all [Phase.holds, Phase.queued, Phase.isParked]

@[simp] theorem decrement_keeps (p : Phase) :
    p.decrement.holds = p.holds ∧ p.decrement.queued = p.queued ∧ p.decrement.isParked = p.isParked := by
  cases p <;> simp [Phase.decrement, Phase.holds, Phase.queued, Phase.isParked]

@[simp] theorem warn_keeps (lead : Option Nat) (p : Phase) :
    (p.warn lead).holds = p.holds ∧ (p.warn lead).queued = p.queued ∧
      (p.warn lead).isParked = p.isParked := by
  cases p <;> simp [Phase.warn, Phase.holds, Phase.queued, Phase.isParked]

/-- The kind of a record: what of it neither a yield, nor its withdrawal, nor the passing of a tick, nor a
forgotten report touches. -/
def Lease.sameKind (r q : Lease) : Prop :=
  q.owner = r.owner ∧ q.zones = r.zones ∧ q.priority = r.priority ∧ q.phase.holds = r.phase.holds ∧
    q.phase.queued = r.phase.queued ∧ q.phase.isParked = r.phase.isParked

theorem startYield_sameKind (r : Lease) : r.sameKind r.startYield := by simp [Lease.sameKind]
theorem withdrawYield_sameKind (r : Lease) : r.sameKind r.withdrawYield := by simp [Lease.sameKind]

/-- What a holder's answer to a request to yield can change: nothing, or the record of the slot named, which
becomes YIELDING (R58). -/
theorem askYield_views (s : State) (h : SlotId) (p : Priority) :
    (∀ z, (s.askYield h p).zone z = s.zone z) ∧ (s.askYield h p).waiting = s.waiting ∧
      (∀ j, (s.askYield h p).generation j = s.generation j) ∧ (∀ l, (s.askYield h p).link l = s.link l) ∧
      ∀ j, (s.askYield h p).lease j = s.lease j ∨
        ∃ r, s.lease j = some r ∧ (s.askYield h p).lease j = some r.startYield := by
  unfold State.askYield
  split
  · next r hr =>
    split
    · simp only [State.setLease_views, State.setLease_fields, implies_true, true_and]
      intro j
      by_cases hj : j = h
      · subst hj
        simp [hr]
      · simp [hj]
    · simp
  · simp

end Sys2Proof.Machine
end

