-- ==== Sys2Proof/Laws/Holder.lean ====
section
/-! SUPPORT. R3 through each operation: HolderLaw is kept when records and zones change as the operations
change them. -/

namespace Sys2Proof.Machine

theorem givenUp_holder (x : Zone) : x.givenUp.state.holder = none := by
  obtain ⟨st, c, e⟩ := x
  cases st <;> rfl

/-- The law looks at the zone map and the lease table only. -/
theorem State.HolderLaw.congr {s t : State} (h : s.HolderLaw) (hz : t.zones = s.zones)
    (hs : t.slots = s.slots) : t.HolderLaw := by
  unfold State.HolderLaw State.holdsZone State.zone State.lease State.slot at *
  rw [hz, hs]
  exact h

/-- Holders and holdings unchanged. -/
theorem State.HolderLaw.same {s t : State} (h : s.HolderLaw)
    (hz : ∀ w, (t.zone w).state.holder = (s.zone w).state.holder)
    (hl : ∀ j w, t.holdsZone j w ↔ s.holdsZone j w) : t.HolderLaw := by
  intro w j
  rw [hz, hl]
  exact h w j

/-- Every record keeps whether it holds, and its zones. -/
theorem holdsZone_of_keeps {s t : State}
    (h : ∀ j, (t.lease j = none ∧ s.lease j = none) ∨
      ∃ r q, s.lease j = some r ∧ t.lease j = some q ∧ q.phase.holds = r.phase.holds ∧ q.zones = r.zones) :
    ∀ j w, t.holdsZone j w ↔ s.holdsZone j w := by
  intro j w
  unfold State.holdsZone
  rcases h j with ⟨h₁, h₂⟩ | ⟨r, q, h₁, h₂, h₃, h₄⟩
  · simp [h₁, h₂]
  · simp [h₁, h₂, h₃, h₄]

/-- A record of slot `i` holds nothing before or after. -/
theorem holdsZone_of_idle {s t : State} {i : SlotId} (hne : ∀ j, j ≠ i → t.lease j = s.lease j)
    (hs : ∀ r, s.lease i = some r → r.phase.holds = false)
    (ht : ∀ r, t.lease i = some r → r.phase.holds = false) :
    ∀ j w, t.holdsZone j w ↔ s.holdsZone j w := by
  intro j w
  unfold State.holdsZone
  by_cases hj : j = i
  · subst hj
    constructor
    · rintro ⟨r, hr, h₂, -⟩
      simp [ht r hr] at h₂
    · rintro ⟨r, hr, h₂, -⟩
      simp [hs r hr] at h₂
  · rw [hne j hj]

/-- The record of slot `i` gives up all its zones and no longer holds. -/
theorem State.HolderLaw.release {s t : State} (h : s.HolderLaw) {i : SlotId} {r : Lease}
    (hr : s.lease i = some r) (hh : r.phase.holds = true)
    (hz : ∀ w, (t.zone w).state.holder = if w ∈ r.zones then none else (s.zone w).state.holder)
    (hne : ∀ j, j ≠ i → t.lease j = s.lease j)
    (ht : ∀ q, t.lease i = some q → q.phase.holds = false) : t.HolderLaw := by
  intro w j
  rw [hz]
  by_cases hj : j = i
  · subst hj
    have h₂ : ¬t.holdsZone j w := by
      rintro ⟨q, hq, h₂, -⟩
      simp [ht q hq] at h₂
    simp only [h₂, iff_false]
    split
    · simp
    · next hw =>
      rw [h w j]
      rintro ⟨q, hq, -, hm⟩
      rw [hr] at hq
      cases hq
      exact hw hm
  · have h₂ : t.holdsZone j w ↔ s.holdsZone j w := by
      unfold State.holdsZone
      rw [hne j hj]
    rw [h₂, ← h w j]
    split
    · next hw =>
      have h₃ : (s.zone w).state.holder = some i := (h w i).mpr ⟨r, hr, hh, hw⟩
      rw [h₃]
      simp [Ne.symm hj]
    · rfl

/-- The record of slot `i`, which held nothing, takes zones that had no holder and comes to hold them. -/
theorem State.HolderLaw.take {s t : State} (h : s.HolderLaw) {i : SlotId} {q : Lease} {zs : List ZoneId}
    (hfree : ∀ w ∈ zs, (s.zone w).state.holder = none)
    (hz : ∀ w, (t.zone w).state.holder = if w ∈ zs then some i else (s.zone w).state.holder)
    (hne : ∀ j, j ≠ i → t.lease j = s.lease j)
    (ht : t.lease i = some q) (hh : q.phase.holds = true)
    (hq : ∀ w, w ∈ q.zones ↔ w ∈ zs ∨ s.holdsZone i w) : t.HolderLaw := by
  intro w j
  rw [hz]
  by_cases hj : j = i
  · subst hj
    have h₂ : t.holdsZone j w ↔ w ∈ zs ∨ s.holdsZone j w := by
      rw [← hq]
      unfold State.holdsZone
      simp [ht, hh]
    rw [h₂]
    split
    · next hw => simp [hw]
    · next hw =>
      rw [h w j]
      simp [hw]
  · have h₂ : t.holdsZone j w ↔ s.holdsZone j w := by
      unfold State.holdsZone
      rw [hne j hj]
    rw [h₂, ← h w j]
    split
    · next hw =>
      rw [hfree w hw]
      simp [Ne.symm hj]
    · rfl

/-! ### The grant scan -/

theorem clearEarmarks_holderLaw {s : State} (h : s.HolderLaw) : s.clearEarmarks.HolderLaw :=
  h.same (by simp) fun j w => by simp [State.holdsZone]

/-- A FREE zone has no holder. -/
theorem grantable_free {s : State} {r : Lease} (h : s.grantable r = true) :
    ∀ w ∈ r.zones, (s.zone w).state = .free ∧ (s.zone w).earmark = none := by
  intro w hw
  have := List.all_eq_true.mp h w hw
  simpa using this

theorem grant_holderLaw {s : State} {i : SlotId} {r : Lease} (h : s.HolderLaw) (hr : s.lease i = some r)
    (hg : s.grantable r = true) : (s.grant i r).HolderLaw := by
  have hf := grantable_free hg
  refine h.take (i := i) (zs := r.zones) (q := r.granted) ?_ ?_ ?_ ?_ ?_ ?_
  · intro w hw
    rw [(hf w hw).1]
    rfl
  · intro w
    simp only [State.grant, takeZones_views, State.setLease_views, State.leaveList_views]
    split <;> rfl
  · intro j hj
    simp [State.grant, hj]
  · simp [State.grant]
  · rfl
  · intro w
    constructor
    · intro hw
      exact .inl hw
    · rintro (hw | ⟨q, hq, -, hm⟩)
      · exact hw
      · rw [hr] at hq
        cases hq
        exact hm

theorem askYield_holderLaw {s : State} (k : SlotId) (p : Priority) (h : s.HolderLaw) :
    (s.askYield k p).HolderLaw := by
  obtain ⟨hz, -, -, -, hl⟩ := askYield_views s k p
  refine h.same (fun w => by rw [hz]) (holdsZone_of_keeps fun j => ?_)
  rcases hl j with h₁ | ⟨r, h₁, h₂⟩
  · rw [h₁]
    cases hj : s.lease j with
    | none => simp
    | some r => exact .inr ⟨r, r, rfl, rfl, rfl, rfl⟩
  · exact .inr ⟨r, _, h₁, h₂, by simp, by simp⟩

theorem setEarmark_holderLaw {s : State} (z : ZoneId) (e : Option SlotId) (h : s.HolderLaw) :
    (s.setEarmark z e).HolderLaw := by
  refine h.same (fun w => ?_) fun j w => by simp [State.holdsZone]
  by_cases hw : w = z
  · subst hw
    simp
  · simp [hw]

theorem earmarkZone_holderLaw (b : Bool) (e : SlotId) (p : Priority) {s : State} (z : ZoneId)
    (h : s.HolderLaw) : (s.earmarkZone b e p z).HolderLaw := by
  unfold State.earmarkZone
  split
  · exact setEarmark_holderLaw _ _ h
  · split
    · exact askYield_holderLaw _ _ (setEarmark_holderLaw _ _ h)
    · exact setEarmark_holderLaw _ _ h
  · exact h

/-- What a step of a fold keeps, the fold keeps. -/
theorem foldl_keeps {α : Type} {P : State → Prop} {f : State → α → State}
    (hf : ∀ s x, P s → P (f s x)) (xs : List α) {s : State} (h : P s) : P (xs.foldl f s) := by
  induction xs generalizing s with
  | nil => exact h
  | cons x xs ih => exact ih (hf s x h)

theorem walkEntry_holderLaw (b : Bool) {s : State} (e : SlotId) (h : s.HolderLaw) :
    (s.walkEntry b e).HolderLaw := by
  unfold State.walkEntry
  split
  · next r hr =>
    split
    · next hg =>
      simp only [Bool.and_eq_true] at hg
      exact grant_holderLaw h hr hg.2
    · exact foldl_keeps (fun s z hs => earmarkZone_holderLaw b e r.priority z hs) r.zones h
  · exact h

theorem walk_holderLaw (b : Bool) {s : State} (h : s.HolderLaw) : (s.walk b).HolderLaw :=
  foldl_keeps (fun _ e hs => walkEntry_holderLaw b e hs) _ h

theorem mapLeases_holderLaw {s : State} {f : SlotId → Lease → Lease}
    (hf : ∀ i r, (f i r).phase.holds = r.phase.holds ∧ (f i r).zones = r.zones) (h : s.HolderLaw) :
    (s.mapLeases f).HolderLaw := by
  refine h.same (by simp) (holdsZone_of_keeps fun j => ?_)
  cases hj : s.lease j with
  | none => simp [hj]
  | some r => exact .inr ⟨r, f j r, rfl, by simp [hj], (hf j r).1, (hf j r).2⟩

/-- The grant scan keeps R3. -/
theorem grantScan_holderLaw {s : State} (h : s.HolderLaw) : s.grantScan.HolderLaw := by
  unfold State.grantScan
  split
  · refine mapLeases_holderLaw ?_ (mapLeases_holderLaw ?_ (walk_holderLaw _ (clearEarmarks_holderLaw h)))
    · intro i r
      split <;> simp
    · intro i r
      split <;> simp
  · exact walk_holderLaw _ (clearEarmarks_holderLaw h)

/-! ### Records that end, are freed or pass into the list -/

theorem giveUp_holder (s : State) (zs : List ZoneId) (w : ZoneId) :
    ((s.giveUpZones zs).zone w).state.holder = if w ∈ zs then none else (s.zone w).state.holder := by
  simp only [giveUpZones_views]
  split
  · exact givenUp_holder _
  · rfl

theorem endHeld_holderLaw {s : State} {i : SlotId} {r : Lease} {p : Phase} (h : s.HolderLaw)
    (hr : s.lease i = some r) (hh : r.phase.holds = true) (hp : p.holds = false) :
    (s.endHeld i r p).HolderLaw := by
  refine h.release hr hh (fun w => ?_) (fun j hj => ?_) fun q hq => ?_
  · simp only [State.endHeld, terminate_views]
    exact giveUp_holder _ _ _
  · simp [State.endHeld, hj]
  · simp only [State.endHeld, terminate_views, if_true] at hq
    split at hq
    · cases hq
      exact hp
    · cases hq

/-- A record that holds nothing becomes one that holds nothing, or is freed. -/
theorem State.HolderLaw.idle {s t : State} (h : s.HolderLaw) {i : SlotId}
    (hz : ∀ w, (t.zone w).state.holder = (s.zone w).state.holder)
    (hne : ∀ j, j ≠ i → t.lease j = s.lease j)
    (hs : ∀ r, s.lease i = some r → r.phase.holds = false)
    (ht : ∀ r, t.lease i = some r → r.phase.holds = false) : t.HolderLaw :=
  h.same hz (holdsZone_of_idle hne hs ht)

theorem endQueued_holderLaw {s : State} {i : SlotId} {r : Lease} {p : Phase} (h : s.HolderLaw)
    (hr : s.lease i = some r) (hh : r.phase.holds = false) (hp : p.holds = false) :
    (s.endQueued i r p).HolderLaw := by
  refine h.idle (i := i) (by simp [State.endQueued]) (fun j hj => by simp [State.endQueued, hj]) ?_ ?_
  · intro q hq
    rw [hr] at hq
    cases hq
    exact hh
  · intro q hq
    simp only [State.endQueued, terminate_views, if_true] at hq
    split at hq
    · cases hq
      exact hp
    · cases hq

theorem freeSlot_holderLaw {s : State} {i : SlotId} (h : s.HolderLaw)
    (hs : ∀ r, s.lease i = some r → r.phase.holds = false) : (s.freeSlot i).HolderLaw :=
  h.idle (i := i) (by simp) (fun j hj => by simp [hj]) hs (by simp)

theorem queued_not_holds {p : Phase} (h : p.queued = true) : p.holds = false := by
  cases p <;> simp_all [Phase.queued, Phase.holds]

theorem holds_not_queued {p : Phase} (h : p.holds = true) : p.queued = false := by
  cases p <;> simp_all [Phase.queued, Phase.holds]

theorem isYielding_holds {p : Phase} (h : p.isYielding = true) : p.holds = true := by
  cases p <;> simp_all [Phase.isYielding, Phase.holds]

theorem lapseAt_holderLaw {s : State} (i : SlotId) (h : s.HolderLaw) : (s.lapseAt i).HolderLaw := by
  unfold State.lapseAt
  split
  · next r hr =>
    split
    · next hc =>
      simp only [Bool.and_eq_true] at hc
      exact endQueued_holderLaw h hr (queued_not_holds hc.1) rfl
    · exact h
  · exact h

theorem expireAt_holderLaw {s : State} (i : SlotId) (h : s.HolderLaw) : (s.expireAt i).HolderLaw := by
  unfold State.expireAt
  split
  · next r hr =>
    split
    · next hc =>
      simp only [Bool.and_eq_true] at hc
      exact endHeld_holderLaw h hr hc.1 rfl
    · exact h
  · exact h

theorem revokeLateAt_holderLaw {s : State} (i : SlotId) (h : s.HolderLaw) :
    (s.revokeLateAt i).HolderLaw := by
  unfold State.revokeLateAt
  split
  · next r hr =>
    split
    · next hc =>
      simp only [Bool.and_eq_true] at hc
      exact (endHeld_holderLaw (p := .revoked .yieldLate) h hr (isYielding_holds hc.1.1) rfl).congr
        (by simp) (by simp)
    · exact h
  · exact h

theorem endIfDue_holderLaw {s : State} (i : SlotId) (h : s.HolderLaw) : (s.endIfDue i).HolderLaw := by
  unfold State.endIfDue
  split
  · split
    · exact h
    · split
      · exact lapseAt_holderLaw _ h
      · split
        · exact expireAt_holderLaw _ h
        · exact revokeLateAt_holderLaw _ h
  · exact h

/-- A tick keeps R3. -/
theorem takeTick_holderLaw {s : State} (h : s.HolderLaw) : s.takeTick.HolderLaw := by
  have h₁ : s.decrementAll.warnAll.HolderLaw :=
    mapLeases_holderLaw (by simp) (mapLeases_holderLaw (by simp) h)
  show (State.endAndScan _).HolderLaw
  unfold State.endAndScan
  split
  · exact grantScan_holderLaw (foldl_keeps (fun _ i hs => endIfDue_holderLaw i hs) _ h₁)
  · exact h₁

theorem releaseLease_holderLaw {s : State} {i : SlotId} {r : Lease} (h : s.HolderLaw)
    (hr : s.lease i = some r) : (s.releaseLease i r).HolderLaw := by
  unfold State.releaseLease
  split
  · next hh =>
    refine grantScan_holderLaw (h.release hr hh (fun w => ?_) (fun j hj => ?_) ?_)
    · simp only [freeSlot_views]
      exact giveUp_holder _ _ _
    · simp [hj]
    · simp
  · next hh =>
    have hs : ∀ q, s.lease i = some q → q.phase.holds = false := by
      intro q hq
      rw [hr] at hq
      cases hq
      simpa using hh
    split
    · exact grantScan_holderLaw (freeSlot_holderLaw (h.congr rfl rfl) (by simpa using hs))
    · exact freeSlot_holderLaw h hs

theorem parkLease_holderLaw {s : State} {i : SlotId} {r : Lease} (h : s.HolderLaw)
    (hr : s.lease i = some r) (hh : r.phase.holds = true) : (s.parkLease i r).HolderLaw := by
  unfold State.parkLease
  refine grantScan_holderLaw (h.release hr hh (fun w => ?_) (fun j hj => ?_) ?_)
  · simp only [State.enterList_views, State.setLease_views]
    exact giveUp_holder _ _ _
  · simp [hj]
  · intro q hq
    simp at hq
    subst hq
    rfl

theorem freeWhere_holderLaw {s : State} {p : Lease → Bool}
    (hp : ∀ r, p r = true → r.phase.holds = false) (h : s.HolderLaw) : (s.freeWhere p).HolderLaw := by
  refine foldl_keeps (fun t i ht => ?_) _ h
  unfold State.freeAt
  split
  · next r hr =>
    split
    · next hpr =>
      have hs : ∀ q, t.lease i = some q → q.phase.holds = false := by
        intro q hq
        rw [hr] at hq
        cases hq
        exact hp _ hpr
      split
      · exact freeSlot_holderLaw (ht.congr rfl rfl) (by simpa using hs)
      · exact freeSlot_holderLaw ht hs
    · exact ht
  · exact ht

theorem forgetReported_holderLaw {s : State} (l : Link) (h : s.HolderLaw) :
    (s.forgetReported l).HolderLaw :=
  mapLeases_holderLaw (fun i r => by split <;> simp) h

theorem clientRestart_holderLaw {s : State} (l : Link) (h : s.HolderLaw) : (s.clientRestart l).HolderLaw := by
  refine grantScan_holderLaw (forgetReported_holderLaw l (freeWhere_holderLaw (fun r hr => ?_) h))
  simp only [Bool.and_eq_true] at hr
  exact queued_not_holds hr.2

theorem disableLink_holderLaw {s : State} (l : Link) (n : Nat) (h : s.HolderLaw) :
    (s.disableLink l n).HolderLaw := by
  refine grantScan_holderLaw (forgetReported_holderLaw l (freeWhere_holderLaw (fun r hr => ?_)
    (h.congr rfl rfl)))
  simp only [Bool.and_eq_true, Bool.not_eq_true'] at hr
  exact hr.2

/-! ### Requests -/

theorem takeSlot_table (s : State) (l : Link) :
    (s.takeSlot l).zones = s.zones ∧ (s.takeSlot l).slots = s.slots ∧
      (s.takeSlot l).waiting = s.waiting ∧ (s.takeSlot l).classes = s.classes ∧
      (s.takeSlot l).clock = s.clock ∧ (s.takeSlot l).port = s.port := ⟨rfl, rfl, rfl, rfl, rfl, rfl⟩

theorem placeReply_table (t s : State) (l : Link) (r : OutFrame) :
    (t.placeReply s l r).zones = t.zones ∧ (t.placeReply s l r).slots = t.slots ∧
      (t.placeReply s l r).waiting = t.waiting := ⟨rfl, rfl, rfl⟩

theorem complete_table (s : State) (r : CmdResult) :
    (s.complete r).zones = s.zones ∧ (s.complete r).slots = s.slots ∧
      (s.complete r).waiting = s.waiting := ⟨rfl, rfl, rfl⟩

/-- A request keeps the law when its evaluation does. -/
theorem takeRequest_holderLaw {l : Link} {k : Byte → Bool} {ev : List Byte → State → State × OutFrame}
    (hev : ∀ f t, State.HolderLaw t → State.HolderLaw (ev f t).1) {s : State} (h : s.HolderLaw) :
    (takeRequest l k ev s).HolderLaw := by
  unfold takeRequest
  split
  · next f _ =>
    split
    · exact State.HolderLaw.congr (hev f (s.takeSlot l) (h.congr rfl rfl)) rfl rfl
    · exact h
  · exact h

/-- A mailbox command keeps the law when its evaluation does. -/
theorem takeCommand_holderLaw {c : Byte} {g : Table 8 Byte → Bool}
    {ev : Table 8 Byte → State → State × CmdResult}
    (hev : ∀ a t, State.HolderLaw t → State.HolderLaw (ev a t).1) {s : State} (h : s.HolderLaw) :
    (takeCommand c g ev s).HolderLaw := by
  unfold takeCommand
  split
  · next a _ =>
    split
    · exact State.HolderLaw.congr (hev a { s with arbiter := mailboxSource } (h.congr rfl rfl)) rfl rfl
    · exact h
  · exact h

theorem takeDirect_holderLaw {c : Byte} {ev : Table 8 Byte → State → State × CmdResult}
    (hev : ∀ a t, State.HolderLaw t → State.HolderLaw (ev a t).1) {s : State} (h : s.HolderLaw) :
    (takeDirect c ev s).HolderLaw := by
  unfold takeDirect
  split
  · next a _ =>
    split
    · exact State.HolderLaw.congr (hev a s h) rfl rfl
    · exact h
  · exact h

/-- What a request that carries a handle leaves: the state itself, or what its continuation leaves on the
record that the handle names. -/
theorem withHandle_keeps {P : State → Prop} {n : Nat} {kind : Byte} {l : Link} {f : List Byte} {s : State}
    {k : SlotId → Lease → State × OutFrame} (h : P s)
    (hk : ∀ i r, s.lease i = some r → r.owner = l → P (k i r).1) : P (withHandle n kind l f s k).1 := by
  unfold withHandle
  split
  · exact h
  · split
    · next i r hm =>
      split
      · exact h
      · next ho =>
        refine hk i r ?_ (not_not.mp ho)
        unfold State.matchHandle at hm
        split at hm
        · split at hm
          · split at hm
            · cases hm
              assumption
            · cases hm
          · cases hm
        · cases hm
    · exact h

theorem matchHandle_lease {s : State} {a b : Byte} {i : SlotId} {r : Lease}
    (hm : s.matchHandle a b = some (i, r)) : s.lease i = some r ∧ s.generation i = b ∧ slotOf a = some i := by
  unfold State.matchHandle at hm
  split at hm
  · split at hm
    · split at hm
      · cases hm
        exact ⟨by assumption, by assumption, by assumption⟩
      · cases hm
    · cases hm
  · cases hm

theorem lowestFree_lease {s : State} {i : SlotId} (h : s.lowestFree = some i) : s.lease i = none := by
  have := Table.lowest_some h
  rw [Option.isNone_iff_eq_none] at this
  exact this

theorem atOnce_free {s : State} {q : AcquireReq} (h : s.atOnce q = true) :
    ∀ w ∈ q.zones, (s.zone w).state = .free := by
  unfold State.atOnce at h
  simp only [Bool.and_eq_true, List.all_eq_true] at h
  intro w hw
  simpa using h.1 w hw

theorem acquireGrant_holderLaw {s : State} {l : Link} {q : AcquireReq} {i : SlotId} (h : s.HolderLaw)
    (hi : s.lease i = none) (ha : s.atOnce q = true) : (acquireGrant l q i s).HolderLaw := by
  have hf := atOnce_free ha
  unfold acquireGrant
  refine grantScan_holderLaw (h.take (i := i) (zs := q.zones) ?_ ?_ ?_ (by simp; rfl) ?_ ?_)
  · intro w hw
    rw [hf w hw]
    rfl
  · intro w
    simp only [takeZones_views, allocate_views]
    split <;> rfl
  · intro j hj
    simp [hj]
  · rfl
  · intro w
    simp [newLease, State.holdsZone, hi]

theorem acquireWait_holderLaw {s : State} {l : Link} {q : AcquireReq} {i : SlotId} (h : s.HolderLaw)
    (hi : s.lease i = none) : (acquireWait l q i s).HolderLaw := by
  unfold acquireWait
  refine grantScan_holderLaw (h.idle (i := i) (by simp) (fun j hj => by simp [hj]) (by simp [hi]) ?_)
  intro r hr
  simp at hr
  subst hr
  rfl

theorem evalAcquire_holderLaw (l : Link) (f : List Byte) {s : State} (h : s.HolderLaw) :
    (evalAcquire l f s).1.HolderLaw := by
  unfold evalAcquire
  split
  · exact h
  · split
    · exact h
    · split
      · exact h
      · split
        · exact h.congr rfl rfl
        · next i hi =>
          dsimp only
          split
          · next ha => exact acquireGrant_holderLaw h (lowestFree_lease hi) ha
          · split
            · exact h
            · split
              · exact h.congr rfl rfl
              · exact acquireWait_holderLaw h (lowestFree_lease hi)

theorem evalRenew_holderLaw (l : Link) (f : List Byte) {s : State} (h : s.HolderLaw) :
    (evalRenew l f s).1.HolderLaw := by
  refine withHandle_keeps h fun i r hr _ => ?_
  dsimp only
  split
  · exact h
  · next hc =>
    refine h.same (by simp) (holdsZone_of_keeps fun j => ?_)
    by_cases hj : j = i
    · subst hj
      refine .inr ⟨r, r.renewed (frameWord f 3), hr, by simp, ?_, rfl⟩
      unfold renewCheck at hc
      have hh : r.phase.holds = true := by
        cases hp : r.phase <;> simp_all [Phase.terminal, Phase.live, Phase.holds, Phase.queued]
      rw [hh]
      rfl
    · cases hs : s.lease j with
      | none => simp [hj, hs]
      | some q => exact .inr ⟨q, q, rfl, by simp [hj, hs], rfl, rfl⟩

theorem evalRelease_holderLaw (l : Link) (f : List Byte) {s : State} (h : s.HolderLaw) :
    (evalRelease l f s).1.HolderLaw :=
  withHandle_keeps h fun _ _ hr _ => releaseLease_holderLaw h hr

theorem evalWiden_holderLaw (l : Link) (f : List Byte) {s : State} (h : s.HolderLaw) :
    (evalWiden l f s).1.HolderLaw := by
  refine withHandle_keeps h fun i r hr _ => ?_
  dsimp only
  split
  · exact h
  · next hc =>
    split
    · exact h
    · next z hz =>
      split
      · exact h
      · next hw =>
        have hh : r.phase.holds = true := by
          unfold widenRecordCheck at hc
          cases hp : r.phase <;> simp_all [Phase.terminal, Phase.live, Phase.holds, Phase.queued]
        have hfree : (s.zone z).state = .free := by
          unfold widenZoneCheck at hw
          split at hw
          · cases hw
          · split at hw
            · cases hw
            · split at hw <;> first | cases hw | assumption
        refine h.take (i := i) (zs := [z]) (q := s.widened r z) ?_ ?_ ?_ (by simp) ?_ ?_
        · intro w hw'
          simp only [List.mem_singleton] at hw'
          subst hw'
          rw [hfree]
          rfl
        · intro w
          simp only [takeZones_views, State.setLease_views]
          split <;> rfl
        · intro j hj
          simp [hj]
        · cases hp : r.phase <;> simp_all [State.widened, Phase.clampLease, Phase.holds]
        · intro w
          have : s.holdsZone i w ↔ w ∈ r.zones := by
            unfold State.holdsZone
            simp [hr, hh]
          rw [this]
          simp [State.widened, or_comm]

theorem evalNarrow_holderLaw (l : Link) (f : List Byte) {s : State} (h : s.HolderLaw) :
    (evalNarrow l f s).1.HolderLaw := by
  refine withHandle_keeps h fun i r hr _ => ?_
  dsimp only
  split
  · exact h
  · next hc =>
    split
    · exact h
    · next z hz =>
      split
      · exact h
      · next hm =>
        split
        · exact h
        · have hh : r.phase.holds = true := by
            unfold narrowRecordCheck at hc
            cases hp : r.phase <;> simp_all [Phase.terminal, Phase.live, Phase.holds, Phase.queued]
          have hzr : z ∈ r.zones := by simpa using hm
          refine grantScan_holderLaw fun w j => ?_
          simp only [giveUpZone_views, State.setLease_views]
          have hi : (s.zone z).state.holder = some i := (h z i).mpr ⟨r, hr, hh, hzr⟩
          by_cases hj : j = i
          · subst hj
            have h₂ : ((s.setLease j (s.narrowed r z)).giveUpZone z).holdsZone j w ↔ w ∈ r.zones ∧ w ≠ z := by
              simp [State.holdsZone, State.narrowed, hh]
            rw [h₂]
            split
            · next hw =>
              subst hw
              simp [givenUp_holder]
            · next hw =>
              rw [h w j]
              simp [State.holdsZone, hr, hh, hw]
          · have h₂ : ((s.setLease i (s.narrowed r z)).giveUpZone z).holdsZone j w ↔ s.holdsZone j w := by
              simp [State.holdsZone, hj]
            rw [h₂, ← h w j]
            split
            · next hw =>
              subst hw
              simp [givenUp_holder, hi, Ne.symm hj]
            · rfl

theorem parkCheck_holds {s : State} {r : Lease} (hc : parkCheck s r = none) :
    r.phase.isYielding = true ∧ s.waiting.length < 32 := by
  unfold parkCheck at hc
  split at hc
  · cases hc
  · split at hc
    · cases hc
    · split at hc
      · cases hc
      · split at hc
        · cases hc
        · simp_all

theorem evalPark_holderLaw (l : Link) (f : List Byte) {s : State} (h : s.HolderLaw) :
    (evalPark l f s).1.HolderLaw := by
  refine withHandle_keeps h fun i r hr _ => ?_
  dsimp only
  split
  · exact h.congr rfl rfl
  · exact h
  · next hc => exact parkLease_holderLaw h hr (isYielding_holds (parkCheck_holds hc).1)

/-! ### The host's commands -/

theorem evalSetZone_holderLaw (a : Table 8 Byte) {s : State} (h : s.HolderLaw) :
    (evalSetZone a s).1.HolderLaw := by
  unfold evalSetZone
  split
  · next z e c _ _ _ =>
    split
    · exact h
    · next hu =>
      refine h.same (fun w => ?_) fun j w => by simp [State.holdsZone]
      have hn : (s.zone z).state.holder = none := by
        unfold State.zoneInUse at hu
        cases hs : (s.zone z).state <;> simp_all [ZoneState.holder]
      by_cases hw : w = z
      · subst hw
        simp only [State.setZone_views, if_true]
        rw [hn]
        split <;> rfl
      · simp [hw]
  · exact h

theorem closeFree_holder (s : State) (z w : ZoneId) :
    ((s.closeFree z).zone w).state.holder = if w = z then none else (s.zone w).state.holder := by
  simp only [State.closeFree, State.raiseTable_views, State.setZoneState_views]
  split
  · rfl
  · rfl

theorem closeFree_holderLaw {s : State} {z : ZoneId} (h : s.HolderLaw)
    (hz : (s.zone z).state.holder = none) : (s.closeFree z).HolderLaw := by
  refine h.same (fun w => ?_) fun j w => by simp [State.holdsZone, State.closeFree]
  rw [closeFree_holder]
  split
  · next hw => rw [hw, hz]
  · rfl

theorem fenceZone_holderLaw {z : ZoneId} {on : Bool → SlotId → State × CmdResult} {s : State}
    (h : s.HolderLaw) (hon : ∀ b k, (s.zone z).state.holder = some k → (on b k).1.HolderLaw) :
    (fenceZone z on s).1.HolderLaw := by
  unfold fenceZone
  split
  · exact h
  · next hs => exact grantScan_holderLaw (closeFree_holderLaw h (by rw [hs]; rfl))
  · exact grantScan_holderLaw h
  · next k hs => exact hon false k (by rw [hs]; rfl)
  · next k hs => exact hon true k (by rw [hs]; rfl)

theorem setZoneState_holderLaw {s : State} {z : ZoneId} {x : ZoneState} (h : s.HolderLaw)
    (hx : x.holder = (s.zone z).state.holder) : (s.setZoneState z x).HolderLaw := by
  refine h.same (fun w => ?_) fun j w => by simp [State.holdsZone]
  simp only [State.setZoneState_views]
  split
  · next hw => rw [hw, hx]
  · rfl

theorem evalFenceWait_holderLaw (a : Table 8 Byte) {s : State} (h : s.HolderLaw) :
    (evalFenceWait a s).1.HolderLaw := by
  unfold evalFenceWait
  split
  · refine fenceZone_holderLaw h fun b k hk => ?_
    split
    · exact grantScan_holderLaw h
    · exact grantScan_holderLaw (setZoneState_holderLaw h (by rw [hk]; rfl))
  · exact h

theorem forceFence_holderLaw {s : State} {z : ZoneId} {k : SlotId} (h : s.HolderLaw)
    (hk : (s.zone z).state.holder = some k) : (s.forceFence z k).HolderLaw := by
  obtain ⟨r, hr, hh, hz⟩ := (h z k).mp hk
  unfold State.forceFence
  rw [hr]
  refine h.release hr hh (fun w => ?_) (fun j hj => ?_) fun q hq => ?_
  · simp only [terminate_views]
    rw [giveUp_holder, closeFree_holder]
    by_cases hw : w = z
    · subst hw
      simp [hz]
    · simp [hw]
  · simp [State.closeFree, hj]
  · simp only [terminate_views, if_true] at hq
    split at hq
    · cases hq
      rfl
    · cases hq

theorem evalFenceForce_holderLaw (a : Table 8 Byte) {s : State} (h : s.HolderLaw) :
    (evalFenceForce a s).1.HolderLaw := by
  unfold evalFenceForce
  split
  · exact fenceZone_holderLaw h fun b k hk => grantScan_holderLaw (forceFence_holderLaw h hk)
  · exact h

theorem evalLift_holderLaw (a : Table 8 Byte) {s : State} (h : s.HolderLaw) :
    (evalLift a s).1.HolderLaw := by
  unfold evalLift
  split
  · split
    · next hs => exact grantScan_holderLaw (setZoneState_holderLaw h (by rw [hs]; rfl))
    · next k hs => exact grantScan_holderLaw (setZoneState_holderLaw h (by rw [hs]; rfl))
    · exact h
  · exact h

theorem live_queued {p : Phase} (h : p.terminal = false) (hh : p.holds = false) : p.queued = true := by
  cases p <;> simp_all [Phase.terminal, Phase.live, Phase.holds, Phase.queued]

theorem evalRevoke_holderLaw (a : Table 8 Byte) {s : State} (h : s.HolderLaw) :
    (evalRevoke a s).1.HolderLaw := by
  unfold evalRevoke
  split
  · next i r hm =>
    split
    · exact h
    · next ht =>
      have hr := (matchHandle_lease hm).1
      show (s.revokeLease i r).HolderLaw
      unfold State.revokeLease
      split
      · next hh => exact grantScan_holderLaw (endHeld_holderLaw h hr hh rfl)
      · next hh => exact grantScan_holderLaw (endQueued_holderLaw h hr (by simpa using hh) rfl)
  · exact h

/-! ### Frames and restarts -/

theorem applyFrame_holderLaw (f : OutFrame) {s : State} (h : s.HolderLaw) : (s.applyFrame f).HolderLaw := by
  unfold State.applyFrame
  split
  · next p _ =>
    unfold State.applyReport
    split
    · next r hr =>
      split
      · split
        · next hc =>
          refine freeSlot_holderLaw h fun q hq => ?_
          rw [hr] at hq
          cases hq
          simp only [Bool.and_eq_true] at hc
          cases hp : r.phase <;> simp_all [Phase.terminal, Phase.live, Phase.holds, Phase.queued]
        · refine h.same (by simp) (holdsZone_of_keeps fun j => ?_)
          by_cases hj : j = p.slot
          · subst hj
            exact .inr ⟨r, { r with reported := some (p.state, p.warned) }, hr, by simp, rfl, rfl⟩
          · cases hs : s.lease j with
            | none => simp [hj, hs]
            | some q => exact .inr ⟨q, q, rfl, by simp [hj, hs], rfl, rfl⟩
      · exact h
    · exact h
  · exact h

theorem endWaits_holderLaw {s : State} (h : s.HolderLaw) : s.endWaits.HolderLaw := by
  have h₁ : ((List.finRange 128).foldl State.restartLapseAt s).HolderLaw := by
    refine foldl_keeps (fun t i ht => ?_) _ h
    unfold State.restartLapseAt
    split
    · next r hr =>
      split
      · next hq => exact endQueued_holderLaw ht hr (queued_not_holds hq) rfl
      · exact ht
    · exact ht
  have h₂ : ∀ t : State, t.HolderLaw → (State.clearEarmarks { t with waiting := [] }).HolderLaw :=
    fun t ht => clearEarmarks_holderLaw (ht.congr rfl rfl)
  exact h₂ _ h₁

theorem abortCommand_table (s : State) :
    s.abortCommand.zones = s.zones ∧ s.abortCommand.slots = s.slots ∧
      s.abortCommand.waiting = s.waiting ∧ s.abortCommand.links = s.links := by
  unfold State.abortCommand
  split <;> exact ⟨rfl, rfl, rfl, rfl⟩

theorem beginRestart_holderLaw {s : State} (b : Table 4 Nat) (h : s.HolderLaw) :
    (s.beginRestart b).HolderLaw := by
  refine endWaits_holderLaw (h.congr ?_ ?_)
  · exact (abortCommand_table _).1
  · exact (abortCommand_table _).2.1

theorem completeRestart_table (s : State) :
    s.completeRestart.zones = s.zones ∧ s.completeRestart.slots = s.slots ∧
      s.completeRestart.waiting = s.waiting ∧ s.completeRestart.links = s.links := by
  unfold State.completeRestart
  split <;> exact ⟨rfl, rfl, rfl, rfl⟩

theorem endRestart_holderLaw {s : State} (h : s.HolderLaw) : s.endRestart.HolderLaw :=
  (grantScan_holderLaw h).congr (completeRestart_table _).1 (completeRestart_table _).2.1

/-- A part with no records and no held zones keeps the law. -/
theorem empty_holderLaw {s : State} (hz : ∀ z, (s.zone z).state.holder = none) (hl : ∀ i, s.lease i = none) :
    s.HolderLaw := by
  intro z i
  simp [hz, State.holdsZone, hl]

end Sys2Proof.Machine
end

