-- ==== Sys2Proof/Laws/Queue.lean ====
section
/-! SUPPORT. R46 through each operation: the waiting list holds the WAITING and PARKED records exactly once,
32 at most, in the order of priority and kind. -/

namespace Sys2Proof.Machine

/-- R46: the list's law and its order. -/
def State.QueueLaw (s : State) : Prop := s.ListLaw ∧ s.OrderLaw

/-- What the list's laws see of a slot: whether its record waits, its priority, whether it is parked. -/
def State.entry (s : State) (j : SlotId) : Option (Bool × Priority × Bool) :=
  (s.lease j).map fun r => (r.phase.queued, r.priority, r.phase.isParked)

theorem queued_iff_entry (s : State) (j : SlotId) :
    (∃ r, s.lease j = some r ∧ r.phase.queued = true) ↔ ∃ p b, s.entry j = some (true, p, b) := by
  unfold State.entry
  cases h : s.lease j with
  | none => simp
  | some r => simp

theorem mayPrecede_congr {s t : State} {a b : SlotId} (ha : t.entry a = s.entry a)
    (hb : t.entry b = s.entry b) : t.mayPrecede a b ↔ s.mayPrecede a b := by
  unfold State.entry at ha hb
  unfold State.mayPrecede
  cases h₁ : s.lease a <;> cases h₂ : t.lease a <;> cases h₃ : s.lease b <;> cases h₄ : t.lease b <;>
    simp_all

/-- The slots keep their entries and the list stays. -/
theorem State.QueueLaw.same {s t : State} (h : s.QueueLaw) (hw : t.waiting = s.waiting)
    (he : ∀ j, t.entry j = s.entry j) : t.QueueLaw := by
  obtain ⟨⟨h₁, h₂, h₃⟩, h₄⟩ := h
  refine ⟨⟨hw ▸ h₁, hw ▸ h₂, fun i => ?_⟩, ?_⟩
  · rw [hw, h₃ i, queued_iff_entry, queued_iff_entry, he]
  · unfold State.OrderLaw at *
    rw [hw]
    exact h₄.imp fun {a b} hab => (mayPrecede_congr (he a) (he b)).mpr hab

theorem State.QueueLaw.congr {s t : State} (h : s.QueueLaw) (hw : t.waiting = s.waiting)
    (hs : t.slots = s.slots) : t.QueueLaw :=
  h.same hw fun j => by simp [State.entry, State.lease, State.slot, hs]

/-- Slot `i` leaves the list, and does not wait afterwards. -/
theorem State.QueueLaw.leave {s t : State} (h : s.QueueLaw) {i : SlotId}
    (hw : t.waiting = s.waiting.filter (· != i)) (he : ∀ j, j ≠ i → t.entry j = s.entry j)
    (hi : ∀ p b, t.entry i ≠ some (true, p, b)) : t.QueueLaw := by
  obtain ⟨⟨h₁, h₂, h₃⟩, h₄⟩ := h
  refine ⟨⟨?_, ?_, fun j => ?_⟩, ?_⟩
  · rw [hw]
    exact h₁.filter _
  · rw [hw]
    exact (List.length_filter_le _ _).trans h₂
  · rw [hw, queued_iff_entry, List.mem_filter, h₃ j, queued_iff_entry]
    by_cases hj : j = i
    · subst hj
      simp only [bne_self_eq_false, Bool.false_eq_true, and_false, false_iff]
      rintro ⟨p, b, hpb⟩
      exact hi p b hpb
    · rw [he j hj]
      simp [hj]
  · unfold State.OrderLaw at *
    rw [hw]
    refine List.Pairwise.imp_of_mem (fun {a b} ha hb hab => ?_) (h₄.filter _)
    rw [List.mem_filter] at ha hb
    exact (mayPrecede_congr (he a (by simpa using ha.2)) (he b (by simpa using hb.2))).mpr hab

/-- Slot `i` waits neither before nor after, and the list stays. -/
theorem State.QueueLaw.idle {s t : State} (h : s.QueueLaw) {i : SlotId} (hw : t.waiting = s.waiting)
    (he : ∀ j, j ≠ i → t.entry j = s.entry j) (hs : ∀ p b, s.entry i ≠ some (true, p, b))
    (hi : ∀ p b, t.entry i ≠ some (true, p, b)) : t.QueueLaw := by
  refine h.leave (i := i) ?_ he hi
  rw [hw, eq_comm, List.filter_eq_self]
  intro j hj
  have := (h.1.2.2 j).mp hj
  rw [queued_iff_entry] at this
  obtain ⟨p, b, hpb⟩ := this
  have hne : j ≠ i := by
    rintro rfl
    exact hs p b hpb
  simpa using hne

/-! ### Insertion (R47) -/

theorem insertBefore_mem (p : SlotId → Bool) (e x : SlotId) (l : List SlotId) :
    x ∈ insertBefore p e l ↔ x = e ∨ x ∈ l := by
  induction l with
  | nil => simp [insertBefore]
  | cons y ys ih =>
    unfold insertBefore
    split
    · simp
    · simp only [List.mem_cons, ih]
      tauto

theorem insertBefore_length (p : SlotId → Bool) (e : SlotId) (l : List SlotId) :
    (insertBefore p e l).length = l.length + 1 := by
  induction l with
  | nil => rfl
  | cons y ys ih =>
    unfold insertBefore
    split
    · rfl
    · simp [ih]

theorem insertBefore_nodup (p : SlotId → Bool) (e : SlotId) (l : List SlotId) (h : l.Nodup) (he : e ∉ l) :
    (insertBefore p e l).Nodup := by
  induction l with
  | nil => simp [insertBefore]
  | cons y ys ih =>
    unfold insertBefore
    split
    · exact List.nodup_cons.mpr ⟨he, h⟩
    · rw [List.nodup_cons] at h ⊢
      refine ⟨fun hy => ?_, ih h.2 fun hm => he (List.mem_cons_of_mem _ hm)⟩
      rcases (insertBefore_mem _ _ _ _).mp hy with rfl | hm
      · exact he (List.mem_cons_self ..)
      · exact h.1 hm

/-- The entries before the place do not satisfy the test, and the first one after it does (R47). -/
theorem insertBefore_split (p : SlotId → Bool) (e : SlotId) (l : List SlotId) :
    ∃ a b, l = a ++ b ∧ insertBefore p e l = a ++ e :: b ∧ (∀ x ∈ a, p x = false) ∧
      ∀ x ∈ b.head?, p x = true := by
  induction l with
  | nil => exact ⟨[], [], rfl, rfl, by simp, by simp⟩
  | cons y ys ih =>
    unfold insertBefore
    split
    · next hp => exact ⟨[], y :: ys, rfl, rfl, by simp, by simpa using hp⟩
    · next hp =>
      obtain ⟨a, b, h₁, h₂, h₃, h₄⟩ := ih
      refine ⟨y :: a, b, by simp [h₁], by simp [h₂], ?_, h₄⟩
      intro x hx
      rcases List.mem_cons.mp hx with rfl | hx
      · simpa using hp
      · exact h₃ x hx

theorem insertBefore_pairwise {R : SlotId → SlotId → Prop} (p : SlotId → Bool) (e : SlotId)
    (l : List SlotId) (h : l.Pairwise R) (hb : ∀ x ∈ l, p x = false → R x e)
    (ha : ∀ x ∈ l, p x = true → R e x)
    (hm : ∀ x ∈ l, ∀ y ∈ l, R x y → p x = true → p y = true) : (insertBefore p e l).Pairwise R := by
  induction l with
  | nil => simp [insertBefore]
  | cons y ys ih =>
    rw [List.pairwise_cons] at h
    unfold insertBefore
    split
    · next hp =>
      rw [List.pairwise_cons, List.pairwise_cons]
      refine ⟨fun x hx => ?_, h⟩
      rcases List.mem_cons.mp hx with rfl | hx'
      · exact ha _ hx hp
      · exact ha _ hx (hm y (List.mem_cons_self ..) x hx (h.1 x hx') hp)
    · next hp =>
      rw [List.pairwise_cons]
      refine ⟨fun x hx => ?_, ih h.2 (fun x hx => hb x (List.mem_cons_of_mem _ hx))
        (fun x hx => ha x (List.mem_cons_of_mem _ hx))
        (fun x hx y' hy => hm x (List.mem_cons_of_mem _ hx) y' (List.mem_cons_of_mem _ hy))⟩
      rcases (insertBefore_mem _ _ _ _).mp hx with rfl | hx'
      · exact hb y (List.mem_cons_self ..) (by simpa using hp)
      · exact h.1 x hx'

theorem behind_false {s : State} {q : Priority} {b : Bool} {x : SlotId} {r : Lease}
    (hr : s.lease x = some r) (h : s.behind q b x = false) :
    q < r.priority ∨ (q = r.priority ∧ (b = true → r.phase.isParked = true)) := by
  unfold State.behind at h
  rw [hr] at h
  simp only [Bool.or_eq_false_iff, decide_eq_false_iff_not, not_lt, Bool.and_eq_false_iff,
    beq_eq_false_iff_ne, Bool.not_eq_eq_eq_not] at h
  rcases lt_or_eq_of_le h.1 with h₁ | h₁
  · exact .inl h₁
  · refine .inr ⟨h₁, fun hb => ?_⟩
    rcases h.2 with (h₂ | h₂) | h₂
    · simp [hb] at h₂
    · exact absurd h₁.symm h₂
    · simpa using h₂

theorem behind_true {s : State} {q : Priority} {b : Bool} {x : SlotId} {r : Lease}
    (hr : s.lease x = some r) :
    s.behind q b x = true ↔
      r.priority < q ∨ (b = true ∧ r.priority = q ∧ r.phase.isParked = false) := by
  unfold State.behind
  rw [hr]
  simp [and_assoc]

/-- A record that waits enters the list at its place, the list having held fewer than 32. -/
theorem State.QueueLaw.enter {s t : State} (h : s.QueueLaw) {i : SlotId} {q : Priority} {b : Bool}
    (hs : ∀ p b, s.entry i ≠ some (true, p, b)) (hlen : s.waiting.length < 32)
    (hw : t.waiting = insertBefore (t.behind q b) i s.waiting)
    (he : ∀ j, j ≠ i → t.entry j = s.entry j) (hi : t.entry i = some (true, q, b)) : t.QueueLaw := by
  obtain ⟨⟨h₁, h₂, h₃⟩, h₄⟩ := h
  have hni : i ∉ s.waiting := by
    intro hm
    have := (h₃ i).mp hm
    rw [queued_iff_entry] at this
    obtain ⟨p, c, hpc⟩ := this
    exact hs p c hpc
  have hne : ∀ x ∈ s.waiting, x ≠ i := fun x hx hxi => hni (hxi ▸ hx)
  have hsome : ∀ x ∈ s.waiting, ∃ r, t.lease x = some r := by
    intro x hx
    have := (h₃ x).mp hx
    rw [queued_iff_entry] at this
    obtain ⟨p, c, hpc⟩ := this
    rw [← he x (hne x hx)] at hpc
    unfold State.entry at hpc
    cases hl : t.lease x with
    | none => simp [hl] at hpc
    | some r => exact ⟨r, rfl⟩
  have hi' : ∃ r, t.lease i = some r ∧ r.priority = q ∧ r.phase.isParked = b := by
    unfold State.entry at hi
    cases hl : t.lease i with
    | none => simp [hl] at hi
    | some r =>
      simp [hl] at hi
      exact ⟨r, rfl, hi.2.1, hi.2.2⟩
  refine ⟨⟨?_, ?_, fun j => ?_⟩, ?_⟩
  · rw [hw]
    exact insertBefore_nodup _ _ _ h₁ hni
  · rw [hw, insertBefore_length]
    omega
  · rw [hw, insertBefore_mem, queued_iff_entry]
    by_cases hj : j = i
    · subst hj
      simp [hi]
    · rw [he j hj, ← queued_iff_entry, ← h₃ j]
      simp [hj]
  · unfold State.OrderLaw at *
    rw [hw]
    obtain ⟨ri, hri, hq, hb⟩ := hi'
    refine insertBefore_pairwise _ _ _ ?_ ?_ ?_ ?_
    · exact List.Pairwise.imp_of_mem
        (fun {x y} hx hy hxy => (mayPrecede_congr (he x (hne x hx)) (he y (hne y hy))).mpr hxy) h₄
    · intro x hx hbx rx ry hrx hry
      rw [hri] at hry
      cases hry
      rw [hq, hb]
      exact behind_false hrx hbx
    · intro x hx hbx rx ry hrx hry
      rw [hri] at hrx
      cases hrx
      rw [hq, hb]
      rcases (behind_true hry).mp hbx with h₅ | ⟨h₅, h₆, h₇⟩
      · exact .inl h₅
      · exact .inr ⟨h₆, fun h₈ => h₅⟩
    · intro x hx y hy hxy hbx
      obtain ⟨rx, hrx⟩ := hsome x hx
      obtain ⟨ry, hry⟩ := hsome y hy
      rw [behind_true hry]
      rcases hxy rx ry hrx hry with h₅ | ⟨h₅, h₆⟩
      · rcases (behind_true hrx).mp hbx with h₇ | ⟨h₇, h₈, h₉⟩
        · exact .inl (h₅.trans h₇)
        · exact .inl (h₈ ▸ h₅)
      · rcases (behind_true hrx).mp hbx with h₇ | ⟨h₇, h₈, h₉⟩
        · exact .inl (h₅ ▸ h₇)
        · refine .inr ⟨h₇, h₅.trans h₈, ?_⟩
          cases hp : ry.phase.isParked with
          | false => rfl
          | true => rw [h₆ hp] at h₉; cases h₉

/-! ### The grant scan -/

theorem entry_some {s : State} {i : SlotId} {r : Lease} (h : s.lease i = some r) :
    s.entry i = some (r.phase.queued, r.priority, r.phase.isParked) := by
  simp [State.entry, h]

theorem entry_none {s : State} {i : SlotId} (h : s.lease i = none) : s.entry i = none := by
  simp [State.entry, h]

theorem grant_queueLaw {s : State} {i : SlotId} {r : Lease} (h : s.QueueLaw) : (s.grant i r).QueueLaw := by
  refine h.leave (i := i) (by simp [State.grant]) (fun j hj => by simp [State.entry, State.grant, hj]) ?_
  intro p b
  rw [entry_some (r := r.granted) (by simp [State.grant])]
  simp [Lease.granted, Phase.queued]

theorem askYield_queueLaw {s : State} (k : SlotId) (p : Priority) (h : s.QueueLaw) :
    (s.askYield k p).QueueLaw := by
  obtain ⟨-, hw, -, -, hl⟩ := askYield_views s k p
  refine h.same hw fun j => ?_
  rcases hl j with h₁ | ⟨r, h₁, h₂⟩
  · simp [State.entry, h₁]
  · simp [State.entry, h₁, h₂]

theorem earmarkZone_queueLaw (b : Bool) (e : SlotId) (p : Priority) {s : State} (z : ZoneId)
    (h : s.QueueLaw) : (s.earmarkZone b e p z).QueueLaw := by
  unfold State.earmarkZone
  split
  · exact h.congr rfl rfl
  · split
    · exact askYield_queueLaw _ _ (h.congr rfl rfl)
    · exact h.congr rfl rfl
  · exact h

theorem walkEntry_queueLaw (b : Bool) {s : State} (e : SlotId) (h : s.QueueLaw) :
    (s.walkEntry b e).QueueLaw := by
  unfold State.walkEntry
  split
  · split
    · exact grant_queueLaw h
    · exact foldl_keeps (fun s z hs => earmarkZone_queueLaw b e _ z hs) _ h
  · exact h

theorem mapLeases_queueLaw {s : State} {f : SlotId → Lease → Lease}
    (hf : ∀ i r, (f i r).phase.queued = r.phase.queued ∧ (f i r).priority = r.priority ∧
      (f i r).phase.isParked = r.phase.isParked) (h : s.QueueLaw) : (s.mapLeases f).QueueLaw := by
  refine h.same rfl fun j => ?_
  cases hj : s.lease j with
  | none => simp [State.entry, hj]
  | some r => simp [State.entry, hj, hf j r]

/-- The grant scan keeps R46. -/
theorem grantScan_queueLaw {s : State} (h : s.QueueLaw) : s.grantScan.QueueLaw := by
  have hc : s.clearEarmarks.QueueLaw := h.congr rfl rfl
  unfold State.grantScan
  split
  · refine mapLeases_queueLaw ?_ (mapLeases_queueLaw ?_
      (foldl_keeps (fun _ e hs => walkEntry_queueLaw true e hs) _ hc))
    · intro i r
      split <;> simp
    · intro i r
      split <;> simp
  · exact foldl_keeps (fun _ e hs => walkEntry_queueLaw false e hs) _ hc

/-! ### Records that end, are freed or pass into the list -/

theorem not_queued_entry {s : State} {i : SlotId} (h : ∀ r, s.lease i = some r → r.phase.queued = false) :
    ∀ p b, s.entry i ≠ some (true, p, b) := by
  intro p b
  cases hl : s.lease i with
  | none => simp [State.entry, hl]
  | some r => simp [State.entry, hl, h r hl]

theorem endHeld_queueLaw {s : State} {i : SlotId} {r : Lease} {p : Phase} (h : s.QueueLaw)
    (hr : s.lease i = some r) (hh : r.phase.queued = false) (hp : p.queued = false) :
    (s.endHeld i r p).QueueLaw := by
  refine h.idle (i := i) (by simp [State.endHeld]) (fun j hj => by simp [State.entry, State.endHeld, hj])
    (not_queued_entry fun q hq => ?_) (not_queued_entry fun q hq => ?_)
  · rw [hr] at hq
    cases hq
    exact hh
  · simp only [State.endHeld, terminate_views, if_true] at hq
    split at hq
    · cases hq
      exact hp
    · cases hq

theorem endQueued_queueLaw {s : State} {i : SlotId} {r : Lease} {p : Phase} (h : s.QueueLaw)
    (hp : p.queued = false) : (s.endQueued i r p).QueueLaw := by
  refine h.leave (i := i) (by simp [State.endQueued])
    (fun j hj => by simp [State.entry, State.endQueued, hj]) (not_queued_entry fun q hq => ?_)
  simp only [State.endQueued, terminate_views, if_true] at hq
  split at hq
  · cases hq
    exact hp
  · cases hq

theorem freeSlot_queueLaw {s : State} {i : SlotId} (h : s.QueueLaw)
    (hs : ∀ r, s.lease i = some r → r.phase.queued = false) : (s.freeSlot i).QueueLaw :=
  h.idle (i := i) (by simp) (fun j hj => by simp [State.entry, hj]) (not_queued_entry hs)
    (not_queued_entry (by simp))

theorem leaveFree_queueLaw {s : State} {i : SlotId} (h : s.QueueLaw) :
    ((s.leaveList i).freeSlot i).QueueLaw :=
  h.leave (i := i) (by simp) (fun j hj => by simp [State.entry, hj]) (not_queued_entry (by simp))

theorem lapseAt_queueLaw {s : State} (i : SlotId) (h : s.QueueLaw) : (s.lapseAt i).QueueLaw := by
  unfold State.lapseAt
  split
  · split
    · exact endQueued_queueLaw h rfl
    · exact h
  · exact h

theorem expireAt_queueLaw {s : State} (i : SlotId) (h : s.QueueLaw) : (s.expireAt i).QueueLaw := by
  unfold State.expireAt
  split
  · next r hr =>
    split
    · next hc =>
      simp only [Bool.and_eq_true] at hc
      exact endHeld_queueLaw h hr (holds_not_queued hc.1) rfl
    · exact h
  · exact h

theorem revokeLateAt_queueLaw {s : State} (i : SlotId) (h : s.QueueLaw) : (s.revokeLateAt i).QueueLaw := by
  unfold State.revokeLateAt
  split
  · next r hr =>
    split
    · next hc =>
      simp only [Bool.and_eq_true] at hc
      exact (endHeld_queueLaw (p := .revoked .yieldLate) h hr (holds_not_queued (isYielding_holds hc.1.1))
        rfl).congr (by simp) (by simp)
    · exact h
  · exact h

theorem endIfDue_queueLaw {s : State} (i : SlotId) (h : s.QueueLaw) : (s.endIfDue i).QueueLaw := by
  unfold State.endIfDue
  split
  · split
    · exact h
    · split
      · exact lapseAt_queueLaw _ h
      · split
        · exact expireAt_queueLaw _ h
        · exact revokeLateAt_queueLaw _ h
  · exact h

/-- A tick keeps R46. -/
theorem takeTick_queueLaw {s : State} (h : s.QueueLaw) : s.takeTick.QueueLaw := by
  have h₁ : s.decrementAll.warnAll.QueueLaw :=
    mapLeases_queueLaw (by simp) (mapLeases_queueLaw (by simp) h)
  show (State.endAndScan _).QueueLaw
  unfold State.endAndScan
  split
  · exact grantScan_queueLaw (foldl_keeps (fun _ i hs => endIfDue_queueLaw i hs) _ h₁)
  · exact h₁

theorem giveUpZones_queueLaw {s : State} (zs : List ZoneId) (h : s.QueueLaw) : (s.giveUpZones zs).QueueLaw :=
  h.congr (giveUpZones_slots s zs).2.1 (giveUpZones_slots s zs).1

theorem takeZones_queueLaw {s : State} (i : SlotId) (zs : List ZoneId) (h : s.QueueLaw) :
    (s.takeZones i zs).QueueLaw :=
  h.congr (takeZones_slots s i zs).2.1 (takeZones_slots s i zs).1

theorem releaseLease_queueLaw {s : State} {i : SlotId} {r : Lease} (h : s.QueueLaw)
    (hr : s.lease i = some r) : (s.releaseLease i r).QueueLaw := by
  unfold State.releaseLease
  split
  · next hh =>
    refine grantScan_queueLaw (freeSlot_queueLaw (giveUpZones_queueLaw _ h) fun q hq => ?_)
    simp [hr] at hq
    subst hq
    exact holds_not_queued hh
  · split
    · exact grantScan_queueLaw (leaveFree_queueLaw h)
    · next hq =>
      refine freeSlot_queueLaw h fun q hq' => ?_
      rw [hr] at hq'
      cases hq'
      simpa using hq

theorem parkLease_queueLaw {s : State} {i : SlotId} {r : Lease} (h : s.QueueLaw)
    (hr : s.lease i = some r) (hh : r.phase.queued = false) (hl : s.waiting.length < 32) :
    (s.parkLease i r).QueueLaw := by
  unfold State.parkLease
  refine grantScan_queueLaw (h.enter (i := i) (q := r.priority) (b := true) ?_ hl ?_ ?_ ?_)
  · refine not_queued_entry fun q hq => ?_
    rw [hr] at hq
    cases hq
    exact hh
  · simp only [State.enterList_fields, State.setLease_fields, giveUpZones_views]
    rfl
  · intro j hj
    simp [State.entry, hj]
  · rw [entry_some (r := { r with phase := .parked r.limits.maxWait s.sequence }) (by simp)]
    rfl

theorem acquireGrant_queueLaw {s : State} {l : Link} {q : AcquireReq} {i : SlotId} (h : s.QueueLaw)
    (hi : s.lease i = none) : (acquireGrant l q i s).QueueLaw := by
  unfold acquireGrant
  refine grantScan_queueLaw (takeZones_queueLaw _ _ (h.idle (i := i) (by simp)
    (fun j hj => by simp [State.entry, hj]) (not_queued_entry (by simp [hi])) (not_queued_entry ?_)))
  intro r hr
  simp at hr
  subst hr
  rfl

theorem acquireWait_queueLaw {s : State} {l : Link} {q : AcquireReq} {i : SlotId} (h : s.QueueLaw)
    (hi : s.lease i = none) (hl : s.waiting.length < 32) : (acquireWait l q i s).QueueLaw := by
  unfold acquireWait
  refine grantScan_queueLaw (h.enter (i := i) (q := q.priority) (b := false) ?_ hl ?_ ?_ ?_)
  · exact not_queued_entry (by simp [hi])
  · simp only [State.enterList_fields, allocate_views]
    rfl
  · intro j hj
    simp [State.entry, hj]
  · rw [entry_some (r := newLease l q (s.limitsOf q.zones)
      (.waiting (min q.wait (s.limitsOf q.zones).maxWait) s.sequence)) (by simp)]
    rfl

theorem freeWhere_queueLaw {s : State} (p : Lease → Bool) (h : s.QueueLaw) : (s.freeWhere p).QueueLaw := by
  refine foldl_keeps (fun t i ht => ?_) _ h
  unfold State.freeAt
  split
  · next r hr =>
    split
    · split
      · exact leaveFree_queueLaw ht
      · next hq =>
        refine freeSlot_queueLaw ht fun q hq' => ?_
        rw [hr] at hq'
        cases hq'
        simpa using hq
    · exact ht
  · exact ht

theorem forgetReported_queueLaw {s : State} (l : Link) (h : s.QueueLaw) : (s.forgetReported l).QueueLaw :=
  mapLeases_queueLaw (fun i r => by split <;> simp) h

theorem clientRestart_queueLaw {s : State} (l : Link) (h : s.QueueLaw) : (s.clientRestart l).QueueLaw :=
  grantScan_queueLaw (forgetReported_queueLaw l (freeWhere_queueLaw _ h))

theorem disableLink_queueLaw {s : State} (l : Link) (n : Nat) (h : s.QueueLaw) :
    (s.disableLink l n).QueueLaw :=
  grantScan_queueLaw (forgetReported_queueLaw l (freeWhere_queueLaw _ (h.congr rfl rfl)))

/-! ### Requests and commands -/

theorem takeRequest_queueLaw {l : Link} {k : Byte → Bool} {ev : List Byte → State → State × OutFrame}
    (hev : ∀ f t, State.QueueLaw t → State.QueueLaw (ev f t).1) {s : State} (h : s.QueueLaw) :
    (takeRequest l k ev s).QueueLaw := by
  unfold takeRequest
  split
  · next f _ =>
    split
    · exact State.QueueLaw.congr (hev f (s.takeSlot l) (h.congr rfl rfl)) rfl rfl
    · exact h
  · exact h

theorem takeCommand_queueLaw {c : Byte} {g : Table 8 Byte → Bool}
    {ev : Table 8 Byte → State → State × CmdResult}
    (hev : ∀ a t, State.QueueLaw t → State.QueueLaw (ev a t).1) {s : State} (h : s.QueueLaw) :
    (takeCommand c g ev s).QueueLaw := by
  unfold takeCommand
  split
  · next a _ =>
    split
    · exact State.QueueLaw.congr (hev a { s with arbiter := mailboxSource } (h.congr rfl rfl)) rfl rfl
    · exact h
  · exact h

theorem takeDirect_queueLaw {c : Byte} {ev : Table 8 Byte → State → State × CmdResult}
    (hev : ∀ a t, State.QueueLaw t → State.QueueLaw (ev a t).1) {s : State} (h : s.QueueLaw) :
    (takeDirect c ev s).QueueLaw := by
  unfold takeDirect
  split
  · next a _ =>
    split
    · exact State.QueueLaw.congr (hev a s h) rfl rfl
    · exact h
  · exact h

/-- A record replaced by one of the same entry. -/
theorem setLease_queueLaw {s : State} {i : SlotId} {r q : Lease} (h : s.QueueLaw) (hr : s.lease i = some r)
    (hq : q.phase.queued = r.phase.queued) (hp : q.priority = r.priority)
    (hk : q.phase.isParked = r.phase.isParked) : (s.setLease i q).QueueLaw := by
  refine h.same rfl fun j => ?_
  by_cases hj : j = i
  · subst hj
    simp [State.entry, hr, hq, hp, hk]
  · simp [State.entry, hj]

theorem evalAcquire_queueLaw (l : Link) (f : List Byte) {s : State} (h : s.QueueLaw) :
    (evalAcquire l f s).1.QueueLaw := by
  unfold evalAcquire
  split
  · exact h
  · split
    · exact h
    · split
      · exact h
      · split
        · exact h.congr rfl rfl
        · next i hi =>
          dsimp only
          split
          · exact acquireGrant_queueLaw h (lowestFree_lease hi)
          · split
            · exact h
            · split
              · exact h.congr rfl rfl
              · next hl => exact acquireWait_queueLaw h (lowestFree_lease hi) (by omega)

theorem evalRenew_queueLaw (l : Link) (f : List Byte) {s : State} (h : s.QueueLaw) :
    (evalRenew l f s).1.QueueLaw := by
  refine withHandle_keeps h fun i r hr _ => ?_
  dsimp only
  split
  · exact h
  · next hc =>
    unfold renewCheck at hc
    refine setLease_queueLaw h hr ?_ rfl ?_
    · cases hp : r.phase <;>
        simp_all [Phase.terminal, Phase.live, Phase.holds, Phase.queued, Lease.renewed]
    · cases hp : r.phase <;>
        simp_all [Phase.terminal, Phase.live, Phase.holds, Phase.queued, Lease.renewed, Phase.isParked]

theorem evalRelease_queueLaw (l : Link) (f : List Byte) {s : State} (h : s.QueueLaw) :
    (evalRelease l f s).1.QueueLaw :=
  withHandle_keeps h fun _ _ hr _ => releaseLease_queueLaw h hr

theorem clampLease_keeps (m : Nat) (p : Phase) :
    (p.clampLease m).queued = p.queued ∧ (p.clampLease m).isParked = p.isParked ∧
      (p.clampLease m).holds = p.holds := by
  cases p <;> simp [Phase.clampLease, Phase.queued, Phase.isParked, Phase.holds]

theorem evalWiden_queueLaw (l : Link) (f : List Byte) {s : State} (h : s.QueueLaw) :
    (evalWiden l f s).1.QueueLaw := by
  refine withHandle_keeps h fun i r hr _ => ?_
  dsimp only
  repeat' split
  all_goals first
    | exact h
    | exact takeZones_queueLaw _ _ (setLease_queueLaw h hr (clampLease_keeps _ _).1 rfl
        (clampLease_keeps _ _).2.1)

theorem giveUpZone_queueLaw {s : State} (z : ZoneId) (h : s.QueueLaw) : (s.giveUpZone z).QueueLaw :=
  h.congr (giveUpZone_slots s z).2.1 (giveUpZone_slots s z).1

theorem evalNarrow_queueLaw (l : Link) (f : List Byte) {s : State} (h : s.QueueLaw) :
    (evalNarrow l f s).1.QueueLaw := by
  refine withHandle_keeps h fun i r hr _ => ?_
  dsimp only
  repeat' split
  all_goals first
    | exact h
    | exact grantScan_queueLaw (giveUpZone_queueLaw _ (setLease_queueLaw h hr rfl rfl rfl))

theorem evalPark_queueLaw (l : Link) (f : List Byte) {s : State} (h : s.QueueLaw) :
    (evalPark l f s).1.QueueLaw := by
  refine withHandle_keeps h fun i r hr _ => ?_
  dsimp only
  split
  · exact h.congr rfl rfl
  · exact h
  · next hc =>
    obtain ⟨hy, hl⟩ := parkCheck_holds hc
    exact parkLease_queueLaw h hr (holds_not_queued (isYielding_holds hy)) hl

theorem fenceZone_queueLaw {z : ZoneId} {on : Bool → SlotId → State × CmdResult} {s : State}
    (h : s.QueueLaw) (hon : ∀ b k, (s.zone z).state.holder = some k → (on b k).1.QueueLaw) :
    (fenceZone z on s).1.QueueLaw := by
  unfold fenceZone
  split
  · exact h
  · exact grantScan_queueLaw (h.congr rfl rfl)
  · exact grantScan_queueLaw h
  · next k hs => exact hon false k (by rw [hs]; rfl)
  · next k hs => exact hon true k (by rw [hs]; rfl)

theorem evalFenceWait_queueLaw (a : Table 8 Byte) {s : State} (h : s.QueueLaw) :
    (evalFenceWait a s).1.QueueLaw := by
  unfold evalFenceWait
  split
  · refine fenceZone_queueLaw h fun b k hk => ?_
    split
    · exact grantScan_queueLaw h
    · exact grantScan_queueLaw (h.congr rfl rfl)
  · exact h

/-- The holder's record ends by FENCE FORCE; by R3 it is HELD or YIELDING. -/
theorem forceFence_queueLaw {s : State} {z : ZoneId} {k : SlotId} (h : s.QueueLaw)
    (hk : ∀ r, s.lease k = some r → r.phase.queued = false) : (s.forceFence z k).QueueLaw := by
  have hc : (s.closeFree z).QueueLaw := h.congr rfl rfl
  unfold State.forceFence
  split
  · next r hr =>
    have hc' : (s.closeFree z).lease k = some r := by simp [State.closeFree, hr]
    refine State.QueueLaw.idle (giveUpZones_queueLaw (r.zones.filter (· != z)) hc) (i := k) (by simp)
      (fun j hj => by simp [State.entry, hj]) (not_queued_entry fun q hq => ?_)
      (not_queued_entry fun q hq => ?_)
    · simp [hc'] at hq
      subst hq
      exact hk r hr
    · simp only [terminate_views, if_true] at hq
      split at hq
      · cases hq
        rfl
      · cases hq
  · exact hc

theorem evalFenceForce_queueLaw (a : Table 8 Byte) {s : State} (h : s.QueueLaw) (hh : s.HolderLaw) :
    (evalFenceForce a s).1.QueueLaw := by
  unfold evalFenceForce
  split
  · next z _ _ _ =>
    refine fenceZone_queueLaw h fun b k hk => grantScan_queueLaw (forceFence_queueLaw h fun r hr => ?_)
    obtain ⟨q, hq, hq₂, -⟩ := (hh z k).mp hk
    rw [hr] at hq
    cases hq
    exact holds_not_queued hq₂
  · exact h

theorem evalLift_queueLaw (a : Table 8 Byte) {s : State} (h : s.QueueLaw) :
    (evalLift a s).1.QueueLaw := by
  unfold evalLift
  repeat' split
  all_goals first | exact h | exact grantScan_queueLaw (h.congr rfl rfl)

theorem evalRevoke_queueLaw (a : Table 8 Byte) {s : State} (h : s.QueueLaw) :
    (evalRevoke a s).1.QueueLaw := by
  unfold evalRevoke
  split
  · next i r hm =>
    split
    · exact h
    · have hr := (matchHandle_lease hm).1
      show (s.revokeLease i r).QueueLaw
      unfold State.revokeLease
      split
      · next hh => exact grantScan_queueLaw (endHeld_queueLaw h hr (holds_not_queued hh) rfl)
      · exact grantScan_queueLaw (endQueued_queueLaw h rfl)
  · exact h

/-! ### Frames and restarts -/

theorem terminal_not_queued {p : Phase} (h : p.terminal = true) : p.queued = false := by
  cases p <;> simp_all [Phase.terminal, Phase.live, Phase.holds, Phase.queued]

theorem applyFrame_queueLaw (f : OutFrame) {s : State} (h : s.QueueLaw) : (s.applyFrame f).QueueLaw := by
  unfold State.applyFrame
  split
  · next p _ =>
    unfold State.applyReport
    split
    · next r hr =>
      split
      · split
        · next hc =>
          refine freeSlot_queueLaw h fun q hq => ?_
          rw [hr] at hq
          cases hq
          simp only [Bool.and_eq_true] at hc
          exact terminal_not_queued hc.1
        · exact setLease_queueLaw h hr rfl rfl rfl
      · exact h
    · exact h
  · exact h

/-- After every wait has ended no record waits (R37, R52). -/
theorem endWaits_none (s : State) : ∀ j p b, s.endWaits.entry j ≠ some (true, p, b) := by
  have hstep : ∀ (t : State) i, (∀ p b, (t.restartLapseAt i).entry i ≠ some (true, p, b)) ∧
      ∀ j, j ≠ i → (t.restartLapseAt i).entry j = t.entry j := by
    intro t i
    unfold State.restartLapseAt
    split
    · next r hr =>
      split
      · refine ⟨not_queued_entry fun q hq => ?_, fun j hj => by simp [State.entry, State.endQueued, hj]⟩
        simp only [State.endQueued, terminate_views, if_true] at hq
        split at hq
        · cases hq
          rfl
        · cases hq
      · next hq =>
        refine ⟨not_queued_entry fun q hq' => ?_, fun _ _ => rfl⟩
        rw [hr] at hq'
        cases hq'
        simpa using hq
    · next hn =>
      exact ⟨fun p b => by simp [State.entry, hn], fun _ _ => rfl⟩
  have hall : ∀ (xs : List SlotId) (t : State) (j : SlotId),
      (j ∈ xs ∨ ∀ p b, t.entry j ≠ some (true, p, b)) →
      ∀ p b, (xs.foldl State.restartLapseAt t).entry j ≠ some (true, p, b) := by
    intro xs
    induction xs with
    | nil =>
      intro t j hj
      simpa using hj
    | cons x xs ih =>
      intro t j hj
      rw [List.foldl_cons]
      refine ih _ j ?_
      by_cases hx : j = x
      · subst hx
        exact .inr (hstep t j).1
      · rcases hj with hj | hj
        · rcases List.mem_cons.mp hj with h | h
          · exact absurd h hx
          · exact .inl h
        · right
          rw [(hstep t x).2 j hx]
          exact hj
  intro j
  have h := hall (List.finRange 128) s j (.inl (List.mem_finRange j))
  have h₂ : ∀ t : State, (State.clearEarmarks { t with waiting := [] }).entry j = t.entry j := by
    intro t
    simp [State.entry, State.lease, State.slot]
  unfold State.endWaits
  intro p b
  rw [h₂]
  exact h p b

theorem endWaits_waiting (s : State) : s.endWaits.waiting = [] := by
  unfold State.endWaits
  generalize (List.finRange 128).foldl State.restartLapseAt s = t
  rfl

/-- A list that is empty while no record waits obeys its law. -/
theorem empty_queueLaw {s : State} (hw : s.waiting = []) (h : ∀ j p b, s.entry j ≠ some (true, p, b)) :
    s.QueueLaw := by
  refine ⟨⟨by simp [hw], by simp [hw], fun i => ?_⟩, by simp [State.OrderLaw, hw]⟩
  rw [hw, queued_iff_entry]
  simp only [List.not_mem_nil, false_iff]
  rintro ⟨p, b, hpb⟩
  exact h i p b hpb

theorem beginRestart_queueLaw (s : State) (b : Table 4 Nat) : (s.beginRestart b).QueueLaw :=
  empty_queueLaw (endWaits_waiting _) (endWaits_none _)

theorem endRestart_queueLaw {s : State} (h : s.QueueLaw) : s.endRestart.QueueLaw :=
  (grantScan_queueLaw h).congr (completeRestart_table _).2.2.1 (completeRestart_table _).2.1

end Sys2Proof.Machine
end

