-- ==== Sys2Proof/Laws/Zones.lean ====
section
/-! SUPPORT. R19 through each operation: every record lists one to four distinct zones, and a live record no
DISABLED one. -/

namespace Sys2Proof.Machine

/-- What R19 says of one record. -/
def State.recordOk (s : State) (r : Lease) : Prop :=
  1 ≤ r.zones.length ∧ r.zones.length ≤ 4 ∧ r.zones.Nodup ∧
    (r.phase.live = true → ∀ z ∈ r.zones, (s.zone z).state ≠ .disabled)

/-- No zone becomes DISABLED; every record is an old one with its zones, no more live than before, or obeys
the law itself. -/
theorem State.ZonesLaw.step {s t : State} (h : s.ZonesLaw)
    (hz : ∀ w, (t.zone w).state = .disabled → (s.zone w).state = .disabled)
    (hl : ∀ j q, t.lease j = some q →
      (∃ r, s.lease j = some r ∧ q.zones = r.zones ∧ (q.phase.live = true → r.phase.live = true)) ∨
        t.recordOk q) : t.ZonesLaw := by
  intro j q hq
  rcases hl j q hq with ⟨r, hr, h₁, h₂⟩ | h₁
  · obtain ⟨a, b, c, d⟩ := h j r hr
    refine ⟨h₁ ▸ a, h₁ ▸ b, h₁ ▸ c, fun hv z hz' hd => ?_⟩
    exact d (h₂ hv) z (h₁ ▸ hz') (hz z hd)
  · exact h₁

theorem State.ZonesLaw.congr {s t : State} (h : s.ZonesLaw) (hz : t.zones = s.zones)
    (hs : t.slots = s.slots) : t.ZonesLaw := by
  unfold State.ZonesLaw State.zone State.lease State.slot at *
  rw [hz, hs]
  exact h

/-- The zones keep their states and the records their zones; a record may end or be freed. -/
theorem State.ZonesLaw.fewer {s t : State} (h : s.ZonesLaw)
    (hz : ∀ w, (t.zone w).state = .disabled → (s.zone w).state = .disabled)
    (hl : ∀ j q, t.lease j = some q →
      ∃ r, s.lease j = some r ∧ q.zones = r.zones ∧ (q.phase.live = true → r.phase.live = true)) :
    t.ZonesLaw :=
  h.step hz fun j q hq => .inl (hl j q hq)

theorem givenUp_disabled (x : Zone) : x.givenUp.state = .disabled ↔ x.state = .disabled := by
  obtain ⟨st, c, e⟩ := x
  cases st <;> simp [Zone.givenUp]

theorem giveUpZones_zonesLaw {s : State} (zs : List ZoneId) (h : s.ZonesLaw) :
    (s.giveUpZones zs).ZonesLaw := by
  refine h.fewer (fun w hw => ?_) fun j q hq => ⟨q, by simpa using hq, rfl, id⟩
  simp only [giveUpZones_views] at hw
  split at hw
  · exact (givenUp_disabled _).mp hw
  · exact hw

theorem freeSlot_zonesLaw {s : State} (i : SlotId) (h : s.ZonesLaw) : (s.freeSlot i).ZonesLaw := by
  refine h.fewer (by simp) fun j q hq => ?_
  simp only [freeSlot_views] at hq
  split at hq
  · cases hq
  · exact ⟨q, hq, rfl, id⟩

theorem terminate_zonesLaw {s : State} {i : SlotId} {r : Lease} {p : Phase} (h : s.ZonesLaw)
    (hr : s.lease i = some r) (hp : p.live = false) : (s.terminate i r p).ZonesLaw := by
  refine h.fewer (by simp) fun j q hq => ?_
  simp only [terminate_views] at hq
  split at hq
  · next hj =>
    subst hj
    split at hq
    · cases hq
      exact ⟨r, hr, rfl, fun hv => by simp [hp] at hv⟩
    · cases hq
  · exact ⟨q, hq, rfl, id⟩

theorem leaveList_zonesLaw {s : State} (i : SlotId) (h : s.ZonesLaw) : (s.leaveList i).ZonesLaw :=
  h.congr rfl rfl

theorem endHeld_zonesLaw {s : State} {i : SlotId} {r : Lease} {p : Phase} (h : s.ZonesLaw)
    (hr : s.lease i = some r) (hp : p.live = false) : (s.endHeld i r p).ZonesLaw :=
  terminate_zonesLaw (giveUpZones_zonesLaw _ h) (by simpa using hr) hp

theorem endQueued_zonesLaw {s : State} {i : SlotId} {r : Lease} {p : Phase} (h : s.ZonesLaw)
    (hr : s.lease i = some r) (hp : p.live = false) : (s.endQueued i r p).ZonesLaw :=
  terminate_zonesLaw (leaveList_zonesLaw i h) (by simpa using hr) hp

/-- A record replaced by one that lists the same zones and is no more live. -/
theorem setLease_zonesLaw {s : State} {i : SlotId} {r q : Lease} (h : s.ZonesLaw) (hr : s.lease i = some r)
    (hz : q.zones = r.zones) (hv : q.phase.live = true → r.phase.live = true) :
    (s.setLease i q).ZonesLaw := by
  refine h.fewer (by simp) fun j p hp => ?_
  simp only [State.setLease_views] at hp
  split at hp
  · next hj =>
    subst hj
    cases hp
    exact ⟨r, hr, hz, hv⟩
  · exact ⟨p, hp, rfl, id⟩

theorem takeZones_zonesLaw {s : State} (i : SlotId) (zs : List ZoneId) (h : s.ZonesLaw) :
    (s.takeZones i zs).ZonesLaw := by
  refine h.fewer (fun w hw => ?_) fun j q hq => ⟨q, by simpa using hq, rfl, id⟩
  simp only [takeZones_views] at hw
  split at hw
  · cases hw
  · exact hw

/-! ### The grant scan -/

theorem grant_zonesLaw {s : State} {i : SlotId} {r : Lease} (h : s.ZonesLaw) (hr : s.lease i = some r)
    (hg : s.grantable r = true) : (s.grant i r).ZonesLaw := by
  refine takeZones_zonesLaw _ _ (h.step (by simp) fun j q hq => ?_)
  simp only [State.setLease_views, State.leaveList_views] at hq
  split at hq
  · next hj =>
    subst hj
    cases hq
    obtain ⟨a, b, c, -⟩ := h j r hr
    refine .inr ⟨a, b, c, fun _ z hz => ?_⟩
    simp only [State.setLease_views, State.leaveList_views]
    rw [(grantable_free hg z hz).1]
    exact fun hd => by cases hd
  · exact .inl ⟨q, hq, rfl, id⟩

theorem sameKind_zonesLaw {s t : State} (h : s.ZonesLaw) (hz : ∀ w, (t.zone w).state = (s.zone w).state)
    (hl : ∀ j, t.lease j = s.lease j ∨ ∃ r q, s.lease j = some r ∧ t.lease j = some q ∧ r.sameKind q) :
    t.ZonesLaw := by
  refine h.fewer (fun w hw => by rw [← hz]; exact hw) fun j q hq => ?_
  rcases hl j with h₁ | ⟨r, q', h₁, h₂, -, h₄, -, h₆, h₇, -⟩
  · exact ⟨q, h₁ ▸ hq, rfl, id⟩
  · rw [h₂] at hq
    cases hq
    exact ⟨r, h₁, h₄, fun hv => by simpa [Phase.live, h₆, h₇] using hv⟩

theorem setEarmark_zonesLaw {s : State} (z : ZoneId) (e : Option SlotId) (h : s.ZonesLaw) :
    (s.setEarmark z e).ZonesLaw := by
  refine sameKind_zonesLaw h (fun w => ?_) (by simp)
  simp only [State.setEarmark_views]
  split
  · next hw => rw [hw]
  · rfl

theorem askYield_zonesLaw {s : State} (k : SlotId) (p : Priority) (h : s.ZonesLaw) :
    (s.askYield k p).ZonesLaw := by
  obtain ⟨hz, -, -, -, hl⟩ := askYield_views s k p
  refine sameKind_zonesLaw h (fun w => by rw [hz]) fun j => ?_
  rcases hl j with h₁ | ⟨r, h₁, h₂⟩
  · exact .inl h₁
  · exact .inr ⟨r, _, h₁, h₂, startYield_sameKind r⟩

theorem earmarkZone_zonesLaw (b : Bool) (e : SlotId) (p : Priority) {s : State} (z : ZoneId)
    (h : s.ZonesLaw) : (s.earmarkZone b e p z).ZonesLaw := by
  unfold State.earmarkZone
  split
  · exact setEarmark_zonesLaw _ _ h
  · split
    · exact askYield_zonesLaw _ _ (setEarmark_zonesLaw _ _ h)
    · exact setEarmark_zonesLaw _ _ h
  · exact h

theorem walkEntry_zonesLaw (b : Bool) {s : State} (e : SlotId) (h : s.ZonesLaw) :
    (s.walkEntry b e).ZonesLaw := by
  unfold State.walkEntry
  split
  · next r hr =>
    split
    · next hg =>
      simp only [Bool.and_eq_true] at hg
      exact grant_zonesLaw h hr hg.2
    · exact foldl_keeps (fun s z hs => earmarkZone_zonesLaw b e _ z hs) _ h
  · exact h

theorem mapLeases_zonesLaw {s : State} {f : SlotId → Lease → Lease}
    (hf : ∀ i r, (f i r).zones = r.zones ∧ (f i r).phase.holds = r.phase.holds ∧
      (f i r).phase.queued = r.phase.queued) (h : s.ZonesLaw) : (s.mapLeases f).ZonesLaw := by
  refine h.fewer (by simp) fun j q hq => ?_
  simp only [State.mapLeases_views, Option.map_eq_some_iff] at hq
  obtain ⟨r, hr, rfl⟩ := hq
  exact ⟨r, hr, (hf j r).1, fun hv => by simpa [Phase.live, hf j r] using hv⟩

/-- The grant scan keeps R19. -/
theorem grantScan_zonesLaw {s : State} (h : s.ZonesLaw) : s.grantScan.ZonesLaw := by
  have hc : s.clearEarmarks.ZonesLaw := sameKind_zonesLaw h (by simp) (by simp)
  unfold State.grantScan
  split
  · refine mapLeases_zonesLaw ?_ (mapLeases_zonesLaw ?_
      (foldl_keeps (fun _ e hs => walkEntry_zonesLaw true e hs) _ hc))
    · intro i r
      split <;> simp
    · intro i r
      split <;> simp
  · exact foldl_keeps (fun _ e hs => walkEntry_zonesLaw false e hs) _ hc

/-! ### Ticks -/

theorem lapseAt_zonesLaw {s : State} (i : SlotId) (h : s.ZonesLaw) : (s.lapseAt i).ZonesLaw := by
  unfold State.lapseAt
  split
  · next r hr =>
    split
    · exact endQueued_zonesLaw h hr rfl
    · exact h
  · exact h

theorem expireAt_zonesLaw {s : State} (i : SlotId) (h : s.ZonesLaw) : (s.expireAt i).ZonesLaw := by
  unfold State.expireAt
  split
  · next r hr =>
    split
    · exact endHeld_zonesLaw h hr rfl
    · exact h
  · exact h

theorem revokeLateAt_zonesLaw {s : State} (i : SlotId) (h : s.ZonesLaw) : (s.revokeLateAt i).ZonesLaw := by
  unfold State.revokeLateAt
  split
  · next r hr =>
    split
    · exact State.ZonesLaw.congr (endHeld_zonesLaw (p := .revoked .yieldLate) h hr rfl) rfl rfl
    · exact h
  · exact h

theorem endIfDue_zonesLaw {s : State} (i : SlotId) (h : s.ZonesLaw) : (s.endIfDue i).ZonesLaw := by
  unfold State.endIfDue
  split
  · split
    · exact h
    · split
      · exact lapseAt_zonesLaw _ h
      · split
        · exact expireAt_zonesLaw _ h
        · exact revokeLateAt_zonesLaw _ h
  · exact h

/-- A tick keeps R19. -/
theorem takeTick_zonesLaw {s : State} (h : s.ZonesLaw) : s.takeTick.ZonesLaw := by
  have h₁ : s.decrementAll.warnAll.ZonesLaw :=
    mapLeases_zonesLaw (by simp) (mapLeases_zonesLaw (by simp) h)
  show (State.endAndScan _).ZonesLaw
  unfold State.endAndScan
  split
  · exact grantScan_zonesLaw (foldl_keeps (fun _ i hs => endIfDue_zonesLaw i hs) _ h₁)
  · exact h₁

/-! ### Requests -/

theorem releaseLease_zonesLaw {s : State} {i : SlotId} {r : Lease} (h : s.ZonesLaw) :
    (s.releaseLease i r).ZonesLaw := by
  unfold State.releaseLease
  split
  · exact grantScan_zonesLaw (freeSlot_zonesLaw _ (giveUpZones_zonesLaw _ h))
  · split
    · exact grantScan_zonesLaw (freeSlot_zonesLaw _ (leaveList_zonesLaw _ h))
    · exact freeSlot_zonesLaw _ h

theorem parkLease_zonesLaw {s : State} {i : SlotId} {r : Lease} (h : s.ZonesLaw)
    (hr : s.lease i = some r) (hh : r.phase.live = true) : (s.parkLease i r).ZonesLaw := by
  unfold State.parkLease
  have h₁ : ((s.giveUpZones r.zones).setLease i
      { r with phase := .parked r.limits.maxWait s.sequence }).ZonesLaw :=
    setLease_zonesLaw (r := r) (giveUpZones_zonesLaw _ h) (by simpa using hr) rfl fun _ => hh
  exact grantScan_zonesLaw (h₁.congr rfl rfl)

theorem zonesOf_length {bs : List Byte} {zs : List ZoneId} (h : zonesOf bs = some zs) :
    zs.length = bs.length := by
  induction bs generalizing zs with
  | nil =>
    cases h
    rfl
  | cons b bs ih =>
    unfold zonesOf at h
    split at h
    · next hz =>
      cases h
      simp [ih hz]
    · cases h

/-- The fields of an ACQUIRE of good length name one to four distinct zones (R39, R40). -/
theorem acquireFields_zones {f : List Byte} {q : AcquireReq} (hl : acquireLengthOk f = true)
    (h : acquireFields f = some q) : 1 ≤ q.zones.length ∧ q.zones.length ≤ 4 ∧ q.zones.Nodup := by
  unfold acquireFields at h
  dsimp only at h
  split at h
  · next p zs hp hz =>
    split at h
    · next hc =>
      cases h
      have hlen := zonesOf_length hz
      unfold acquireLengthOk at hl
      simp only [Bool.and_eq_true, decide_eq_true_eq, beq_iff_eq] at hl
      simp only [List.length_take, List.length_drop] at hlen
      refine ⟨?_, ?_, hc.2.2⟩ <;> dsimp only <;> omega
    · cases h
  · cases h

theorem acquireCheck_enabled {s : State} {l : Link} {q : AcquireReq} (h : acquireCheck s l q = none) :
    (∀ z ∈ q.zones, (s.zone z).state ≠ .disabled) ∧ s.running = true := by
  unfold acquireCheck at h
  split at h
  · cases h
  · next hd =>
    split at h
    · cases h
    · split at h
      · cases h
      · split at h
        · cases h
        · next hr =>
          refine ⟨fun z hz hs => hd ?_, by simpa using hr⟩
          rw [List.any_eq_true]
          exact ⟨z, hz, by simp [hs]⟩

/-- A record allocated with zones that R19 allows. -/
theorem allocate_zonesLaw {s : State} {i : SlotId} {r : Lease} (h : s.ZonesLaw) (hr : s.recordOk r) :
    (s.allocate i r).ZonesLaw := by
  refine h.step (by simp) fun j q hq => ?_
  simp only [allocate_views] at hq
  split at hq
  · cases hq
    refine .inr ?_
    simpa [State.recordOk] using hr
  · exact .inl ⟨q, hq, rfl, id⟩

theorem evalAcquire_zonesLaw (l : Link) (f : List Byte) {s : State} (h : s.ZonesLaw) :
    (evalAcquire l f s).1.ZonesLaw := by
  unfold evalAcquire
  split
  · exact h
  · next hlen =>
    split
    · exact h
    · next q hq =>
      obtain ⟨ha, hb, hc⟩ := acquireFields_zones (by simpa using hlen) hq
      split
      · exact h
      · next hck =>
        have hd := (acquireCheck_enabled hck).1
        split
        · exact h.congr rfl rfl
        · dsimp only
          split
          · unfold acquireGrant
            exact grantScan_zonesLaw (takeZones_zonesLaw _ _ (allocate_zonesLaw h ⟨ha, hb, hc, fun _ => hd⟩))
          · split
            · exact h
            · split
              · exact h.congr rfl rfl
              · unfold acquireWait
                exact grantScan_zonesLaw (State.ZonesLaw.congr
                  (allocate_zonesLaw h ⟨ha, hb, hc, fun _ => hd⟩) rfl rfl)

theorem evalRenew_zonesLaw (l : Link) (f : List Byte) {s : State} (h : s.ZonesLaw) :
    (evalRenew l f s).1.ZonesLaw := by
  refine withHandle_keeps h fun i r hr _ => ?_
  dsimp only
  split
  · exact h
  · next hc =>
    unfold renewCheck at hc
    refine setLease_zonesLaw h hr rfl fun _ => ?_
    cases hp : r.phase <;> simp_all [Phase.terminal, Phase.live, Phase.holds, Phase.queued]

theorem evalRelease_zonesLaw (l : Link) (f : List Byte) {s : State} (h : s.ZonesLaw) :
    (evalRelease l f s).1.ZonesLaw :=
  withHandle_keeps h fun _ _ _ _ => releaseLease_zonesLaw h

/-- What the checks of a WIDEN on the zone leave: it is not listed, there is room for it, and it is FREE. -/
theorem widenZoneCheck_none {s : State} {r : Lease} {z : ZoneId} (h : widenZoneCheck s r z = none) :
    z ∉ r.zones ∧ r.zones.length < 4 ∧ (s.zone z).state = .free ∧ (s.zone z).earmark = none ∧
      s.running = true ∧ r.renewals ≤ (s.limitsOf (r.zones ++ [z])).renewalLimit := by
  unfold widenZoneCheck at h
  split at h
  · cases h
  · next hm =>
    split at h
    · cases h
    · next hl =>
      split at h
      case h_5 hs =>
        split at h
        · cases h
        · next he =>
          split at h
          · cases h
          · next hr =>
            split at h
            · cases h
            · next hn =>
              refine ⟨by simpa using hm, by omega, hs, ?_, by simpa using hr, by omega⟩
              cases hee : (s.zone z).earmark with
              | none => rfl
              | some e => simp [hee] at he
      all_goals cases h

theorem evalWiden_zonesLaw (l : Link) (f : List Byte) {s : State} (h : s.ZonesLaw) :
    (evalWiden l f s).1.ZonesLaw := by
  refine withHandle_keeps h fun i r hr _ => ?_
  dsimp only
  split
  · exact h
  · next hc =>
    split
    · exact h
    · next z _ =>
      split
      · exact h
      · next hw =>
        obtain ⟨h₁, h₂, h₃, -, -, -⟩ := widenZoneCheck_none hw
        obtain ⟨a, b, c, d⟩ := h i r hr
        have hv : r.phase.live = true := by
          unfold widenRecordCheck at hc
          cases hp : r.phase <;> simp_all [Phase.terminal, Phase.live, Phase.holds, Phase.queued]
        refine takeZones_zonesLaw _ _ (h.step (by simp) fun j q hq => ?_)
        simp only [State.setLease_views] at hq
        split at hq
        · cases hq
          refine .inr ⟨?_, ?_, ?_, fun _ w hw' => ?_⟩
          · simp [State.widened]
          · simp [State.widened]
            omega
          · simp only [State.widened]
            rw [List.nodup_append]
            refine ⟨c, by simp, fun x hx y hy => ?_⟩
            rw [List.mem_singleton] at hy
            subst hy
            exact fun hxy => h₁ (hxy ▸ hx)
          · simp only [State.setLease_views]
            simp only [State.widened, List.mem_append, List.mem_singleton] at hw'
            rcases hw' with hw' | rfl
            · exact d hv w hw'
            · rw [h₃]
              exact fun hd => by cases hd
        · exact .inl ⟨q, hq, rfl, id⟩

theorem giveUpZone_zonesLaw {s : State} (z : ZoneId) (h : s.ZonesLaw) : (s.giveUpZone z).ZonesLaw :=
  giveUpZones_zonesLaw [z] h

theorem evalNarrow_zonesLaw (l : Link) (f : List Byte) {s : State} (h : s.ZonesLaw) :
    (evalNarrow l f s).1.ZonesLaw := by
  refine withHandle_keeps h fun i r hr _ => ?_
  dsimp only
  split
  · exact h
  · next hc =>
    split
    · exact h
    · next z _ =>
      split
      · exact h
      · next hm =>
        split
        · exact h
        · next h₁ =>
          obtain ⟨a, b, c, d⟩ := h i r hr
          have hz : z ∈ r.zones := by simpa using hm
          have hf : r.zones.filter (· != z) = r.zones.erase z := by
            rw [List.Nodup.erase_eq_filter c]
          refine grantScan_zonesLaw (giveUpZone_zonesLaw _ (h.step (by simp) fun j q hq => ?_))
          simp only [State.setLease_views] at hq
          split at hq
          · cases hq
            refine .inr ⟨?_, ?_, ?_, fun hv w hw => ?_⟩
            · simp only [State.narrowed, hf, List.length_erase_of_mem hz]
              omega
            · simp only [State.narrowed, hf, List.length_erase_of_mem hz]
              omega
            · exact c.filter _
            · simp only [State.setLease_views]
              exact d hv w (List.mem_filter.mp hw).1
          · exact .inl ⟨q, hq, rfl, id⟩

theorem evalPark_zonesLaw (l : Link) (f : List Byte) {s : State} (h : s.ZonesLaw) :
    (evalPark l f s).1.ZonesLaw := by
  refine withHandle_keeps h fun i r hr _ => ?_
  dsimp only
  split
  · exact h.congr rfl rfl
  · exact h
  · next hc =>
    refine parkLease_zonesLaw h hr ?_
    have := isYielding_holds (parkCheck_holds hc).1
    simp [Phase.live, this]

/-! ### The host's commands -/

theorem evalSetZone_zonesLaw (a : Table 8 Byte) {s : State} (h : s.ZonesLaw) :
    (evalSetZone a s).1.ZonesLaw := by
  unfold evalSetZone
  split
  · next z e c _ _ _ =>
    split
    · exact h
    · next hu =>
      intro i r hr
      have hr' : s.lease i = some r := by simpa using hr
      obtain ⟨a, b, c, d⟩ := h i r hr'
      refine ⟨a, b, c, fun hv w hw => ?_⟩
      have hne : w ≠ z := by
        rintro rfl
        apply hu
        unfold State.zoneInUse
        rw [Bool.or_eq_true]
        right
        unfold State.anyLease
        rw [Table.any_list]
        refine ⟨i, ?_⟩
        have : (s.slots.get i).lease = some r := hr'
        simp [this, hv, hw]
      simp only [State.setZone_views, if_neg hne]
      exact d hv w hw
  · exact h

theorem setZoneState_zonesLaw {s : State} {z : ZoneId} {x : ZoneState} (h : s.ZonesLaw)
    (hx : x ≠ .disabled) : (s.setZoneState z x).ZonesLaw := by
  refine h.fewer (fun w hw => ?_) fun j q hq => ⟨q, by simpa using hq, rfl, id⟩
  simp only [State.setZoneState_views] at hw
  split at hw
  · exact absurd hw hx
  · exact hw

theorem closeFree_zonesLaw {s : State} (z : ZoneId) (h : s.ZonesLaw) : (s.closeFree z).ZonesLaw :=
  State.ZonesLaw.congr (setZoneState_zonesLaw (z := z) (x := .fenced) h (by simp)) rfl rfl

theorem fenceZone_zonesLaw {z : ZoneId} {on : Bool → SlotId → State × CmdResult} {s : State}
    (h : s.ZonesLaw) (hon : ∀ b k, (on b k).1.ZonesLaw) : (fenceZone z on s).1.ZonesLaw := by
  unfold fenceZone
  split
  · exact h
  · exact grantScan_zonesLaw (closeFree_zonesLaw z h)
  · exact grantScan_zonesLaw h
  · exact hon _ _
  · exact hon _ _

theorem evalFenceWait_zonesLaw (a : Table 8 Byte) {s : State} (h : s.ZonesLaw) :
    (evalFenceWait a s).1.ZonesLaw := by
  unfold evalFenceWait
  split
  · refine fenceZone_zonesLaw h fun b k => ?_
    split
    · exact grantScan_zonesLaw h
    · exact grantScan_zonesLaw (setZoneState_zonesLaw h (by simp))
  · exact h

theorem forceFence_zonesLaw {s : State} (z : ZoneId) (k : SlotId) (h : s.ZonesLaw) :
    (s.forceFence z k).ZonesLaw := by
  unfold State.forceFence
  split
  · next r hr =>
    exact terminate_zonesLaw (giveUpZones_zonesLaw _ (closeFree_zonesLaw z h))
      (by simp [State.closeFree, hr]) rfl
  · exact closeFree_zonesLaw z h

theorem evalFenceForce_zonesLaw (a : Table 8 Byte) {s : State} (h : s.ZonesLaw) :
    (evalFenceForce a s).1.ZonesLaw := by
  unfold evalFenceForce
  split
  · exact fenceZone_zonesLaw h fun b k => grantScan_zonesLaw (forceFence_zonesLaw _ k h)
  · exact h

theorem evalLift_zonesLaw (a : Table 8 Byte) {s : State} (h : s.ZonesLaw) :
    (evalLift a s).1.ZonesLaw := by
  unfold evalLift
  split
  · split
    · exact grantScan_zonesLaw (setZoneState_zonesLaw h (by simp))
    · exact grantScan_zonesLaw (setZoneState_zonesLaw h (by simp))
    · exact h
  · exact h

theorem evalRevoke_zonesLaw (a : Table 8 Byte) {s : State} (h : s.ZonesLaw) :
    (evalRevoke a s).1.ZonesLaw := by
  unfold evalRevoke
  split
  · next i r hm =>
    split
    · exact h
    · have hr := (matchHandle_lease hm).1
      show (s.revokeLease i r).ZonesLaw
      unfold State.revokeLease
      split
      · exact grantScan_zonesLaw (endHeld_zonesLaw h hr rfl)
      · exact grantScan_zonesLaw (endQueued_zonesLaw h hr rfl)
  · exact h

/-! ### Links and restarts -/

theorem freeWhere_zonesLaw {s : State} (p : Lease → Bool) (h : s.ZonesLaw) : (s.freeWhere p).ZonesLaw := by
  refine foldl_keeps (fun t i ht => ?_) _ h
  unfold State.freeAt
  split
  · split
    · split
      · exact freeSlot_zonesLaw _ (leaveList_zonesLaw _ ht)
      · exact freeSlot_zonesLaw _ ht
    · exact ht
  · exact ht

theorem forgetReported_zonesLaw {s : State} (l : Link) (h : s.ZonesLaw) : (s.forgetReported l).ZonesLaw :=
  mapLeases_zonesLaw (fun i r => by split <;> simp) h

theorem clientRestart_zonesLaw {s : State} (l : Link) (h : s.ZonesLaw) : (s.clientRestart l).ZonesLaw :=
  grantScan_zonesLaw (forgetReported_zonesLaw l (freeWhere_zonesLaw _ h))

theorem disableLink_zonesLaw {s : State} (l : Link) (n : Nat) (h : s.ZonesLaw) :
    (s.disableLink l n).ZonesLaw :=
  grantScan_zonesLaw (forgetReported_zonesLaw l (freeWhere_zonesLaw _ (h.congr rfl rfl)))

theorem applyFrame_zonesLaw (f : OutFrame) {s : State} (h : s.ZonesLaw) : (s.applyFrame f).ZonesLaw := by
  unfold State.applyFrame
  split
  · unfold State.applyReport
    split
    · next r hr =>
      split
      · split
        · exact freeSlot_zonesLaw _ h
        · exact setLease_zonesLaw h hr rfl id
      · exact h
    · exact h
  · exact h

theorem endWaits_zonesLaw {s : State} (h : s.ZonesLaw) : s.endWaits.ZonesLaw := by
  have h₁ : ((List.finRange 128).foldl State.restartLapseAt s).ZonesLaw := by
    refine foldl_keeps (fun t i ht => ?_) _ h
    unfold State.restartLapseAt
    split
    · next r hr =>
      split
      · exact endQueued_zonesLaw ht hr rfl
      · exact ht
    · exact ht
  have h₂ : ∀ t : State, t.ZonesLaw → (State.clearEarmarks { t with waiting := [] }).ZonesLaw := by
    intro t ht
    have h₃ : State.ZonesLaw { t with waiting := [] } := ht.congr rfl rfl
    exact sameKind_zonesLaw h₃ (by simp) (by simp)
  exact h₂ _ h₁

theorem beginRestart_zonesLaw {s : State} (b : Table 4 Nat) (h : s.ZonesLaw) : (s.beginRestart b).ZonesLaw :=
  endWaits_zonesLaw (h.congr (abortCommand_table _).1 (abortCommand_table _).2.1)

theorem endRestart_zonesLaw {s : State} (h : s.ZonesLaw) : s.endRestart.ZonesLaw :=
  (grantScan_zonesLaw h).congr (completeRestart_table _).1 (completeRestart_table _).2.1

/-- A request keeps the law when its evaluation does. -/
theorem takeRequest_zonesLaw {l : Link} {k : Byte → Bool} {ev : List Byte → State → State × OutFrame}
    (hev : ∀ f t, State.ZonesLaw t → State.ZonesLaw (ev f t).1) {s : State} (h : s.ZonesLaw) :
    (takeRequest l k ev s).ZonesLaw := by
  unfold takeRequest
  split
  · next f _ =>
    split
    · exact State.ZonesLaw.congr (hev f (s.takeSlot l) (h.congr rfl rfl)) rfl rfl
    · exact h
  · exact h

theorem takeCommand_zonesLaw {c : Byte} {g : Table 8 Byte → Bool}
    {ev : Table 8 Byte → State → State × CmdResult}
    (hev : ∀ a t, State.ZonesLaw t → State.ZonesLaw (ev a t).1) {s : State} (h : s.ZonesLaw) :
    (takeCommand c g ev s).ZonesLaw := by
  unfold takeCommand
  split
  · next a _ =>
    split
    · exact State.ZonesLaw.congr (hev a { s with arbiter := mailboxSource } (h.congr rfl rfl)) rfl rfl
    · exact h
  · exact h

theorem takeDirect_zonesLaw {c : Byte} {ev : Table 8 Byte → State → State × CmdResult}
    (hev : ∀ a t, State.ZonesLaw t → State.ZonesLaw (ev a t).1) {s : State} (h : s.ZonesLaw) :
    (takeDirect c ev s).ZonesLaw := by
  unfold takeDirect
  split
  · next a _ =>
    split
    · exact State.ZonesLaw.congr (hev a s h) rfl rfl
    · exact h
  · exact h

end Sys2Proof.Machine
end

