-- ==== Sys2Proof/Laws/Terminal.lean ====
section
/-! SUPPORT. R25 through each operation: a record in a terminal state belongs to an enabled link. -/

namespace Sys2Proof.Machine

/-- No link is disabled; a terminal record is an old one, or its link is enabled. -/
theorem State.TerminalLaw.step {s t : State} (h : s.TerminalLaw)
    (hl : ∀ l, (s.link l).line.enabled = true → (t.link l).line.enabled = true)
    (hr : ∀ j q, t.lease j = some q → q.phase.terminal = true →
      (∃ r, s.lease j = some r ∧ r.phase.terminal = true ∧ q.owner = r.owner) ∨
        (t.link q.owner).line.enabled = true) : t.TerminalLaw := by
  intro j q hq ht
  rcases hr j q hq ht with ⟨r, h₁, h₂, h₃⟩ | h₁
  · rw [h₃]
    exact hl _ (h j r h₁ h₂)
  · exact h₁

theorem State.TerminalLaw.congr {s t : State} (h : s.TerminalLaw)
    (hl : ∀ l, (t.link l).line.enabled = (s.link l).line.enabled) (hs : t.slots = s.slots) :
    t.TerminalLaw := by
  unfold State.TerminalLaw State.lease State.slot at *
  rw [hs]
  intro i r hr ht
  rw [hl]
  exact h i r hr ht

/-- Links and terminal records stay, or records are freed or stop being terminal. -/
theorem State.TerminalLaw.fewer {s t : State} (h : s.TerminalLaw)
    (hl : ∀ l, (t.link l).line.enabled = (s.link l).line.enabled)
    (hr : ∀ j q, t.lease j = some q → q.phase.terminal = true →
      ∃ r, s.lease j = some r ∧ r.phase.terminal = true ∧ q.owner = r.owner) : t.TerminalLaw :=
  h.step (fun l he => by rw [hl]; exact he) fun j q hq ht => .inl (hr j q hq ht)

theorem giveUpZones_terminalLaw {s : State} (zs : List ZoneId) (h : s.TerminalLaw) :
    (s.giveUpZones zs).TerminalLaw :=
  h.congr (by simp) (giveUpZones_slots s zs).1

theorem takeZones_terminalLaw {s : State} (i : SlotId) (zs : List ZoneId) (h : s.TerminalLaw) :
    (s.takeZones i zs).TerminalLaw :=
  h.congr (by simp) (takeZones_slots s i zs).1

theorem freeSlot_terminalLaw {s : State} (i : SlotId) (h : s.TerminalLaw) : (s.freeSlot i).TerminalLaw := by
  refine h.fewer (by simp) fun j q hq ht => ?_
  simp only [freeSlot_views] at hq
  split at hq
  · cases hq
  · exact ⟨q, hq, ht, rfl⟩

/-- A record ends only where its link is enabled (R25). -/
theorem terminate_terminalLaw {s : State} (i : SlotId) (r : Lease) (p : Phase) (h : s.TerminalLaw) :
    (s.terminate i r p).TerminalLaw := by
  refine h.step (by simp) fun j q hq ht => ?_
  simp only [terminate_views] at hq ⊢
  split at hq
  · split at hq
    · next he =>
      cases hq
      exact .inr he
    · cases hq
  · exact .inl ⟨q, hq, ht, rfl⟩

theorem leaveList_terminalLaw {s : State} (i : SlotId) (h : s.TerminalLaw) : (s.leaveList i).TerminalLaw :=
  h.congr (by simp) rfl

theorem endHeld_terminalLaw {s : State} (i : SlotId) (r : Lease) (p : Phase) (h : s.TerminalLaw) :
    (s.endHeld i r p).TerminalLaw :=
  terminate_terminalLaw _ _ _ (giveUpZones_terminalLaw _ h)

theorem endQueued_terminalLaw {s : State} (i : SlotId) (r : Lease) (p : Phase) (h : s.TerminalLaw) :
    (s.endQueued i r p).TerminalLaw :=
  terminate_terminalLaw _ _ _ (leaveList_terminalLaw _ h)

/-- A record replaced by a live one, or by one as terminal as before. -/
theorem setLease_terminalLaw {s : State} {i : SlotId} {q : Lease} (h : s.TerminalLaw)
    (hq : q.phase.terminal = true →
      ∃ r, s.lease i = some r ∧ r.phase.terminal = true ∧ q.owner = r.owner) :
    (s.setLease i q).TerminalLaw := by
  refine h.fewer (by simp) fun j p hp ht => ?_
  simp only [State.setLease_views] at hp
  split at hp
  · next hj =>
    subst hj
    cases hp
    exact hq ht
  · exact ⟨p, hp, ht, rfl⟩

theorem mapLeases_terminalLaw {s : State} {f : SlotId → Lease → Lease}
    (hf : ∀ i r, (f i r).owner = r.owner ∧ (f i r).phase.holds = r.phase.holds ∧
      (f i r).phase.queued = r.phase.queued) (h : s.TerminalLaw) : (s.mapLeases f).TerminalLaw := by
  refine h.fewer (by simp) fun j q hq ht => ?_
  simp only [State.mapLeases_views, Option.map_eq_some_iff] at hq
  obtain ⟨r, hr, rfl⟩ := hq
  exact ⟨r, hr, by simpa [Phase.terminal, Phase.live, hf j r] using ht, (hf j r).1⟩

theorem startYield_terminal (r : Lease) : r.startYield.phase.terminal = r.phase.terminal := by
  simp [Phase.terminal, Phase.live]

theorem askYield_terminalLaw {s : State} (k : SlotId) (p : Priority) (h : s.TerminalLaw) :
    (s.askYield k p).TerminalLaw := by
  unfold State.askYield
  split
  · next r hr =>
    split
    · exact setLease_terminalLaw h fun ht => ⟨r, hr, startYield_terminal r ▸ ht, by simp⟩
    · exact h
  · exact h

theorem earmarkZone_terminalLaw (b : Bool) (e : SlotId) (p : Priority) {s : State} (z : ZoneId)
    (h : s.TerminalLaw) : (s.earmarkZone b e p z).TerminalLaw := by
  have he : (s.setEarmark z (some e)).TerminalLaw := h.congr (by simp) rfl
  unfold State.earmarkZone
  split
  · exact he
  · split
    · exact askYield_terminalLaw _ _ he
    · exact he
  · exact h

theorem walkEntry_terminalLaw (b : Bool) {s : State} (e : SlotId) (h : s.TerminalLaw) :
    (s.walkEntry b e).TerminalLaw := by
  unfold State.walkEntry
  split
  · split
    · exact takeZones_terminalLaw _ _ (setLease_terminalLaw (leaveList_terminalLaw _ h)
        fun ht => by simp [Lease.granted, Phase.terminal, Phase.live, Phase.holds] at ht)
    · exact foldl_keeps (fun s z hs => earmarkZone_terminalLaw b e _ z hs) _ h
  · exact h

/-- The grant scan keeps R25. -/
theorem grantScan_terminalLaw {s : State} (h : s.TerminalLaw) : s.grantScan.TerminalLaw := by
  have hc : s.clearEarmarks.TerminalLaw := h.congr (by simp) rfl
  unfold State.grantScan
  split
  · refine mapLeases_terminalLaw ?_ (mapLeases_terminalLaw ?_
      (foldl_keeps (fun _ e hs => walkEntry_terminalLaw true e hs) _ hc))
    · intro i r
      split <;> simp
    · intro i r
      split <;> simp
  · exact foldl_keeps (fun _ e hs => walkEntry_terminalLaw false e hs) _ hc

theorem lapseAt_terminalLaw {s : State} (i : SlotId) (h : s.TerminalLaw) : (s.lapseAt i).TerminalLaw := by
  unfold State.lapseAt
  repeat' split
  all_goals first | exact h | exact endQueued_terminalLaw _ _ _ h

theorem expireAt_terminalLaw {s : State} (i : SlotId) (h : s.TerminalLaw) : (s.expireAt i).TerminalLaw := by
  unfold State.expireAt
  repeat' split
  all_goals first | exact h | exact endHeld_terminalLaw _ _ _ h

theorem revokeLateAt_terminalLaw {s : State} (i : SlotId) (h : s.TerminalLaw) :
    (s.revokeLateAt i).TerminalLaw := by
  unfold State.revokeLateAt
  split
  · next r _ =>
    split
    · exact State.TerminalLaw.congr (endHeld_terminalLaw i r (.revoked .yieldLate) h) (by simp) rfl
    · exact h
  · exact h

theorem endIfDue_terminalLaw {s : State} (i : SlotId) (h : s.TerminalLaw) :
    (s.endIfDue i).TerminalLaw := by
  unfold State.endIfDue
  repeat' split
  all_goals first
    | exact h
    | exact lapseAt_terminalLaw _ h
    | exact expireAt_terminalLaw _ h
    | exact revokeLateAt_terminalLaw _ h

/-- A tick keeps R25. -/
theorem takeTick_terminalLaw {s : State} (h : s.TerminalLaw) : s.takeTick.TerminalLaw := by
  have h₁ : s.decrementAll.warnAll.TerminalLaw :=
    mapLeases_terminalLaw (by simp) (mapLeases_terminalLaw (by simp) h)
  show (State.endAndScan _).TerminalLaw
  unfold State.endAndScan
  split
  · exact grantScan_terminalLaw (foldl_keeps (fun _ i hs => endIfDue_terminalLaw i hs) _ h₁)
  · exact h₁

/-! ### Requests and commands -/

theorem allocate_terminalLaw {s : State} {i : SlotId} {r : Lease} (h : s.TerminalLaw)
    (hr : r.phase.terminal = false) : (s.allocate i r).TerminalLaw := by
  refine h.fewer (by simp) fun j q hq ht => ?_
  simp only [allocate_views] at hq
  split at hq
  · cases hq
    simp [hr] at ht
  · exact ⟨q, hq, ht, rfl⟩

theorem evalAcquire_terminalLaw (l : Link) (f : List Byte) {s : State} (h : s.TerminalLaw) :
    (evalAcquire l f s).1.TerminalLaw := by
  unfold evalAcquire
  split
  · exact h
  · split
    · exact h
    · split
      · exact h
      · split
        · exact h.congr (by simp) rfl
        · dsimp only
          split
          · exact grantScan_terminalLaw (takeZones_terminalLaw _ _ (allocate_terminalLaw h rfl))
          · split
            · exact h
            · split
              · exact h.congr (by simp) rfl
              · exact grantScan_terminalLaw (State.TerminalLaw.congr
                  (allocate_terminalLaw h rfl) (by simp) rfl)

theorem evalRenew_terminalLaw (l : Link) (f : List Byte) {s : State} (h : s.TerminalLaw) :
    (evalRenew l f s).1.TerminalLaw := by
  refine withHandle_keeps h fun i r hr _ => ?_
  dsimp only
  split
  · exact h
  · exact setLease_terminalLaw h fun ht => by
      simp [Lease.renewed, Phase.terminal, Phase.live, Phase.holds] at ht

theorem evalRelease_terminalLaw (l : Link) (f : List Byte) {s : State} (h : s.TerminalLaw) :
    (evalRelease l f s).1.TerminalLaw := by
  refine withHandle_keeps h fun i r hr _ => ?_
  show (s.releaseLease i r).TerminalLaw
  unfold State.releaseLease
  split
  · exact grantScan_terminalLaw (freeSlot_terminalLaw _ (giveUpZones_terminalLaw _ h))
  · split
    · exact grantScan_terminalLaw (freeSlot_terminalLaw _ (leaveList_terminalLaw _ h))
    · exact freeSlot_terminalLaw _ h

theorem evalWiden_terminalLaw (l : Link) (f : List Byte) {s : State} (h : s.TerminalLaw) :
    (evalWiden l f s).1.TerminalLaw := by
  refine withHandle_keeps h fun i r hr _ => ?_
  dsimp only
  repeat' split
  all_goals first
    | exact h
    | refine takeZones_terminalLaw _ _ (setLease_terminalLaw h fun ht => ⟨r, hr, ?_, rfl⟩)
      simpa [State.widened, Phase.terminal, Phase.live, clampLease_keeps] using ht

theorem giveUpZone_terminalLaw {s : State} (z : ZoneId) (h : s.TerminalLaw) :
    (s.giveUpZone z).TerminalLaw := giveUpZones_terminalLaw [z] h

theorem evalNarrow_terminalLaw (l : Link) (f : List Byte) {s : State} (h : s.TerminalLaw) :
    (evalNarrow l f s).1.TerminalLaw := by
  refine withHandle_keeps h fun i r hr _ => ?_
  dsimp only
  repeat' split
  all_goals first
    | exact h
    | exact grantScan_terminalLaw (giveUpZone_terminalLaw _
        (setLease_terminalLaw h fun ht => ⟨r, hr, ht, rfl⟩))

theorem evalPark_terminalLaw (l : Link) (f : List Byte) {s : State} (h : s.TerminalLaw) :
    (evalPark l f s).1.TerminalLaw := by
  refine withHandle_keeps h fun i r hr _ => ?_
  dsimp only
  split
  · exact h.congr (by simp) rfl
  · exact h
  · show (s.parkLease i r).TerminalLaw
    unfold State.parkLease
    exact grantScan_terminalLaw (State.TerminalLaw.congr
      (setLease_terminalLaw (i := i) (q := { r with phase := .parked r.limits.maxWait s.sequence })
        (giveUpZones_terminalLaw r.zones h)
        fun ht => by simp [Phase.terminal, Phase.live, Phase.queued] at ht) (by simp) rfl)

theorem fenceZone_terminalLaw {z : ZoneId} {on : Bool → SlotId → State × CmdResult} {s : State}
    (h : s.TerminalLaw) (hon : ∀ b k, (on b k).1.TerminalLaw) : (fenceZone z on s).1.TerminalLaw := by
  unfold fenceZone
  split
  · exact h
  · exact grantScan_terminalLaw (h.congr (by simp [State.closeFree]) rfl)
  · exact grantScan_terminalLaw h
  · exact hon _ _
  · exact hon _ _

theorem evalFenceWait_terminalLaw (a : Table 8 Byte) {s : State} (h : s.TerminalLaw) :
    (evalFenceWait a s).1.TerminalLaw := by
  unfold evalFenceWait
  split
  · refine fenceZone_terminalLaw h fun b k => ?_
    split
    · exact grantScan_terminalLaw h
    · exact grantScan_terminalLaw (h.congr (by simp) rfl)
  · exact h

theorem evalFenceForce_terminalLaw (a : Table 8 Byte) {s : State} (h : s.TerminalLaw) :
    (evalFenceForce a s).1.TerminalLaw := by
  unfold evalFenceForce
  split
  · next z _ _ _ =>
    refine fenceZone_terminalLaw h fun b k => grantScan_terminalLaw ?_
    have hc : (s.closeFree z).TerminalLaw := h.congr (by simp [State.closeFree]) rfl
    unfold State.forceFence
    split
    · exact terminate_terminalLaw _ _ _ (giveUpZones_terminalLaw _ hc)
    · exact hc
  · exact h

theorem evalLift_terminalLaw (a : Table 8 Byte) {s : State} (h : s.TerminalLaw) :
    (evalLift a s).1.TerminalLaw := by
  unfold evalLift
  repeat' split
  all_goals first | exact h | exact grantScan_terminalLaw (h.congr (by simp) rfl)

theorem evalRevoke_terminalLaw (a : Table 8 Byte) {s : State} (h : s.TerminalLaw) :
    (evalRevoke a s).1.TerminalLaw := by
  unfold evalRevoke
  split
  · split
    · exact h
    · show (State.revokeLease _ _ _).TerminalLaw
      unfold State.revokeLease
      split
      · exact grantScan_terminalLaw (endHeld_terminalLaw _ _ _ h)
      · exact grantScan_terminalLaw (endQueued_terminalLaw _ _ _ h)
  · exact h

/-! ### Links -/

theorem freeWhere_terminalLaw {s : State} (p : Lease → Bool) (h : s.TerminalLaw) :
    (s.freeWhere p).TerminalLaw := by
  refine foldl_keeps (fun t i ht => ?_) _ h
  unfold State.freeAt
  split
  · split
    · split
      · exact freeSlot_terminalLaw _ (leaveList_terminalLaw _ ht)
      · exact freeSlot_terminalLaw _ ht
    · exact ht
  · exact ht

theorem forgetReported_terminalLaw {s : State} (l : Link) (h : s.TerminalLaw) :
    (s.forgetReported l).TerminalLaw :=
  mapLeases_terminalLaw (fun i r => by split <;> simp) h

theorem clientRestart_terminalLaw {s : State} (l : Link) (h : s.TerminalLaw) :
    (s.clientRestart l).TerminalLaw :=
  grantScan_terminalLaw (forgetReported_terminalLaw l (freeWhere_terminalLaw _ h))

/-- What is left after records are freed: those records that were there and do not satisfy the test. -/
theorem freeAt_lease (p : Lease → Bool) (s : State) (i k : SlotId) :
    (s.freeAt p i).lease k =
      if k = i then (s.lease k).filter (fun r => !p r) else s.lease k := by
  unfold State.freeAt
  by_cases hk : k = i
  · subst hk
    cases hl : s.lease k with
    | none => simp [hl]
    | some r =>
      by_cases hp : p r
      · by_cases hq : r.phase.queued <;> simp [hp, hq, Option.filter]
      · simp [hp, hl, Option.filter]
  · cases hl : s.lease i with
    | none => simp [hk]
    | some r =>
      by_cases hp : p r
      · by_cases hq : r.phase.queued <;> simp [hp, hq, hk]
      · simp [hp, hk]

theorem freeWhere_lease (s : State) (p : Lease → Bool) (j : SlotId) :
    (s.freeWhere p).lease j = (s.lease j).filter (fun r => !p r) := by
  have hall : ∀ (xs : List SlotId) (t : State), (xs.foldl (State.freeAt p) t).lease j =
      if j ∈ xs then (t.lease j).filter (fun r => !p r) else t.lease j := by
    intro xs
    induction xs with
    | nil => simp
    | cons x xs ih =>
      intro t
      rw [List.foldl_cons, ih, freeAt_lease]
      by_cases hx : j = x
      · subst hx
        simp [Option.filter_filter]
      · simp [hx]
  unfold State.freeWhere
  rw [hall, if_pos (List.mem_finRange j)]

/-- The disable of a link leaves it no terminal record (R141). -/
theorem disableLink_terminalLaw {s : State} (l : Link) (n : Nat)
    (h : ∀ i r, s.lease i = some r → r.phase.terminal = true → r.owner ≠ l →
      (s.link r.owner).line.enabled = true) : (s.disableLink l n).TerminalLaw := by
  refine grantScan_terminalLaw (forgetReported_terminalLaw l fun i r hr ht => ?_)
  rw [freeWhere_lease] at hr
  have hlink : ∀ (t : State) (p : Lease → Bool) k, (t.freeWhere p).link k = t.link k := by
    intro t p k
    unfold State.link
    rw [(freeWhere_tableOnly t p).fields.2.2.2.2.1]
  rw [hlink]
  simp only [State.setLink_views] at hr ⊢
  rw [Option.filter_eq_some_iff] at hr
  obtain ⟨hq, hp⟩ := hr
  have hne : r.owner ≠ l := by
    rintro rfl
    have hh : r.phase.holds = false := by
      cases hph : r.phase <;> simp_all [Phase.terminal, Phase.live, Phase.holds, Phase.queued]
    simp [hh] at hp
  rw [if_neg hne]
  exact h i r hq ht hne

theorem setLine_enabled (x : LinkState) (p : LineParams) (n : Nat) : (x.setLine p n).line = p := by
  unfold LinkState.setLine
  split
  · rfl
  · split <;> rfl

theorem applyLine_terminalLaw {s : State} (l : Link) (p : LineParams) (n : Nat) (h : s.TerminalLaw) :
    (s.applyLine l p n).TerminalLaw := by
  unfold State.applyLine
  dsimp only
  split
  · refine disableLink_terminalLaw l n fun i r hr ht hne => ?_
    simp only [State.setLink_views, if_neg hne] at hr ⊢
    exact h i r hr ht
  · next hc =>
    refine h.step (fun k hk => ?_) fun j q hq ht => .inl ⟨q, by simpa using hq, ht, rfl⟩
    simp only [State.setLink_views]
    split
    · next hkl =>
      subst hkl
      rw [setLine_enabled]
      simpa [hk] using hc
    · exact hk

theorem applyFrame_terminalLaw (f : OutFrame) {s : State} (h : s.TerminalLaw) :
    (s.applyFrame f).TerminalLaw := by
  unfold State.applyFrame
  split
  · unfold State.applyReport
    split
    · next r hr =>
      split
      · split
        · exact freeSlot_terminalLaw _ h
        · exact setLease_terminalLaw h fun ht => ⟨r, hr, ht, rfl⟩
      · exact h
    · exact h
  · exact h

/-! ### Restarts -/

theorem beginRestart_terminalLaw {s : State} (b : Table 4 Nat) (h : s.TerminalLaw) :
    (s.beginRestart b).TerminalLaw := by
  have h₀ : (State.clearLinks (State.abortCommand
      { s with restarting := true, arbiter := 4, port := s.port.clearCauses }) b).TerminalLaw := by
    refine h.congr (fun l => ?_) (abortCommand_table _).2.1
    simp only [State.clearLinks, State.link, Table.get_mapIdx]
    rw [(abortCommand_table _).2.2.2]
    rfl
  unfold State.beginRestart State.endWaits
  generalize State.clearLinks _ _ = u at h₀ ⊢
  have h₁ : ((List.finRange 128).foldl State.restartLapseAt u).TerminalLaw := by
    refine foldl_keeps (fun t i ht => ?_) _ h₀
    unfold State.restartLapseAt
    split
    · split
      · exact endQueued_terminalLaw _ _ _ ht
      · exact ht
    · exact ht
  generalize (List.finRange 128).foldl State.restartLapseAt u = v at h₁
  exact h₁.congr (fun _ => rfl) rfl

theorem endRestart_terminalLaw {s : State} (h : s.TerminalLaw) : s.endRestart.TerminalLaw := by
  refine (grantScan_terminalLaw h).congr (fun l => ?_) (completeRestart_table _).2.1
  show ((State.completeRestart _).links.get l).line.enabled = _
  rw [(completeRestart_table _).2.2.2]
  rfl

end Sys2Proof.Machine
end

