-- ==== Sys2Proof/Laws/Configured.lean ====
section
/-! SUPPORT. Which requests and commands change the lease table only, and what keeps the configuration, the
image, the bounds of the FIFOs and of the lock run, and the command queue. -/

namespace Sys2Proof.Machine

/-! ### Evaluations that change the lease table only -/

theorem evalAcquire_tableOnly (l : Link) (f : List Byte) (s : State) : s.tableOnly (evalAcquire l f s).1 := by
  unfold evalAcquire
  dsimp only
  repeat' split
  all_goals first
    | exact .refl s
    | exact raiseTable_tableOnly _ _
    | exact acquireGrant_tableOnly _ _ _ _
    | exact acquireWait_tableOnly _ _ _ _

theorem evalRenew_tableOnly (l : Link) (f : List Byte) (s : State) : s.tableOnly (evalRenew l f s).1 := by
  refine withHandle_keeps (.refl s) fun i r _ _ => ?_
  dsimp only
  split
  · exact .refl s
  · exact setLease_tableOnly _ _ _

theorem evalRelease_tableOnly (l : Link) (f : List Byte) (s : State) : s.tableOnly (evalRelease l f s).1 :=
  withHandle_keeps (.refl s) fun i r _ _ => releaseLease_tableOnly s i r

theorem evalWiden_tableOnly (l : Link) (f : List Byte) (s : State) : s.tableOnly (evalWiden l f s).1 := by
  refine withHandle_keeps (.refl s) fun i r _ _ => ?_
  dsimp only
  repeat' split
  all_goals first
    | exact .refl s
    | exact (setLease_tableOnly _ _ _).trans (takeZones_tableOnly _ _ _)

theorem evalNarrow_tableOnly (l : Link) (f : List Byte) (s : State) : s.tableOnly (evalNarrow l f s).1 := by
  refine withHandle_keeps (.refl s) fun i r _ _ => ?_
  dsimp only
  repeat' split
  all_goals first
    | exact .refl s
    | exact ((setLease_tableOnly _ _ _).trans (giveUpZone_tableOnly _ _)).trans (grantScan_tableOnly _)

theorem evalPark_tableOnly (l : Link) (f : List Byte) (s : State) : s.tableOnly (evalPark l f s).1 := by
  refine withHandle_keeps (.refl s) fun i r _ _ => ?_
  dsimp only
  repeat' split
  all_goals first
    | exact .refl s
    | exact raiseTable_tableOnly _ _
    | exact parkLease_tableOnly _ _ _

theorem evalQueryLease_same (l : Link) (f : List Byte) (s : State) : (evalQueryLease l f s).1 = s :=
  withHandle_keeps (P := fun t => t = s) rfl fun _ _ _ _ => rfl

theorem evalQueryZone_same (l : Link) (f : List Byte) (s : State) : (evalQueryZone l f s).1 = s := by
  unfold evalQueryZone
  repeat' split
  all_goals rfl

theorem evalSetZone_tableOnly (a : Table 8 Byte) (s : State) : s.tableOnly (evalSetZone a s).1 := by
  unfold evalSetZone
  repeat' split
  all_goals first
    | exact .refl s
    | exact setZone_tableOnly _ _ _

theorem fenceDoneWith_tableOnly (z : ZoneId) (o : Byte) (x : Option (SlotId × Byte)) (s : State) :
    s.tableOnly (fenceDoneWith z o x s).1 := grantScan_tableOnly s

theorem fenceZone_tableOnly (z : ZoneId) (k : Bool → SlotId → State × CmdResult) (s : State)
    (hk : ∀ b h, s.tableOnly (k b h).1) : s.tableOnly (fenceZone z k s).1 := by
  unfold fenceZone
  split
  · exact .refl s
  · exact ((setZoneState_tableOnly _ _ _).trans (raiseTable_tableOnly _ _)).trans (fenceDoneWith_tableOnly _ _ _ _)
  · exact fenceDoneWith_tableOnly _ _ _ _
  · exact hk _ _
  · exact hk _ _

theorem evalFenceWait_tableOnly (a : Table 8 Byte) (s : State) : s.tableOnly (evalFenceWait a s).1 := by
  unfold evalFenceWait
  split
  · refine fenceZone_tableOnly _ _ _ fun b h => ?_
    split
    · exact fenceDoneWith_tableOnly _ _ _ _
    · exact (setZoneState_tableOnly _ _ _).trans (fenceDoneWith_tableOnly _ _ _ _)
  · exact .refl s

theorem evalFenceForce_tableOnly (a : Table 8 Byte) (s : State) : s.tableOnly (evalFenceForce a s).1 := by
  unfold evalFenceForce
  split
  · exact fenceZone_tableOnly _ _ _ fun b h => (forceFence_tableOnly _ _ _).trans (fenceDoneWith_tableOnly _ _ _ _)
  · exact .refl s

theorem evalLift_tableOnly (a : Table 8 Byte) (s : State) : s.tableOnly (evalLift a s).1 := by
  unfold evalLift
  repeat' split
  all_goals first
    | exact .refl s
    | exact (setZoneState_tableOnly _ _ _).trans (fenceDoneWith_tableOnly _ _ _ _)

theorem evalRevoke_tableOnly (a : Table 8 Byte) (s : State) : s.tableOnly (evalRevoke a s).1 := by
  unfold evalRevoke
  repeat' split
  all_goals first
    | exact .refl s
    | exact revokeLease_tableOnly _ _ _

theorem disableLink_tableOnly (s : State) (l : Link) (n : Nat) :
    State.tableOnly (s.setLink l { (s.link l).clearTraffic n with
      line := { (s.link l).line with enabled := false } }) (s.disableLink l n) :=
  ((freeWhere_tableOnly _ _).trans (mapLeases_tableOnly _ _)).trans (grantScan_tableOnly _)

theorem endWaits_tableOnly (s : State) : s.tableOnly s.endWaits := by
  have h : s.tableOnly ((List.finRange 128).foldl State.restartLapseAt s) := by
    refine State.tableOnly.foldl (fun t i => ?_) _ s
    unfold State.restartLapseAt
    repeat' split
    all_goals first
      | exact .refl t
      | exact endQueued_tableOnly _ _ _ _
  unfold State.endWaits
  generalize (List.finRange 128).foldl State.restartLapseAt s = v at h
  exact h.trans rfl

/-! ### The lock run -/

theorem enterClock_lockRun (s : State) (x : ClockState) : (s.enterClock x).clock.lockRun = s.clock.lockRun := by
  unfold State.enterClock
  dsimp only
  split <;> rfl

theorem handTick_lockRun (s : State) (t : Nat) : (s.handTick t).clock.lockRun = s.clock.lockRun := by
  unfold State.handTick
  split <;> rfl

@[simp] theorem setClock_lockRun (s : State) (c : Clock) : (s.setClock c).clock.lockRun = c.lockRun := rfl

theorem fire_lockRun {s : State} (d : Deadline) (h : s.clock.lockRun ≤ 8) : (s.fire d).clock.lockRun ≤ 8 := by
  unfold State.fire
  repeat' split
  all_goals first
    | exact h
    | exact Nat.zero_le _
    | simpa only [handTick_lockRun, enterClock_lockRun, setClock_lockRun] using h

theorem passFor_lockRun (n t : Nat) {s : State} (h : s.clock.lockRun ≤ 8) :
    (s.passFor n t).clock.lockRun ≤ 8 := by
  induction n generalizing s with
  | zero => exact h
  | succ n ih =>
    unfold State.passFor
    split
    · exact ih (fire_lockRun _ h)
    · exact h

theorem awaitDue_lockRun {s : State} (d : Deadline) (h : s.clock.lockRun ≤ 8) :
    (s.awaitDue d).clock.lockRun ≤ 8 := by
  unfold State.awaitDue
  repeat' split
  all_goals first
    | exact h
    | exact fire_lockRun _ (passFor_lockRun _ _ h)

theorem countPulse_lockRun (s : State) (t : Nat) : (s.countPulse t).clock.lockRun ≤ 8 := by
  show (if s.clock.validPulse t = true then min 8 (s.clock.lockRun + 1) else 0) ≤ 8
  split <;> omega

theorem pulseAt_lockRun (s : State) (t : Nat) : (s.pulseAt t).clock.lockRun ≤ 8 := by
  unfold State.pulseAt
  dsimp only
  repeat' split
  all_goals first
    | exact countPulse_lockRun s t
    | simpa only [handTick_lockRun, enterClock_lockRun] using countPulse_lockRun s t

theorem chooseMode_lockRun {s : State} (m : TimeMode) (h : s.clock.lockRun ≤ 8) :
    (s.chooseMode m).clock.lockRun ≤ 8 := by
  have hc : ∀ (u : State) b, u.clock.lockRun ≤ 8 → (u.chooseManual b).clock.lockRun ≤ 8 := by
    intro u b hu
    unfold State.chooseManual
    dsimp only
    repeat' split
    all_goals first
      | exact hu
      | (rw [enterClock_lockRun]; first | exact hu | exact Nat.zero_le _)
  unfold State.chooseMode
  split
  · exact h
  · exact hc _ _ h
  · exact hc _ _ h

/-! ### What keeps the configuration, the bounds and the queue -/

/-- `t` has the configured values (of a line its divisor), the image and the queue of `s`, keeps the bounds of
its FIFOs and of its lock run, and stores no copy that `s` does not. -/
structure State.confKept (s t : State) : Prop where
  classes : t.classes = s.classes
  threshold : t.threshold = s.threshold
  image : t.image = s.image
  pending : t.pending = s.pending
  div : ∀ l, (t.link l).line.div = (s.link l).line.div
  fifo : ∀ l, (s.link l).fifo.length ≤ 64 → (t.link l).fifo.length ≤ 64
  lockRun : s.clock.lockRun ≤ 8 → t.clock.lockRun ≤ 8
  storing : ∀ copy, t.port.phase = .storing copy → s.port.phase = .storing copy

theorem State.confKept.refl (s : State) : s.confKept s :=
  ⟨rfl, rfl, rfl, rfl, fun _ => rfl, fun _ => id, id, fun _ => id⟩

theorem State.confKept.trans {s t u : State} (h₁ : s.confKept t) (h₂ : t.confKept u) : s.confKept u :=
  ⟨h₂.classes.trans h₁.classes, h₂.threshold.trans h₁.threshold, h₂.image.trans h₁.image,
    h₂.pending.trans h₁.pending, fun l => (h₂.div l).trans (h₁.div l), fun l h => h₂.fifo l (h₁.fifo l h),
    fun h => h₂.lockRun (h₁.lockRun h), fun c h => h₁.storing c (h₂.storing c h)⟩

theorem State.tableOnly.confKept {s t : State} (h : s.tableOnly t) : s.confKept t := by
  obtain ⟨h₁, h₂, _, h₄, h₅, h₆, _, _, _, _, _, h₇, h₈⟩ := h.fields
  have hl : ∀ l, t.link l = s.link l := fun l => by rw [State.link, h₅]; rfl
  refine ⟨h₁, h₂, h₆, h₇, fun l => by rw [hl], fun l => by rw [hl]; exact id, by rw [h₄]; exact id, ?_⟩
  intro copy
  rw [h₈]
  exact id

theorem State.clockOnly.confKept {s t : State} (h : s.clockOnly t)
    (hr : s.clock.lockRun ≤ 8 → t.clock.lockRun ≤ 8) : s.confKept t := by
  obtain ⟨_, _, _, h₁, h₂, _, _, _, h₅, h₆, _, _, _, _, _, h₇, h₈⟩ := h.fields
  have hl : ∀ l, t.link l = s.link l := fun l => by rw [State.link, h₅]; rfl
  refine ⟨h₁, h₂, h₆, h₇, fun l => by rw [hl], fun l => by rw [hl]; exact id, hr, ?_⟩
  intro copy
  rw [h₈]
  exact id

theorem State.portOnly.confKept {s t : State} (h : s.portOnly t)
    (hp : ∀ copy, t.port.phase = .storing copy → s.port.phase = .storing copy) : s.confKept t := by
  obtain ⟨_, _, _, h₁, h₂, _, _, _, h₃, h₅, h₆, _, _, _, _, _, h₇⟩ := h.fields
  have hl : ∀ l, t.link l = s.link l := fun l => by rw [State.link, h₅]; rfl
  exact ⟨h₁, h₂, h₆, h₇, fun l => by rw [hl], fun l => by rw [hl]; exact id, by rw [h₃]; exact id, hp⟩

/-- A link replaced by one of the same divisor whose FIFO keeps its bound. -/
theorem setLink_confKept (s : State) (l : Link) (x : LinkState) (h : x.line.div = (s.link l).line.div)
    (hf : (s.link l).fifo.length ≤ 64 → x.fifo.length ≤ 64) : s.confKept (s.setLink l x) := by
  refine ⟨rfl, rfl, rfl, rfl, fun k => ?_, fun k => ?_, id, fun _ => id⟩
  · by_cases hk : k = l
    · subst hk
      simpa using h
    · simp [hk]
  · by_cases hk : k = l
    · subst hk
      simpa using hf
    · simp [hk]

theorem raiseLink_confKept (s : State) (l : Link) (f : Byte) : s.confKept (s.raiseLink l f) :=
  ⟨rfl, rfl, rfl, rfl, fun _ => rfl, fun _ => id, id, fun _ => id⟩

theorem complete_confKept (s : State) (r : CmdResult) : s.confKept (s.complete r) :=
  ⟨rfl, rfl, rfl, rfl, fun _ => rfl, fun _ => id, id, fun _ h => nomatch h⟩

theorem takeSlot_confKept (s : State) (l : Link) : s.confKept (s.takeSlot l) :=
  (setLink_confKept s l { s.link l with requestSlot := none } rfl id).trans
    ⟨rfl, rfl, rfl, rfl, fun _ => rfl, fun _ => id, id, fun _ => id⟩

theorem placeReply_confKept (t s : State) (l : Link) (r : OutFrame) : t.confKept (t.placeReply s l r) :=
  setLink_confKept t l _ rfl id

theorem takeRequest_confKept {l : Link} {k : Byte → Bool} {ev : List Byte → State → State × OutFrame}
    (hev : ∀ f (t : State), t.tableOnly (ev f t).1) (s : State) : s.confKept (takeRequest l k ev s) := by
  unfold takeRequest
  repeat' split
  all_goals first
    | exact .refl s
    | exact ((takeSlot_confKept s l).trans (hev _ _).confKept).trans (placeReply_confKept _ _ _ _)

theorem takeCommand_confKept {c : Byte} {g : Table 8 Byte → Bool} {ev : Table 8 Byte → State → State × CmdResult}
    (hev : ∀ a (t : State), t.confKept (ev a t).1) (s : State) : s.confKept (takeCommand c g ev s) := by
  have h : s.confKept { s with arbiter := mailboxSource } :=
    ⟨rfl, rfl, rfl, rfl, fun _ => rfl, fun _ => id, id, fun _ => id⟩
  unfold takeCommand
  repeat' split
  all_goals first
    | exact .refl s
    | exact (h.trans (hev _ _)).trans (complete_confKept _ _)

theorem takeDirect_confKept {c : Byte} {ev : Table 8 Byte → State → State × CmdResult}
    (hev : ∀ a (t : State), t.confKept (ev a t).1) (s : State) : s.confKept (takeDirect c ev s) := by
  unfold takeDirect
  repeat' split
  all_goals first
    | exact .refl s
    | exact (hev _ _).trans (complete_confKept _ _)

theorem portEvents_confKept (s : State) (es : List PortEvent) : s.confKept (s.portEvents es) := by
  refine (portEvents_portOnly s es).confKept fun copy h => ?_
  rcases portEvents_phase s es with h' | ⟨a, h'⟩
  · rwa [h'] at h
  · rw [h'] at h
    exact nomatch h

theorem receive_confKept (s : State) (l : Link) (idle : Nat) (c : RawChar) :
    s.confKept (s.receive l idle c) := by
  unfold State.receive
  dsimp only
  split
  · exact (setLink_confKept s l { s.link l with
        lossPending := true, gapNext := false, prevLines := []
        rxWait := RawChar.isBreak ((s.link l).lineFor c) c } rfl id).trans (raiseLink_confKept _ _ _)
  · exact setLink_confKept s l _ rfl fun _ => by simp only [List.length_append, List.length_singleton]; omega

theorem nextEntry_rest {x : LinkState} {e : FifoEntry} {rest : List FifoEntry}
    (h : x.nextEntry = some (e, rest)) : rest.length ≤ x.fifo.length := by
  unfold LinkState.nextEntry at h
  split at h
  · exact nomatch h
  · next _ _ _ hf _ =>
    rw [hf]
    simp only [Option.some.injEq, Prod.mk.injEq] at h
    rw [h.2]
    exact Nat.le_succ _
  · exact nomatch h

theorem clientRestart_confKept (s : State) (l : Link) : s.confKept (s.clientRestart l) :=
  (clientRestart_tableOnly s l).confKept

theorem disableLink_confKept (s : State) (l : Link) (n : Nat) : s.confKept (s.disableLink l n) :=
  State.confKept.trans (by refine setLink_confKept s l _ ?_ ?_; exacts [rfl, fun _ => Nat.zero_le _])
    (disableLink_tableOnly s l n).confKept

theorem takeBreak_confKept {s : State} {l : Link} {rest : List FifoEntry}
    (h : rest.length ≤ (s.link l).fifo.length) : s.confKept (s.takeBreak l rest) :=
  ((setLink_confKept s l { s.link l with fifo := rest, decoder := .hunt } rfl fun h' => le_trans h h').trans
    (raiseLink_confKept _ _ _)).trans (clientRestart_confKept _ _)

theorem takeEntry_confKept {s : State} {l : Link} (e : FifoEntry) {rest : List FifoEntry}
    (h : rest.length ≤ (s.link l).fifo.length) : s.confKept (s.takeEntry l e rest) := by
  unfold State.takeEntry
  dsimp only
  refine State.confKept.trans (setLink_confKept s l _ ?_ ?_) (raiseLink_confKept _ _ _)
  · rfl
  · exact fun h' => le_trans h h'

theorem beginRestart_confKept (s : State) (b : Table 4 Nat) : s.confKept (s.beginRestart b) := by
  unfold State.beginRestart
  have h₀ : s.confKept { s with restarting := true, arbiter := 4, port := s.port.clearCauses } :=
    ⟨rfl, rfl, rfl, rfl, fun _ => rfl, fun _ => id, id, fun _ => id⟩
  have h₁ : ∀ u : State, u.confKept u.abortCommand := by
    intro u
    unfold State.abortCommand
    split
    · exact complete_confKept _ _
    · exact complete_confKept _ _
    · exact .refl u
    · exact .refl u
  have h₂ : ∀ u : State, u.confKept (u.clearLinks b) := by
    intro u
    refine ⟨rfl, rfl, rfl, rfl, fun l => ?_, fun l h => ?_, id, fun _ => id⟩
    · simp only [State.clearLinks, State.link, Table.get_mapIdx]
      rfl
    · simp only [State.clearLinks, State.link, Table.get_mapIdx]
      exact Nat.zero_le _
  exact ((h₀.trans (h₁ _)).trans (h₂ _)).trans (endWaits_tableOnly _).confKept

theorem endRestart_confKept (s : State) : s.confKept s.endRestart := by
  have h : s.confKept s.grantScan.completeRestart := by
    refine (grantScan_tableOnly s).confKept.trans ?_
    unfold State.completeRestart
    split
    · exact complete_confKept _ _
    · exact .refl _
  unfold State.endRestart
  dsimp only
  generalize s.grantScan.completeRestart = u at h
  exact h.trans ⟨rfl, rfl, rfl, rfl, fun _ => rfl, fun _ => id, id, fun _ => id⟩

/-! ### The ranges -/

theorem State.confKept.rangeLaw {s t : State} (h : s.confKept t) (hs : s.RangeLaw) : t.RangeLaw := by
  obtain ⟨⟨h₁, h₂, h₃⟩, h₄, h₅⟩ := hs
  refine ⟨⟨?_, fun l => ?_, ?_⟩, by rw [h.image]; exact h₄, fun c hc => h₅ c (h.storing c hc)⟩
  · show ∀ k, ClassInRange (t.classes.get k)
    rw [h.classes]
    exact h₁
  · have := h₂ l
    simp only [State.configuration, Table.get_mapIdx] at this ⊢
    have hl := h.div l
    simp only [State.link] at hl
    unfold LineInRange at *
    rw [hl]
    exact this
  · show 1 ≤ t.threshold ∧ t.threshold ≤ 128
    rw [h.threshold]
    exact h₃

theorem State.confKept.boundLaw {s t : State} (h : s.confKept t) (hs : s.BoundLaw) : t.BoundLaw :=
  ⟨fun l => h.fifo l (hs.1 l), h.lockRun hs.2⟩

end Sys2Proof.Machine
end

