-- ==== Sys2Proof/Laws/Scan.lean ====
section
/-! SUPPORT. What a grant scan may do to each zone, each record and the list: one statement, through every
operation of the scan (R54 to R61). -/

namespace Sys2Proof.Machine

/-- A record as a scan may leave it: only its phase and its renewals may differ, and the renewals are kept or
set to 0 (R56, R59, R60). -/
def Lease.scanned (r q : Lease) : Prop :=
  q = { r with phase := q.phase, renewals := q.renewals } ∧ (q.renewals = r.renewals ∨ q.renewals = 0)

/-- What a scan keeps: generations, classes, every zone's state but for a FREE zone that becomes HELD, which
slots hold a record, and the order of the list, from which entries may go. -/
def State.scanKeeps (s t : State) : Prop :=
  t.waiting.Sublist s.waiting ∧
    (∀ z, (t.zone z).cls = (s.zone z).cls ∧ ((t.zone z).state = (s.zone z).state ∨
      ((s.zone z).state = .free ∧ ∃ i, (t.zone z).state = .held i))) ∧
    ∀ i, t.generation i = s.generation i ∧
      ((s.lease i = none ∧ t.lease i = none) ∨
        ∃ r q, s.lease i = some r ∧ t.lease i = some q ∧ r.scanned q)

theorem Lease.scanned.refl (r : Lease) : r.scanned r := ⟨rfl, .inl rfl⟩

theorem Lease.scanned.trans {a b c : Lease} (h₁ : a.scanned b) (h₂ : b.scanned c) : a.scanned c := by
  obtain ⟨e₁, n₁⟩ := h₁
  obtain ⟨e₂, n₂⟩ := h₂
  constructor
  · rw [e₁] at e₂
    exact e₂
  · rcases n₂ with n | n
    · rw [n]
      exact n₁
    · exact .inr n

theorem State.scanKeeps.refl (s : State) : s.scanKeeps s :=
  ⟨List.Sublist.refl _, fun _ => ⟨rfl, .inl rfl⟩, fun i => ⟨rfl, by
    cases h : s.lease i with
    | none => exact .inl ⟨rfl, rfl⟩
    | some r => exact .inr ⟨r, r, rfl, rfl, .refl r⟩⟩⟩

theorem State.scanKeeps.trans {s t u : State} (h₁ : s.scanKeeps t) (h₂ : t.scanKeeps u) : s.scanKeeps u := by
  obtain ⟨w₁, z₁, l₁⟩ := h₁
  obtain ⟨w₂, z₂, l₂⟩ := h₂
  refine ⟨w₂.trans w₁, fun z => ⟨(z₂ z).1.trans (z₁ z).1, ?_⟩, fun i => ⟨(l₂ i).1.trans (l₁ i).1, ?_⟩⟩
  · rcases (z₁ z).2 with h | ⟨hf, i, hi⟩
    · rw [← h]
      exact (z₂ z).2
    · rcases (z₂ z).2 with h' | ⟨hf', -⟩
      · exact .inr ⟨hf, i, h'.trans hi⟩
      · rw [hi] at hf'
        cases hf'
  · rcases (l₁ i).2 with ⟨h, h'⟩ | ⟨r, q, h, h', k⟩
    · rcases (l₂ i).2 with ⟨-, g⟩ | ⟨r', -, g, -, -⟩
      · exact .inl ⟨h, g⟩
      · rw [h'] at g
        cases g
    · rcases (l₂ i).2 with ⟨g, -⟩ | ⟨r', q', g, g', k'⟩
      · rw [h'] at g
        cases g
      · rw [h'] at g
        cases g
        exact .inr ⟨r, q', h, g', k.trans k'⟩

theorem State.scanKeeps.foldl {α : Type} {f : State → α → State} (h : ∀ (s : State) x, s.scanKeeps (f s x))
    (xs : List α) (s : State) : s.scanKeeps (xs.foldl f s) := by
  induction xs generalizing s with
  | nil => exact .refl s
  | cons x xs ih => exact (h s x).trans (ih _)

/-- A change of records in place. -/
theorem scanKeeps_of_leases {s t : State} (hw : t.waiting = s.waiting) (hz : ∀ z, t.zone z = s.zone z)
    (hg : ∀ i, t.generation i = s.generation i)
    (hl : ∀ i, t.lease i = s.lease i ∨ ∃ r q, s.lease i = some r ∧ t.lease i = some q ∧ r.scanned q) :
    s.scanKeeps t := by
  refine ⟨by rw [hw], fun z => by simp [hz], fun i => ⟨hg i, ?_⟩⟩
  rcases hl i with h | h
  · cases hs : s.lease i with
    | none => exact .inl ⟨rfl, by rw [h, hs]⟩
    | some r => exact .inr ⟨r, r, rfl, by rw [h, hs], .refl r⟩
  · exact .inr h

theorem startYield_scanned (r : Lease) : r.scanned r.startYield := by
  unfold Lease.startYield
  split
  · exact ⟨rfl, .inl rfl⟩
  · exact .refl r

theorem withdrawYield_scanned (r : Lease) : r.scanned r.withdrawYield := by
  unfold Lease.withdrawYield
  split
  · exact ⟨rfl, .inl rfl⟩
  · exact .refl r

theorem granted_scanned (r : Lease) : r.scanned r.granted := by
  refine ⟨rfl, ?_⟩
  unfold Lease.granted
  dsimp only
  split
  · exact .inl rfl
  · exact .inr rfl

theorem clearEarmarks_scanKeeps (s : State) : s.scanKeeps s.clearEarmarks := by
  refine ⟨by simp, fun z => by simp, fun i => ⟨by simp, ?_⟩⟩
  simp only [State.clearEarmarks_views]
  exact ((State.scanKeeps.refl s).2.2 i).2

theorem setEarmark_scanKeeps (s : State) (z : ZoneId) (e : Option SlotId) : s.scanKeeps (s.setEarmark z e) := by
  refine ⟨by simp, fun w => ?_, fun i => ⟨by simp, ?_⟩⟩
  · by_cases h : w = z <;> simp [h]
  · simp only [State.setEarmark_views]
    exact ((State.scanKeeps.refl s).2.2 i).2

theorem askYield_scanKeeps (s : State) (h : SlotId) (p : Priority) : s.scanKeeps (s.askYield h p) := by
  obtain ⟨hz, hw, hg, -, hl⟩ := askYield_views s h p
  refine scanKeeps_of_leases hw hz hg fun i => ?_
  rcases hl i with h | ⟨r, h, h'⟩
  · exact .inl h
  · exact .inr ⟨r, _, h, h', startYield_scanned r⟩

theorem earmarkZone_scanKeeps (b : Bool) (e : SlotId) (p : Priority) (s : State) (z : ZoneId) :
    s.scanKeeps (s.earmarkZone b e p z) := by
  unfold State.earmarkZone
  split
  · exact setEarmark_scanKeeps _ _ _
  · split
    · exact (setEarmark_scanKeeps _ _ _).trans (askYield_scanKeeps _ _ _)
    · exact setEarmark_scanKeeps _ _ _
  · exact .refl s

theorem grant_scanKeeps {s : State} {i : SlotId} {r : Lease} (hr : s.lease i = some r)
    (hg : s.grantable r = true) : s.scanKeeps (s.grant i r) := by
  unfold State.grant
  refine ⟨?_, fun z => ?_, fun j => ⟨by simp, ?_⟩⟩
  · simp only [takeZones_views, State.setLease_fields, State.leaveList_fields]
    exact List.filter_sublist
  · simp only [takeZones_views, State.setLease_views, State.leaveList_views]
    split
    · next h =>
      have := List.all_eq_true.mp hg z h
      simp only [Bool.and_eq_true, beq_iff_eq] at this
      exact ⟨rfl, .inr ⟨this.1, i, rfl⟩⟩
    · exact ⟨rfl, .inl rfl⟩
  · simp only [takeZones_views, State.setLease_views, State.leaveList_views]
    by_cases hj : j = i
    · subst hj
      exact .inr ⟨r, r.granted, hr, by simp, granted_scanned r⟩
    · simp only [hj, if_false]
      exact ((State.scanKeeps.refl s).2.2 j).2

theorem walkEntry_scanKeeps (b : Bool) (s : State) (e : SlotId) : s.scanKeeps (s.walkEntry b e) := by
  unfold State.walkEntry
  split
  · next r hr =>
    split
    · next h =>
      rw [Bool.and_eq_true] at h
      exact grant_scanKeeps hr h.2
    · exact State.scanKeeps.foldl (earmarkZone_scanKeeps _ _ _) _ s
  · exact .refl s

theorem mapLeases_scanKeeps (s : State) (f : SlotId → Lease → Lease) (h : ∀ i (r : Lease), r.scanned (f i r)) :
    s.scanKeeps (s.mapLeases f) := by
  refine scanKeeps_of_leases (by simp) (by simp) (by simp) fun i => ?_
  cases hs : s.lease i with
  | none => exact .inl (by simp [hs])
  | some r => exact .inr ⟨r, f i r, rfl, by simp [hs], h i r⟩

theorem walk_scanKeeps (b : Bool) (s : State) : s.scanKeeps (s.walk b) :=
  State.scanKeeps.foldl (walkEntry_scanKeeps b) _ s

/-- A grant scan keeps what a scan keeps (R54). -/
theorem grantScan_scanKeeps (s : State) : s.scanKeeps s.grantScan := by
  unfold State.grantScan
  split
  · refine ((clearEarmarks_scanKeeps _).trans (walk_scanKeeps _ _)).trans
      ((mapLeases_scanKeeps _ _ fun i r => ?_).trans (mapLeases_scanKeeps _ _ fun i r => ?_))
    · split
      · exact startYield_scanned r
      · exact .refl r
    · split
      · exact withdrawYield_scanned r
      · exact .refl r
  · exact (clearEarmarks_scanKeeps _).trans (walk_scanKeeps _ _)

/-- A record is still there after a scan, with its fixed fields. -/
theorem grantScan_lease {s : State} {i : SlotId} {r : Lease} (h : s.lease i = some r) :
    ∃ q, s.grantScan.lease i = some q ∧ r.scanned q := by
  rcases ((grantScan_scanKeeps s).2.2 i).2 with ⟨h', -⟩ | ⟨r', q, h', hq, k⟩
  · rw [h] at h'
    cases h'
  · rw [h] at h'
    cases h'
    exact ⟨q, hq, k⟩

theorem grantScan_generation (s : State) (i : SlotId) : s.grantScan.generation i = s.generation i :=
  ((grantScan_scanKeeps s).2.2 i).1

/-! ### Who is asked to yield -/

/-- A record that yields after the scan yielded before it, or is yieldable (R58, R59). -/
def Lease.mayYield (r q : Lease) : Prop :=
  q.yieldable = r.yieldable ∧ (q.phase.isYielding = true → r.yieldable = true ∨ r.phase.isYielding = true)

/-- Every record left was there before, and yields only as it may. -/
def State.asksYieldable (s t : State) : Prop :=
  ∀ i q, t.lease i = some q → ∃ r, s.lease i = some r ∧ r.mayYield q

theorem Lease.mayYield.refl (r : Lease) : r.mayYield r := ⟨rfl, .inr⟩

theorem State.asksYieldable.refl (s : State) : s.asksYieldable s := fun _ q hq => ⟨q, hq, .refl q⟩

theorem State.asksYieldable.of_eq {s t : State} (h : ∀ i, t.lease i = s.lease i) : s.asksYieldable t :=
  fun i q hq => ⟨q, h i ▸ hq, .refl q⟩

theorem State.asksYieldable.trans {s t u : State} (h₁ : s.asksYieldable t) (h₂ : t.asksYieldable u) :
    s.asksYieldable u := by
  intro i v hv
  obtain ⟨q, hq, y₂, n₂⟩ := h₂ i v hv
  obtain ⟨r, hr, y₁, n₁⟩ := h₁ i q hq
  exact ⟨r, hr, y₂.trans y₁, fun h => (n₂ h).elim (fun hy => .inl (y₁ ▸ hy)) n₁⟩

theorem State.asksYieldable.foldl {α : Type} {f : State → α → State} (h : ∀ (s : State) x, s.asksYieldable (f s x))
    (xs : List α) (s : State) : s.asksYieldable (xs.foldl f s) := by
  induction xs generalizing s with
  | nil => exact .refl s
  | cons x xs ih => exact (h s x).trans (ih _)

theorem setLease_asksYieldable {s : State} {i : SlotId} {r q : Lease} (hr : s.lease i = some r) (h : r.mayYield q) :
    s.asksYieldable (s.setLease i q) := by
  intro j v hv
  simp only [State.setLease_views] at hv
  split at hv
  · next hj =>
    cases hv
    exact ⟨r, hj ▸ hr, h⟩
  · exact ⟨v, hv, .refl v⟩

theorem mapLeases_asksYieldable {s : State} {f : SlotId → Lease → Lease} (hf : ∀ i (r : Lease), r.mayYield (f i r)) :
    s.asksYieldable (s.mapLeases f) := by
  intro i v hv
  simp only [State.mapLeases_views, Option.map_eq_some_iff] at hv
  obtain ⟨r, hr, rfl⟩ := hv
  exact ⟨r, hr, hf i r⟩

theorem startYield_mayYield {r : Lease} (hy : r.yieldable = true) : r.mayYield r.startYield :=
  ⟨by simp, fun _ => .inl hy⟩

theorem withdrawYield_mayYield (r : Lease) : r.mayYield r.withdrawYield := by
  unfold Lease.withdrawYield
  split
  · exact ⟨rfl, fun h => nomatch h⟩
  · exact .refl r

theorem askYield_asksYieldable (s : State) (k : SlotId) (p : Priority) : s.asksYieldable (s.askYield k p) := by
  unfold State.askYield
  split
  · next r hr =>
    split
    · next hc =>
      simp only [Bool.and_eq_true] at hc
      exact setLease_asksYieldable hr (startYield_mayYield hc.1)
    · exact .refl s
  · exact .refl s

theorem earmarkZone_asksYieldable (b : Bool) (e : SlotId) (p : Priority) (s : State) (z : ZoneId) :
    s.asksYieldable (s.earmarkZone b e p z) := by
  have he : s.asksYieldable (s.setEarmark z (some e)) := .of_eq (by simp)
  unfold State.earmarkZone
  split
  · exact he
  · split
    · exact he.trans (askYield_asksYieldable _ _ _)
    · exact he
  · exact .refl s

theorem walkEntry_asksYieldable (b : Bool) (s : State) (e : SlotId) : s.asksYieldable (s.walkEntry b e) := by
  unfold State.walkEntry
  split
  · next r hr =>
    split
    · unfold State.grant
      have hg : s.asksYieldable ((s.leaveList e).setLease e r.granted) :=
        setLease_asksYieldable (s := s.leaveList e) (q := r.granted) hr ⟨rfl, fun h => nomatch h⟩
      exact hg.trans (.of_eq (by simp))
    · exact .foldl (earmarkZone_asksYieldable b e _) _ s
  · exact .refl s

/-- The grant scan asks only yieldable holders to yield (R58, R59). -/
theorem grantScan_asksYieldable (s : State) : s.asksYieldable s.grantScan := by
  have hw : ∀ b, s.asksYieldable (s.clearEarmarks.walk b) := fun b =>
    (State.asksYieldable.of_eq (t := s.clearEarmarks) (by simp)).trans (.foldl (walkEntry_asksYieldable b) _ _)
  unfold State.grantScan
  split
  · refine ((hw true).trans (mapLeases_asksYieldable fun i r => ?_)).trans (mapLeases_asksYieldable fun i r => ?_)
    · split
      · next hc =>
        simp only [Bool.and_eq_true] at hc
        exact startYield_mayYield hc.1
      · exact .refl r
    · split
      · exact withdrawYield_mayYield r
      · exact .refl r
  · exact hw false

/-! ### What a scan touches at all -/

/-- `t` differs from `s` in the zone map, the lease table and the waiting list at most. -/
def State.scanOnly (s t : State) : Prop :=
  t = { s with zones := t.zones, slots := t.slots, waiting := t.waiting }

theorem State.scanOnly.refl (s : State) : s.scanOnly s := rfl

theorem State.scanOnly.trans {s t u : State} (h₁ : s.scanOnly t) (h₂ : t.scanOnly u) : s.scanOnly u := by
  unfold State.scanOnly at *
  rw [h₁] at h₂
  exact h₂

theorem State.scanOnly.foldl {α : Type} {f : State → α → State} (h : ∀ (s : State) x, s.scanOnly (f s x))
    (xs : List α) (s : State) : s.scanOnly (xs.foldl f s) := by
  induction xs generalizing s with
  | nil => exact .refl s
  | cons x xs ih => exact (h s x).trans (ih _)

theorem takeZones_scanOnly (s : State) (i : SlotId) (zs : List ZoneId) : s.scanOnly (s.takeZones i zs) :=
  State.scanOnly.foldl (fun (t : State) z => (rfl : t.scanOnly (t.setZoneState z (.held i)))) zs s

theorem askYield_scanOnly (s : State) (h : SlotId) (p : Priority) : s.scanOnly (s.askYield h p) := by
  unfold State.askYield
  repeat' split
  all_goals rfl

theorem earmarkZone_scanOnly (b : Bool) (e : SlotId) (p : Priority) (s : State) (z : ZoneId) :
    s.scanOnly (s.earmarkZone b e p z) := by
  have h : s.scanOnly (s.setEarmark z (some e)) := rfl
  unfold State.earmarkZone
  split
  · exact h
  · split
    · exact h.trans (askYield_scanOnly _ _ _)
    · exact h
  · exact .refl s

theorem walkEntry_scanOnly (b : Bool) (s : State) (e : SlotId) : s.scanOnly (s.walkEntry b e) := by
  unfold State.walkEntry
  split
  · next r _ =>
    split
    · exact (show s.scanOnly ((s.leaveList e).setLease e r.granted) from rfl).trans (takeZones_scanOnly _ _ _)
    · exact State.scanOnly.foldl (earmarkZone_scanOnly _ _ _) _ s
  · exact .refl s

/-- A grant scan touches the zone map, the lease table and the waiting list at most (R54). -/
theorem grantScan_scanOnly (s : State) : s.scanOnly s.grantScan := by
  have hw : ∀ b, s.scanOnly (s.clearEarmarks.walk b) := fun b =>
    (show s.scanOnly s.clearEarmarks from rfl).trans (State.scanOnly.foldl (walkEntry_scanOnly b) _ _)
  unfold State.grantScan
  split
  · exact ((hw true).trans (State.scanOnly.refl _ : State.scanOnly _ (State.fenceYields _))).trans rfl
  · exact hw false

/-! ### A record that neither waits nor holds -/

/-- Slot `i` is out of a scan's reach: it is not in the list, and it holds record `q`, which holds no zone. -/
def State.restsAt (s : State) (i : SlotId) (q : Lease) : Prop :=
  i ∉ s.waiting ∧ s.lease i = some q ∧ q.phase.holds = false

theorem startYield_idle {r : Lease} (h : r.phase.holds = false) : r.startYield = r := by
  unfold Lease.startYield
  split
  · next hp => simp [hp, Phase.holds] at h
  · rfl

theorem withdrawYield_idle {r : Lease} (h : r.phase.holds = false) : r.withdrawYield = r := by
  unfold Lease.withdrawYield
  split
  · next hp => simp [hp, Phase.holds] at h
  · rfl

theorem askYield_restsAt {s : State} {i : SlotId} {q : Lease} (k : SlotId) (p : Priority)
    (h : s.restsAt i q) : (s.askYield k p).restsAt i q := by
  obtain ⟨-, hw, -, -, hl⟩ := askYield_views s k p
  refine ⟨hw ▸ h.1, ?_, h.2.2⟩
  rcases hl i with h' | ⟨r, h', h''⟩
  · rw [h', h.2.1]
  · rw [h.2.1] at h'
    cases h'
    rw [h'', startYield_idle h.2.2]

theorem earmarkZone_restsAt (b : Bool) (e : SlotId) (p : Priority) {s : State} {i : SlotId} {q : Lease}
    (z : ZoneId) (h : s.restsAt i q) : (s.earmarkZone b e p z).restsAt i q := by
  have he : (s.setEarmark z (some e)).restsAt i q := by simpa [State.restsAt] using h
  unfold State.earmarkZone
  split
  · exact he
  · split
    · exact askYield_restsAt _ _ he
    · exact he
  · exact h

theorem foldl_restsAt {α : Type} {f : State → α → State} {i : SlotId} {q : Lease} (xs : List α)
    (hf : ∀ (s : State) x, x ∈ xs → s.restsAt i q → (f s x).restsAt i q) {s : State} (h : s.restsAt i q) :
    (xs.foldl f s).restsAt i q := by
  induction xs generalizing s with
  | nil => exact h
  | cons x xs ih =>
    exact ih (fun t y hy => hf t y (List.mem_cons_of_mem x hy)) (hf s x (List.mem_cons_self ..) h)

theorem walkEntry_restsAt (b : Bool) {s : State} {i e : SlotId} {q : Lease} (hne : e ≠ i)
    (h : s.restsAt i q) : (s.walkEntry b e).restsAt i q := by
  unfold State.walkEntry
  split
  · split
    · refine ⟨?_, ?_, h.2.2⟩
      · simp only [State.grant, takeZones_views, State.setLease_fields, State.leaveList_fields]
        exact fun hi => h.1 (List.mem_filter.mp hi).1
      · simp [State.grant, hne.symm, h.2.1]
    · exact foldl_restsAt _ (fun t z _ ht => earmarkZone_restsAt _ _ _ z ht) h
  · exact h

theorem mapLeases_restsAt {s : State} {i : SlotId} {q : Lease} {f : SlotId → Lease → Lease}
    (hf : f i q = q) (h : s.restsAt i q) : (s.mapLeases f).restsAt i q :=
  ⟨by simpa using h.1, by simp [h.2.1, hf], h.2.2⟩

/-- A scan changes nothing of a record that neither waits nor holds a zone. -/
theorem grantScan_restsAt {s : State} {i : SlotId} {q : Lease} (h : s.restsAt i q) :
    s.grantScan.restsAt i q := by
  have hc : s.clearEarmarks.restsAt i q := by simpa [State.restsAt] using h
  have hw : ∀ b, (s.clearEarmarks.walk b).restsAt i q := fun b =>
    foldl_restsAt _ (fun t e he ht => walkEntry_restsAt b (fun hei => h.1 (by
      rw [hei] at he
      simpa using he)) ht) hc
  unfold State.grantScan
  split
  · refine mapLeases_restsAt ?_ (mapLeases_restsAt ?_ (hw true))
    · split
      · exact withdrawYield_idle h.2.2
      · rfl
    · split
      · exact startYield_idle h.2.2
      · rfl
  · exact hw false

end Sys2Proof.Machine
end

