-- ==== Sys2Proof/Laws/Taking.lean ====
section
/-! SUPPORT. What taking a request or a command comes to when its occasion stands, the handle checks as
rewritings, and the operand forms that name a zone, a slot, a class or a link. -/

namespace Sys2Proof.Machine

/-! ### Numbers a byte names -/

theorem belowOf_eq_some {n : Nat} {b : Byte} {k : Fin n} : belowOf n b = some k ↔ b.toNat = k.1 := by
  unfold belowOf
  split
  · simp [Fin.ext_iff]
  · have := k.2
    constructor
    · intro h; simp at h
    · intro h; omega

theorem belowOf_eq_none {n : Nat} {b : Byte} : belowOf n b = none ↔ n ≤ b.toNat := by
  unfold belowOf
  split <;> simp <;> omega

theorem byteOf_toNat {n : Nat} (h : n < 256) : (byteOf n).toNat = n := by
  unfold byteOf
  rw [BitVec.toNat_ofNat]
  exact Nat.mod_eq_of_lt h

theorem belowOf_byteOf {n : Nat} (k : Fin n) (h : n ≤ 256) : belowOf n (byteOf k.1) = some k :=
  belowOf_eq_some.mpr (byteOf_toNat (by omega))

theorem slotByte_toNat (i : SlotId) : (slotByte i).toNat = i.1 := byteOf_toNat (by omega)

/-- A byte that names slot `i` is its number. -/
theorem slotByte_of_toNat {b : Byte} {i : SlotId} (h : b.toNat = i.1) : b = slotByte i :=
  BitVec.eq_of_toNat_eq (by rw [h, slotByte_toNat])

/-! ### Handles -/

theorem matchHandle_eq_some {s : State} {a b : Byte} {i : SlotId} {r : Lease} :
    s.matchHandle a b = some (i, r) ↔ s.handleNames a b i r := by
  unfold State.matchHandle State.handleNames slotOf
  cases hk : belowOf 128 a with
  | none =>
    rw [belowOf_eq_none] at hk
    constructor
    · simp
    · rintro ⟨h, -⟩; have := i.2; omega
  | some j =>
    rw [belowOf_eq_some] at hk
    constructor
    · intro h
      cases hl : s.lease j with
      | none => simp [hl] at h
      | some q =>
        simp only [hl] at h
        split at h
        · next hg =>
          simp only [Option.some.injEq, Prod.mk.injEq] at h
          obtain ⟨rfl, rfl⟩ := h
          exact ⟨hk, hl, hg⟩
        · simp at h
    · rintro ⟨h₁, h₂, h₃⟩
      have : j = i := Fin.ext (by omega)
      subst this
      simp [h₂, h₃]

theorem matchHandle_eq_none {s : State} {a b : Byte} :
    s.matchHandle a b = none ↔ ¬∃ i r, s.handleNames a b i r := by
  rw [← not_iff_not, not_not, ← ne_eq, Option.ne_none_iff_exists']
  constructor
  · rintro ⟨⟨i, r⟩, h⟩
    exact ⟨i, r, matchHandle_eq_some.mp h⟩
  · rintro ⟨i, r, h⟩
    exact ⟨(i, r), matchHandle_eq_some.mpr h⟩

theorem withHandle_badLength {n : Nat} {kind : Byte} {l : Link} {f : List Byte} {s : State}
    {k : SlotId → Lease → State × OutFrame} (h : f.length ≠ n) :
    withHandle n kind l f s k = (s, refuse kind (handleIdent f) .badLength) := by simp [withHandle, h]

theorem withHandle_stale {n : Nat} {kind : Byte} {l : Link} {f : List Byte} {s : State}
    {k : SlotId → Lease → State × OutFrame} (h : f.length = n)
    (hn : ¬∃ i r, s.handleNames (frameByte f 1) (frameByte f 2) i r) :
    withHandle n kind l f s k = (s, refuse kind (handleIdent f) .staleHandle) := by
  simp [withHandle, h, matchHandle_eq_none.mpr hn]

theorem withHandle_notOwner {n : Nat} {kind : Byte} {l : Link} {f : List Byte} {s : State}
    {k : SlotId → Lease → State × OutFrame} {i : SlotId} {r : Lease} (h : f.length = n)
    (hn : s.handleNames (frameByte f 1) (frameByte f 2) i r) (ho : r.owner ≠ l) :
    withHandle n kind l f s k = (s, refuse kind (handleIdent f) .notOwner) := by
  simp [withHandle, h, matchHandle_eq_some.mpr hn, ho]

theorem withHandle_own {n : Nat} {kind : Byte} {l : Link} {f : List Byte} {s : State}
    {k : SlotId → Lease → State × OutFrame} {i : SlotId} {r : Lease} (h : f.length = n)
    (hn : s.handleNames (frameByte f 1) (frameByte f 2) i r) (ho : r.owner = l) :
    withHandle n kind l f s k = k i r := by
  simp [withHandle, h, matchHandle_eq_some.mpr hn, ho]

/-- The identifier of a request whose handle names slot `i`. -/
theorem handleIdent_of_names {s : State} {f : List Byte} {i : SlotId} {r : Lease}
    (hn : s.handleNames (frameByte f 1) (frameByte f 2) i r) :
    handleIdent f = [slotByte i, s.generation i] := by
  rw [handleIdent, slotByte_of_toNat hn.1, hn.2.2]

/-! ### Requests of the links -/

/-- A request taken is evaluated with its slot emptied, and its reply placed. -/
theorem takeRequest_of_takes {l : Link} {f : List Byte} {s : State} {kind : Byte → Bool}
    {eval : List Byte → State → State × OutFrame} (h : s.takesRequest l f)
    (hk : kind (frameByte f 0) = true) :
    takeRequest l kind eval s = (eval f (s.takeSlot l)).1.placeReply s l (eval f (s.takeSlot l)).2 := by
  simp [takeRequest, h.1, h.2, hk]

theorem takeRequest_of_not {l : Link} {s : State} {kind : Byte → Bool}
    {eval : List Byte → State → State × OutFrame} (h : ∀ f, ¬s.takesRequest l f) :
    takeRequest l kind eval s = s := by
  unfold takeRequest
  split
  · next f hf =>
    split
    · next ht => exact absurd ⟨hf, (Bool.and_eq_true _ _ ▸ ht).1⟩ (h f)
    · rfl
  · rfl

/-- What the emptying of a link's slot leaves as it was. -/
@[simp] theorem takeSlot_views (s : State) (l : Link) :
    (∀ z, (s.takeSlot l).zone z = s.zone z) ∧ (∀ i, (s.takeSlot l).lease i = s.lease i) ∧
      (∀ i, (s.takeSlot l).generation i = s.generation i) ∧ (∀ c, (s.takeSlot l).cls c = s.cls c) ∧
      (s.takeSlot l).waiting = s.waiting ∧ (s.takeSlot l).sequence = s.sequence ∧
      (s.takeSlot l).running = s.running ∧ (s.takeSlot l).lowestFree = s.lowestFree ∧
      (∀ zs, (s.takeSlot l).limitsOf zs = s.limitsOf zs) ∧
      (∀ a b i r, (s.takeSlot l).handleNames a b i r ↔ s.handleNames a b i r) ∧
      (∀ p, (s.takeSlot l).countLeases p = s.countLeases p) :=
  ⟨fun _ => rfl, fun _ => rfl, fun _ => rfl, fun _ => rfl, rfl, rfl, rfl, rfl, fun _ => rfl,
    fun _ _ _ _ => Iff.rfl, fun _ => rfl⟩

/-- No record becomes dirty where nothing changes. -/
@[simp] theorem newlyDirty_self (s : State) (l : Link) : s.newlyDirty s l = [] := by
  rw [State.newlyDirty, List.filterMap_eq_nil_iff]
  intro i _
  cases h : s.lease i <;> simp [State.dirtyAt, h]

/-- Dirty records are judged by the lease table alone. -/
theorem newlyDirty_congr (s : State) {t u : State} (l : Link) (h : t.slots = u.slots) :
    s.newlyDirty t l = s.newlyDirty u l := by
  unfold State.newlyDirty State.lease State.slot
  rw [h]

/-- A request answered: the reply placed, with what the evaluation changed. -/
theorem takeSlot_placeReply (t s : State) (l : Link) (r : OutFrame) :
    (t.takeSlot l).placeReply s l r = t.answered s l r := by
  have h : s.newlyDirty (t.takeSlot l) l = s.newlyDirty t l := newlyDirty_congr s l rfl
  rw [State.placeReply, h, State.answered]
  generalize s.newlyDirty t l = x
  simp [State.takeSlot, State.link, State.setLink]
  congr

/-- A change to other parts of State than the links and the arbiter may be made before the request is taken. -/
theorem placeReply_takeSlot_of {t u : State} (s : State) {l : Link} {r : OutFrame} (h : t = u.takeSlot l) :
    t.placeReply s l r = u.answered s l r := by rw [h, takeSlot_placeReply]

/-! ### Commands of the mailbox -/

theorem complete_eq (s : State) (r : CmdResult) : s.complete r = s.completed r.code r.bytes := rfl

theorem takeCommand_of_takes {s : State} {code : Byte} {args : Table 8 Byte} {form : Table 8 Byte → Bool}
    {eval : Table 8 Byte → State → State × CmdResult} (h : s.takesCommand code args)
    (hf : form args = true) :
    takeCommand code form eval s =
      (eval args s.served).1.completed (eval args s.served).2.code (eval args s.served).2.bytes := by
  obtain ⟨h₁, h₂, h₃⟩ := h
  simp [takeCommand, h₁, h₂, h₃, hf, complete_eq, State.served]

theorem takeCommand_of_not {s : State} {code : Byte} {form : Table 8 Byte → Bool}
    {eval : Table 8 Byte → State → State × CmdResult} (h : ∀ code args, ¬s.takesCommand code args) :
    takeCommand code form eval s = s := by
  unfold takeCommand
  split
  · next args ha =>
    split
    · next ht =>
      simp only [Bool.and_eq_true] at ht
      exact absurd ⟨ha, rfl, ht.1.1⟩ (h s.port.command args)
    · rfl
  · rfl

theorem takeDirect_of_takes {s : State} {code : Byte} {args : Table 8 Byte}
    {eval : Table 8 Byte → State → State × CmdResult} (h : s.takesDirect code args) :
    takeDirect code eval s = (eval args s).1.completed (eval args s).2.code (eval args s).2.bytes := by
  obtain ⟨h₁, h₂, h₃, h₄⟩ := h
  simp [takeDirect, h₁, h₂, h₃, h₄, complete_eq]

theorem takeDirect_of_not {s : State} {code : Byte} {eval : Table 8 Byte → State → State × CmdResult}
    (h : ∀ code args, ¬s.takesDirect code args) : takeDirect code eval s = s := by
  unfold takeDirect
  split
  · next args ha =>
    split
    · next ht =>
      simp only [Bool.and_eq_true, Bool.not_eq_true', beq_iff_eq] at ht
      exact absurd ⟨ha, rfl, ht.1.1, ht.1.2⟩ (h s.port.command args)
    · rfl
  · rfl

/-- What serving the mailbox leaves as it was. -/
@[simp] theorem served_views (s : State) :
    (∀ z, s.served.zone z = s.zone z) ∧ (∀ i, s.served.lease i = s.lease i) ∧
      (∀ i, s.served.generation i = s.generation i) ∧ (∀ c, s.served.cls c = s.cls c) ∧
      (∀ l, s.served.link l = s.link l) ∧
      s.served.waiting = s.waiting ∧ s.served.sequence = s.sequence ∧ s.served.running = s.running ∧
      s.served.lowestFree = s.lowestFree ∧ s.served.occupied = s.occupied ∧
      (∀ a b i r, s.served.handleNames a b i r ↔ s.handleNames a b i r) ∧
      (∀ p, s.served.countLeases p = s.countLeases p) ∧ s.served.zones = s.zones ∧
      s.served.slots = s.slots ∧ s.served.classes = s.classes ∧ s.served.threshold = s.threshold ∧
      s.served.armed = s.armed :=
  ⟨fun _ => rfl, fun _ => rfl, fun _ => rfl, fun _ => rfl, fun _ => rfl, rfl, rfl, rfl, rfl, rfl,
    fun _ _ _ _ => Iff.rfl, fun _ => rfl, rfl, rfl, rfl, rfl, rfl⟩

/-! ### Questions about any record -/

theorem anyLease_eq_true {s : State} {p : Lease → Bool} :
    s.anyLease p = true ↔ ∃ i r, s.lease i = some r ∧ p r = true := by
  unfold State.anyLease
  rw [Table.any_list]
  constructor
  · rintro ⟨i, hi⟩
    split at hi
    · next r hr => exact ⟨i, r, hr, hi⟩
    · simp at hi
  · rintro ⟨i, r, hr, hp⟩
    refine ⟨i, ?_⟩
    rw [show (s.slots.get i).lease = some r from hr]
    exact hp

theorem lowestFree_eq_none {s : State} : s.lowestFree = none ↔ ∀ i, s.lease i ≠ none := by
  unfold State.lowestFree Table.lowest
  rw [List.find?_eq_none]
  constructor
  · intro h i hi
    refine h i (List.mem_finRange i) ?_
    show (s.lease i).isNone = true
    rw [hi]
    rfl
  · intro h i _
    have := h i
    simpa [State.lease, State.slot, Option.isNone_iff_eq_none] using this

/-- In the list of all indices the first with a property is the least one. -/
theorem find?_finRange {n : Nat} {p : Fin n → Bool} {i : Fin n} :
    (List.finRange n).find? p = some i ↔ p i = true ∧ ∀ j, j < i → p j = false := by
  rw [List.find?_eq_some_iff_getElem]
  constructor
  · rintro ⟨h, k, hk, he, hj⟩
    have hk' : k < n := by simpa using hk
    rw [List.getElem_finRange] at he
    subst he
    refine ⟨h, fun j hlt => ?_⟩
    have hjk : j.1 < k := hlt
    have := hj j.1 hjk
    simpa using this
  · rintro ⟨h, hj⟩
    refine ⟨h, i.1, by simp, by simp, fun j hlt => ?_⟩
    have := hj ⟨j, by omega⟩ hlt
    simpa using this

theorem lowestFree_eq_some {s : State} {i : SlotId} :
    s.lowestFree = some i ↔ s.lease i = none ∧ ∀ j, j < i → s.lease j ≠ none := by
  unfold State.lowestFree Table.lowest
  rw [find?_finRange]
  simp only [State.lease, State.slot, Option.isNone_iff_eq_none]
  constructor
  · rintro ⟨h, hj⟩
    exact ⟨h, fun j hlt he => by simpa [he] using hj j hlt⟩
  · rintro ⟨h, hj⟩
    refine ⟨h, fun j hlt => ?_⟩
    rw [Bool.eq_false_iff]
    intro hn
    exact hj j hlt (Option.isNone_iff_eq_none.mp hn)

end Sys2Proof.Machine
end

