-- ==== Sys2Proof/Laws/Evolving.lean ====
section
/-! SUPPORT. What every event but a few does to the records and the list: no record appears, none changes its link,
tag or priority, none leaves its limits, and the entries that stay in the list keep their kind and sequence. The
few are ACQUIRE and PARK, which put records into the table and the list, SET_ZONE, SET_CLASS and the cold start
(R10, R23, R46, R47, R64). -/

namespace Sys2Proof.Machine

/-- Every entry of the list stands there once and is a record that waits: what of R46 the grant scan relies on. -/
def State.ListQueued (s : State) : Prop :=
  s.waiting.Nodup ∧ ∀ i ∈ s.waiting, ∀ r, s.lease i = some r → r.phase.queued = true

theorem State.ListLaw.listQueued {s : State} (h : s.ListLaw) : s.ListQueued := by
  refine ⟨h.1, fun i hi r hr => ?_⟩
  obtain ⟨q, hq, hw⟩ := (h.2.2 i).mp hi
  rw [hr] at hq
  cases hq
  exact hw

/-- Record `r` may become `q`: same link, tag and priority, and within its limits if it was. -/
def State.becomes (s : State) (r q : Lease) : Prop :=
  q.owner = r.owner ∧ q.tag = r.tag ∧ q.priority = r.priority ∧
    ((r.phase.live = true → s.WithinLimits r) → q.phase.live = true → s.WithinLimits q)

/-- The record of an entry that stays in the list keeps its kind and sequence. -/
def Lease.sameEntry (r q : Lease) : Prop :=
  q.phase.queued = true ∧ q.phase.isParked = r.phase.isParked ∧ q.phase.sequence = r.phase.sequence

/-- `t` comes from `s` with no record put into the table or the list. -/
def State.evolves (s t : State) : Prop :=
  s.ListQueued →
    (∀ z, (t.zone z).cls = (s.zone z).cls) ∧ (∀ c, t.cls c = s.cls c) ∧ t.sequence = s.sequence ∧
      t.waiting.Sublist s.waiting ∧
      ∀ i q, t.lease i = some q →
        ∃ r, s.lease i = some r ∧ s.becomes r q ∧ (i ∈ t.waiting → r.sameEntry q)

theorem limitsOf_congr {s t : State} (hz : ∀ z, (t.zone z).cls = (s.zone z).cls) (hc : ∀ c, t.cls c = s.cls c)
    (zs : List ZoneId) : t.limitsOf zs = s.limitsOf zs := by
  unfold State.limitsOf
  simp only [hz, hc]

theorem withinLimits_congr {s t : State} (hz : ∀ z, (t.zone z).cls = (s.zone z).cls)
    (hc : ∀ c, t.cls c = s.cls c) (r : Lease) : t.WithinLimits r ↔ s.WithinLimits r := by
  unfold State.WithinLimits
  rw [limitsOf_congr hz hc]

theorem State.becomes.refl (s : State) (r : Lease) : s.becomes r r := ⟨rfl, rfl, rfl, fun h => h⟩

theorem State.becomes.trans {s : State} {r q v : Lease} (h₁ : s.becomes r q) (h₂ : s.becomes q v) :
    s.becomes r v :=
  ⟨h₂.1.trans h₁.1, h₂.2.1.trans h₁.2.1, h₂.2.2.1.trans h₁.2.2.1, fun h => h₂.2.2.2 (h₁.2.2.2 h)⟩

theorem State.evolves.listQueued {s t : State} (h : s.evolves t) (hs : s.ListQueued) : t.ListQueued := by
  obtain ⟨-, -, -, hw, hl⟩ := h hs
  refine ⟨hw.nodup hs.1, fun i hi q hq => ?_⟩
  obtain ⟨r, -, -, hk⟩ := hl i q hq
  exact (hk hi).1

theorem State.evolves.trans {s t u : State} (h₁ : s.evolves t) (h₂ : t.evolves u) : s.evolves u := by
  intro hs
  obtain ⟨a₁, a₂, a₃, a₄, a₅⟩ := h₁ hs
  obtain ⟨b₁, b₂, b₃, b₄, b₅⟩ := h₂ (h₁.listQueued hs)
  refine ⟨fun z => (b₁ z).trans (a₁ z), fun c => (b₂ c).trans (a₂ c), b₃.trans a₃, b₄.trans a₄, ?_⟩
  intro i v hv
  obtain ⟨q, hq, hqv, hk⟩ := b₅ i v hv
  obtain ⟨r, hr, hrq, hk'⟩ := a₅ i q hq
  refine ⟨r, hr, hrq.trans ⟨hqv.1, hqv.2.1, hqv.2.2.1, fun h hl => ?_⟩, fun hi => ?_⟩
  · exact (withinLimits_congr a₁ a₂ v).mp
      (hqv.2.2.2 (fun hl' => (withinLimits_congr a₁ a₂ q).mpr (h hl')) hl)
  · obtain ⟨k₁, k₂, k₃⟩ := hk hi
    obtain ⟨-, k₅, k₆⟩ := hk' (b₄.subset hi)
    exact ⟨k₁, k₂.trans k₅, k₃.trans k₆⟩

/-- The records and the list stay. -/
theorem State.evolves.congr {s t : State} (hz : ∀ z, (t.zone z).cls = (s.zone z).cls)
    (hc : ∀ c, t.cls c = s.cls c) (hs : t.slots = s.slots) (hw : t.waiting = s.waiting)
    (hq : t.sequence = s.sequence) : s.evolves t := by
  intro h
  have hl : ∀ i, t.lease i = s.lease i := fun i => by simp only [State.lease, State.slot, hs]
  refine ⟨hz, hc, hq, hw ▸ List.Sublist.refl _, fun i q hi => ?_⟩
  rw [hl] at hi
  exact ⟨q, hi, .refl s q, fun hm => ⟨h.2 i (hw ▸ hm) q hi, rfl, rfl⟩⟩

theorem State.evolves.refl (s : State) : s.evolves s := .congr (fun _ => rfl) (fun _ => rfl) rfl rfl rfl

theorem State.evolves.foldl {α : Type} {f : State → α → State} (h : ∀ (s : State) x, s.evolves (f s x))
    (xs : List α) (s : State) : s.evolves (xs.foldl f s) := by
  induction xs generalizing s with
  | nil => exact .refl s
  | cons x xs ih => exact (h s x).trans (ih _)

/-- A record replaced by one that it may become, of the same entry if it waits. -/
theorem setLease_evolves {s : State} {i : SlotId} {r q : Lease} (hr : s.lease i = some r)
    (hq : s.becomes r q) (hk : r.phase.queued = true → r.sameEntry q) : s.evolves (s.setLease i q) := by
  intro h
  refine ⟨by simp, by simp, by simp, by simp, fun j v hv => ?_⟩
  simp only [State.setLease_views, State.setLease_fields] at hv ⊢
  split at hv
  · next hj =>
    subst hj
    cases hv
    exact ⟨r, hr, hq, fun hm => hk (h.2 j hm r hr)⟩
  · exact ⟨v, hv, .refl s v, fun hm => ⟨h.2 j hm v hv, rfl, rfl⟩⟩

theorem mapLeases_evolves {s : State} {f : SlotId → Lease → Lease} (hf : ∀ i r, s.becomes r (f i r))
    (hk : ∀ i (r : Lease), r.phase.queued = true → r.sameEntry (f i r)) : s.evolves (s.mapLeases f) := by
  intro h
  refine ⟨by simp, by simp, by simp, by simp, fun j v hv => ?_⟩
  simp only [State.mapLeases_views, State.mapLeases_fields, Option.map_eq_some_iff] at hv ⊢
  obtain ⟨r, hr, rfl⟩ := hv
  exact ⟨r, hr, hf j r, fun hm => hk j r (h.2 j hm r hr)⟩

theorem setZoneState_evolves (s : State) (z : ZoneId) (x : ZoneState) : s.evolves (s.setZoneState z x) := by
  refine .congr (fun w => ?_) (by simp) (by simp) (by simp) (by simp)
  simp only [State.setZoneState_views]
  split
  · next h => rw [h]
  · rfl

theorem setEarmark_evolves (s : State) (z : ZoneId) (e : Option SlotId) : s.evolves (s.setEarmark z e) := by
  refine .congr (fun w => ?_) (by simp) (by simp) (by simp) (by simp)
  simp only [State.setEarmark_views]
  split
  · next h => rw [h]
  · rfl

theorem raiseTable_evolves (s : State) (f : Byte) : s.evolves (s.raiseTable f) :=
  .congr (by simp) (by simp) (by simp) (by simp) (by simp)

theorem clearEarmarks_evolves (s : State) : s.evolves s.clearEarmarks :=
  .congr (fun z => by simp [State.clearEarmarks, State.zone]) (fun _ => rfl) rfl rfl rfl

theorem giveUpZone_evolves (s : State) (z : ZoneId) : s.evolves (s.giveUpZone z) := by
  unfold State.giveUpZone
  split
  · exact setZoneState_evolves _ _ _
  · exact (setZoneState_evolves _ _ _).trans (raiseTable_evolves _ _)
  · exact .refl s

theorem giveUpZones_evolves (s : State) (zs : List ZoneId) : s.evolves (s.giveUpZones zs) :=
  .foldl giveUpZone_evolves zs s

theorem takeZones_evolves (s : State) (i : SlotId) (zs : List ZoneId) : s.evolves (s.takeZones i zs) :=
  .foldl (fun t z => setZoneState_evolves t z _) zs s

theorem leaveList_evolves (s : State) (i : SlotId) : s.evolves (s.leaveList i) := by
  intro h
  refine ⟨by simp, by simp, by simp, by simp, fun j v hv => ?_⟩
  simp only [State.leaveList_views, State.leaveList_fields, List.mem_filter] at hv ⊢
  exact ⟨v, hv, .refl s v, fun hm => ⟨h.2 j hm.1 v hv, rfl, rfl⟩⟩

theorem freeSlot_evolves (s : State) (i : SlotId) : s.evolves (s.freeSlot i) := by
  intro h
  refine ⟨by simp, ?_, by simp, by simp, fun j v hv => ?_⟩
  · intro c
    unfold State.cls
    rw [(freeSlot_tableOnly s i).fields.1]
  · simp only [freeSlot_views] at hv ⊢
    split at hv
    · cases hv
    · exact ⟨v, hv, .refl s v, fun hm => ⟨h.2 j hm v hv, rfl, rfl⟩⟩

/-- A record that is not in the list ends. -/
theorem terminate_evolves {s : State} {i : SlotId} {r : Lease} {p : Phase} (hr : s.lease i = some r)
    (hp : p.live = false) (hi : s.ListQueued → i ∉ s.waiting) : s.evolves (s.terminate i r p) := by
  unfold State.terminate
  split
  · intro h
    refine ⟨by simp, by simp, by simp, by simp, fun j v hv => ?_⟩
    simp only [State.setLease_views, State.setLease_fields] at hv ⊢
    split at hv
    · next hj =>
      subst hj
      cases hv
      exact ⟨r, hr, ⟨rfl, rfl, rfl, fun _ hl => by simp [hp] at hl⟩, fun hm => absurd hm (hi h)⟩
    · exact ⟨v, hv, .refl s v, fun hm => ⟨h.2 j hm v hv, rfl, rfl⟩⟩
  · exact freeSlot_evolves s i

theorem endHeld_evolves {s : State} {i : SlotId} {r : Lease} {p : Phase} (hr : s.lease i = some r)
    (hh : r.phase.queued = false) (hp : p.live = false) : s.evolves (s.endHeld i r p) := by
  unfold State.endHeld
  refine (giveUpZones_evolves s r.zones).trans (terminate_evolves (by simpa using hr) hp fun h hm => ?_)
  have := h.2 i hm r (by simpa using hr)
  rw [hh] at this
  cases this

theorem endQueued_evolves {s : State} {i : SlotId} {r : Lease} {p : Phase} (hr : s.lease i = some r)
    (hp : p.live = false) : s.evolves (s.endQueued i r p) := by
  unfold State.endQueued
  exact (leaveList_evolves s i).trans (terminate_evolves (by simpa using hr) hp fun _ => by simp)

/-! ### The grant scan -/

theorem startYield_becomes (s : State) (r : Lease) : s.becomes r r.startYield := by
  refine ⟨by simp, ?_, by simp, ?_⟩
  · unfold Lease.startYield
    split <;> rfl
  · unfold Lease.startYield
    split
    · next c w hp =>
      intro h _
      obtain ⟨h₁, h₂, h₃, h₄, h₅, h₆⟩ := h (by simp [hp, Phase.live, Phase.holds])
      rw [hp] at h₄
      exact ⟨h₁, h₂, h₃, fun _ => h₄ rfl, fun hq => by simp [Phase.queued] at hq, le_refl _⟩
    · exact fun h => h

theorem withdrawYield_becomes (s : State) (r : Lease) : s.becomes r r.withdrawYield := by
  refine ⟨by simp, ?_, by simp, ?_⟩
  · unfold Lease.withdrawYield
    split <;> rfl
  · unfold Lease.withdrawYield
    split
    · next c y w hp =>
      intro h _
      obtain ⟨h₁, h₂, h₃, h₄, h₅, h₆⟩ := h (by simp [hp, Phase.live, Phase.holds])
      rw [hp] at h₄
      exact ⟨h₁, h₂, h₃, fun _ => h₄ rfl, fun hq => by simp [Phase.queued] at hq, Nat.zero_le _⟩
    · exact fun h => h

theorem startYield_sameEntry {r : Lease} (h : r.phase.queued = true) : r.sameEntry r.startYield := by
  rw [startYield_idle (by cases hp : r.phase <;> simp_all [Phase.queued, Phase.holds])]
  exact ⟨h, rfl, rfl⟩

theorem withdrawYield_sameEntry {r : Lease} (h : r.phase.queued = true) : r.sameEntry r.withdrawYield := by
  rw [withdrawYield_idle (by cases hp : r.phase <;> simp_all [Phase.queued, Phase.holds])]
  exact ⟨h, rfl, rfl⟩

theorem granted_becomes (s : State) {r : Lease} (h : r.phase.queued = true) : s.becomes r r.granted := by
  refine ⟨rfl, rfl, rfl, fun hr _ => ?_⟩
  obtain ⟨h₁, h₂, h₃, -, -, -⟩ := hr (by simp [Phase.live, h])
  refine ⟨h₁, h₂, ?_, fun _ => h₂, fun hq => by simp [Lease.granted, Phase.queued] at hq, Nat.zero_le _⟩
  show (if r.phase.isParked then r.renewals else 0) ≤ _
  split
  · exact h₃
  · exact Nat.zero_le _

/-- An entry of the list is granted. -/
theorem grant_evolves {s : State} {i : SlotId} {r : Lease} (hr : s.lease i = some r)
    (hq : r.phase.queued = true) : s.evolves (s.grant i r) := by
  unfold State.grant
  refine State.evolves.trans (t := (s.leaveList i).setLease i r.granted) (fun h => ?_) (takeZones_evolves _ _ _)
  refine ⟨by simp, by simp, by simp, by simp, fun j v hv => ?_⟩
  simp only [State.setLease_views, State.setLease_fields, State.leaveList_views, State.leaveList_fields,
    List.mem_filter] at hv ⊢
  split at hv
  · next hj =>
    subst hj
    cases hv
    exact ⟨r, hr, granted_becomes s hq, fun hm => by simp at hm⟩
  · exact ⟨v, hv, .refl s v, fun hm => ⟨h.2 j hm.1 v hv, rfl, rfl⟩⟩

theorem askYield_evolves (s : State) (k : SlotId) (p : Priority) : s.evolves (s.askYield k p) := by
  unfold State.askYield
  split
  · next r hr =>
    split
    · exact setLease_evolves hr (startYield_becomes s r) startYield_sameEntry
    · exact .refl s
  · exact .refl s

theorem earmarkZone_evolves (b : Bool) (e : SlotId) (p : Priority) (s : State) (z : ZoneId) :
    s.evolves (s.earmarkZone b e p z) := by
  unfold State.earmarkZone
  split
  · exact setEarmark_evolves _ _ _
  · split
    · exact (setEarmark_evolves _ _ _).trans (askYield_evolves _ _ _)
    · exact setEarmark_evolves _ _ _
  · exact .refl s

theorem walkEntry_evolves (b : Bool) {s : State} {e : SlotId}
    (he : ∀ r, s.lease e = some r → r.phase.queued = true) : s.evolves (s.walkEntry b e) := by
  unfold State.walkEntry
  split
  · next r hr =>
    split
    · exact grant_evolves hr (he r hr)
    · exact .foldl (earmarkZone_evolves b e r.priority) _ s
  · exact .refl s

theorem walkEntry_waiting (b : Bool) (s : State) {e x : SlotId} (hx : x ∈ s.waiting) (hne : x ≠ e) :
    x ∈ (s.walkEntry b e).waiting := by
  unfold State.walkEntry
  split
  · next r _ =>
    split
    · simp [State.grant, hx, hne]
    · refine foldl_keeps (P := fun t => x ∈ t.waiting) (fun t z ht => ?_) _ hx
      unfold State.earmarkZone
      split
      · exact ht
      · split
        · rw [(askYield_views _ _ _).2.1]
          exact ht
        · exact ht
      · exact ht
  · exact hx

theorem walk_evolves (b : Bool) (s : State) : s.evolves (s.walk b) := by
  intro h
  have hall : ∀ (xs : List SlotId) (t : State), xs.Nodup → (∀ x ∈ xs, x ∈ t.waiting) → s.evolves t →
      s.evolves (xs.foldl (State.walkEntry b) t) := by
    intro xs
    induction xs with
    | nil => exact fun t _ _ ht => ht
    | cons x xs ih =>
      intro t hn hm ht
      rw [List.nodup_cons] at hn
      rw [List.foldl_cons]
      refine ih _ hn.2 (fun y hy => ?_) (ht.trans (walkEntry_evolves b ?_))
      · exact walkEntry_waiting b t (hm y (List.mem_cons_of_mem _ hy)) (by rintro rfl; exact hn.1 hy)
      · exact (ht.listQueued h).2 x (hm x (List.mem_cons_self ..))
  exact hall s.waiting s h.1 (fun _ hx => hx) (.refl s) h

/-- The grant scan (R54 to R61). -/
theorem grantScan_evolves (s : State) : s.evolves s.grantScan := by
  unfold State.grantScan
  split
  · refine (((clearEarmarks_evolves s).trans (walk_evolves true _)).trans
      (mapLeases_evolves (fun i r => ?_) fun i r hr => ?_)).trans
      (mapLeases_evolves (fun i r => ?_) fun i r hr => ?_)
    · split
      · exact startYield_becomes _ r
      · exact .refl _ r
    · split
      · exact startYield_sameEntry hr
      · exact ⟨hr, rfl, rfl⟩
    · split
      · exact withdrawYield_becomes _ r
      · exact .refl _ r
    · split
      · exact withdrawYield_sameEntry hr
      · exact ⟨hr, rfl, rfl⟩
  · exact (clearEarmarks_evolves s).trans (walk_evolves false _)

/-! ### Records that end and ticks -/

theorem lapseAt_evolves (s : State) (i : SlotId) : s.evolves (s.lapseAt i) := by
  unfold State.lapseAt
  split
  · next r hr =>
    split
    · exact endQueued_evolves hr rfl
    · exact .refl s
  · exact .refl s

theorem expireAt_evolves (s : State) (i : SlotId) : s.evolves (s.expireAt i) := by
  unfold State.expireAt
  split
  · next r hr =>
    split
    · next hc =>
      simp only [Bool.and_eq_true] at hc
      exact endHeld_evolves hr (holds_not_queued hc.1) rfl
    · exact .refl s
  · exact .refl s

theorem revokeLateAt_evolves (s : State) (i : SlotId) : s.evolves (s.revokeLateAt i) := by
  unfold State.revokeLateAt
  split
  · next r hr =>
    split
    · next hc =>
      simp only [Bool.and_eq_true] at hc
      exact (endHeld_evolves hr (holds_not_queued (isYielding_holds hc.1.1)) rfl).trans (raiseTable_evolves _ _)
    · exact .refl s
  · exact .refl s

theorem endIfDue_evolves (s : State) (i : SlotId) : s.evolves (s.endIfDue i) := by
  unfold State.endIfDue
  split
  · split
    · exact .refl s
    · split
      · exact lapseAt_evolves s i
      · split
        · exact expireAt_evolves s i
        · exact revokeLateAt_evolves s i
  · exact .refl s

theorem decrement_becomes (s : State) (r : Lease) : s.becomes r { r with phase := r.phase.decrement } := by
  refine ⟨rfl, rfl, rfl, fun h hl => ?_⟩
  obtain ⟨h₁, h₂, h₃, h₄, h₅, h₆⟩ := h (by simpa [Phase.live] using hl)
  refine ⟨h₁, h₂, h₃, ?_, ?_, ?_⟩ <;> cases hp : r.phase <;>
    simp_all [Phase.decrement, Phase.holds, Phase.queued, Phase.countdown, Phase.yieldCountdown] <;> omega

theorem warn_becomes (s : State) (r : Lease) :
    s.becomes r { r with phase := r.phase.warn r.limits.warnLead } := by
  refine ⟨rfl, rfl, rfl, fun h hl => ?_⟩
  obtain ⟨h₁, h₂, h₃, h₄, h₅, h₆⟩ := h (by simpa [Phase.live] using hl)
  refine ⟨h₁, h₂, h₃, ?_, ?_, ?_⟩ <;> cases hp : r.phase <;>
    simp_all [Phase.warn, Phase.holds, Phase.queued, Phase.countdown, Phase.yieldCountdown]

/-- A tick (R80 to R88). -/
theorem takeTick_evolves (s : State) : s.evolves s.takeTick := by
  have h₁ : s.evolves s.decrementAll.warnAll :=
    (mapLeases_evolves (fun _ r => decrement_becomes s r) fun _ r hr =>
      ⟨by simpa using hr, by simp, by cases hp : r.phase <;> rfl⟩).trans
    (mapLeases_evolves (fun _ r => warn_becomes _ r) fun _ r hr =>
      ⟨by simpa using hr, by simp, by cases hp : r.phase <;> rfl⟩)
  show s.evolves (State.endAndScan _)
  unfold State.endAndScan
  split
  · exact (h₁.trans (.foldl endIfDue_evolves _ _)).trans (grantScan_evolves _)
  · exact h₁

/-! ### Requests -/

theorem releaseLease_evolves {s : State} {i : SlotId} {r : Lease} : s.evolves (s.releaseLease i r) := by
  unfold State.releaseLease
  split
  · exact ((giveUpZones_evolves _ _).trans (freeSlot_evolves _ _)).trans (grantScan_evolves _)
  · split
    · exact ((leaveList_evolves _ _).trans (freeSlot_evolves _ _)).trans (grantScan_evolves _)
    · exact freeSlot_evolves _ _

theorem renewCheck_none {s : State} {r : Lease} (h : renewCheck s r = none) :
    r.phase.live = true ∧ r.phase.queued = false ∧ r.renewals < r.limits.renewalLimit := by
  unfold renewCheck at h
  have hn : r.renewals < r.limits.renewalLimit := by
    by_contra hc
    rw [Nat.not_lt] at hc
    simp only [hc, if_true] at h
    repeat' split at h
    all_goals cases h
  refine ⟨?_, ?_, hn⟩ <;> cases hp : r.phase <;>
    simp_all [Phase.terminal, Phase.live, Phase.holds, Phase.queued, Phase.isYielding]

theorem evalRenew_evolves (l : Link) (f : List Byte) (s : State) : s.evolves (evalRenew l f s).1 := by
  refine withHandle_keeps (.refl s) fun i r hr _ => ?_
  dsimp only
  split
  · exact .refl s
  · next hc =>
    obtain ⟨hv, hq, hn⟩ := renewCheck_none hc
    refine setLease_evolves hr ⟨rfl, rfl, rfl, fun h _ => ?_⟩ fun h => by simp [hq] at h
    obtain ⟨h₁, h₂, h₃, -, -, -⟩ := h hv
    refine ⟨h₁, Nat.min_le_right _ _, ?_, fun _ => Nat.min_le_right _ _,
      fun h => by simp [Lease.renewed, Phase.queued] at h, Nat.zero_le _⟩
    show min 255 (r.renewals + 1) ≤ r.limits.renewalLimit
    omega

theorem evalRelease_evolves (l : Link) (f : List Byte) (s : State) : s.evolves (evalRelease l f s).1 :=
  withHandle_keeps (.refl s) fun _ _ _ _ => releaseLease_evolves

theorem widenRecordCheck_none {r : Lease} (h : widenRecordCheck r = none) : ∃ c w, r.phase = .held c w := by
  unfold widenRecordCheck at h
  cases hp : r.phase <;> simp_all [Phase.terminal, Phase.live, Phase.holds, Phase.queued, Phase.isYielding]

theorem evalWiden_evolves (l : Link) (f : List Byte) (s : State) : s.evolves (evalWiden l f s).1 := by
  refine withHandle_keeps (.refl s) fun i r hr _ => ?_
  dsimp only
  split
  · exact .refl s
  · next hc =>
    split
    · exact .refl s
    · next z _ =>
      split
      · exact .refl s
      · next hz =>
        obtain ⟨c, w, hp⟩ := widenRecordCheck_none hc
        show s.evolves ((s.setLease i (s.widened r z)).takeZones i [z])
        refine (setLease_evolves (q := s.widened r z) hr ⟨rfl, rfl, rfl, fun h _ => ?_⟩ fun h => ?_).trans (takeZones_evolves _ _ _)
        · refine ⟨rfl, Nat.min_le_right _ _, (widenZoneCheck_none hz).2.2.2.2.2, fun _ => ?_, fun h => ?_, ?_⟩
          · simp only [State.widened, hp, Phase.clampLease, Phase.countdown]
            exact Nat.min_le_right _ _
          · simp [State.widened, hp, Phase.clampLease, Phase.queued] at h
          · simp [State.widened, hp, Phase.clampLease, Phase.yieldCountdown]
        · simp [hp, Phase.queued] at h

theorem smallest_spec {l : List Nat} (h : l ≠ []) : (∀ x ∈ l, smallest l ≤ x) ∧ smallest l ∈ l := by
  obtain ⟨m, hm⟩ : ∃ m, l.min? = some m := by
    cases hl : l.min? with
    | none => exact absurd (List.min?_eq_none_iff.mp hl) h
    | some m => exact ⟨m, rfl⟩
  rw [smallest, hm]
  obtain ⟨h₁, h₂⟩ := List.min?_eq_some_iff.mp hm
  exact ⟨h₂, h₁⟩

/-- Fewer zones never lower a limit (R11). -/
theorem limitsOf_mono (s : State) {zs ws : List ZoneId} (h : ∀ z ∈ zs, z ∈ ws) (hn : zs ≠ []) :
    (s.limitsOf ws).maxDuration ≤ (s.limitsOf zs).maxDuration ∧
      (s.limitsOf ws).yieldWindow ≤ (s.limitsOf zs).yieldWindow ∧
      (s.limitsOf ws).renewalLimit ≤ (s.limitsOf zs).renewalLimit ∧
      (s.limitsOf ws).maxWait ≤ (s.limitsOf zs).maxWait := by
  have hw : ws ≠ [] := by
    rintro rfl
    obtain ⟨z, hz⟩ := List.exists_mem_of_ne_nil zs hn
    exact absurd (h z hz) (by simp)
  have key : ∀ g : ClassParams → Nat, smallest ((ws.map fun z => s.cls (s.zone z).cls).map g) ≤
      smallest ((zs.map fun z => s.cls (s.zone z).cls).map g) := by
    intro g
    have h₁ := (smallest_spec (l := (ws.map fun z => s.cls (s.zone z).cls).map g) (by simpa using hw)).1
    have h₂ := (smallest_spec (l := (zs.map fun z => s.cls (s.zone z).cls).map g) (by simpa using hn)).2
    refine h₁ _ ?_
    simp only [List.map_map, List.mem_map] at h₂ ⊢
    obtain ⟨z, hz, he⟩ := h₂
    exact ⟨z, h z hz, he⟩
  exact ⟨key _, key _, key _, key _⟩

/-- Of two or more distinct zones, some are left when one is given up. -/
theorem others_left {zs : List ZoneId} {z : ZoneId} (hn : zs.Nodup) (hm : z ∈ zs) (hl : zs.length ≠ 1) :
    zs.filter (· != z) ≠ [] := by
  intro he
  rw [List.filter_eq_nil_iff] at he
  have hall : ∀ w ∈ zs, w = z := fun w hw => by simpa using he w hw
  match zs, hn, hm, hl with
  | [_], _, _, hl => exact hl rfl
  | a :: b :: _, hn, _, _ =>
    have ha := hall a (by simp)
    have hb := hall b (by simp)
    simp [ha, hb] at hn

theorem evalNarrow_evolves (l : Link) (f : List Byte) {s : State}
    (hz : ∀ i r, s.lease i = some r → r.zones.Nodup) : s.evolves (evalNarrow l f s).1 := by
  refine withHandle_keeps (.refl s) fun i r hr _ => ?_
  dsimp only
  split
  · exact .refl s
  · next hc =>
    split
    · exact .refl s
    · next z _ =>
      split
      · exact .refl s
      · next hm =>
        split
        · exact .refl s
        · next hlen =>
          have hmem : z ∈ r.zones := by simpa using hm
          have hne := others_left (hz i r hr) hmem hlen
          obtain ⟨m₁, m₂, m₃, m₄⟩ := limitsOf_mono s (zs := r.zones.filter (· != z)) (ws := r.zones)
            (fun w hw => (List.mem_filter.mp hw).1) hne
          show s.evolves (State.grantScan ((s.setLease i (s.narrowed r z)).giveUpZone z))
          refine ((setLease_evolves (q := s.narrowed r z) hr ⟨rfl, rfl, rfl, fun h hl => ?_⟩ fun h => ⟨h, rfl, rfl⟩).trans
            (giveUpZone_evolves _ _)).trans (grantScan_evolves _)
          obtain ⟨h₁, h₂, h₃, h₄, h₅, h₆⟩ := h hl
          rw [h₁] at h₂ h₃ h₄ h₅ h₆
          exact ⟨rfl, h₂.trans m₁, h₃.trans m₃, fun hh => (h₄ hh).trans m₁, fun hq => (h₅ hq).trans m₄,
            h₆.trans m₂⟩

/-! ### Records put into the table -/

/-- What ACQUIRE makes of the part: nothing but a cause, or a record granted at once, or one that waits, for a wait
above 0 (R40 to R45). -/
theorem evalAcquire_ways (l : Link) (f : List Byte) {s : State} {P : State → Prop} (hs : P s)
    (hraise : P (s.raiseTable flagExhausted))
    (hgrant : ∀ q i, q.zones ≠ [] → acquireCheck s l q = none → s.lease i = none → P (acquireGrant l q i s))
    (hwait : ∀ q i, q.zones ≠ [] → acquireCheck s l q = none → s.lease i = none →
      min q.wait (s.limitsOf q.zones).maxWait ≠ 0 → P (acquireWait l q i s)) :
    P (evalAcquire l f s).1 := by
  unfold evalAcquire
  split
  · exact hs
  · next hlen =>
    split
    · exact hs
    · next q hq =>
      have hz : q.zones ≠ [] := by
        rintro hz
        have := (acquireFields_zones (by simpa using hlen) hq).1
        simp [hz] at this
      split
      · exact hs
      · next hchk =>
        split
        · exact hraise
        · next i hi =>
          have hi := lowestFree_lease hi
          dsimp only
          split
          · exact hgrant q i hz hchk hi
          · split
            · exact hs
            · next hw =>
              split
              · exact hraise
              · exact hwait q i hz hchk hi hw

/-- A FREE slot is in no list. -/
theorem State.ListLaw.free {s : State} (hl : s.ListLaw) {i : SlotId} (hi : s.lease i = none) : i ∉ s.waiting := by
  intro hm
  obtain ⟨r, hr, -⟩ := (hl.2.2 i).mp hm
  rw [hi] at hr
  cases hr

/-- A record put into a slot outside the list. -/
theorem allocate_listQueued {s : State} {i : SlotId} {r : Lease} (h : s.ListQueued) (hi : i ∉ s.waiting) :
    (s.allocate i r).ListQueued := by
  refine ⟨by simpa using h.1, fun j hj v hv => ?_⟩
  simp only [allocate_views] at hj hv
  rw [if_neg (by rintro rfl; exact hi hj)] at hv
  exact h.2 j hj v hv

/-- A slot put into the list. -/
theorem enterList_listQueued {s : State} {i : SlotId} {q : Priority} {b : Bool}
    (hn : s.waiting.Nodup) (hi : i ∉ s.waiting)
    (h : ∀ j r, j = i ∨ j ∈ s.waiting → s.lease j = some r → r.phase.queued = true) :
    (s.enterList i q b).ListQueued := by
  refine ⟨?_, fun j hj v hv => ?_⟩
  · simp only [State.enterList_fields]
    exact insertBefore_nodup _ _ _ hn hi
  · simp only [State.enterList_fields, State.enterList_views, insertBefore_mem] at hj hv
    exact h j v hj hv

/-- The new record waits in the list. -/
theorem newWaiter_listQueued {s : State} (h : s.ListQueued) {i : SlotId} (hi : i ∉ s.waiting) {r : Lease}
    (hq : r.phase.queued = true) (q : Priority) (b : Bool) : ((s.allocate i r).enterList i q b).ListQueued := by
  refine enterList_listQueued (by simpa using h.1) (by simpa using hi) fun j v hj hv => ?_
  simp only [allocate_views] at hj hv
  split at hv
  · cases hv
    exact hq
  · next hji => exact h.2 j (hj.resolve_left hji) v hv

/-- The record parked waits in the list. -/
theorem parked_listQueued {s : State} (h : s.ListQueued) {i : SlotId} (hi : i ∉ s.waiting) {r : Lease}
    (hq : r.phase.queued = true) (zs : List ZoneId) (q : Priority) (b : Bool) :
    (((s.giveUpZones zs).setLease i r).enterList i q b).ListQueued := by
  refine enterList_listQueued (by simpa using h.1) (by simpa using hi) fun j v hj hv => ?_
  simp only [State.setLease_views, State.setLease_fields, giveUpZones_views] at hj hv
  split at hv
  · cases hv
    exact hq
  · next hji => exact h.2 j (hj.resolve_left hji) v hv

/-- PARK takes a record that holds, so no entry of the list. -/
theorem parkCheck_outside {s : State} {r : Lease} {i : SlotId} (h : s.ListQueued) (hr : s.lease i = some r)
    (hh : r.phase.holds = true) : i ∉ s.waiting := by
  intro hm
  have := h.2 i hm r hr
  rw [holds_not_queued hh] at this
  cases this

/-! ### Commands of the host -/

theorem closeFree_evolves (s : State) (z : ZoneId) : s.evolves (s.closeFree z) :=
  (setZoneState_evolves _ _ _).trans (raiseTable_evolves _ _)

theorem fenceZone_evolves {z : ZoneId} {on : Bool → SlotId → State × CmdResult} {s : State}
    (hon : ∀ b k, (s.zone z).state.holder = some k → s.evolves (on b k).1) :
    s.evolves (fenceZone z on s).1 := by
  unfold fenceZone
  split
  · exact .refl s
  · exact (closeFree_evolves s z).trans (grantScan_evolves _)
  · exact grantScan_evolves s
  · next k hs => exact hon false k (by rw [hs]; rfl)
  · next k hs => exact hon true k (by rw [hs]; rfl)

theorem evalFenceWait_evolves (a : Table 8 Byte) (s : State) : s.evolves (evalFenceWait a s).1 := by
  unfold evalFenceWait
  split
  · refine fenceZone_evolves fun b k hk => ?_
    split
    · exact grantScan_evolves s
    · exact (setZoneState_evolves _ _ _).trans (grantScan_evolves _)
  · exact .refl s

/-- The zone closed and its holder ended; under R3 a zone's holder does not wait. -/
theorem forceFence_evolves {s : State} (hh : s.HolderLaw) {z : ZoneId} {k : SlotId}
    (hk : (s.zone z).state.holder = some k) : s.evolves (s.forceFence z k) := by
  unfold State.forceFence
  split
  · next r hr =>
    refine ((closeFree_evolves s z).trans (giveUpZones_evolves _ _)).trans
      (terminate_evolves (by simpa [State.closeFree] using hr) rfl fun h hm => ?_)
    have hw := h.2 k hm r (by simpa [State.closeFree] using hr)
    obtain ⟨q, hq, hq₂, -⟩ := (hh z k).mp hk
    rw [hr] at hq
    cases hq
    rw [holds_not_queued hq₂] at hw
    cases hw
  · exact closeFree_evolves s z

theorem evalFenceForce_evolves (a : Table 8 Byte) {s : State} (hh : s.HolderLaw) :
    s.evolves (evalFenceForce a s).1 := by
  unfold evalFenceForce
  split
  · exact fenceZone_evolves fun b k hk => (forceFence_evolves hh hk).trans (grantScan_evolves _)
  · exact .refl s

theorem evalLift_evolves (a : Table 8 Byte) (s : State) : s.evolves (evalLift a s).1 := by
  unfold evalLift
  repeat' split
  all_goals first | exact .refl s | exact (setZoneState_evolves _ _ _).trans (grantScan_evolves _)

theorem evalRevoke_evolves (a : Table 8 Byte) (s : State) : s.evolves (evalRevoke a s).1 := by
  unfold evalRevoke
  split
  · next i r hm =>
    split
    · exact .refl s
    · have hr := (matchHandle_lease hm).1
      show s.evolves (s.revokeLease i r)
      unfold State.revokeLease
      split
      · next hh => exact (endHeld_evolves hr (holds_not_queued hh) rfl).trans (grantScan_evolves _)
      · exact (endQueued_evolves hr rfl).trans (grantScan_evolves _)
  · exact .refl s

/-! ### Links and restarts -/

theorem freeWhere_evolves (s : State) (p : Lease → Bool) : s.evolves (s.freeWhere p) := by
  refine .foldl (fun t i => ?_) _ s
  unfold State.freeAt
  split
  · split
    · split
      · exact (leaveList_evolves _ _).trans (freeSlot_evolves _ _)
      · exact freeSlot_evolves _ _
    · exact .refl t
  · exact .refl t

theorem forgetReported_evolves (s : State) (l : Link) : s.evolves (s.forgetReported l) := by
  refine mapLeases_evolves (fun i r => ?_) fun i r hr => ?_
  · split
    · exact ⟨rfl, rfl, rfl, fun h hl => h hl⟩
    · exact .refl s r
  · split
    · exact ⟨hr, rfl, rfl⟩
    · exact ⟨hr, rfl, rfl⟩

theorem clientRestart_evolves (s : State) (l : Link) : s.evolves (s.clientRestart l) :=
  ((freeWhere_evolves _ _).trans (forgetReported_evolves _ _)).trans (grantScan_evolves _)

theorem setLink_evolves (s : State) (l : Link) (x : LinkState) : s.evolves (s.setLink l x) :=
  .congr (by simp) (by simp) (by simp) (by simp) (by simp)

theorem disableLink_evolves (s : State) (l : Link) (n : Nat) : s.evolves (s.disableLink l n) :=
  (((setLink_evolves _ _ _).trans (freeWhere_evolves _ _)).trans (forgetReported_evolves _ _)).trans
    (grantScan_evolves _)

theorem applyLine_evolves (s : State) (l : Link) (p : LineParams) (n : Nat) : s.evolves (s.applyLine l p n) := by
  unfold State.applyLine
  dsimp only
  split
  · exact (setLink_evolves _ _ _).trans (disableLink_evolves _ _ _)
  · exact setLink_evolves _ _ _

theorem applyFrame_evolves (f : OutFrame) (s : State) : s.evolves (s.applyFrame f) := by
  unfold State.applyFrame
  split
  · unfold State.applyReport
    split
    · next r hr =>
      split
      · split
        · exact freeSlot_evolves _ _
        · exact setLease_evolves hr ⟨rfl, rfl, rfl, fun h hl => h hl⟩ fun h => ⟨h, rfl, rfl⟩
      · exact .refl s
    · exact .refl s
  · exact .refl s

theorem restartLapseAt_evolves (s : State) (i : SlotId) : s.evolves (s.restartLapseAt i) := by
  unfold State.restartLapseAt
  split
  · next r hr =>
    split
    · exact endQueued_evolves hr rfl
    · exact .refl s
  · exact .refl s

theorem abortCommand_fields (s : State) : s.abortCommand.classes = s.classes ∧
    s.abortCommand.sequence = s.sequence := by
  unfold State.abortCommand
  split <;> exact ⟨rfl, rfl⟩

theorem beginRestart_evolves (s : State) (b : Table 4 Nat) : s.evolves (s.beginRestart b) := by
  have h₀ : s.evolves (State.clearLinks (State.abortCommand
      { s with restarting := true, arbiter := 4, port := s.port.clearCauses }) b) := by
    refine .congr (fun z => ?_) (fun c => ?_) (abortCommand_table _).2.1 (abortCommand_table _).2.2.1
      (abortCommand_fields _).2
    · show ((State.abortCommand _).zones.get z).cls = _
      rw [(abortCommand_table _).1]
      rfl
    · show (State.abortCommand _).classes.get c = _
      rw [(abortCommand_fields _).1]
      rfl
  unfold State.beginRestart State.endWaits
  refine h₀.trans ?_
  generalize State.clearLinks _ _ = u
  refine State.evolves.trans (t := (List.finRange 128).foldl State.restartLapseAt u)
    (.foldl restartLapseAt_evolves _ u) ?_
  generalize (List.finRange 128).foldl State.restartLapseAt u = v
  refine State.evolves.trans (t := { v with waiting := [] }) (fun h => ?_) (clearEarmarks_evolves _)
  exact ⟨fun _ => rfl, fun _ => rfl, rfl, List.nil_sublist _, fun i q hq => ⟨q, hq, .refl v q, fun hm => by cases hm⟩⟩

theorem completeRestart_fields (s : State) : s.completeRestart.classes = s.classes ∧
    s.completeRestart.sequence = s.sequence := by
  unfold State.completeRestart
  split <;> exact ⟨rfl, rfl⟩

theorem endRestart_evolves (s : State) : s.evolves s.endRestart := by
  refine (grantScan_evolves s).trans (.congr (fun z => ?_) (fun c => ?_) (completeRestart_table _).2.1
    (completeRestart_table _).2.2.1 (completeRestart_fields _).2)
  · show ((State.completeRestart _).zones.get z).cls = _
    rw [(completeRestart_table _).1]
    rfl
  · show (State.completeRestart _).classes.get c = _
    rw [(completeRestart_fields _).1]
    rfl

/-! ### Requests and commands taken -/

theorem takeRequest_evolves {l : Link} {k : Byte → Bool} {ev : List Byte → State → State × OutFrame} {s : State}
    (hev : ∀ f, (s.takeSlot l).evolves (ev f (s.takeSlot l)).1) : s.evolves (takeRequest l k ev s) := by
  unfold takeRequest
  split
  · next f _ =>
    split
    · refine (State.evolves.congr (fun _ => rfl) (fun _ => rfl) rfl rfl rfl).trans ((hev f).trans ?_)
      exact setLink_evolves _ _ _
    · exact .refl s
  · exact .refl s

theorem complete_evolves (s : State) (r : CmdResult) : s.evolves (s.complete r) :=
  .congr (fun _ => rfl) (fun _ => rfl) rfl rfl rfl

theorem takeCommand_evolves {c : Byte} {g : Table 8 Byte → Bool}
    {ev : Table 8 Byte → State → State × CmdResult} {s : State}
    (hev : ∀ a, s.served.evolves (ev a s.served).1) : s.evolves (takeCommand c g ev s) := by
  unfold takeCommand
  split
  · next a _ =>
    split
    · exact (State.evolves.congr (t := s.served) (fun _ => rfl) (fun _ => rfl) rfl rfl rfl).trans
        ((hev a).trans (complete_evolves _ _))
    · exact .refl s
  · exact .refl s

theorem takeDirect_evolves {c : Byte} {ev : Table 8 Byte → State → State × CmdResult} {s : State}
    (hev : ∀ a, s.evolves (ev a s).1) : s.evolves (takeDirect c ev s) := by
  unfold takeDirect
  split
  · next a _ =>
    split
    · exact (hev a).trans (complete_evolves _ _)
    · exact .refl s
  · exact .refl s

/-! ### The commands -/

/-- The commands that put no record into the table or the list and change no class. -/
def evolvingRow : Instr → Bool
  | .acquire _ | .park _ | .setZone | .setClass | .coldStart | .leaveReset .. | .wrstNLow _ true => false
  | _ => true

theorem clockOnly_evolves {s t : State} (h : s.clockOnly t) : s.evolves t := by
  obtain ⟨h₁, h₂, h₃, h₄, -, -, h₅, -⟩ := h.fields
  exact .congr (fun z => by simp only [State.zone, h₁]) (fun c => by simp only [State.cls, h₄]) h₂ h₃ h₅

theorem trafficOnly_evolves {s t : State} (h : s.trafficOnly t) : s.evolves t := by
  obtain ⟨h₁, h₂, h₃, h₄, -, -, h₅, -⟩ := h.fields
  exact .congr (fun z => by simp only [State.zone, h₁]) (fun c => by simp only [State.cls, h₄]) h₂ h₃ h₅

theorem portOnly_evolves {s t : State} (h : s.portOnly t) : s.evolves t := by
  obtain ⟨h₁, h₂, h₃, h₄, -, -, h₅, -⟩ := h.fields
  exact .congr (fun z => by simp only [State.zone, h₁]) (fun c => by simp only [State.cls, h₄]) h₂ h₃ h₅

theorem State.evolves.of_eq {s t u : State} (h : s.evolves t) (he : u = t) : s.evolves u := he ▸ h

theorem evalSetTimebase_evolves (a : Table 8 Byte) (s : State) : s.evolves (evalSetTimebase a s).1 := by
  unfold evalSetTimebase
  repeat' split
  · exact .refl s
  · exact .refl s
  · exact clockOnly_evolves (chooseMode_clockOnly _ _)

theorem State.evolves.after {s t u : State} (h₂ : t.evolves u) (h₁ : s.evolves t) : s.evolves u := h₁.trans h₂

set_option maxHeartbeats 1000000 in
/-- What every such command does to the records and the list. -/
theorem exec_evolves {c : Instr} {s t : State} (hc : evolvingRow c = true) (hh : s.HolderLaw)
    (hz : ∀ i r, s.lease i = some r → r.zones.Nodup) (he : exec c s = .next t) : s.evolves t := by
  have same : ∀ {u : State}, u.zones = s.zones → u.classes = s.classes → u.slots = s.slots →
      u.waiting = s.waiting → u.sequence = s.sequence → s.evolves u := fun h₁ h₂ h₃ h₄ h₅ =>
    .congr (fun z => by simp only [State.zone, h₁]) (fun c => by simp only [State.cls, h₂]) h₃ h₄ h₅
  have nothing : ∀ {u : State}, u = s → s.evolves u := fun h => h ▸ .refl s
  have served : s.evolves s.served := same rfl rfl rfl rfl rfl
  cases c <;> simp only [exec, execRenew, execRelease, execWiden, execNarrow, execQueryLease, execQueryZone,
    execBadKind, execReadZone, execReadClass, execReadLease, execSetThreshold, execReadList, execNextExpiry,
    execClassLoad, execFenceWait, execFenceForce, execLift, execRevoke, execSetTimebase, execReadLink, execSetLink,
    execLinkReset, execStore, execStoreComplete, execWarmRestart, execBadCommand, execWrstNLow, execRestartEnd,
    execSyncinPulse, execLockRunTimeout, execSyncinLoss, execInternalTick, execSearchTimeout, execRunningChangeScan,
    execTick, execLapse, execExpiry, execRevokeForLateness, execCharacterReceived, execDecodeEntry,
    execClientRestart, execLinkDisable, execReplySend, execNoticeBuild, execFrameComplete, execCauseClear,
    execGroupEnableWrite, execTicks0Read, execI2cPointerSet, execRegisterWrite, Host.Outcome.next.injEq] at he
  case acquire | park | setZone | setClass | coldStart | leaveReset => cases hc
  all_goals subst he
  case renew l => exact takeRequest_evolves fun f => evalRenew_evolves l f _
  case release l => exact takeRequest_evolves fun f => evalRelease_evolves l f _
  case widen l => exact takeRequest_evolves fun f => evalWiden_evolves l f _
  case narrow l => exact takeRequest_evolves fun f => evalNarrow_evolves l f fun i r hr => hz i r (by simpa using hr)
  case queryLease l => exact takeRequest_evolves fun f => withHandle_keeps (.refl _) fun _ _ _ _ => .refl _
  case queryZone l =>
    refine takeRequest_evolves fun f => .of_eq (.refl _) ?_
    unfold evalQueryZone
    repeat' split
    all_goals rfl
  case badKind l => exact takeRequest_evolves fun f => .refl _
  case readZone =>
    refine takeCommand_evolves fun a => .of_eq (.refl _) ?_
    unfold evalReadZone
    split <;> rfl
  case readClass =>
    refine takeCommand_evolves fun a => .of_eq (.refl _) ?_
    unfold evalReadClass
    split <;> rfl
  case readLease =>
    refine takeCommand_evolves fun a => .of_eq (.refl _) ?_
    unfold evalReadLease
    split <;> rfl
  case setThreshold =>
    refine takeCommand_evolves fun a => ?_
    unfold evalSetThreshold
    split
    · split
      · exact .refl _
      · split
        · exact .refl _
        · exact .congr (fun _ => rfl) (fun _ => rfl) rfl rfl rfl
    · exact .refl _
  case readList =>
    refine takeCommand_evolves fun a => .of_eq (.refl _) ?_
    unfold evalReadList
    split <;> rfl
  case nextExpiry => exact takeCommand_evolves fun a => .refl _
  case classLoad =>
    refine takeCommand_evolves fun a => .of_eq (.refl _) ?_
    unfold evalClassLoad
    split <;> rfl
  case fenceWait => exact takeCommand_evolves fun a => evalFenceWait_evolves a _
  case fenceForce => exact takeCommand_evolves fun a => evalFenceForce_evolves a (hh.congr rfl rfl)
  case lift => exact takeCommand_evolves fun a => evalLift_evolves a _
  case revoke => exact takeCommand_evolves fun a => evalRevoke_evolves a _
  case setTimebase e =>
    exact takeDirect_evolves fun a =>
      (clockOnly_evolves (passTo_clockOnly _ _)).trans (evalSetTimebase_evolves a _)
  case readLink =>
    refine takeDirect_evolves fun a => .of_eq (.refl _) ?_
    unfold evalReadLink
    split <;> rfl
  case setLink n =>
    refine takeDirect_evolves fun a => ?_
    unfold evalSetLink
    split
    · exact applyLine_evolves _ _ _ _
    · exact .refl _
  case linkReset n =>
    refine takeDirect_evolves fun a => ?_
    unfold evalLinkReset
    split
    · exact setLink_evolves _ _ _
    · exact .refl _
  case store =>
    repeat' split
    all_goals exact same rfl rfl rfl rfl rfl
  case storeComplete =>
    split
    all_goals exact same rfl rfl rfl rfl rfl
  case warmRestart b =>
    split
    · split
      · exact State.evolves.after (beginRestart_evolves _ b) (same rfl rfl rfl rfl rfl)
      · exact .refl s
    · exact .refl s
  case badCommand =>
    repeat' split
    all_goals exact same rfl rfl rfl rfl rfl
  case wrstNLow b finishing =>
    cases finishing with
    | true => cases hc
    | false =>
      split
      · exact .refl s
      · split
        · exact same rfl rfl rfl rfl rfl
        · rw [if_neg Bool.false_ne_true]
          exact State.evolves.after (beginRestart_evolves _ b) (same rfl rfl rfl rfl rfl)
  case restartEnd b =>
    split
    · split
      · exact endRestart_evolves s
      · exact same rfl rfl rfl rfl rfl
    · exact .refl s
  case syncinPulse e =>
    split
    · exact .refl s
    · exact clockOnly_evolves ((passTo_clockOnly _ _).trans (pulseAt_clockOnly _ _))
  case lockRunTimeout => exact clockOnly_evolves (awaitDue_clockOnly _ _)
  case syncinLoss => exact clockOnly_evolves (awaitDue_clockOnly _ _)
  case internalTick => exact clockOnly_evolves (awaitDue_clockOnly _ _)
  case searchTimeout => exact clockOnly_evolves (awaitDue_clockOnly _ _)
  case runningChangeScan =>
    split
    · split
      · exact State.evolves.after (grantScan_evolves _) (same rfl rfl rfl rfl rfl)
      · exact .refl s
    · exact .refl s
  case tick =>
    split
    · split
      · exact State.evolves.after (takeTick_evolves _) (same rfl rfl rfl rfl rfl)
      · exact .refl s
    · exact .refl s
  case lapse i =>
    split
    · exact lapseAt_evolves s i
    · exact .refl s
  case expiry i =>
    split
    · exact expireAt_evolves s i
    · exact .refl s
  case revokeForLateness i =>
    split
    · exact revokeLateAt_evolves s i
    · exact .refl s
  case characterReceived l n c =>
    split
    · exact trafficOnly_evolves (receive_trafficOnly _ _ _ _)
    · exact .refl s
  case decodeEntry l =>
    split
    · split
      · split
        · exact State.evolves.after (clientRestart_evolves _ l) (same rfl rfl rfl rfl rfl)
        · exact trafficOnly_evolves (takeEntry_trafficOnly _ _ _ _)
      · exact .refl s
    · exact .refl s
  case clientRestart l =>
    split
    · split
      · exact State.evolves.after (clientRestart_evolves _ l) (same rfl rfl rfl rfl rfl)
      · exact .refl s
    · exact .refl s
  case linkDisable l n =>
    split
    · exact disableLink_evolves s l n
    · exact .refl s
  case replySend l =>
    repeat' split
    all_goals exact same rfl rfl rfl rfl rfl
  case noticeBuild l =>
    repeat' split
    all_goals exact same rfl rfl rfl rfl rfl
  case frameComplete l =>
    split
    · split
      · exact .refl s
      · exact State.evolves.after (applyFrame_evolves _ _) (same rfl rfl rfl rfl rfl)
      · exact State.evolves.after (applyFrame_evolves _ _) (same rfl rfl rfl rfl rfl)
    · exact .refl s
  case causeClear => exact portOnly_evolves (portEvents_portOnly _ _)
  case groupEnableWrite => exact portOnly_evolves (portEvents_portOnly _ _)
  case ticks0Read => exact portOnly_evolves (portEvents_portOnly _ _)
  case registerWrite => exact portOnly_evolves (portEvents_portOnly _ _)
  case i2cPointerSet => exact portOnly_evolves (portEvents_portOnly _ _)

end Sys2Proof.Machine
end

