-- ==== Sys2Proof/Laws/Earmarks.lean ====
section
/-! SUPPORT. An earmark names a waiting record that lists the zone (R6): the grant scan makes it so, and what does
not scan keeps it. -/

namespace Sys2Proof.Machine

/-- The slot holds a WAITING or PARKED record that lists the zone. -/
def State.wants (s : State) (e : SlotId) (z : ZoneId) : Prop :=
  ∃ r, s.lease e = some r ∧ r.phase.queued = true ∧ z ∈ r.zones

/-- No earmark but those of `s`, and every waiting record of `s` still waits for the same zones. -/
def State.wantsKept (s t : State) : Prop :=
  (∀ z e, (t.zone z).earmark = some e → (s.zone z).earmark = some e) ∧ ∀ e z, s.wants e z → t.wants e z

theorem State.wantsKept.refl (s : State) : s.wantsKept s := ⟨fun _ _ h => h, fun _ _ h => h⟩

theorem State.wantsKept.trans {s t u : State} (h₁ : s.wantsKept t) (h₂ : t.wantsKept u) : s.wantsKept u :=
  ⟨fun z e h => h₁.1 z e (h₂.1 z e h), fun e z h => h₂.2 e z (h₁.2 e z h)⟩

theorem State.wantsKept.after {s t u : State} (h₂ : t.wantsKept u) (h₁ : s.wantsKept t) : s.wantsKept u :=
  h₁.trans h₂

theorem State.wantsKept.earmarkLaw {s t : State} (h : s.wantsKept t) (hs : s.EarmarkLaw) : t.EarmarkLaw :=
  fun z e he => h.2 e z (hs z e (h.1 z e he))

theorem State.wantsKept.congr {s t : State} (hz : ∀ z, (t.zone z).earmark = (s.zone z).earmark)
    (hl : ∀ i, t.lease i = s.lease i) : s.wantsKept t :=
  ⟨fun z e h => by rwa [hz] at h, fun e z ⟨r, hr, h⟩ => ⟨r, by rw [hl]; exact hr, h⟩⟩

theorem State.wantsKept.of_eq {s t : State} (hz : t.zones = s.zones) (hs : t.slots = s.slots) : s.wantsKept t :=
  .congr (fun z => by simp only [State.zone, hz]) fun i => by simp only [State.lease, State.slot, hs]

theorem State.wantsKept.foldl {α : Type} {f : State → α → State} (h : ∀ (s : State) x, s.wantsKept (f s x))
    (xs : List α) (s : State) : s.wantsKept (xs.foldl f s) := by
  induction xs generalizing s with
  | nil => exact .refl s
  | cons x xs ih => exact (h s x).trans (ih _)

/-! ### The operations -/

/-- The record of a slot replaced where no record waits, or by one that waits for the same zones. -/
theorem setLease_wantsKept {s : State} {i : SlotId} {q : Lease}
    (h : ∀ r, s.lease i = some r → r.phase.queued = true → q.phase.queued = true ∧ q.zones = r.zones) :
    s.wantsKept (s.setLease i q) := by
  refine ⟨fun z e he => by simpa using he, fun e z ⟨r, hr, hq, hz⟩ => ?_⟩
  by_cases hi : e = i
  · subst hi
    obtain ⟨h₁, h₂⟩ := h r hr hq
    exact ⟨q, by simp, h₁, h₂ ▸ hz⟩
  · exact ⟨r, by simpa [hi] using hr, hq, hz⟩

theorem setZoneState_wantsKept (s : State) (z : ZoneId) (x : ZoneState) : s.wantsKept (s.setZoneState z x) :=
  .congr (fun w => by simp only [State.setZoneState_views]; split <;> simp_all) fun i => by simp

theorem raiseTable_wantsKept (s : State) (f : Byte) : s.wantsKept (s.raiseTable f) := .of_eq (by simp) (by simp)

theorem giveUpZone_wantsKept (s : State) (z : ZoneId) : s.wantsKept (s.giveUpZone z) := by
  unfold State.giveUpZone
  split
  · exact setZoneState_wantsKept _ _ _
  · exact (setZoneState_wantsKept _ _ _).trans (raiseTable_wantsKept _ _)
  · exact .refl s

theorem giveUpZones_wantsKept (s : State) (zs : List ZoneId) : s.wantsKept (s.giveUpZones zs) :=
  .foldl giveUpZone_wantsKept zs s

theorem takeZones_wantsKept (s : State) (i : SlotId) (zs : List ZoneId) : s.wantsKept (s.takeZones i zs) :=
  .foldl (fun t z => setZoneState_wantsKept t z _) zs s

/-- A slot freed that holds no waiting record. -/
theorem freeSlot_wantsKept {s : State} {i : SlotId} (h : ∀ r, s.lease i = some r → r.phase.queued = false) :
    s.wantsKept (s.freeSlot i) := by
  refine ⟨fun z e he => by simpa using he, fun e z ⟨r, hr, hq, hz⟩ => ⟨r, ?_, hq, hz⟩⟩
  have hi : e ≠ i := by
    rintro rfl
    rw [h r hr] at hq
    cases hq
  simpa [hi] using hr

theorem terminate_wantsKept {s : State} {i : SlotId} {r : Lease} {p : Phase} (hr : s.lease i = some r)
    (hq : r.phase.queued = false) : s.wantsKept (s.terminate i r p) := by
  have hi : ∀ v, s.lease i = some v → v.phase.queued = false := fun v hv => by
    rw [hr] at hv
    cases hv
    exact hq
  unfold State.terminate
  split
  · exact setLease_wantsKept fun v hv hv' => absurd (hi v hv) (by simp [hv'])
  · exact freeSlot_wantsKept hi

theorem endHeld_wantsKept {s : State} {i : SlotId} {r : Lease} {p : Phase} (hr : s.lease i = some r)
    (hq : r.phase.queued = false) : s.wantsKept (s.endHeld i r p) :=
  (giveUpZones_wantsKept s r.zones).trans (terminate_wantsKept (by simpa using hr) hq)

theorem mapLeases_wantsKept {s : State} {f : SlotId → Lease → Lease}
    (h : ∀ i r, r.phase.queued = true → (f i r).phase.queued = true ∧ (f i r).zones = r.zones) :
    s.wantsKept (s.mapLeases f) := by
  refine ⟨fun z e he => by simpa using he, fun e z ⟨r, hr, hq, hz⟩ => ?_⟩
  obtain ⟨h₁, h₂⟩ := h e r hq
  exact ⟨f e r, by simp [hr], h₁, h₂ ▸ hz⟩

theorem startYield_wants {r : Lease} (h : r.phase.queued = true) :
    r.startYield.phase.queued = true ∧ r.startYield.zones = r.zones := by
  rw [startYield_idle (by cases hp : r.phase <;> simp_all [Phase.queued, Phase.holds])]
  exact ⟨h, rfl⟩

theorem withdrawYield_wants {r : Lease} (h : r.phase.queued = true) :
    r.withdrawYield.phase.queued = true ∧ r.withdrawYield.zones = r.zones := by
  rw [withdrawYield_idle (by cases hp : r.phase <;> simp_all [Phase.queued, Phase.holds])]
  exact ⟨h, rfl⟩

theorem askYield_wantsKept (s : State) (k : SlotId) (p : Priority) : s.wantsKept (s.askYield k p) := by
  unfold State.askYield
  split
  · next r hr =>
    split
    · refine setLease_wantsKept fun v hv hq => ?_
      rw [hr] at hv
      cases hv
      exact startYield_wants hq
    · exact .refl s
  · exact .refl s

/-! ### The grant scan -/

theorem clearEarmarks_none (s : State) (z : ZoneId) : (s.clearEarmarks.zone z).earmark = none := by
  simp [State.clearEarmarks, State.zone]

theorem clearEarmarks_earmarkLaw (s : State) : s.clearEarmarks.EarmarkLaw := by
  intro z e he
  rw [clearEarmarks_none] at he
  cases he

/-- An entry that is not granted earmarks zones that it lists. -/
theorem earmarkZone_keeps {b : Bool} {e : SlotId} {p : Priority} {s : State} {z : ZoneId} :
    (∀ w k, ((s.earmarkZone b e p z).zone w).earmark = some k → (s.zone w).earmark = some k ∨ k = e ∧ w = z) ∧
      ∀ k w, s.wants k w → (s.earmarkZone b e p z).wants k w := by
  have hset : (∀ w k, ((s.setEarmark z (some e)).zone w).earmark = some k →
      (s.zone w).earmark = some k ∨ k = e ∧ w = z) ∧
      ∀ k w, s.wants k w → (s.setEarmark z (some e)).wants k w := by
    refine ⟨fun w k hk => ?_, fun k w ⟨r, hr, h⟩ => ⟨r, by simpa using hr, h⟩⟩
    simp only [State.setEarmark_views] at hk
    split at hk
    · next hw =>
      cases hk
      exact .inr ⟨rfl, hw⟩
    · exact .inl hk
  unfold State.earmarkZone
  split
  · exact hset
  · next k _ _ =>
    split
    · have hy := askYield_wantsKept (s.setEarmark z (some e)) k p
      exact ⟨fun w j hj => hset.1 w j (hy.1 w j hj), fun j w hw => hy.2 j w (hset.2 j w hw)⟩
    · exact hset
  · exact ⟨fun _ _ h => .inl h, fun _ _ h => h⟩

/-- The entries not yet walked carry no earmark, and every earmark is of a record that wants its zone. -/
def State.marksUpTo (s : State) (rest : List SlotId) : Prop :=
  s.EarmarkLaw ∧ ∀ z e, (s.zone z).earmark = some e → e ∉ rest

theorem earmarkZones_marks {b : Bool} {e : SlotId} {p : Priority} {rest : List SlotId} (hn : e ∉ rest)
    (zs : List ZoneId) {s : State} (he : ∀ z ∈ zs, s.wants e z) (h : s.marksUpTo rest) :
    (zs.foldl (State.earmarkZone b e p) s).marksUpTo rest := by
  induction zs generalizing s with
  | nil => exact h
  | cons z zs ih =>
    obtain ⟨h₁, h₂⟩ := earmarkZone_keeps (b := b) (e := e) (p := p) (s := s) (z := z)
    refine ih (fun w hw => h₂ e w (he w (List.mem_cons_of_mem _ hw))) ⟨fun w k hk => ?_, fun w k hk => ?_⟩
    · rcases h₁ w k hk with hk | ⟨rfl, rfl⟩
      · exact h₂ k w (h.1 w k hk)
      · exact h₂ k w (he w (List.mem_cons_self ..))
    · rcases h₁ w k hk with hk | ⟨rfl, rfl⟩
      · exact h.2 w k hk
      · exact hn

/-- One entry of the walk. -/
theorem walkEntry_marks {b : Bool} {e : SlotId} {rest : List SlotId} (hn : e ∉ rest) {s : State}
    (hq : ∀ r, s.lease e = some r → r.phase.queued = true) (h : s.marksUpTo (e :: rest)) :
    (s.walkEntry b e).marksUpTo rest := by
  have hr' : s.marksUpTo rest := ⟨h.1, fun z k hk hm => h.2 z k hk (List.mem_cons_of_mem _ hm)⟩
  unfold State.walkEntry
  split
  · next r hr =>
    split
    · have hmark : ∀ z, ((s.grant e r).zone z).earmark = (s.zone z).earmark := by
        intro z
        simp only [State.grant, takeZones_views, State.setLease_views, State.leaveList_views]
        split <;> rfl
      have hlease : ∀ k, k ≠ e → (s.grant e r).lease k = s.lease k := by
        intro k hk
        simp [State.grant, hk]
      refine ⟨fun z k hk => ?_, fun z k hk => hr'.2 z k (by rwa [hmark] at hk)⟩
      rw [hmark] at hk
      obtain ⟨v, hv, h'⟩ := h.1 z k hk
      have hke : k ≠ e := fun hke => h.2 z k hk (hke ▸ List.mem_cons_self ..)
      exact ⟨v, by rw [hlease k hke]; exact hv, h'⟩
    · exact earmarkZones_marks hn r.zones (fun z hz => ⟨r, hr, hq r hr, hz⟩) hr'
  · exact hr'

theorem walk_earmarkLaw (b : Bool) {s : State} (hl : s.ListQueued) (hm : ∀ z, (s.zone z).earmark = none) :
    (s.walk b).EarmarkLaw := by
  have hall : ∀ (xs : List SlotId) (t : State), xs.Nodup → (∀ x ∈ xs, x ∈ t.waiting) → t.ListQueued →
      t.marksUpTo xs → (xs.foldl (State.walkEntry b) t).EarmarkLaw := by
    intro xs
    induction xs with
    | nil => exact fun t _ _ _ ht => ht.1
    | cons x xs ih =>
      intro t hn hmem ht hk
      rw [List.nodup_cons] at hn
      rw [List.foldl_cons]
      have hq := ht.2 x (hmem x (List.mem_cons_self ..))
      refine ih _ hn.2 (fun y hy => ?_) ((walkEntry_evolves b hq).listQueued ht) (walkEntry_marks hn.1 hq hk)
      exact walkEntry_waiting b t (hmem y (List.mem_cons_of_mem _ hy)) (by rintro rfl; exact hn.1 hy)
  refine hall s.waiting s hl.1 (fun _ hx => hx) hl ⟨fun z e he => ?_, fun z e he => ?_⟩ <;>
    (rw [hm] at he; cases he)

/-- After a grant scan every earmark names a waiting record that lists the zone (R6). -/
theorem grantScan_earmarkLaw {s : State} (h : s.ListQueued) : s.grantScan.EarmarkLaw := by
  have hw := fun b => walk_earmarkLaw b ((clearEarmarks_evolves s).listQueued h) (clearEarmarks_none s)
  unfold State.grantScan
  split
  · refine ((mapLeases_wantsKept fun i r hr => ?_).trans (mapLeases_wantsKept fun i r hr => ?_)).earmarkLaw (hw true)
    · split
      · exact startYield_wants hr
      · exact ⟨hr, rfl⟩
    · split
      · exact withdrawYield_wants hr
      · exact ⟨hr, rfl⟩
  · exact hw false

/-! ### What an event does to the earmarks -/

/-- The event keeps R6 when the list is lawful. -/
def State.marksKept (s t : State) : Prop := s.ListQueued → s.EarmarkLaw → t.EarmarkLaw

theorem State.wantsKept.marksKept {s t : State} (h : s.wantsKept t) : s.marksKept t := fun _ => h.earmarkLaw

theorem State.marksKept.refl (s : State) : s.marksKept s := fun _ h => h

theorem State.marksKept.before {s t u : State} (h : s.marksKept t) (hu : t.wantsKept u) : s.marksKept u :=
  fun hl hm => hu.earmarkLaw (h hl hm)

theorem State.marksKept.after {s t u : State} (h : t.marksKept u) (he : s.evolves t) (hk : s.wantsKept t) :
    s.marksKept u := fun hl hm => h (he.listQueued hl) (hk.earmarkLaw hm)

/-- An event that ends with a grant scan. -/
theorem State.evolves.scanned {s t : State} (h : s.evolves t) : s.marksKept t.grantScan :=
  fun hl _ => grantScan_earmarkLaw (h.listQueued hl)

/-! ### Records that end and ticks -/

theorem expireAt_wantsKept (s : State) (i : SlotId) : s.wantsKept (s.expireAt i) := by
  unfold State.expireAt
  split
  · next r hr =>
    split
    · next hc =>
      simp only [Bool.and_eq_true] at hc
      exact endHeld_wantsKept hr (holds_not_queued hc.1)
    · exact .refl s
  · exact .refl s

theorem revokeLateAt_wantsKept (s : State) (i : SlotId) : s.wantsKept (s.revokeLateAt i) := by
  unfold State.revokeLateAt
  split
  · next r hr =>
    split
    · next hc =>
      simp only [Bool.and_eq_true] at hc
      exact (endHeld_wantsKept hr (holds_not_queued (isYielding_holds hc.1.1))).trans (raiseTable_wantsKept _ _)
    · exact .refl s
  · exact .refl s

theorem takeTick_marksKept (s : State) : s.marksKept s.takeTick := by
  have hd : s.wantsKept s.decrementAll.warnAll :=
    State.wantsKept.trans (t := s.decrementAll) (mapLeases_wantsKept fun _ r hr => ⟨by simpa using hr, rfl⟩)
      (mapLeases_wantsKept fun _ r hr => ⟨by simpa using hr, rfl⟩)
  have he : s.evolves s.decrementAll.warnAll :=
    (mapLeases_evolves (fun _ r => decrement_becomes s r) fun _ r hr =>
      ⟨by simpa using hr, by simp, by cases hp : r.phase <;> rfl⟩).trans
    (mapLeases_evolves (fun _ r => warn_becomes _ r) fun _ r hr =>
      ⟨by simpa using hr, by simp, by cases hp : r.phase <;> rfl⟩)
  show s.marksKept (State.endAndScan _)
  unfold State.endAndScan
  split
  · exact (he.trans (.foldl endIfDue_evolves _ _)).scanned
  · exact hd.marksKept

/-! ### Requests -/

theorem releaseLease_marksKept {s : State} {i : SlotId} {r : Lease} (hr : s.lease i = some r) :
    s.marksKept (s.releaseLease i r) := by
  unfold State.releaseLease
  split
  · exact ((giveUpZones_evolves _ _).trans (freeSlot_evolves _ _)).scanned
  · split
    · exact ((leaveList_evolves _ _).trans (freeSlot_evolves _ _)).scanned
    · next hq =>
      refine (freeSlot_wantsKept fun v hv => ?_).marksKept
      rw [hr] at hv
      cases hv
      simpa using hq

theorem evalRenew_wantsKept (l : Link) (f : List Byte) (s : State) : s.wantsKept (evalRenew l f s).1 := by
  refine withHandle_keeps (.refl s) fun i r hr _ => ?_
  dsimp only
  split
  · exact .refl s
  · next hc =>
    refine setLease_wantsKept fun v hv hq => ?_
    rw [hr] at hv
    cases hv
    rw [(renewCheck_none hc).2.1] at hq
    cases hq

theorem evalRelease_marksKept (l : Link) (f : List Byte) (s : State) : s.marksKept (evalRelease l f s).1 :=
  withHandle_keeps (.refl s) fun _ _ hr _ => releaseLease_marksKept hr

theorem evalWiden_wantsKept (l : Link) (f : List Byte) (s : State) : s.wantsKept (evalWiden l f s).1 := by
  refine withHandle_keeps (.refl s) fun i r hr _ => ?_
  dsimp only
  split
  · exact .refl s
  · next hc =>
    split
    · exact .refl s
    · next z _ =>
      split
      · exact .refl s
      · obtain ⟨c, w, hp⟩ := widenRecordCheck_none hc
        show s.wantsKept ((s.setLease i (s.widened r z)).takeZones i [z])
        refine (setLease_wantsKept fun v hv hq => ?_).trans (takeZones_wantsKept _ _ _)
        rw [hr] at hv
        cases hv
        simp [hp, Phase.queued] at hq

/-- NARROW, which ends with a grant scan when it is taken. -/
theorem evalNarrow_marksKept (l : Link) (f : List Byte) (s : State) :
    s.marksKept (evalNarrow l f s).1 := by
  refine withHandle_keeps (.refl s) fun i r hr _ => ?_
  dsimp only
  repeat' split
  all_goals first
    | exact .refl s
    | skip
  next z _ _ _ =>
  show s.marksKept (State.grantScan ((s.setLease i (s.narrowed r z)).giveUpZone z))
  intro hl _
  refine grantScan_earmarkLaw ((giveUpZone_evolves _ _).listQueued ⟨by simpa using hl.1, fun j hj v hv => ?_⟩)
  simp only [State.setLease_views, State.setLease_fields] at hv hj
  split at hv
  · next hji =>
    cases hv
    exact hl.2 i (hji ▸ hj) r hr
  · exact hl.2 j hj v hv

/-- ACQUIRE keeps R6. -/
theorem evalAcquire_earmarkLaw (l : Link) (f : List Byte) {s : State} (hl : s.ListLaw) (h : s.EarmarkLaw) :
    (evalAcquire l f s).1.EarmarkLaw :=
  evalAcquire_ways l f h ((raiseTable_wantsKept s _).earmarkLaw h)
    (fun _ _ _ _ hi => grantScan_earmarkLaw
      ((takeZones_evolves _ _ _).listQueued (allocate_listQueued hl.listQueued (hl.free hi))))
    fun _ _ _ _ hi _ => grantScan_earmarkLaw (newWaiter_listQueued hl.listQueued (hl.free hi) rfl _ _)

/-- PARK keeps R6. -/
theorem evalPark_marksKept (l : Link) (f : List Byte) (s : State) : s.marksKept (evalPark l f s).1 := by
  refine withHandle_keeps (.refl s) fun i r hr _ => ?_
  dsimp only
  split
  · exact (raiseTable_wantsKept s _).marksKept
  · exact .refl s
  · next hc =>
    exact fun hl _ => grantScan_earmarkLaw
      (parked_listQueued hl (parkCheck_outside hl hr (isYielding_holds (parkCheck_holds hc).1)) rfl _ _ _)

/-! ### Commands of the host -/

theorem fenceZone_marksKept {z : ZoneId} {on : Bool → SlotId → State × CmdResult} {s : State}
    (hon : ∀ b k, (s.zone z).state.holder = some k → s.marksKept (on b k).1) :
    s.marksKept (fenceZone z on s).1 := by
  unfold fenceZone
  split
  · exact .refl s
  · exact (closeFree_evolves s z).scanned
  · exact (State.evolves.refl s).scanned
  · next k hs => exact hon false k (by rw [hs]; rfl)
  · next k hs => exact hon true k (by rw [hs]; rfl)

theorem evalFenceWait_marksKept (a : Table 8 Byte) (s : State) : s.marksKept (evalFenceWait a s).1 := by
  unfold evalFenceWait
  split
  · refine fenceZone_marksKept fun b k hk => ?_
    split
    · exact (State.evolves.refl s).scanned
    · exact (setZoneState_evolves _ _ _).scanned
  · exact .refl s

theorem evalFenceForce_marksKept (a : Table 8 Byte) {s : State} (hh : s.HolderLaw) :
    s.marksKept (evalFenceForce a s).1 := by
  unfold evalFenceForce
  split
  · next z _ _ _ =>
    refine fenceZone_marksKept fun b k hk => ?_
    exact (forceFence_evolves hh hk).scanned
  · exact .refl s

theorem evalLift_marksKept (a : Table 8 Byte) (s : State) : s.marksKept (evalLift a s).1 := by
  unfold evalLift
  repeat' split
  all_goals first | exact .refl s | exact (setZoneState_evolves _ _ _).scanned

theorem evalRevoke_marksKept (a : Table 8 Byte) (s : State) : s.marksKept (evalRevoke a s).1 := by
  unfold evalRevoke
  split
  · next i r hm =>
    split
    · exact .refl s
    · have hr := (matchHandle_lease hm).1
      show s.marksKept (s.revokeLease i r)
      unfold State.revokeLease
      split
      · next hh => exact (endHeld_evolves hr (holds_not_queued hh) rfl).scanned
      · exact (endQueued_evolves hr rfl).scanned
  · exact .refl s

/-! ### Links and restarts -/

theorem clientRestart_marksKept (s : State) (l : Link) : s.marksKept (s.clientRestart l) :=
  ((freeWhere_evolves _ _).trans (forgetReported_evolves _ _)).scanned

theorem disableLink_marksKept (s : State) (l : Link) (n : Nat) : s.marksKept (s.disableLink l n) :=
  (((setLink_evolves _ _ _).trans (freeWhere_evolves _ _)).trans (forgetReported_evolves _ _)).scanned

theorem setLink_wantsKept (s : State) (l : Link) (x : LinkState) : s.wantsKept (s.setLink l x) :=
  .of_eq (by simp) (by simp)

theorem applyLine_marksKept (s : State) (l : Link) (p : LineParams) (n : Nat) :
    s.marksKept (s.applyLine l p n) := by
  unfold State.applyLine
  dsimp only
  split
  · exact .after (disableLink_marksKept _ _ _) (setLink_evolves _ _ _) (setLink_wantsKept _ _ _)
  · exact (setLink_wantsKept _ _ _).marksKept

theorem applyFrame_wantsKept (f : OutFrame) (s : State) : s.wantsKept (s.applyFrame f) := by
  unfold State.applyFrame
  split
  · unfold State.applyReport
    split
    · next r hr =>
      split
      · split
        · next ht =>
          refine freeSlot_wantsKept fun v hv => ?_
          rw [hr] at hv
          cases hv
          exact terminal_not_queued (Bool.and_eq_true_iff.mp ht).1
        · refine setLease_wantsKept fun v hv hq => ?_
          rw [hr] at hv
          cases hv
          exact ⟨hq, rfl⟩
      · exact .refl s
    · exact .refl s
  · exact .refl s

theorem beginRestart_earmarkLaw (s : State) (b : Table 4 Nat) : (s.beginRestart b).EarmarkLaw := by
  unfold State.beginRestart State.endWaits
  exact clearEarmarks_earmarkLaw _

theorem endRestart_marksKept (s : State) : s.marksKept s.endRestart :=
  (State.evolves.refl s).scanned.before (.of_eq (completeRestart_table _).1 (completeRestart_table _).2.1)

/-! ### Requests and commands taken -/

theorem takeRequest_marksKept {l : Link} {k : Byte → Bool} {ev : List Byte → State → State × OutFrame}
    {s : State} (hev : ∀ f, (s.takeSlot l).marksKept (ev f (s.takeSlot l)).1) :
    s.marksKept (takeRequest l k ev s) := by
  unfold takeRequest
  split
  · next f _ =>
    split
    · exact .after ((hev f).before (setLink_wantsKept _ _ _))
        (State.evolves.congr (fun _ => rfl) (fun _ => rfl) rfl rfl rfl) (.of_eq rfl rfl)
    · exact .refl s
  · exact .refl s

theorem complete_wantsKept (s : State) (r : CmdResult) : s.wantsKept (s.complete r) := .of_eq rfl rfl

theorem takeCommand_marksKept {c : Byte} {g : Table 8 Byte → Bool}
    {ev : Table 8 Byte → State → State × CmdResult} {s : State}
    (hev : ∀ a, s.served.marksKept (ev a s.served).1) : s.marksKept (takeCommand c g ev s) := by
  unfold takeCommand
  split
  · next a _ =>
    split
    · exact .after (t := s.served) ((hev a).before (complete_wantsKept _ _))
        (State.evolves.congr (fun _ => rfl) (fun _ => rfl) rfl rfl rfl) (.of_eq rfl rfl)
    · exact .refl s
  · exact .refl s

theorem takeDirect_marksKept {c : Byte} {ev : Table 8 Byte → State → State × CmdResult} {s : State}
    (hev : ∀ a, s.marksKept (ev a s).1) : s.marksKept (takeDirect c ev s) := by
  unfold takeDirect
  split
  · next a _ =>
    split
    · exact (hev a).before (complete_wantsKept _ _)
    · exact .refl s
  · exact .refl s

/-- SET_ZONE, which keeps the zone's earmark. -/
theorem evalSetZone_wantsKept (a : Table 8 Byte) (s : State) : s.wantsKept (evalSetZone a s).1 := by
  unfold evalSetZone
  repeat' split
  all_goals first
    | exact .refl s
    | exact .congr (fun w => by simp only [State.setZone_views]; split <;> simp_all) fun i => by simp

theorem evalSetClass_wantsKept (a : Table 8 Byte) (s : State) : s.wantsKept (evalSetClass a s).1 := by
  unfold evalSetClass
  dsimp only
  repeat' split
  all_goals exact .refl s

/-! ### The commands -/

/-- The commands but ACQUIRE, which asks for the list's law, LAPSE taken by itself, which no scan follows, and a
restart with a command finishing. -/
def scanningRow : Instr → Bool
  | .acquire _ | .lapse _ | .wrstNLow _ true => false
  | _ => true

theorem clockOnly_wantsKept {s t : State} (h : s.clockOnly t) : s.wantsKept t := .of_eq h.fields.1 h.fields.2.1

theorem trafficOnly_wantsKept {s t : State} (h : s.trafficOnly t) : s.wantsKept t :=
  .of_eq h.fields.1 h.fields.2.1

theorem portOnly_wantsKept {s t : State} (h : s.portOnly t) : s.wantsKept t := .of_eq h.fields.1 h.fields.2.1

theorem State.marksKept.of_state {s t u : State} (h : s.marksKept t) (he : u = t) : s.marksKept u := he ▸ h

theorem evalSetTimebase_wantsKept (a : Table 8 Byte) (s : State) : s.wantsKept (evalSetTimebase a s).1 := by
  unfold evalSetTimebase
  repeat' split
  · exact .refl s
  · exact .refl s
  · exact clockOnly_wantsKept (chooseMode_clockOnly _ _)

/-- A part held at its cold values carries no earmark, whatever image is loaded (R6, R7). -/
theorem cold_earmarkLaw {s : State} (h : ∀ z, (s.zone z).earmark = none) : s.EarmarkLaw := by
  intro z e he
  rw [h] at he
  cases he

/-- What every such command does to the earmarks. -/
theorem exec_marksKept {c : Instr} {s t : State} (hc : scanningRow c = true) (hh : s.HolderLaw)
    (he : exec c s = .next t) : s.marksKept t := by
  have same : ∀ {u : State}, u.zones = s.zones → u.slots = s.slots → s.marksKept u := fun h₁ h₂ =>
    (State.wantsKept.of_eq h₁ h₂).marksKept
  have start : ∀ {u v : State}, u.marksKept v → u.zones = s.zones → u.classes = s.classes → u.slots = s.slots →
      u.waiting = s.waiting → u.sequence = s.sequence → s.marksKept v := fun h h₁ h₂ h₃ h₄ h₅ =>
    h.after (.congr (fun z => by simp only [State.zone, h₁]) (fun c => by simp only [State.cls, h₂]) h₃ h₄ h₅)
      (.of_eq h₁ h₃)
  have clk : ∀ {u : State}, s.clockOnly u → s.marksKept u := fun h => (clockOnly_wantsKept h).marksKept
  have prt : ∀ {u : State}, s.portOnly u → s.marksKept u := fun h => (portOnly_wantsKept h).marksKept
  cases c <;> simp only [exec, execRenew, execRelease, execWiden, execNarrow, execPark, execQueryLease,
    execQueryZone, execBadKind, execReadZone, execSetZone, execReadClass, execSetClass, execReadLease,
    execSetThreshold, execReadList, execNextExpiry, execClassLoad, execFenceWait, execFenceForce, execLift,
    execRevoke, execSetTimebase, execReadLink, execSetLink, execLinkReset, execStore, execStoreComplete,
    execWarmRestart, execBadCommand, execWrstNLow, execRestartEnd, execColdStart, execLeaveReset,
    execSyncinPulse, execLockRunTimeout, execSyncinLoss, execInternalTick, execSearchTimeout,
    execRunningChangeScan, execTick, execExpiry, execRevokeForLateness, execCharacterReceived, execDecodeEntry,
    execClientRestart, execLinkDisable, execReplySend, execNoticeBuild, execFrameComplete, execCauseClear,
    execGroupEnableWrite, execTicks0Read, execI2cPointerSet, execRegisterWrite, Host.Outcome.next.injEq] at he
  case acquire | lapse => cases hc
  all_goals subst he
  case renew l => exact takeRequest_marksKept fun f => (evalRenew_wantsKept l f _).marksKept
  case release l => exact takeRequest_marksKept fun f => evalRelease_marksKept l f _
  case widen l => exact takeRequest_marksKept fun f => (evalWiden_wantsKept l f _).marksKept
  case narrow l => exact takeRequest_marksKept fun f => evalNarrow_marksKept l f _
  case park l => exact takeRequest_marksKept fun f => evalPark_marksKept l f _
  case queryLease l => exact takeRequest_marksKept fun f => withHandle_keeps (.refl _) fun _ _ _ _ => .refl _
  case queryZone l =>
    refine takeRequest_marksKept fun f => .of_state (.refl _) ?_
    unfold evalQueryZone
    repeat' split
    all_goals rfl
  case badKind l => exact takeRequest_marksKept fun f => .refl _
  case readZone =>
    refine takeCommand_marksKept fun a => .of_state (.refl _) ?_
    unfold evalReadZone
    split <;> rfl
  case setZone => exact takeCommand_marksKept fun a => (evalSetZone_wantsKept a _).marksKept
  case readClass =>
    refine takeCommand_marksKept fun a => .of_state (.refl _) ?_
    unfold evalReadClass
    split <;> rfl
  case setClass => exact takeCommand_marksKept fun a => (evalSetClass_wantsKept a _).marksKept
  case readLease =>
    refine takeCommand_marksKept fun a => .of_state (.refl _) ?_
    unfold evalReadLease
    split <;> rfl
  case setThreshold =>
    refine takeCommand_marksKept fun a => State.wantsKept.marksKept (.of_eq ?_ ?_) <;>
      (unfold evalSetThreshold; repeat' split) <;> rfl
  case readList =>
    refine takeCommand_marksKept fun a => .of_state (.refl _) ?_
    unfold evalReadList
    split <;> rfl
  case nextExpiry => exact takeCommand_marksKept fun a => .refl _
  case classLoad =>
    refine takeCommand_marksKept fun a => .of_state (.refl _) ?_
    unfold evalClassLoad
    split <;> rfl
  case fenceWait => exact takeCommand_marksKept fun a => evalFenceWait_marksKept a _
  case fenceForce => exact takeCommand_marksKept fun a => evalFenceForce_marksKept a (hh.congr rfl rfl)
  case lift => exact takeCommand_marksKept fun a => evalLift_marksKept a _
  case revoke => exact takeCommand_marksKept fun a => evalRevoke_marksKept a _
  case setTimebase e =>
    exact takeDirect_marksKept fun a =>
      ((clockOnly_wantsKept (passTo_clockOnly _ _)).trans (evalSetTimebase_wantsKept a _)).marksKept
  case readLink =>
    refine takeDirect_marksKept fun a => .of_state (.refl _) ?_
    unfold evalReadLink
    split <;> rfl
  case setLink n =>
    refine takeDirect_marksKept fun a => ?_
    unfold evalSetLink
    split
    · exact applyLine_marksKept _ _ _ _
    · exact .refl _
  case linkReset n =>
    refine takeDirect_marksKept fun a => ?_
    unfold evalLinkReset
    split
    · exact (setLink_wantsKept _ _ _).marksKept
    · exact .refl _
  case store | storeComplete | badCommand | replySend l | noticeBuild l =>
    repeat' split
    all_goals exact same rfl rfl
  case warmRestart b =>
    split
    · split
      · exact fun _ _ => beginRestart_earmarkLaw _ b
      · exact .refl s
    · exact .refl s
  case wrstNLow b finishing =>
    cases finishing with
    | true => cases hc
    | false =>
      split
      · exact .refl s
      · split
        · exact same rfl rfl
        · rw [if_neg Bool.false_ne_true]
          exact fun _ _ => beginRestart_earmarkLaw _ b
  case restartEnd b =>
    split
    · split
      · exact endRestart_marksKept s
      · exact same rfl rfl
    · exact .refl s
  case coldStart => exact fun _ _ => cold_earmarkLaw fun z => by simp [State.cold, State.zone, Zone.cold]
  case leaveReset =>
    have h₀ : ∀ z, ((State.cold s.image s.pending).zone z).earmark = none := fun z => by
      simp [State.cold, State.zone, Zone.cold]
    split
    · split
      · unfold State.judgeImage
        split
        · exact fun _ _ => cold_earmarkLaw fun z => by simp [State.loadImage, State.zone, StoredZone.toZone]
        · exact fun _ _ => cold_earmarkLaw h₀
      · exact fun _ _ => cold_earmarkLaw h₀
    · exact .refl s
  case syncinPulse e =>
    split
    · exact .refl s
    · exact clk ((passTo_clockOnly _ _).trans (pulseAt_clockOnly _ _))
  case lockRunTimeout | syncinLoss | internalTick | searchTimeout => exact clk (awaitDue_clockOnly _ _)
  case runningChangeScan =>
    split
    · split
      · exact start ((State.evolves.refl _).scanned) rfl rfl rfl rfl rfl
      · exact .refl s
    · exact .refl s
  case tick =>
    split
    · split
      · exact start (takeTick_marksKept _) rfl rfl rfl rfl rfl
      · exact .refl s
    · exact .refl s
  case expiry i =>
    split
    · exact (expireAt_wantsKept s i).marksKept
    · exact .refl s
  case revokeForLateness i =>
    split
    · exact (revokeLateAt_wantsKept s i).marksKept
    · exact .refl s
  case characterReceived l n c =>
    split
    · exact (trafficOnly_wantsKept (receive_trafficOnly _ _ _ _)).marksKept
    · exact .refl s
  case decodeEntry l =>
    split
    · split
      · split
        · exact start (clientRestart_marksKept _ l) rfl rfl rfl rfl rfl
        · exact (trafficOnly_wantsKept (takeEntry_trafficOnly _ _ _ _)).marksKept
      · exact .refl s
    · exact .refl s
  case clientRestart l =>
    split
    · split
      · exact start (clientRestart_marksKept _ l) rfl rfl rfl rfl rfl
      · exact .refl s
    · exact .refl s
  case linkDisable l n =>
    split
    · exact disableLink_marksKept s l n
    · exact .refl s
  case frameComplete l =>
    split
    · split
      · exact .refl s
      · exact start (applyFrame_wantsKept _ _).marksKept rfl rfl rfl rfl rfl
      · exact start (applyFrame_wantsKept _ _).marksKept rfl rfl rfl rfl rfl
    · exact .refl s
  all_goals exact prt (portEvents_portOnly _ _)

end Sys2Proof.Machine
end

