-- ==== Sys2Proof/Laws/Finishing.lean ====
section
/-! SUPPORT. The command of the mailbox that completes with the beginning of a warm restart: of the steps that can
complete it, one does, and the others leave the state (R167 to R169, R173). -/

namespace Sys2Proof.Machine

theorem complete_phase (s : State) (r : CmdResult) : (s.complete r).port.phase = .idle := rfl

/-- A command is taken from the mailbox only under its own code. -/
theorem takeCommand_code {code : Byte} {form : Table 8 Byte → Bool}
    {eval : Table 8 Byte → State → State × CmdResult} {s : State} (h : s.port.command ≠ code) :
    takeCommand code form eval s = s := by
  unfold takeCommand
  split
  · rw [if_neg]
    simp [h]
  · rfl

theorem takeDirect_code {code : Byte} {eval : Table 8 Byte → State → State × CmdResult} {s : State}
    (h : s.port.command ≠ code) : takeDirect code eval s = s := by
  unfold takeDirect
  split
  · rw [if_neg]
    simp [h]
  · rfl

theorem takeCommand_phase {code : Byte} {form : Table 8 Byte → Bool}
    {eval : Table 8 Byte → State → State × CmdResult} {s : State} (h : ∀ args, s.port.phase ≠ .waiting args) :
    takeCommand code form eval s = s := by
  unfold takeCommand
  split
  · next args ha => exact absurd ha (h args)
  · rfl

theorem takeDirect_phase {code : Byte} {eval : Table 8 Byte → State → State × CmdResult} {s : State}
    (h : ∀ args, s.port.phase ≠ .waiting args) : takeDirect code eval s = s := by
  unfold takeDirect
  split
  · next args ha => exact absurd ha (h args)
  · rfl

/-- Taken or not, a command leaves the state or completes. -/
theorem takeCommand_cases (code : Byte) (form : Table 8 Byte → Bool)
    (eval : Table 8 Byte → State → State × CmdResult) (s : State) :
    takeCommand code form eval s = s ∨
      (takeCommand code form eval s).port.phase = .idle ∧ s.port.command = code ∧
        ∃ args, s.port.phase = .waiting args := by
  unfold takeCommand
  split
  · next args ha =>
    split
    · next h =>
      simp only [Bool.and_eq_true, beq_iff_eq] at h
      exact .inr ⟨rfl, h.1.2, args, ha⟩
    · exact .inl rfl
  · exact .inl rfl

theorem takeDirect_cases (code : Byte) (eval : Table 8 Byte → State → State × CmdResult) (s : State) :
    takeDirect code eval s = s ∨
      (takeDirect code eval s).port.phase = .idle ∧ s.port.command = code ∧
        ∃ args, s.port.phase = .waiting args := by
  unfold takeDirect
  split
  · next args ha =>
    split
    · next h =>
      simp only [Bool.and_eq_true, beq_iff_eq] at h
      exact .inr ⟨rfl, h.2, args, ha⟩
    · exact .inl rfl
  · exact .inl rfl

/-- With no command waiting and no STORE in progress, no step completes a command. -/
theorem completions_still {n : Nat} {s : State} (hw : ∀ args, s.port.phase ≠ .waiting args)
    (hs : ∀ copy, s.port.phase ≠ .storing copy) : ∀ f ∈ completions n, f s = .next s := by
  have hc : ∀ {code form eval}, takeCommand code form eval s = s := takeCommand_phase hw
  have hd : ∀ {code eval}, takeDirect code eval s = s := takeDirect_phase hw
  simp only [completions, List.forall_mem_cons, List.not_mem_nil, false_imp_iff, implies_true, and_true]
  simp only [execReadZone, execSetZone, execReadClass, execSetClass, execReadLease, execSetThreshold, execReadList,
    execNextExpiry, execClassLoad, execFenceWait, execFenceForce, execLift, execRevoke, execSetTimebase,
    execReadLink, execSetLink, execLinkReset, execStoreComplete, execBadCommand, hc, hd, and_true]

/-- The steps that can complete a command leave a state in which none is in progress. -/
theorem completions_idle {n : Nat} {s : State} (h : s.port.phase = .idle) :
    ∀ f ∈ completions n, f s = .next s :=
  completions_still (fun _ hw => by rw [h] at hw; cases hw) fun _ hs => by rw [h] at hs; cases hs

theorem foldl_same {fs : List (State → Host.Outcome State Fault Refusal)} {s : State}
    (h : ∀ f ∈ fs, f s = .next s) : fs.foldl (fun t step => orSame t (step t)) s = s := by
  induction fs with
  | nil => rfl
  | cons f fs ih =>
    rw [List.foldl_cons, h f (List.mem_cons_self ..)]
    exact ih fun g hg => h g (List.mem_cons_of_mem _ hg)

/-- Where every step of the list but those that end in `u` leaves the state, and one of them does end in `u`, the
command finishes in `u`. -/
theorem foldl_completes {fs : List (State → Host.Outcome State Fault Refusal)} {s u : State}
    (hu : ∀ f ∈ fs, f u = .next u) (h : ∀ f ∈ fs, f s = .next s ∨ f s = .next u)
    (he : ∃ f ∈ fs, f s = .next u) : fs.foldl (fun t step => orSame t (step t)) s = u := by
  induction fs with
  | nil =>
    obtain ⟨f, hf, -⟩ := he
    cases hf
  | cons f fs ih =>
    rw [List.forall_mem_cons] at hu h
    rw [List.foldl_cons]
    rcases h.1 with hs | hs
    · rw [hs]
      by_cases hfu : f s = .next u
      · have hsu : s = u := by
          rw [hs] at hfu
          cases hfu
          rfl
        subst hsu
        exact foldl_same hu.2
      · obtain ⟨g, hg, hgu⟩ := he
        rcases List.mem_cons.mp hg with rfl | hg
        · exact absurd hgu hfu
        · exact ih hu.2 h.2 ⟨g, hg, hgu⟩
    · rw [hs]
      exact foldl_same hu.2

/-! ### One command, one step -/

/-- FENCE in its two forms: an argument that both take is in no range, and completes the same in both (R108). -/
theorem fence_forms {s : State} {args : Table 8 Byte} (hp : s.port.phase = .waiting args)
    (h₀ : argOf args 1 ≠ 0) (h₁ : argOf args 1 ≠ 1) : execFenceWait s = execFenceForce s := by
  have hb : belowOf 2 (argOf args 1) = none := by
    rw [belowOf_eq_none]
    have : (argOf args 1).toNat ≠ 0 := fun h => h₀ (BitVec.eq_of_toNat_eq h)
    have : (argOf args 1).toNat ≠ 1 := fun h => h₁ (BitVec.eq_of_toNat_eq h)
    omega
  have he : ∀ t, evalFenceWait args t = evalFenceForce args t := by
    intro t
    unfold evalFenceWait evalFenceForce
    rw [hb]
    cases zoneOf (argOf args 0) <;> rfl
  simp only [execFenceWait, execFenceForce, takeCommand, hp, he, bne_iff_ne.mpr h₀, bne_iff_ne.mpr h₁]

/-- The steps that complete a command of a known code but STORE and WARM_RESTART, each with its code. -/
def ownedSteps (n : Nat) : List (Byte × (State → Host.Outcome State Fault Refusal)) :=
  [(codeReadZone, execReadZone), (codeSetZone, execSetZone), (codeReadClass, execReadClass),
    (codeSetClass, execSetClass), (codeReadLease, execReadLease), (codeSetThreshold, execSetThreshold),
    (codeReadList, execReadList), (codeNextExpiry, execNextExpiry), (codeClassLoad, execClassLoad),
    (codeFence, execFenceWait), (codeFence, execFenceForce), (codeLift, execLift), (codeRevoke, execRevoke),
    (codeSetTimebase, execSetTimebase 0), (codeReadLink, execReadLink), (codeSetLink, (execSetLink · n)),
    (codeLinkReset, (execLinkReset · n))]

theorem completions_eq (n : Nat) :
    completions n = (ownedSteps n).map (·.2) ++ [execStoreComplete, execBadCommand] := rfl

/-- A step with a code of its own takes the command under that code and completes it, or leaves the state. -/
theorem ownedSteps_cases (n : Nat) (s : State) : ∀ x ∈ ownedSteps n, x.2 s = .next s ∨
    (∃ u, x.2 s = .next u ∧ u.port.phase = .idle) ∧ (∃ args, s.port.phase = .waiting args) ∧
      s.port.command = x.1 ∧ isCommandCode x.1 = true := by
  have hc : ∀ {f : State → Host.Outcome State Fault Refusal} {code form eval}, isCommandCode code = true →
      f s = .next (takeCommand code form eval s) → f s = .next s ∨
        (∃ u, f s = .next u ∧ u.port.phase = .idle) ∧ (∃ args, s.port.phase = .waiting args) ∧
          s.port.command = code ∧ isCommandCode code = true := by
    intro f code form eval hk hf
    rw [hf]
    rcases takeCommand_cases code form eval s with h | h
    · exact .inl (by rw [h])
    · exact .inr ⟨⟨_, rfl, h.1⟩, h.2.2, h.2.1, hk⟩
  have hd : ∀ {f : State → Host.Outcome State Fault Refusal} {code eval}, isCommandCode code = true →
      f s = .next (takeDirect code eval s) → f s = .next s ∨
        (∃ u, f s = .next u ∧ u.port.phase = .idle) ∧ (∃ args, s.port.phase = .waiting args) ∧
          s.port.command = code ∧ isCommandCode code = true := by
    intro f code eval hk hf
    rw [hf]
    rcases takeDirect_cases code eval s with h | h
    · exact .inl (by rw [h])
    · exact .inr ⟨⟨_, rfl, h.1⟩, h.2.2, h.2.1, hk⟩
  simp only [ownedSteps, List.forall_mem_cons, List.not_mem_nil, false_imp_iff, implies_true, and_true]
  exact ⟨hc rfl rfl, hc rfl rfl, hc rfl rfl, hc rfl rfl, hc rfl rfl, hc rfl rfl, hc rfl rfl, hc rfl rfl, hc rfl rfl,
    hc rfl rfl, hc rfl rfl, hc rfl rfl, hc rfl rfl, hd rfl rfl, hd rfl rfl,
    hd (f := (execSetLink · n)) rfl rfl, hd (f := (execLinkReset · n)) rfl rfl⟩

/-- Two steps with a code of their own that both complete the command complete it the same. -/
theorem ownedSteps_agree {n : Nat} {s : State} : ∀ x ∈ ownedSteps n, ∀ y ∈ ownedSteps n,
    x.2 s = .next s ∨ y.2 s = .next s ∨ x.2 s = y.2 s := by
  intro x hx y hy
  rcases ownedSteps_cases n s x hx with h | ⟨-, ⟨args, hp⟩, hk, -⟩
  · exact .inl h
  rcases ownedSteps_cases n s y hy with h | ⟨-, -, hk', -⟩
  · exact .inr (.inl h)
  have hxy : x.1 = y.1 := hk.symm.trans hk'
  have hfence : execFenceWait s = .next s ∨ execFenceForce s = .next s ∨ execFenceWait s = execFenceForce s := by
    by_cases h₁ : argOf args 1 = 1
    · exact .inl (by simp [execFenceWait, takeCommand, hp, h₁])
    · by_cases h₀ : argOf args 1 = 0
      · exact .inr (.inl (by simp [execFenceForce, takeCommand, hp, h₀]))
      · exact .inr (.inr (fence_forms hp h₀ h₁))
  have hdup : ∀ a b : Byte × (State → Host.Outcome State Fault Refusal), a ∈ ownedSteps n → b ∈ ownedSteps n →
      a.1 = b.1 → a = b ∨ a = (codeFence, execFenceWait) ∧ b = (codeFence, execFenceForce) ∨
        a = (codeFence, execFenceForce) ∧ b = (codeFence, execFenceWait) := by
    have hpair : (ownedSteps n).Pairwise fun a b => a.1 = b.1 →
        a = (codeFence, execFenceWait) ∧ b = (codeFence, execFenceForce) := by
      simp only [ownedSteps, List.pairwise_cons, List.forall_mem_cons, List.not_mem_nil, false_imp_iff,
        implies_true, List.Pairwise.nil, and_true]
      simp [codeReadZone, codeSetZone, codeReadClass, codeSetClass, codeReadLease, codeSetThreshold, codeReadList,
        codeNextExpiry, codeClassLoad, codeFence, codeLift, codeRevoke, codeSetTimebase, codeReadLink, codeSetLink,
        codeLinkReset]
    intro a b ha hb hab
    by_cases h : a = b
    · exact .inl h
    · obtain ⟨i, hi, rfl⟩ := List.getElem_of_mem ha
      obtain ⟨j, hj, rfl⟩ := List.getElem_of_mem hb
      rw [List.pairwise_iff_getElem] at hpair
      rcases Nat.lt_trichotomy i j with hij | rfl | hij
      · exact .inr (.inl (hpair i j hi hj hij hab))
      · exact absurd rfl h
      · exact .inr (.inr (hpair j i hj hi hij hab.symm).symm)
  rcases hdup x y hx hy hxy with h | ⟨rfl, rfl⟩ | ⟨rfl, rfl⟩
  · exact .inr (.inr (by rw [h]))
  · exact hfence
  · rcases hfence with h | h | h
    · exact .inr (.inl h)
    · exact .inl h
    · exact .inr (.inr h.symm)

/-- A step that completes the command is the only one that does, and what it leaves is where the command
finishes. -/
theorem completions_agree {n : Nat} {s u : State} {f : State → Host.Outcome State Fault Refusal}
    (hf : f ∈ completions n) (hs : s.port.phase ≠ .idle) (hu : f s = .next u) (hi : u.port.phase = .idle) :
    (completions n).foldl (fun t step => orSame t (step t)) s = u := by
  have hne : f s ≠ .next s := by
    rw [hu]
    rintro h
    cases h
    exact hs hi
  refine foldl_completes (completions_idle hi) ?_ ⟨f, hf, hu⟩
  rw [completions_eq, List.mem_append, List.mem_map] at hf
  rw [completions_eq]
  intro g hg
  rw [List.mem_append, List.mem_map] at hg
  rcases hf with ⟨x, hx, rfl⟩ | hf
  · obtain ⟨-, ⟨args, hp⟩, hk, hc⟩ := (ownedSteps_cases n s x hx).resolve_left hne
    rcases hg with ⟨y, hy, rfl⟩ | hg
    · rcases ownedSteps_agree x hx y hy with h | h | h
      · exact absurd h hne
      · exact .inl h
      · exact .inr (h ▸ hu)
    · simp only [List.mem_cons, List.not_mem_nil, or_false] at hg
      rcases hg with rfl | rfl
      · exact .inl (by simp [execStoreComplete, hp])
      · exact .inl (by simp [execBadCommand, hp, hk, hc])
  · simp only [List.mem_cons, List.not_mem_nil, or_false] at hf
    rcases hg with ⟨y, hy, rfl⟩ | hg
    · rcases ownedSteps_cases n s y hy with h | ⟨-, ⟨args, hp⟩, hk, hc⟩
      · exact .inl h
      · rcases hf with rfl | rfl
        · exact absurd (by simp [execStoreComplete, hp]) hne
        · exact absurd (by simp [execBadCommand, hp, hk, hc]) hne
    · simp only [List.mem_cons, List.not_mem_nil, or_false] at hg
      rcases hf with rfl | rfl <;> rcases hg with rfl | rfl
      · exact .inr hu
      · cases hp : s.port.phase with
        | waiting args => exact absurd (by simp [execStoreComplete, hp]) hne
        | _ => exact .inl (by simp [execBadCommand, hp])
      · cases hp : s.port.phase with
        | storing copy => exact absurd (by simp [execBadCommand, hp]) hne
        | _ => exact .inl (by simp [execStoreComplete, hp])
      · exact .inr hu

/-- The command carried out with the beginning of a restart is finished by the step that completes it. -/
theorem finishCommand_of {s u : State} {begun : Table 4 Nat} {f : State → Host.Outcome State Fault Refusal}
    (hf : f ∈ completions (s.port.begunOf begun)) (hs : s.port.phase ≠ .idle) (hu : f s = .next u)
    (hi : u.port.phase = .idle) : s.finishCommand begun = u :=
  completions_agree hf hs hu hi

/-- Where no step completes a command, none is carried out. -/
theorem finishCommand_none {s : State} {begun : Table 4 Nat}
    (h : ∀ f ∈ completions (s.port.begunOf begun), f s = .next s) : s.finishCommand begun = s :=
  foldl_same h

/-- Every property that each of these steps keeps, the finishing of a command keeps. -/
theorem finishCommand_keeps {p : State → Prop} {s : State} {begun : Table 4 Nat}
    (h : ∀ t u, p t → ∀ f ∈ completions (s.port.begunOf begun), f t = .next u → p u) (hs : p s) :
    p (s.finishCommand begun) := by
  unfold State.finishCommand
  generalize completions (s.port.begunOf begun) = fs at h
  induction fs generalizing s with
  | nil => exact hs
  | cons f fs ih =>
    rw [List.foldl_cons]
    refine ih ?_ fun t u ht g hg => h t u ht g (List.mem_cons_of_mem _ hg)
    cases hf : f s with
    | next t => exact h s t hs f (List.mem_cons_self ..) hf
    | fault => exact hs
    | refused => exact hs

/-- The steps that complete a command are commands of the table. -/
theorem completions_exec (n : Nat) :
    completions n = [Instr.readZone, .setZone, .readClass, .setClass, .readLease, .setThreshold, .readList,
      .nextExpiry, .classLoad, .fenceWait, .fenceForce, .lift, .revoke, .setTimebase 0, .readLink, .setLink n,
      .linkReset n, .storeComplete, .badCommand].map exec := rfl

/-- A property that every command keeps but a restart with a command finishing, that restart keeps too. -/
theorem finishAndRestart_keeps {p : State → Prop} {s : State} {b : Table 4 Nat}
    (h : ∀ (c : Instr) t u, (∀ b', c ≠ .wrstNLow b' true) → p t → exec c t = .next u → p u)
    (hb : ∀ u, p u → p (u.beginRestart b)) (hr : ∀ u, p u → p (u.raiseCmd flagDone)) (hs : p s) :
    p (s.finishAndRestart b) := by
  have hf : p (s.finishCommand b) := finishCommand_keeps (fun t u ht f hf hu => by
    rw [completions_exec, List.mem_map] at hf
    obtain ⟨c, hc, rfl⟩ := hf
    refine h c t u (fun b' => ?_) ht hu
    rintro rfl
    simp at hc) hs
  unfold State.finishAndRestart
  dsimp only
  split
  · exact hr _ (hb _ hf)
  · exact hb _ hs

/-! ### The level of WRST_N

It stands apart from all that the beginning of a restart does. -/

theorem rearm_wrstN (s : State) : State.rearm { s with wrstN := false } = { s.rearm with wrstN := false } := by
  unfold State.rearm
  by_cases h : s.occupied < s.threshold
  · rw [if_pos h, if_pos (show State.occupied { s with wrstN := false } < s.threshold from h)]
  · rw [if_neg h, if_neg (show ¬State.occupied { s with wrstN := false } < s.threshold from h)]

theorem restartLapseAt_wrstN (s : State) (i : SlotId) :
    State.restartLapseAt { s with wrstN := false } i = { s.restartLapseAt i with wrstN := false } := by
  unfold State.restartLapseAt
  rw [show State.lease { s with wrstN := false } i = s.lease i from rfl]
  cases s.lease i with
  | none => rfl
  | some r =>
    dsimp only
    by_cases hq : r.phase.queued = true
    · rw [if_pos hq, if_pos hq]
      unfold State.endQueued State.terminate
      rw [show State.link (State.leaveList { s with wrstN := false } i) r.owner = s.link r.owner from rfl,
        show State.link (State.leaveList s i) r.owner = s.link r.owner from rfl]
      by_cases he : (s.link r.owner).line.enabled = true
      · rw [if_pos he, if_pos he]
        rfl
      · rw [if_neg he, if_neg he]
        exact rearm_wrstN ((s.leaveList i).setSlot i _)
    · rw [if_neg hq, if_neg hq]

theorem abortCommand_wrstN (s : State) :
    State.abortCommand { s with wrstN := false } = { s.abortCommand with wrstN := false } := by
  unfold State.abortCommand
  cases s.port.phase <;> rfl

theorem beginRestart_wrstN (s : State) (b : Table 4 Nat) :
    State.beginRestart { s with wrstN := false } b = { s.beginRestart b with wrstN := false } := by
  have hfold : ∀ (xs : List SlotId) (u : State), xs.foldl State.restartLapseAt { u with wrstN := false } =
      { xs.foldl State.restartLapseAt u with wrstN := false } := by
    intro xs
    induction xs with
    | nil => exact fun _ => rfl
    | cons x xs ih =>
      intro u
      rw [List.foldl_cons, List.foldl_cons, restartLapseAt_wrstN, ih]
  have hab := abortCommand_wrstN { s with restarting := true, arbiter := 4, port := s.port.clearCauses }
  unfold State.beginRestart
  rw [show State.abortCommand { ({ s with wrstN := false } : State) with
    restarting := true, arbiter := 4, port := s.port.clearCauses } = _ from hab]
  generalize State.abortCommand { s with restarting := true, arbiter := 4, port := s.port.clearCauses } = u
  unfold State.endWaits
  rw [show State.clearLinks { u with wrstN := false } b = { u.clearLinks b with wrstN := false } from rfl, hfold]
  generalize (List.finRange 128).foldl State.restartLapseAt (u.clearLinks b) = v
  rfl

end Sys2Proof.Machine
end

