-- ==== Sys2Proof/Laws/Freeing.lean ====
section
/-! SUPPORT. What the freeing of the records that satisfy a test touches (R24, R137, R141). -/

namespace Sys2Proof.Machine

/-- `t` differs from `s` in the lease table, the waiting list and the armed indication at most. -/
def State.freeOnly (s t : State) : Prop :=
  t = { s with slots := t.slots, waiting := t.waiting, armed := t.armed }

theorem State.freeOnly.refl (s : State) : s.freeOnly s := rfl

theorem State.freeOnly.trans {s t u : State} (h₁ : s.freeOnly t) (h₂ : t.freeOnly u) : s.freeOnly u := by
  unfold State.freeOnly at *
  rw [h₁] at h₂
  exact h₂

theorem freeSlot_freeOnly (s : State) (i : SlotId) : s.freeOnly (s.freeSlot i) := by
  unfold State.freeSlot State.rearm
  split <;> rfl

theorem freeAt_freeOnly (p : Lease → Bool) (s : State) (i : SlotId) : s.freeOnly (s.freeAt p i) := by
  unfold State.freeAt
  split
  · split
    · split
      · exact (show s.freeOnly (s.leaveList i) from rfl).trans (freeSlot_freeOnly _ _)
      · exact freeSlot_freeOnly _ _
    · exact .refl s
  · exact .refl s

theorem freeAt_generation (p : Lease → Bool) (s : State) (i k : SlotId) :
    (s.freeAt p i).generation k = s.generation k := by
  unfold State.freeAt
  repeat' split
  all_goals simp

theorem freeAt_waiting (p : Lease → Bool) (s : State) (i k : SlotId) :
    k ∈ (s.freeAt p i).waiting ↔
      k ∈ s.waiting ∧ ¬(k = i ∧ ∃ r, s.lease k = some r ∧ p r = true ∧ r.phase.queued = true) := by
  unfold State.freeAt
  cases hl : s.lease i with
  | none =>
    simp only [iff_self_and, not_and, not_exists]
    rintro - rfl r hr
    rw [hl] at hr
    cases hr
  | some r =>
    by_cases hp : p r = true
    · by_cases hq : r.phase.queued = true
      · simp only [hp, hq, if_true, freeSlot_views, State.leaveList_fields, List.mem_filter, bne_iff_ne]
        refine and_congr_right fun _ => not_congr ⟨fun hk => ⟨hk, r, hk ▸ hl, hp, hq⟩, fun h => h.1⟩
      · simp only [hp, hq, if_true, Bool.false_eq_true, if_false, freeSlot_views]
        simp only [iff_self_and, not_and, not_exists]
        rintro - rfl r' hr
        rw [hl] at hr
        cases hr
        exact fun _ => hq
    · simp only [hp, Bool.false_eq_true, if_false, iff_self_and, not_and, not_exists]
      rintro - rfl r' hr
      rw [hl] at hr
      cases hr
      exact fun h => absurd h hp

theorem foldl_freeAt (p : Lease → Bool) (xs : List SlotId) (s : State) :
    s.freeOnly (xs.foldl (State.freeAt p) s) ∧
      (∀ k, (xs.foldl (State.freeAt p) s).generation k = s.generation k) ∧
      ∀ k, k ∈ (xs.foldl (State.freeAt p) s).waiting ↔
        k ∈ s.waiting ∧ ¬(k ∈ xs ∧ ∃ r, s.lease k = some r ∧ p r = true ∧ r.phase.queued = true) := by
  induction xs generalizing s with
  | nil => exact ⟨.refl s, fun _ => rfl, by simp⟩
  | cons x xs ih =>
    obtain ⟨h₁, h₂, h₃⟩ := ih (s.freeAt p x)
    refine ⟨(freeAt_freeOnly p s x).trans h₁, fun k => (h₂ k).trans (freeAt_generation p s x k), fun k => ?_⟩
    rw [List.foldl_cons, h₃, freeAt_waiting, freeAt_lease]
    by_cases hk : k = x
    · subst hk
      simp only [if_true, true_and, List.mem_cons, true_or]
      refine ⟨fun h => h.1, fun h => ⟨h, ?_⟩⟩
      rintro ⟨-, r, hr, hp, -⟩
      simp [Option.filter_eq_some_iff] at hr
      rw [hr.2] at hp
      cases hp
    · simp [hk]

/-- The records that satisfy the test go, each leaving the list; nothing else changes but the armed
indication. -/
theorem freeWhere_views (s : State) (p : Lease → Bool) :
    s.freeOnly (s.freeWhere p) ∧ (∀ k, (s.freeWhere p).generation k = s.generation k) ∧
      ∀ k, k ∈ (s.freeWhere p).waiting ↔
        k ∈ s.waiting ∧ ¬∃ r, s.lease k = some r ∧ p r = true ∧ r.phase.queued = true := by
  obtain ⟨h₁, h₂, h₃⟩ := foldl_freeAt p (List.finRange 128) s
  refine ⟨h₁, h₂, fun k => ?_⟩
  have := h₃ k
  simp only [List.mem_finRange, true_and] at this
  exact this

/-- The fields that a freeing keeps. -/
theorem State.freeOnly.fields {s t : State} (h : s.freeOnly t) :
    t.zones = s.zones ∧ t.links = s.links ∧ t.port = s.port ∧ t.clock = s.clock ∧
      t.sequence = s.sequence ∧ t.pending = s.pending := by
  refine ⟨?_, ?_, ?_, ?_, ?_, ?_⟩ <;> rw [h]

end Sys2Proof.Machine
end

