-- ==== Sys2Proof/Laws/Kept.lean ====
section
/-! SUPPORT. The tags of a link's records, the limits of the live ones and the order of insertion in the list: what
evolves keeps them, and ACQUIRE, PARK, SET_ZONE and SET_CLASS do (R23, R46, R47, R64). -/

namespace Sys2Proof.Machine

/-! ### What evolves -/

theorem State.evolves.tagLaw {s t : State} (h : s.evolves t) (hq : s.ListQueued) (hs : s.TagLaw) : t.TagLaw := by
  obtain ⟨-, -, -, -, hl⟩ := h hq
  intro i j r q hr hq' hij ho
  obtain ⟨r₀, h₁, h₂, -⟩ := hl i r hr
  obtain ⟨q₀, h₃, h₄, -⟩ := hl j q hq'
  rw [h₂.2.1, h₄.2.1]
  exact hs i j r₀ q₀ h₁ h₃ hij (h₂.1.symm.trans (ho.trans h₄.1))

theorem State.evolves.limitsLaw {s t : State} (h : s.evolves t) (hq : s.ListQueued) (hs : s.LimitsLaw) :
    t.LimitsLaw := by
  obtain ⟨hz, hc, -, -, hl⟩ := h hq
  intro i q hq' hlive
  obtain ⟨r, h₁, h₂, -⟩ := hl i q hq'
  exact (withinLimits_congr hz hc q).mpr (h₂.2.2.2 (fun hr => hs i r h₁ hr) hlive)

theorem State.evolves.sequenceLaw {s t : State} (h : s.evolves t) (hq : s.ListQueued) (hs : s.SequenceLaw) :
    t.SequenceLaw := by
  obtain ⟨-, -, hc, hw, hl⟩ := h hq
  have hage : ∀ r q : Lease, q.phase.sequence = r.phase.sequence → t.age q = s.age r := fun r q hs => by
    unfold State.age
    rw [hc, hs]
  refine ⟨fun i hi q hq' => ?_, ?_⟩
  · obtain ⟨r, h₁, -, h₃⟩ := hl i q hq'
    rw [hage r q (h₃ hi).2.2]
    exact hs.1 i (hw.subset hi) r h₁
  · refine List.Pairwise.imp_of_mem (fun {a b} ha hb hab => ?_) (hs.2.sublist hw)
    intro ra rb hra hrb hp hk
    obtain ⟨qa, h₁, h₂, h₃⟩ := hl a ra hra
    obtain ⟨qb, h₄, h₅, h₆⟩ := hl b rb hrb
    rw [hage qa ra (h₃ ha).2.2, hage qb rb (h₆ hb).2.2]
    refine hab qa qb h₁ h₄ ?_ ?_
    · rw [← h₂.2.2.1, ← h₅.2.2.1, hp]
    · rw [← (h₃ ha).2.1, ← (h₆ hb).2.1, hk]

/-- The tags and the limits together. -/
def State.RecordsLaw (s : State) : Prop := s.TagLaw ∧ s.LimitsLaw

theorem State.evolves.recordsLaw {s t : State} (h : s.evolves t) (hq : s.ListQueued) (hs : s.RecordsLaw) :
    t.RecordsLaw := ⟨h.tagLaw hq hs.1, h.limitsLaw hq hs.2⟩

/-! ### Insertion -/

theorem age_next {a b : BitVec 32} (h : (a - b).toNat + 1 < 4294967296) :
    (a + 1 - b).toNat = (a - b).toNat + 1 := by
  have he : a + 1 - b = a - b + 1 := by
    rw [BitVec.sub_eq_add_neg, BitVec.sub_eq_add_neg, BitVec.add_assoc, BitVec.add_comm 1, BitVec.add_assoc]
  rw [he, BitVec.toNat_add]
  exact Nat.mod_eq_of_lt h

/-- A record that takes the counter's value enters the list at its place. -/
theorem enter_sequenceLaw {s u : State} {i : SlotId} {q : Priority} {b : Bool} {r : Lease} (hl : s.ListLaw)
    (ho : s.OrderLaw) (hs : s.SequenceLaw) (hroom : s.SequenceRoom) (hi : i ∉ s.waiting)
    (hw : u.waiting = s.waiting) (hc : u.sequence = s.sequence) (hne : ∀ j, j ≠ i → u.lease j = s.lease j)
    (hr : u.lease i = some r) (hp : r.phase.isParked = b) (hpr : r.priority = q)
    (hseq : r.phase.sequence = s.sequence) : (u.enterList i q b).SequenceLaw := by
  have hold : ∀ x ∈ s.waiting, ∃ v, s.lease x = some v ∧ u.lease x = some v ∧ x ≠ i := by
    intro x hx
    have hxi : x ≠ i := by
      rintro rfl
      exact hi hx
    obtain ⟨v, hv, -⟩ := (hl.2.2 x).mp hx
    exact ⟨v, hv, by rw [hne x hxi, hv], hxi⟩
  have hage : ∀ x ∈ s.waiting, ∀ v, s.lease x = some v → (u.enterList i q b).age v = s.age v + 1 := by
    intro x hx v hv
    unfold State.age
    rw [(State.enterList_fields u i q b).2.2.2.2.1, hc]
    exact age_next (hroom x hx v hv)
  have hnew : (u.enterList i q b).age r = 1 := by
    unfold State.age
    rw [(State.enterList_fields u i q b).2.2.2.2.1, hc, hseq, age_next (by simp)]
    simp
  have hlease : ∀ j, (u.enterList i q b).lease j = u.lease j := by simp
  refine ⟨fun x hx v hv => ?_, ?_⟩
  · rw [(State.enterList_fields u i q b).2.2.2.1, insertBefore_mem, hw] at hx
    rw [hlease] at hv
    rcases hx with rfl | hx
    · rw [hr] at hv
      cases hv
      rw [hnew]
      exact Nat.one_pos
    · obtain ⟨v', h₁, h₂, -⟩ := hold x hx
      rw [h₂] at hv
      cases hv
      rw [hage x hx _ h₁]
      omega
  · rw [(State.enterList_fields u i q b).2.2.2.1, hw]
    refine List.Pairwise.imp (fun {x y} hxy => hxy.1) (insertBefore_pairwise
      (R := fun x y => (u.enterList i q b).olderThan x y ∧ (x ∈ s.waiting → y ∈ s.waiting → s.mayPrecede x y))
      _ _ _ ?_ ?_ ?_ ?_)
    · refine List.Pairwise.imp_of_mem (fun {x y} hx hy hxy => ⟨?_, fun _ _ => hxy.2⟩) (hs.2.and ho)
      intro vx vy hvx hvy hpv hkv
      obtain ⟨vx', h₁, h₂, -⟩ := hold x hx
      obtain ⟨vy', h₃, h₄, -⟩ := hold y hy
      rw [hlease, h₂] at hvx
      rw [hlease, h₄] at hvy
      cases hvx
      cases hvy
      rw [hage x hx _ h₁, hage y hy _ h₃]
      have := hxy.1 _ _ h₁ h₃ hpv hkv
      omega
    · refine fun x hx _ => ⟨?_, fun _ hm => absurd hm hi⟩
      intro vx vy hvx hvy _ _
      obtain ⟨vx', h₁, h₂, -⟩ := hold x hx
      rw [hlease, h₂] at hvx
      rw [hlease, hr] at hvy
      cases hvx
      cases hvy
      rw [hage x hx _ h₁, hnew]
      have := hs.1 x hx _ h₁
      omega
    · refine fun x hx hbx => ⟨?_, fun hm => absurd hm hi⟩
      intro vx vy hvx hvy hpv hkv
      obtain ⟨vy', h₃, h₄, -⟩ := hold x hx
      rw [hlease, hr] at hvx
      rw [hlease, h₄] at hvy
      cases hvx
      cases hvy
      rw [behind_true h₄] at hbx
      rw [hpr] at hpv
      rw [hp] at hkv
      rcases hbx with h₅ | ⟨h₅, -, h₆⟩
      · exact absurd hpv (ne_of_lt h₅)
      · rw [h₅, h₆] at hkv
        cases hkv
    · intro x hx y hy hxy hbx
      obtain ⟨vx, h₁, h₂, -⟩ := hold x hx
      obtain ⟨vy, h₃, h₄, -⟩ := hold y hy
      rw [behind_true h₄]
      rw [behind_true h₂] at hbx
      rcases hxy.2 hx hy vx vy h₁ h₃ with h₇ | ⟨h₇, h₈⟩
      · rcases hbx with h₉ | ⟨-, h₉, -⟩
        · exact .inl (h₇.trans h₉)
        · exact .inl (h₉ ▸ h₇)
      · rcases hbx with h₉ | ⟨k₁, k₂, k₃⟩
        · exact .inl (h₇ ▸ h₉)
        · refine .inr ⟨k₁, h₇.trans k₂, ?_⟩
          cases hp : vy.phase.isParked with
          | false => rfl
          | true => rw [h₈ hp] at k₃; cases k₃

/-! ### ACQUIRE and PARK -/

theorem newLease_within {s : State} {l : Link} {q : AcquireReq} {p : Phase}
    (hh : p.holds = true → p.countdown ≤ (s.limitsOf q.zones).maxDuration)
    (hq : p.queued = true → p.countdown ≤ (s.limitsOf q.zones).maxWait)
    (hy : p.yieldCountdown ≤ (s.limitsOf q.zones).yieldWindow) :
    s.WithinLimits (newLease l q (s.limitsOf q.zones) p) :=
  ⟨rfl, Nat.min_le_right _ _, Nat.zero_le _, hh, hq, hy⟩

/-- A record put into a FREE slot that is in no list, its tag not in use. -/
theorem allocate_records {s : State} {i : SlotId} {r : Lease}
    (ht : ∀ j q, s.lease j = some q → q.owner = r.owner → q.tag ≠ r.tag) (hr : s.WithinLimits r)
    (h : s.RecordsLaw) : (s.allocate i r).RecordsLaw := by
  obtain ⟨htag, hlim⟩ := h
  have hc : ∀ c, (s.allocate i r).cls c = s.cls c := fun c => by
    unfold State.cls
    rw [(allocate_tableOnly s i r).fields.1]
  constructor
  · intro j k a b ha hb hjk ho
    simp only [allocate_views] at ha hb
    split at ha
    · cases ha
      split at hb
      · next h₁ h₂ => exact absurd (h₁.trans h₂.symm) hjk
      · exact (ht k b hb ho.symm).symm
    · split at hb
      · cases hb
        exact ht j a ha ho
      · exact htag j k a b ha hb hjk ho
  · intro j a ha hl
    refine (withinLimits_congr (fun z => by simp) hc a).mpr ?_
    simp only [allocate_views] at ha
    split at ha
    · cases ha
      exact hr
    · exact hlim j a ha hl

theorem acquireCheck_tag {s : State} {l : Link} {q : AcquireReq} (h : acquireCheck s l q = none) :
    ∀ j r, s.lease j = some r → r.owner = l → r.tag ≠ q.tag := by
  intro j r hr ho ht
  unfold acquireCheck at h
  split at h
  · cases h
  · split at h
    · cases h
    · next hn =>
      apply hn
      rw [State.anyLease, Table.any_list]
      refine ⟨j, ?_⟩
      rw [show (s.slots.get j).lease = some r from hr]
      simp [ho, ht]

/-- A record put into a FREE slot outside the list leaves the list's order of insertion. -/
theorem allocate_sequenceLaw {s : State} {i : SlotId} {r : Lease} (hi : i ∉ s.waiting) (h : s.SequenceLaw) :
    (s.allocate i r).SequenceLaw := by
  refine ⟨fun j hj v hv => ?_, ?_⟩
  · simp only [allocate_views] at hj hv
    rw [if_neg (by rintro rfl; exact hi hj)] at hv
    simpa [State.age] using h.1 j hj v hv
  · simp only [allocate_views]
    refine List.Pairwise.imp_of_mem (fun {a b} ha hb hab => ?_) h.2
    intro ra rb hra hrb hp hk
    simp only [allocate_views] at hra hrb
    rw [if_neg (by rintro rfl; exact hi ha)] at hra
    rw [if_neg (by rintro rfl; exact hi hb)] at hrb
    simpa [State.age] using hab ra rb hra hrb hp hk

/-- ACQUIRE keeps the order of insertion, while no entry has stood in the list through the whole counter. -/
theorem evalAcquire_sequenceLaw (l : Link) (f : List Byte) {s : State} (hl : s.ListLaw) (ho : s.OrderLaw)
    (hroom : s.SequenceRoom) (h : s.SequenceLaw) : (evalAcquire l f s).1.SequenceLaw := by
  refine evalAcquire_ways l f h ((raiseTable_evolves s _).sequenceLaw hl.listQueued h) (fun q i _ _ hi => ?_)
    fun q i _ _ hi _ => ?_
  · exact ((takeZones_evolves _ _ _).trans (grantScan_evolves _)).sequenceLaw
      (allocate_listQueued hl.listQueued (hl.free hi)) (allocate_sequenceLaw (hl.free hi) h)
  · refine (grantScan_evolves _).sequenceLaw (newWaiter_listQueued hl.listQueued (hl.free hi) rfl _ _) ?_
    exact enter_sequenceLaw hl ho h hroom (hl.free hi) (by simp) (by simp) (fun j hj => by simp [hj])
      (by simp; rfl) rfl rfl rfl

/-- ACQUIRE keeps the tags of a link apart and the live records within their limits. -/
theorem evalAcquire_recordsLaw (l : Link) (f : List Byte) {s : State} (hl : s.ListLaw) (h : s.RecordsLaw) :
    (evalAcquire l f s).1.RecordsLaw := by
  refine evalAcquire_ways l f h ((raiseTable_evolves s _).recordsLaw hl.listQueued h) (fun q i _ hc hi => ?_)
    fun q i _ hc hi _ => ?_
  · exact ((takeZones_evolves _ _ _).trans (grantScan_evolves _)).recordsLaw
      (allocate_listQueued hl.listQueued (hl.free hi))
      (allocate_records (acquireCheck_tag hc) (newLease_within (fun _ => Nat.min_le_right _ _)
        (fun hq => by simp [Phase.queued] at hq) (Nat.zero_le _)) h)
  · refine (grantScan_evolves _).recordsLaw (newWaiter_listQueued hl.listQueued (hl.free hi) rfl _ _) ?_
    obtain ⟨h₁, h₂⟩ := allocate_records (i := i) (acquireCheck_tag hc)
      (newLease_within (s := s) (l := l) (q := q)
        (p := .waiting (min q.wait (s.limitsOf q.zones).maxWait) s.sequence)
        (fun hh => by simp [Phase.holds] at hh) (fun _ => Nat.min_le_right _ _) (Nat.zero_le _)) h
    exact ⟨h₁, h₂⟩

/-- PARK keeps the order of insertion, while no entry has stood in the list through the whole counter. -/
theorem evalPark_sequenceLaw (l : Link) (f : List Byte) {s : State} (hl : s.ListLaw) (ho : s.OrderLaw)
    (hroom : s.SequenceRoom) (h : s.SequenceLaw) : (evalPark l f s).1.SequenceLaw := by
  refine withHandle_keeps h fun i r hr _ => ?_
  dsimp only
  split
  · exact (raiseTable_evolves s _).sequenceLaw hl.listQueued h
  · exact h
  · next hc =>
    have hi := parkCheck_outside hl.listQueued hr (isYielding_holds (parkCheck_holds hc).1)
    refine (grantScan_evolves _).sequenceLaw (parked_listQueued hl.listQueued hi rfl _ _ _) ?_
    exact enter_sequenceLaw (r := { r with phase := .parked r.limits.maxWait s.sequence }) hl ho h hroom hi
      (by simp) (by simp) (fun j hj => by simp [hj]) (by simp) rfl rfl rfl

/-- PARK keeps the tags of a link apart and the live records within their limits. -/
theorem evalPark_recordsLaw (l : Link) (f : List Byte) {s : State} (hl : s.ListQueued) (h : s.RecordsLaw) :
    (evalPark l f s).1.RecordsLaw := by
  refine withHandle_keeps h fun i r hr _ => ?_
  dsimp only
  split
  · exact (raiseTable_evolves s _).recordsLaw hl h
  · exact h
  · next hc =>
    have hh := isYielding_holds (parkCheck_holds hc).1
    refine (grantScan_evolves _).recordsLaw (parked_listQueued hl (parkCheck_outside hl hr hh) rfl _ _ _) ?_
    have hu := giveUpZones_evolves s r.zones
    have hlease : ∀ j q b, (((s.giveUpZones r.zones).setLease i
        { r with phase := .parked r.limits.maxWait s.sequence }).enterList i q b).lease j =
        if j = i then some { r with phase := .parked r.limits.maxWait s.sequence } else s.lease j := by
      intro j q b
      simp
    refine ⟨fun j k a b ha hb hjk hown => ?_, fun j a ha hlive => ?_⟩
    · rw [hlease] at ha hb
      split at ha
      · cases ha
        split at hb
        · next h₁ h₂ => exact absurd (h₁.trans h₂.symm) hjk
        · next h₁ _ => exact h.1 j k r b (h₁ ▸ hr) hb hjk hown
      · split at hb
        · next h₂ =>
          cases hb
          exact h.1 j k a r ha (h₂ ▸ hr) hjk hown
        · exact h.1 j k a b ha hb hjk hown
    · rw [hlease] at ha
      refine (withinLimits_congr (s := s) (fun z => ?_) (fun c => ?_) a).mpr ?_
      · simp only [State.enterList_views, State.setLease_views]
        exact (hu hl).1 z
      · simp only [State.enterList_views, State.setLease_views]
        exact (hu hl).2.1 c
      · split at ha
        · cases ha
          obtain ⟨h₁, h₂, h₃, -, -, -⟩ := h.2 i r hr (by simp [Phase.live, hh])
          exact ⟨h₁, h₂, h₃, fun hh => by simp [Phase.holds] at hh, fun _ => le_refl _, Nat.zero_le _⟩
        · exact h.2 j a ha hlive

/-! ### SET_ZONE and SET_CLASS -/

/-- The records stay, and with them the limits of the live ones. -/
theorem State.RecordsLaw.congr {s t : State} (h : s.RecordsLaw) (hs : t.slots = s.slots)
    (hl : ∀ i r, s.lease i = some r → r.phase.live = true → t.limitsOf r.zones = s.limitsOf r.zones) :
    t.RecordsLaw := by
  have hlease : ∀ i, t.lease i = s.lease i := fun i => by simp only [State.lease, State.slot, hs]
  refine ⟨fun i j r q hr hq hij ho => ?_, fun i r hr hlive => ?_⟩
  · rw [hlease] at hr hq
    exact h.1 i j r q hr hq hij ho
  · rw [hlease] at hr
    obtain ⟨h₁, h₂⟩ := h.2 i r hr hlive
    exact ⟨h₁.trans (hl i r hr hlive).symm, h₂⟩

theorem anyLease_false {s : State} {p : Lease → Bool} (h : s.anyLease p = false) :
    ∀ i r, s.lease i = some r → p r = false := by
  intro i r hr
  rw [← Bool.not_eq_true]
  intro hp
  rw [State.anyLease, ← Bool.not_eq_true, Table.any_list] at h
  exact h ⟨i, by rw [show (s.slots.get i).lease = some r from hr]; exact hp⟩

theorem evalSetZone_recordsLaw (a : Table 8 Byte) {s : State} (h : s.RecordsLaw) :
    (evalSetZone a s).1.RecordsLaw := by
  unfold evalSetZone
  split
  · next z e c _ _ _ =>
    split
    · exact h
    · next hu =>
      refine h.congr (by simp) fun i r hr hlive => ?_
      unfold State.zoneInUse at hu
      simp only [Bool.not_eq_true, Bool.or_eq_false_iff] at hu
      have hz := anyLease_false hu.2 i r hr
      simp only [hlive, Bool.true_and, List.contains_eq_mem, decide_eq_false_iff_not] at hz
      unfold State.limitsOf
      have hm : ∀ (f : ZoneId → ClassParams) (g : ZoneId → ClassParams), (∀ w ∈ r.zones, f w = g w) →
          r.zones.map f = r.zones.map g := fun f g hfg => List.map_congr_left hfg
      simp only [State.setZone_views]
      rw [hm _ (fun w => s.cls (s.zone w).cls) fun w hw => by rw [if_neg (by rintro rfl; exact hz hw)]]
  · exact h

theorem evalSetClass_recordsLaw (a : Table 8 Byte) {s : State} (h : s.RecordsLaw) :
    (evalSetClass a s).1.RecordsLaw := by
  unfold evalSetClass
  split
  · next c n _ _ =>
    dsimp only
    split
    · exact h
    · split
      · exact h
      · next hu =>
        refine h.congr (by simp) fun i r hr hlive => ?_
        have hz := anyLease_false (Bool.not_eq_true _ ▸ hu) i r hr
        simp only [State.touches, List.any_eq_false, beq_iff_eq] at hz
        unfold State.limitsOf
        have hm : ∀ (f : ZoneId → ClassParams) (g : ZoneId → ClassParams), (∀ w ∈ r.zones, f w = g w) →
            r.zones.map f = r.zones.map g := fun f g hfg => List.map_congr_left hfg
        simp only [State.setClass_views]
        rw [hm _ (fun w => s.cls (s.zone w).cls) fun w hw => by rw [if_neg (hz w hw)]]
  · exact h

theorem evalSetZone_sequenceLaw (a : Table 8 Byte) {s : State} (h : s.SequenceLaw) :
    (evalSetZone a s).1.SequenceLaw := by
  unfold evalSetZone
  repeat' split
  all_goals exact h

theorem evalSetClass_sequenceLaw (a : Table 8 Byte) {s : State} (h : s.SequenceLaw) :
    (evalSetClass a s).1.SequenceLaw := by
  unfold evalSetClass
  dsimp only
  repeat' split
  all_goals exact h

/-- A part with no record and an empty list keeps the laws. -/
theorem empty_laws {s : State} (hw : s.waiting = []) (hl : ∀ i, s.lease i = none) : s.SequenceLaw ∧ s.RecordsLaw := by
  refine ⟨⟨by simp [hw], by simp [hw]⟩, fun i j r q hr => ?_, fun i r hr => ?_⟩
  · rw [hl] at hr
    cases hr
  · rw [hl] at hr
    cases hr

end Sys2Proof.Machine
end

