-- ==== Sys2Proof/Laws/PortBytes.lean ====
section
/-! SUPPORT. What the port drives stands apart from all else that its events do: an event neither looks at what was
driven before nor changes it, and puts its own after it (log entry 9). -/

namespace Sys2Proof.Machine

/-- The state with what the port drove in the last command being `d`. -/
def State.driving (s : State) (d : List PortDrive) : State := s.setPort { s.port with portOut := d }

theorem State.driving_driving (s : State) (d e : List PortDrive) : (s.driving d).driving e = s.driving e := rfl

theorem State.driving_self (s : State) : s.driving s.port.portOut = s := rfl

theorem State.driving_portOut (s : State) (d : List PortDrive) : (s.driving d).port.portOut = d := rfl

theorem writeCommand_driving (s : State) (v : Byte) (d : List PortDrive) :
    (s.driving d).writeCommand v = (s.writeCommand v).driving d := by
  unfold State.writeCommand
  rw [show (s.driving d).port.busy = s.port.busy from rfl, show (s.driving d).restarting = s.restarting from rfl]
  cases s.port.busy || s.restarting <;> rfl

theorem writeReg_driving (s : State) (o : BitVec 7) (v : Byte) (d : List PortDrive) :
    (s.driving d).writeReg o v = (s.writeReg o v).driving d := by
  unfold State.writeReg
  dsimp only
  split_ifs
  all_goals first
    | rfl
    | exact writeCommand_driving s v d

theorem readEffect_driving (s : State) (o : BitVec 7) (d : List PortDrive) :
    (s.driving d).readEffect o = (s.readEffect o).driving d := by
  unfold State.readEffect
  split <;> rfl

theorem drive_driving (s : State) (x : PortDrive) (d : List PortDrive) :
    (s.driving d).drive x = s.driving (d ++ [x]) := rfl

/-- An event does the same whatever was driven before, and what it drives comes after that. -/
theorem portEvent_driving (s : State) (e : PortEvent) :
    ∃ (u : State) (x : List PortDrive), ∀ d, (s.driving d).portEvent e = u.driving (d ++ x) := by
  have quiet : ∀ (c : Bool) (t : Transfer), ∃ (u : State) (x : List PortDrive), ∀ d,
      (if c then (s.driving d).setTransfer t else s.driving d) = u.driving (d ++ x) := fun c t => by
    cases c with
    | true => exact ⟨s.setTransfer t, [], fun d => by rw [List.append_nil]; rfl⟩
    | false => exact ⟨s, [], fun d => by rw [List.append_nil]; rfl⟩
  have released : ∃ (u : State) (x : List PortDrive), ∀ d, (s.driving d).drive .released = u.driving (d ++ x) :=
    ⟨s, [.released], fun d => rfl⟩
  cases e with
  | csLow => exact quiet (s.answers false) .spiCommand
  | csHigh => exact quiet (s.answers false) .none
  | i2cStart => exact quiet (s.answers true) .i2cAddress
  | i2cStop => exact quiet (s.answers true) .none
  | spiByte b =>
    simp only [State.portEvent, show ∀ d, (s.driving d).answers false = s.answers false from fun _ => rfl]
    cases s.answers false with
    | false => exact released
    | true =>
      simp only [if_true, State.spiByte, show ∀ d, (s.driving d).port.transfer = s.port.transfer from fun _ => rfl]
      cases s.port.transfer with
      | spiCommand =>
        exact ⟨s.setTransfer (if b.getLsbD 7 then .spiRead (b.extractLsb' 0 7) else .spiWrite (b.extractLsb' 0 7)),
          [.byte s.status], fun d => rfl⟩
      | spiWrite o =>
        exact ⟨(s.writeReg o b).setTransfer (.spiWrite (o + 1)), [.byte 0], fun d => by
          dsimp only; rw [writeReg_driving]; rfl⟩
      | spiRead o =>
        exact ⟨(s.readEffect o).setTransfer (.spiRead (o + 1)), [.byte (s.readReg o)], fun d => by
          dsimp only; rw [readEffect_driving]; rfl⟩
      | _ => exact released
  | i2cByte b =>
    simp only [State.portEvent, show ∀ d, (s.driving d).answers true = s.answers true from fun _ => rfl]
    cases s.answers true with
    | false => exact released
    | true =>
      simp only [if_true, State.i2cByte, show ∀ d, (s.driving d).port.transfer = s.port.transfer from fun _ => rfl]
      cases s.port.transfer with
      | i2cAddress =>
        simp only [show ∀ d, (s.driving d).port.i2cAddress = s.port.i2cAddress from fun _ => rfl]
        split
        · exact ⟨s.setTransfer (if b.getLsbD 0 then .i2cRead else .i2cPointer), [.acknowledge], fun d => rfl⟩
        · exact ⟨s.setTransfer .none, [.released], fun d => rfl⟩
      | i2cPointer =>
        exact ⟨s.setPort { s.port with i2cPointer := b.extractLsb' 0 7, transfer := .i2cWrite }, [.acknowledge],
          fun d => rfl⟩
      | i2cWrite =>
        exact ⟨(s.writeReg s.port.i2cPointer b).raisePointer, [.acknowledge], fun d => by
          dsimp only; rw [writeReg_driving]; rfl⟩
      | _ => exact released
  | i2cRead a =>
    simp only [State.portEvent, show ∀ d, (s.driving d).answers true = s.answers true from fun _ => rfl]
    cases s.answers true with
    | false => exact released
    | true =>
      simp only [if_true, State.i2cReadByte,
        show ∀ d, (s.driving d).port.transfer = s.port.transfer from fun _ => rfl]
      cases s.port.transfer with
      | i2cRead =>
        exact ⟨((s.readEffect s.port.i2cPointer).raisePointer).setTransfer (if a then .i2cRead else .none),
          [.byte (s.readReg s.port.i2cPointer)], fun d => by
          dsimp only; rw [show (s.driving d).port.i2cPointer = s.port.i2cPointer from rfl, readEffect_driving]; rfl⟩
      | _ => exact released

/-- One event after others: what it drives comes after what they drove. -/
theorem portEvents_snoc (s : State) (es : List PortEvent) (e : PortEvent) :
    s.portEvents (es ++ [e]) =
      ((s.portEvents es).portEvents [e]).driving
        ((s.portEvents es).port.portOut ++ ((s.portEvents es).portEvents [e]).port.portOut) := by
  have hs : s.portEvents (es ++ [e]) = (s.portEvents es).portEvent e := by
    simp only [State.portEvents, List.foldl_append, List.foldl_cons, List.foldl_nil]
  rw [hs]
  generalize s.portEvents es = t
  obtain ⟨u, x, h⟩ := portEvent_driving t e
  rw [show t.portEvent e = (t.driving t.port.portOut).portEvent e from rfl, h,
    show t.portEvents [e] = (t.driving []).portEvent e from rfl, h, List.nil_append]
  rfl

end Sys2Proof.Machine
end

