-- ==== Sys2Proof/Laws/Sound.lean ====
section
/-! SUPPORT. R58 and R81 through each operation: a live record has a term, a countdown and limits above 0, and a
YIELDING record is yieldable and has a yield countdown above 0. Within a tick the countdowns may stand at 0. -/

namespace Sys2Proof.Machine

/-- A record whose term and limits are above 0 while it is live, and which is yieldable while it is YIELDING. -/
def Lease.fit (r : Lease) : Prop :=
  (r.phase.live = true → 1 ≤ r.term ∧ 1 ≤ r.limits.maxDuration ∧ 1 ≤ r.limits.yieldWindow) ∧
    (r.phase.isYielding = true → r.yieldable = true)

/-- A fit record of which no countdown is 0. -/
def Lease.sound (r : Lease) : Prop := r.fit ∧ r.due = false

/-- Every record is sound. -/
def State.Sound (s : State) : Prop := ∀ i r, s.lease i = some r → r.sound

/-- The lowest max duration and yield window of the classes are above 0. -/
def State.ClassesPositive (s : State) : Prop := ∀ c, 1 ≤ (s.cls c).maxDuration ∧ 1 ≤ (s.cls c).yieldWindow

theorem State.RangeLaw.classesPositive {s : State} (h : s.RangeLaw) : s.ClassesPositive :=
  fun c => ⟨(h.1.1 c).1, (h.1.1 c).2.2.2.1⟩

/-! ### The laws of Safety.lean -/

theorem due_false {r : Lease} : r.due = false ↔ (r.phase.live = true →
    1 ≤ r.phase.countdown ∧ (r.phase.isYielding = true → 1 ≤ r.phase.yieldCountdown)) := by
  simp only [Lease.due, Bool.and_eq_false_iff, Bool.or_eq_false_iff, beq_eq_false_iff_ne, Nat.one_le_iff_ne_zero]
  cases r.phase.live <;> cases r.phase.isYielding <;> simp

theorem State.Sound.countdownLaw {s : State} (h : s.Sound) : s.CountdownLaw := fun i r hr hl =>
  ⟨((h i r hr).1.1 hl).1, due_false.mp (h i r hr).2 hl⟩

theorem State.Sound.yieldableLaw {s : State} (h : s.Sound) : s.YieldableLaw := fun i r hr => (h i r hr).1.2

theorem smallest_pos {l : List Nat} (hl : l ≠ []) (h : ∀ x ∈ l, 1 ≤ x) : 1 ≤ smallest l := h _ (smallest_spec hl).2

/-- The effective limits of some zones are above 0 when those of the classes are (R10). -/
theorem limitsOf_pos {s : State} (hc : s.ClassesPositive) {zs : List ZoneId} (hz : zs ≠ []) :
    1 ≤ (s.limitsOf zs).maxDuration ∧ 1 ≤ (s.limitsOf zs).yieldWindow := by
  constructor <;> refine smallest_pos (by simpa using hz) fun x hx => ?_ <;>
  · simp only [List.mem_map] at hx
    obtain ⟨_, ⟨z, -, rfl⟩, rfl⟩ := hx
    first | exact (hc _).1 | exact (hc _).2

theorem sound_of_laws {s : State} (hz : s.ZonesLaw) (hl : s.LimitsLaw) (hr : s.RangeLaw) (hc : s.CountdownLaw)
    (hy : s.YieldableLaw) : s.Sound := by
  refine fun i r hi => ⟨⟨fun hv => ?_, hy i r hi⟩, due_false.mpr fun hv => (hc i r hi hv).2⟩
  have hn : r.zones ≠ [] := by
    have := (hz i r hi).1
    rintro h
    simp [h] at this
  obtain ⟨h₁, h₂⟩ := limitsOf_pos hr.classesPositive hn
  rw [(hl i r hi hv).1]
  exact ⟨(hc i r hi hv).1, h₁, h₂⟩

/-! ### Records -/

/-- What a record that is not live holds is of no account. -/
theorem sound_ended (r : Lease) {p : Phase} (hp : p.live = false) : Lease.sound { r with phase := p } := by
  have hy : p.isYielding = false := by
    cases p <;> simp_all [Phase.live, Phase.holds, Phase.isYielding]
  exact ⟨⟨fun h => absurd h (by simp [hp]), fun h => absurd h (by simp [hy])⟩, by simp [Lease.due, hp]⟩

theorem startYield_sound {r : Lease} (hy : r.yieldable = true) (h : r.sound) : r.startYield.sound := by
  unfold Lease.startYield
  split
  · next c w hp =>
    obtain ⟨⟨hf, -⟩, hd⟩ := h
    have hlive : r.phase.live = true := by rw [hp]; rfl
    obtain ⟨h₁, h₂, h₃⟩ := hf hlive
    have hc := (due_false.mp hd hlive).1
    rw [hp] at hc
    exact ⟨⟨fun _ => ⟨h₁, h₂, h₃⟩, fun _ => hy⟩, due_false.mpr fun _ => ⟨hc, fun _ => h₃⟩⟩
  · exact h

theorem withdrawYield_sound {r : Lease} (h : r.sound) : r.withdrawYield.sound := by
  unfold Lease.withdrawYield
  split
  · next c y w hp =>
    obtain ⟨⟨hf, -⟩, hd⟩ := h
    have hlive : r.phase.live = true := by rw [hp]; rfl
    have hc := (due_false.mp hd hlive).1
    rw [hp] at hc
    exact ⟨⟨fun _ => hf hlive, fun hy => nomatch hy⟩, due_false.mpr fun _ => ⟨hc, fun hy => nomatch hy⟩⟩
  · exact h

theorem granted_sound {r : Lease} (hq : r.phase.queued = true) (h : r.sound) : r.granted.sound := by
  have hf := h.1.1 (by simp [Phase.live, hq])
  exact ⟨⟨fun _ => hf, fun hy => nomatch hy⟩, due_false.mpr fun _ => ⟨hf.1, fun hy => nomatch hy⟩⟩

/-! ### Operations -/

theorem State.Sound.congr {s t : State} (h : s.Sound) (hs : t.slots = s.slots) : t.Sound := by
  unfold State.Sound State.lease State.slot at *
  rw [hs]
  exact h

theorem setLease_sound {s : State} {i : SlotId} {q : Lease} (h : s.Sound) (hq : q.sound) : (s.setLease i q).Sound := by
  intro j v hv
  simp only [State.setLease_views] at hv
  split at hv
  · cases hv
    exact hq
  · exact h j v hv

theorem mapLeases_sound {s : State} {f : SlotId → Lease → Lease} (h : s.Sound)
    (hf : ∀ i (r : Lease), r.sound → (f i r).sound) : (s.mapLeases f).Sound := by
  intro j v hv
  simp only [State.mapLeases_views, Option.map_eq_some_iff] at hv
  obtain ⟨r, hr, rfl⟩ := hv
  exact hf j r (h j r hr)

theorem freeSlot_sound {s : State} (i : SlotId) (h : s.Sound) : (s.freeSlot i).Sound := by
  intro j v hv
  simp only [freeSlot_views] at hv
  split at hv
  · cases hv
  · exact h j v hv

theorem allocate_sound {s : State} {i : SlotId} {r : Lease} (h : s.Sound) (hr : r.sound) : (s.allocate i r).Sound := by
  intro j v hv
  simp only [allocate_views] at hv
  split at hv
  · cases hv
    exact hr
  · exact h j v hv

theorem terminate_sound {s : State} (i : SlotId) (r : Lease) {p : Phase} (h : s.Sound) (hp : p.live = false) :
    (s.terminate i r p).Sound := by
  unfold State.terminate
  split
  · exact setLease_sound h (sound_ended r hp)
  · exact freeSlot_sound i h

theorem giveUpZones_sound {s : State} (zs : List ZoneId) (h : s.Sound) : (s.giveUpZones zs).Sound :=
  h.congr (giveUpZones_slots s zs).1

theorem takeZones_sound {s : State} (i : SlotId) (zs : List ZoneId) (h : s.Sound) : (s.takeZones i zs).Sound :=
  h.congr (takeZones_slots s i zs).1

theorem leaveList_sound {s : State} (i : SlotId) (h : s.Sound) : (s.leaveList i).Sound := h.congr rfl

theorem endHeld_sound {s : State} (i : SlotId) (r : Lease) {p : Phase} (h : s.Sound) (hp : p.live = false) :
    (s.endHeld i r p).Sound := terminate_sound i r (giveUpZones_sound _ h) hp

theorem endQueued_sound {s : State} (i : SlotId) (r : Lease) {p : Phase} (h : s.Sound) (hp : p.live = false) :
    (s.endQueued i r p).Sound := terminate_sound i r (leaveList_sound i h) hp

/-! ### The grant scan -/

theorem askYield_sound {s : State} (k : SlotId) (p : Priority) (h : s.Sound) : (s.askYield k p).Sound := by
  unfold State.askYield
  split
  · next r hr =>
    split
    · next hc =>
      simp only [Bool.and_eq_true] at hc
      exact setLease_sound h (startYield_sound hc.1 (h k r hr))
    · exact h
  · exact h

theorem earmarkZone_sound (b : Bool) (e : SlotId) (p : Priority) {s : State} (z : ZoneId) (h : s.Sound) :
    (s.earmarkZone b e p z).Sound := by
  have he : (s.setEarmark z (some e)).Sound := h.congr rfl
  unfold State.earmarkZone
  split
  · exact he
  · split
    · exact askYield_sound _ _ he
    · exact he
  · exact h

theorem walkEntry_sound (b : Bool) {s : State} {e : SlotId} (he : ∀ r, s.lease e = some r → r.phase.queued = true)
    (h : s.Sound) : (s.walkEntry b e).Sound := by
  unfold State.walkEntry
  split
  · next r hr =>
    split
    · exact takeZones_sound _ _ (setLease_sound (leaveList_sound _ h) (granted_sound (he r hr) (h e r hr)))
    · exact foldl_keeps (fun t z ht => earmarkZone_sound b e _ z ht) _ h
  · exact h

theorem walk_sound (b : Bool) {s : State} (hq : s.ListQueued) (h : s.Sound) : (s.walk b).Sound := by
  have hall : ∀ (xs : List SlotId) (t : State), xs.Nodup → (∀ x ∈ xs, x ∈ t.waiting) → t.ListQueued → t.Sound →
      (xs.foldl (State.walkEntry b) t).Sound := by
    intro xs
    induction xs with
    | nil => exact fun t _ _ _ ht => ht
    | cons x xs ih =>
      intro t hn hm hl ht
      rw [List.nodup_cons] at hn
      have hx := hl.2 x (hm x (List.mem_cons_self ..))
      rw [List.foldl_cons]
      refine ih _ hn.2 (fun y hy => ?_) ((walkEntry_evolves b hx).listQueued hl) (walkEntry_sound b hx ht)
      exact walkEntry_waiting b t (hm y (List.mem_cons_of_mem _ hy)) (by rintro rfl; exact hn.1 hy)
  exact hall s.waiting s hq.1 (fun _ hx => hx) hq h

/-- The grant scan keeps every record sound. -/
theorem grantScan_sound {s : State} (hq : s.ListQueued) (h : s.Sound) : s.grantScan.Sound := by
  have hw : ∀ b, (s.clearEarmarks.walk b).Sound := fun b =>
    walk_sound b ((clearEarmarks_evolves s).listQueued hq) (h.congr rfl)
  unfold State.grantScan
  split
  · refine mapLeases_sound (mapLeases_sound (hw true) fun i r hr => ?_) fun i r hr => ?_
    · split
      · next hc =>
        simp only [Bool.and_eq_true] at hc
        exact startYield_sound hc.1 hr
      · exact hr
    · split
      · exact withdrawYield_sound hr
      · exact hr
  · exact hw false

/-- A scan of a state that another has evolved to. -/
theorem State.evolves.scan_sound {s t : State} (he : s.evolves t) (hq : s.ListQueued) (h : t.Sound) :
    t.grantScan.Sound := grantScan_sound (he.listQueued hq) h

/-! ### The expiry engine -/

theorem lapseAt_sound {s : State} (i : SlotId) (h : s.Sound) : s.lapseAt i = s := by
  unfold State.lapseAt
  split
  · next r hr =>
    refine if_neg fun hc => ?_
    simp only [Bool.and_eq_true, beq_iff_eq] at hc
    have := (due_false.mp (h i r hr).2 (by simp [Phase.live, hc.1])).1
    omega
  · rfl

theorem expireAt_sound {s : State} (i : SlotId) (h : s.Sound) : s.expireAt i = s := by
  unfold State.expireAt
  split
  · next r hr =>
    refine if_neg fun hc => ?_
    simp only [Bool.and_eq_true, beq_iff_eq] at hc
    have := (due_false.mp (h i r hr).2 (by simp [Phase.live, hc.1])).1
    omega
  · rfl

theorem revokeLateAt_sound {s : State} (i : SlotId) (h : s.Sound) : s.revokeLateAt i = s := by
  unfold State.revokeLateAt
  split
  · next r hr =>
    refine if_neg fun hc => ?_
    simp only [Bool.and_eq_true, beq_iff_eq] at hc
    have := (due_false.mp (h i r hr).2 (by simp [Phase.live, isYielding_holds hc.1.1])).2 hc.1.1
    omega
  · rfl

/-- Every record is fit, and a record of which a countdown is 0 stands in one of the slots `xs`. -/
def State.SoundBut (xs : List SlotId) (s : State) : Prop :=
  ∀ i r, s.lease i = some r → r.fit ∧ (i ∉ xs → r.due = false)

/-- A record due in a slot of its own: the others stay, and it is gone or no longer live. -/
theorem terminate_soundBut {s u : State} {x : SlotId} {xs : List SlotId} {r : Lease} {p : Phase}
    (h : s.SoundBut (x :: xs)) (hp : p.live = false) (hu : ∀ j, u.lease j = s.lease j) :
    (u.terminate x r p).SoundBut xs := by
  intro j v hv
  simp only [terminate_views] at hv
  split at hv
  · split at hv
    · cases hv
      have := sound_ended r hp
      exact ⟨this.1, fun _ => this.2⟩
    · cases hv
  · next hj =>
    rw [hu] at hv
    exact ⟨(h j v hv).1, fun hm => (h j v hv).2 (by simp [hj, hm])⟩

theorem State.SoundBut.congr {s t : State} {xs : List SlotId} (h : s.SoundBut xs) (hs : t.slots = s.slots) :
    t.SoundBut xs := by
  unfold State.SoundBut State.lease State.slot at *
  rw [hs]
  exact h

theorem endIfDue_soundBut {s : State} {x : SlotId} {xs : List SlotId} (h : s.SoundBut (x :: xs)) :
    (s.endIfDue x).SoundBut xs := by
  have stay : (∀ r, s.lease x = some r → r.due = false) → s.SoundBut xs := fun hx j v hv =>
    ⟨(h j v hv).1, fun hm => by
      by_cases hj : j = x
      · subst hj
        exact hx v hv
      · exact (h j v hv).2 (by simp [hj, hm])⟩
  unfold State.endIfDue
  split
  · next r hr =>
    split
    · next hd =>
      refine stay fun v hv => ?_
      rw [hr] at hv
      cases hv
      simpa using hd
    · next hd =>
      simp only [Bool.not_eq_true, Bool.not_eq_false', Lease.due, Bool.and_eq_true, Bool.or_eq_true,
        beq_iff_eq] at hd
      split
      · next hq =>
        have hc : r.phase.countdown = 0 := by
          rcases hd.2 with hc | ⟨hy, -⟩
          · exact hc
          · have := holds_not_queued (isYielding_holds hy)
            rw [hq] at this
            cases this
        unfold State.lapseAt
        rw [hr]
        simp only [hq, hc, beq_self_eq_true, Bool.and_self, if_true]
        exact terminate_soundBut h rfl fun j => by simp
      · next hq =>
        have hh : r.phase.holds = true := by
          have := hd.1
          simpa [Phase.live, hq] using this
        split
        · next hc =>
          rw [beq_iff_eq] at hc
          unfold State.expireAt
          rw [hr]
          simp only [hh, hc, beq_self_eq_true, Bool.and_self, if_true]
          exact terminate_soundBut h rfl fun j => by simp
        · next hc =>
          rw [beq_iff_eq] at hc
          obtain ⟨hy, hz⟩ := hd.2.resolve_left hc
          unfold State.revokeLateAt
          rw [hr]
          simp only [hy, hz, beq_self_eq_true, bne_iff_ne, ne_eq, hc, not_false_eq_true, Bool.and_self,
            Bool.true_and, if_true]
          exact State.SoundBut.congr (terminate_soundBut (r := r) (p := .revoked .yieldLate) h rfl
            (u := s.giveUpZones r.zones) fun j => by simp) rfl
  · next hr =>
    refine stay fun v hv => ?_
    rw [hr] at hv
    cases hv

theorem endAll_sound {s : State} (h : ∀ i r, s.lease i = some r → r.fit) : s.endAll.Sound := by
  have hall : ∀ (xs : List SlotId) (t : State), t.SoundBut xs → (xs.foldl State.endIfDue t).SoundBut [] := by
    intro xs
    induction xs with
    | nil => exact fun t ht => ht
    | cons x xs ih => exact fun t ht => ih _ (endIfDue_soundBut ht)
  intro i r hr
  obtain ⟨h₁, h₂⟩ := hall (List.finRange 128) s
    (fun i r hr => ⟨h i r hr, fun hm => absurd (List.mem_finRange i) hm⟩) i r hr
  exact ⟨h₁, h₂ List.not_mem_nil⟩

/-- A tick leaves every record sound. -/
theorem takeTick_sound {s : State} (hq : s.ListQueued) (h : s.Sound) : s.takeTick.Sound := by
  have hev : s.evolves s.decrementAll.warnAll :=
    (mapLeases_evolves (fun _ r => decrement_becomes s r) fun _ r hr =>
      ⟨by simpa using hr, by simp, by cases hp : r.phase <;> rfl⟩).trans
    (mapLeases_evolves (fun _ r => warn_becomes _ r) fun _ r hr =>
      ⟨by simpa using hr, by simp, by cases hp : r.phase <;> rfl⟩)
  have hfit : ∀ i r, s.decrementAll.warnAll.lease i = some r → r.fit := by
    intro i r hr
    simp only [State.warnAll, State.decrementAll, State.mapLeases_views, Option.map_map, Option.map_eq_some_iff] at hr
    obtain ⟨q, hq, rfl⟩ := hr
    obtain ⟨h₁, h₂⟩ := (h i q hq).1
    constructor
    · intro hl
      exact h₁ (by simpa [Phase.live] using hl)
    · intro hy
      refine h₂ ?_
      cases hp : q.phase <;> simp_all [Phase.decrement, Phase.warn, Phase.isYielding]
  show (State.endAndScan _).Sound
  unfold State.endAndScan
  split
  · exact (hev.trans (.foldl endIfDue_evolves _ _)).scan_sound hq (endAll_sound hfit)
  · next hd =>
    refine fun i r hr => ⟨hfit i r hr, ?_⟩
    rw [State.anyDue, Table.any_list] at hd
    cases hdue : r.due with
    | false => rfl
    | true =>
      refine absurd ⟨i, ?_⟩ hd
      rw [show (s.decrementAll.warnAll.slots.get i).lease = some r from hr]
      exact hdue

/-! ### Requests -/

theorem clampTerm_pos {d m : Nat} (h : 1 ≤ m) : 1 ≤ clampTerm d m := by
  unfold clampTerm
  omega

theorem evalAcquire_sound (l : Link) (f : List Byte) {s : State} (hl : s.ListLaw) (hc : s.ClassesPositive)
    (h : s.Sound) : (evalAcquire l f s).1.Sound := by
  refine evalAcquire_ways l f h (h.congr rfl) (fun q i hz _ hi => ?_) fun q i hz _ hi hw => ?_
  · obtain ⟨h₁, h₂⟩ := limitsOf_pos hc hz
    refine (takeZones_evolves _ _ _).scan_sound (allocate_listQueued hl.listQueued (hl.free hi))
      (takeZones_sound _ _ (allocate_sound h ?_))
    exact ⟨⟨fun _ => ⟨clampTerm_pos h₁, h₁, h₂⟩, fun hy => nomatch hy⟩,
      due_false.mpr fun _ => ⟨clampTerm_pos h₁, fun hy => nomatch hy⟩⟩
  · obtain ⟨h₁, h₂⟩ := limitsOf_pos hc hz
    refine grantScan_sound (newWaiter_listQueued hl.listQueued (hl.free hi) rfl _ _)
      (State.Sound.congr (allocate_sound h ?_) rfl)
    exact ⟨⟨fun _ => ⟨clampTerm_pos h₁, h₁, h₂⟩, fun hy => nomatch hy⟩,
      due_false.mpr fun _ => ⟨Nat.one_le_iff_ne_zero.mpr hw, fun hy => nomatch hy⟩⟩

theorem evalRenew_sound (l : Link) (f : List Byte) {s : State} (h : s.Sound) : (evalRenew l f s).1.Sound := by
  refine withHandle_keeps h fun i r hr _ => ?_
  dsimp only
  split
  · exact h
  · next hc =>
    obtain ⟨-, h₁, h₂⟩ := (h i r hr).1.1 (renewCheck_none hc).1
    exact setLease_sound h ⟨⟨fun _ => ⟨clampTerm_pos h₁, h₁, h₂⟩, fun hy => nomatch hy⟩,
      due_false.mpr fun _ => ⟨clampTerm_pos h₁, fun hy => nomatch hy⟩⟩

theorem evalRelease_sound (l : Link) (f : List Byte) {s : State} (hq : s.ListQueued) (h : s.Sound) :
    (evalRelease l f s).1.Sound := by
  refine withHandle_keeps h fun i r hr _ => ?_
  show (s.releaseLease i r).Sound
  unfold State.releaseLease
  split
  · exact ((giveUpZones_evolves _ _).trans (freeSlot_evolves _ _)).scan_sound hq
      (freeSlot_sound _ (giveUpZones_sound _ h))
  · split
    · exact ((leaveList_evolves _ _).trans (freeSlot_evolves _ _)).scan_sound hq
        (freeSlot_sound _ (leaveList_sound _ h))
    · exact freeSlot_sound _ h

theorem evalWiden_sound (l : Link) (f : List Byte) {s : State} (hc : s.ClassesPositive) (h : s.Sound) :
    (evalWiden l f s).1.Sound := by
  refine withHandle_keeps h fun i r hr _ => ?_
  dsimp only
  split
  · exact h
  · next hrec =>
    split
    · exact h
    · next z _ =>
      split
      · exact h
      · obtain ⟨c, w, hp⟩ := widenRecordCheck_none hrec
        obtain ⟨h₁, h₂⟩ := limitsOf_pos (s := s) hc (zs := r.zones ++ [z]) (by simp)
        have hlive : r.phase.live = true := by rw [hp]; rfl
        have ht := ((h i r hr).1.1 hlive).1
        have hd := (due_false.mp (h i r hr).2 hlive).1
        rw [hp] at hd
        have hq : (s.widened r z).phase = .held (min c (s.limitsOf (r.zones ++ [z])).maxDuration) w := by
          simp [State.widened, hp, Phase.clampLease]
        refine takeZones_sound _ _ (setLease_sound h ⟨⟨fun _ => ⟨le_min ht h₁, h₁, h₂⟩, fun hy => ?_⟩,
          due_false.mpr fun _ => ⟨?_, fun hy => ?_⟩⟩)
        · rw [hq] at hy
          cases hy
        · rw [hq]
          exact le_min hd h₁
        · rw [hq] at hy
          cases hy

theorem evalNarrow_sound (l : Link) (f : List Byte) {s : State} (hz : s.ZonesLaw) (hq : s.ListQueued)
    (hc : s.ClassesPositive) (h : s.Sound) : (evalNarrow l f s).1.Sound := by
  refine withHandle_keeps h fun i r hr _ => ?_
  dsimp only
  split
  · exact h
  · next hrec =>
    split
    · exact h
    · next z _ =>
      split
      · exact h
      · next hm =>
        split
        · exact h
        · next hlen =>
          obtain ⟨h₁, h₂⟩ := limitsOf_pos hc (others_left (hz i r hr).2.2.1 (by simpa using hm) hlen)
          have hs : (s.setLease i (s.narrowed r z)).Sound := setLease_sound h
            ⟨⟨fun hl => ⟨((h i r hr).1.1 hl).1, h₁, h₂⟩, (h i r hr).1.2⟩, (h i r hr).2⟩
          refine grantScan_sound ((giveUpZone_evolves _ z).listQueued ⟨hq.1, fun j hj v hv => ?_⟩)
            (giveUpZones_sound [z] hs)
          simp only [State.setLease_views] at hv
          split at hv
          · next hji =>
            cases hv
            exact hq.2 j hj r (hji ▸ hr)
          · exact hq.2 j hj v hv

theorem evalPark_sound (l : Link) (f : List Byte) {s : State} (hq : s.ListQueued) (h : s.Sound) :
    (evalPark l f s).1.Sound := by
  refine withHandle_keeps h fun i r hr _ => ?_
  dsimp only
  split
  · exact h.congr rfl
  · exact h
  · next hc =>
    have hy := (parkCheck_holds hc).1
    have hh := isYielding_holds hy
    have hw : r.limits.maxWait ≠ 0 := by
      intro hw
      unfold parkCheck at hc
      simp [hw] at hc
      repeat' split at hc
      all_goals cases hc
    refine grantScan_sound (parked_listQueued hq (parkCheck_outside hq hr hh) rfl _ _ _)
      (State.Sound.congr (setLease_sound (i := i) (q := { r with phase := .parked r.limits.maxWait s.sequence })
        (giveUpZones_sound r.zones h) ?_) rfl)
    exact ⟨⟨fun _ => (h i r hr).1.1 (by simp [Phase.live, hh]), fun hy => nomatch hy⟩,
      due_false.mpr fun _ => ⟨Nat.one_le_iff_ne_zero.mpr hw, fun hy => nomatch hy⟩⟩

/-! ### Commands of the host -/

theorem closeFree_sound {s : State} (z : ZoneId) (h : s.Sound) : (s.closeFree z).Sound := h.congr rfl

theorem fenceZone_sound {z : ZoneId} {on : Bool → SlotId → State × CmdResult} {s : State} (hq : s.ListQueued)
    (h : s.Sound) (hon : ∀ b k, (s.zone z).state.holder = some k → (on b k).1.Sound) :
    (fenceZone z on s).1.Sound := by
  unfold fenceZone
  split
  · exact h
  · exact (closeFree_evolves s z).scan_sound hq (closeFree_sound z h)
  · exact grantScan_sound hq h
  · next k hs => exact hon false k (by rw [hs]; rfl)
  · next k hs => exact hon true k (by rw [hs]; rfl)

theorem evalFenceWait_sound (a : Table 8 Byte) {s : State} (hq : s.ListQueued) (h : s.Sound) :
    (evalFenceWait a s).1.Sound := by
  unfold evalFenceWait
  split
  · refine fenceZone_sound hq h fun b k _ => ?_
    split
    · exact grantScan_sound hq h
    · exact (setZoneState_evolves _ _ _).scan_sound hq (h.congr rfl)
  · exact h

theorem evalFenceForce_sound (a : Table 8 Byte) {s : State} (hh : s.HolderLaw) (hq : s.ListQueued) (h : s.Sound) :
    (evalFenceForce a s).1.Sound := by
  unfold evalFenceForce
  split
  · refine fenceZone_sound hq h fun b k hk => (forceFence_evolves hh hk).scan_sound hq ?_
    unfold State.forceFence
    split
    · exact terminate_sound _ _ (giveUpZones_sound _ (closeFree_sound _ h)) rfl
    · exact closeFree_sound _ h
  · exact h

theorem evalLift_sound (a : Table 8 Byte) {s : State} (hq : s.ListQueued) (h : s.Sound) :
    (evalLift a s).1.Sound := by
  unfold evalLift
  repeat' split
  all_goals first | exact h | exact (setZoneState_evolves _ _ _).scan_sound hq (h.congr rfl)

theorem evalRevoke_sound (a : Table 8 Byte) {s : State} (hq : s.ListQueued) (h : s.Sound) :
    (evalRevoke a s).1.Sound := by
  unfold evalRevoke
  split
  · next i r hm =>
    split
    · exact h
    · have hr := (matchHandle_lease hm).1
      show (s.revokeLease i r).Sound
      unfold State.revokeLease
      split
      · next hh =>
        exact (endHeld_evolves hr (holds_not_queued hh) rfl).scan_sound hq (endHeld_sound _ _ h rfl)
      · exact (endQueued_evolves hr rfl).scan_sound hq (endQueued_sound _ _ h rfl)
  · exact h

/-! ### Links and restarts -/

theorem freeWhere_sound {s : State} (p : Lease → Bool) (h : s.Sound) : (s.freeWhere p).Sound := by
  intro j q hq
  rw [freeWhere_lease, Option.filter_eq_some_iff] at hq
  exact h j q hq.1

theorem forgetReported_sound {s : State} (l : Link) (h : s.Sound) : (s.forgetReported l).Sound :=
  mapLeases_sound h fun i r hr => by
    split
    · exact hr
    · exact hr

theorem clientRestart_sound {s : State} (l : Link) (hq : s.ListQueued) (h : s.Sound) : (s.clientRestart l).Sound :=
  ((freeWhere_evolves _ _).trans (forgetReported_evolves _ _)).scan_sound hq
    (forgetReported_sound l (freeWhere_sound _ h))

theorem disableLink_sound {s : State} (l : Link) (n : Nat) (hq : s.ListQueued) (h : s.Sound) :
    (s.disableLink l n).Sound :=
  (((setLink_evolves _ _ _).trans (freeWhere_evolves _ _)).trans (forgetReported_evolves _ _)).scan_sound hq
    (forgetReported_sound l (freeWhere_sound _ (h.congr rfl)))

theorem applyLine_sound {s : State} (l : Link) (p : LineParams) (n : Nat) (hq : s.ListQueued) (h : s.Sound) :
    (s.applyLine l p n).Sound := by
  unfold State.applyLine
  dsimp only
  split
  · exact disableLink_sound l n hq (h.congr rfl)
  · exact h.congr rfl

theorem applyFrame_sound (f : OutFrame) {s : State} (h : s.Sound) : (s.applyFrame f).Sound := by
  unfold State.applyFrame
  split
  · unfold State.applyReport
    split
    · next r hr =>
      split
      · split
        · exact freeSlot_sound _ h
        · exact setLease_sound h (h _ r hr)
      · exact h
    · exact h
  · exact h

theorem beginRestart_sound {s : State} (b : Table 4 Nat) (h : s.Sound) : (s.beginRestart b).Sound := by
  have h₀ : (State.clearLinks (State.abortCommand
      { s with restarting := true, arbiter := 4, port := s.port.clearCauses }) b).Sound :=
    h.congr (abortCommand_table _).2.1
  unfold State.beginRestart State.endWaits
  generalize State.clearLinks _ _ = u at h₀ ⊢
  have h₁ : ((List.finRange 128).foldl State.restartLapseAt u).Sound := by
    refine foldl_keeps (fun t i ht => ?_) _ h₀
    unfold State.restartLapseAt
    repeat' split
    all_goals first | exact ht | exact endQueued_sound _ _ ht rfl
  generalize (List.finRange 128).foldl State.restartLapseAt u = v at h₁
  exact h₁.congr rfl

theorem endRestart_sound {s : State} (hq : s.ListQueued) (h : s.Sound) : s.endRestart.Sound :=
  (grantScan_sound hq h).congr (completeRestart_table _).2.1

/-! ### The commands -/

theorem takeRequest_sound {l : Link} {k : Byte → Bool} {ev : List Byte → State → State × OutFrame} {s : State}
    (h : s.Sound) (hev : ∀ f, (ev f (s.takeSlot l)).1.Sound) : (takeRequest l k ev s).Sound := by
  unfold takeRequest
  repeat' split
  all_goals first | exact h | exact (hev _).congr rfl

theorem takeCommand_sound {c : Byte} {g : Table 8 Byte → Bool} {ev : Table 8 Byte → State → State × CmdResult}
    {s : State} (h : s.Sound) (hev : ∀ a, (ev a s.served).1.Sound) : (takeCommand c g ev s).Sound := by
  unfold takeCommand
  repeat' split
  all_goals first | exact h | exact (hev _).congr rfl

theorem takeDirect_sound {c : Byte} {ev : Table 8 Byte → State → State × CmdResult} {s : State}
    (h : s.Sound) (hev : ∀ a, (ev a s).1.Sound) : (takeDirect c ev s).Sound := by
  unfold takeDirect
  repeat' split
  all_goals first | exact h | exact (hev _).congr rfl

/-- A part with no record. -/
theorem sound_of_empty {s : State} (h : s.slots = .fill 128 .cold) : s.Sound := by
  intro i r hr
  simp only [State.lease, State.slot, h, Slot.cold, Table.get_fill] at hr
  cases hr

/-- The requests that give a record new effective limits. -/
def limitingRow : Instr → Bool
  | .acquire _ | .widen _ | .narrow _ => true
  | _ => false

/-- Every command but the restart with a command finishing keeps every record sound. -/
theorem exec_sound {c : Instr} {s t : State} (hc : ∀ b, c ≠ .wrstNLow b true) (hh : s.HolderLaw)
    (hz : s.ZonesLaw) (hq : s.ListQueued) (hp : s.ListLaw ∧ s.ClassesPositive ∨ limitingRow c = false)
    (h : s.Sound) (he : exec c s = .next t) : t.Sound := by
  have same : ∀ {u : State}, u.slots = s.slots → u.Sound := fun hu => h.congr hu
  have nothing : ∀ {u : State}, u = s → u.Sound := fun hu => hu ▸ h
  cases c <;> simp only [exec, execAcquire, execRenew, execRelease, execWiden, execNarrow, execPark, execQueryLease,
    execQueryZone, execBadKind, execReadZone, execSetZone, execReadClass, execSetClass, execReadLease,
    execSetThreshold, execReadList, execNextExpiry, execClassLoad, execFenceWait, execFenceForce, execLift,
    execRevoke, execSetTimebase, execReadLink, execSetLink, execLinkReset, execStore, execStoreComplete,
    execWarmRestart, execBadCommand, execWrstNLow, execRestartEnd, execColdStart, execLeaveReset, execSyncinPulse,
    execLockRunTimeout, execSyncinLoss, execInternalTick, execSearchTimeout, execRunningChangeScan, execTick,
    execLapse, execExpiry, execRevokeForLateness, execCharacterReceived, execDecodeEntry, execClientRestart,
    execLinkDisable, execReplySend, execNoticeBuild, execFrameComplete, execCauseClear, execGroupEnableWrite,
    execTicks0Read, execI2cPointerSet, execRegisterWrite, Host.Outcome.next.injEq] at he
  all_goals subst he
  case acquire l =>
    rcases hp with ⟨hl, hpos⟩ | hp
    · exact takeRequest_sound h fun f => evalAcquire_sound l f (s := s.takeSlot l) hl hpos h
    · cases hp
  case renew l => exact takeRequest_sound h fun f => evalRenew_sound l f (s := s.takeSlot l) h
  case release l => exact takeRequest_sound h fun f => evalRelease_sound l f (s := s.takeSlot l) hq h
  case widen l =>
    rcases hp with ⟨-, hpos⟩ | hp
    · exact takeRequest_sound h fun f => evalWiden_sound l f (s := s.takeSlot l) hpos h
    · cases hp
  case narrow l =>
    rcases hp with ⟨-, hpos⟩ | hp
    · exact takeRequest_sound h fun f => evalNarrow_sound l f (s := s.takeSlot l) hz hq hpos h
    · cases hp
  case park l => exact takeRequest_sound h fun f => evalPark_sound l f (s := s.takeSlot l) hq h
  case queryLease l => exact takeRequest_sound h fun f => withHandle_keeps h fun _ _ _ _ => h
  case queryZone l =>
    refine takeRequest_sound h fun f => ?_
    unfold evalQueryZone
    repeat' split
    all_goals exact h
  case badKind l => exact takeRequest_sound h fun f => h
  case readZone =>
    refine takeCommand_sound h fun a => ?_
    unfold evalReadZone
    split <;> exact h
  case setZone =>
    refine takeCommand_sound h fun a => ?_
    unfold evalSetZone
    repeat' split
    all_goals exact h.congr rfl
  case readClass =>
    refine takeCommand_sound h fun a => ?_
    unfold evalReadClass
    split <;> exact h
  case setClass =>
    refine takeCommand_sound h fun a => ?_
    unfold evalSetClass
    dsimp only
    repeat' split
    all_goals exact h.congr rfl
  case readLease =>
    refine takeCommand_sound h fun a => ?_
    unfold evalReadLease
    split <;> exact h
  case setThreshold =>
    refine takeCommand_sound h fun a => ?_
    unfold evalSetThreshold
    repeat' split
    all_goals exact h.congr rfl
  case readList =>
    refine takeCommand_sound h fun a => ?_
    unfold evalReadList
    split <;> exact h
  case nextExpiry => exact takeCommand_sound h fun a => h
  case classLoad =>
    refine takeCommand_sound h fun a => ?_
    unfold evalClassLoad
    split <;> exact h
  case fenceWait => exact takeCommand_sound h fun a => evalFenceWait_sound a (s := s.served) hq h
  case fenceForce =>
    exact takeCommand_sound h fun a => evalFenceForce_sound a (s := s.served) (hh.congr rfl rfl) hq h
  case lift => exact takeCommand_sound h fun a => evalLift_sound a (s := s.served) hq h
  case revoke => exact takeCommand_sound h fun a => evalRevoke_sound a (s := s.served) hq h
  case setTimebase e =>
    refine takeDirect_sound h fun a => ?_
    have hs := h.congr (passTo_clockOnly s (s.clock.now + e)).fields.2.1
    unfold evalSetTimebase
    repeat' split
    · exact hs
    · exact hs
    · exact hs.congr (chooseMode_clockOnly _ _).fields.2.1
  case readLink =>
    refine takeDirect_sound h fun a => ?_
    unfold evalReadLink
    split <;> exact h
  case setLink n =>
    refine takeDirect_sound h fun a => ?_
    unfold evalSetLink
    split
    · exact applyLine_sound _ _ _ hq h
    · exact h
  case linkReset n =>
    refine takeDirect_sound h fun a => ?_
    unfold evalLinkReset
    split <;> exact h.congr rfl
  case warmRestart b =>
    split
    · split
      · exact beginRestart_sound b (h.congr rfl)
      · exact h
    · exact h
  case wrstNLow b finishing =>
    cases finishing with
    | true => exact absurd rfl (hc b)
    | false =>
      split
      · exact h
      · split
        · exact h.congr rfl
        · rw [if_neg Bool.false_ne_true]
          exact beginRestart_sound b (h.congr rfl)
  case restartEnd b =>
    split
    · split
      · exact endRestart_sound hq h
      · exact h.congr rfl
    · exact h
  case coldStart => exact sound_of_empty rfl
  case leaveReset m a b al =>
    have hj : ∀ u : State, u.judgeImage.slots = u.slots := fun u => by
      unfold State.judgeImage
      split <;> rfl
    repeat' split
    · exact sound_of_empty (hj _)
    · exact sound_of_empty rfl
    · exact h
  case syncinPulse e =>
    split
    · exact h
    · exact h.congr ((passTo_clockOnly _ _).trans (pulseAt_clockOnly _ _)).fields.2.1
  case lockRunTimeout => exact h.congr (awaitDue_clockOnly _ _).fields.2.1
  case syncinLoss => exact h.congr (awaitDue_clockOnly _ _).fields.2.1
  case internalTick => exact h.congr (awaitDue_clockOnly _ _).fields.2.1
  case searchTimeout => exact h.congr (awaitDue_clockOnly _ _).fields.2.1
  case runningChangeScan =>
    split
    · split
      · exact grantScan_sound hq (h.congr rfl)
      · exact h
    · exact h
  case tick =>
    split
    · split
      · exact takeTick_sound hq (h.congr rfl)
      · exact h
    · exact h
  case lapse i =>
    rw [lapseAt_sound i h]
    split <;> exact h
  case expiry i =>
    rw [expireAt_sound i h]
    split <;> exact h
  case revokeForLateness i =>
    rw [revokeLateAt_sound i h]
    split <;> exact h
  case characterReceived l n c =>
    split
    · exact h.congr (receive_trafficOnly _ _ _ _).fields.2.1
    · exact h
  case decodeEntry l =>
    split
    · split
      · split
        · exact clientRestart_sound l hq (h.congr rfl)
        · exact h.congr (takeEntry_trafficOnly _ _ _ _).fields.2.1
      · exact h
    · exact h
  case clientRestart l =>
    split
    · split
      · exact clientRestart_sound l hq (h.congr rfl)
      · exact h
    · exact h
  case linkDisable l n =>
    split
    · exact disableLink_sound l n hq h
    · exact h
  case frameComplete l =>
    split
    · split
      · exact h
      · exact applyFrame_sound _ (h.congr rfl)
      · exact applyFrame_sound _ (h.congr rfl)
    · exact h
  case causeClear => exact h.congr (portEvents_portOnly _ _).fields.2.1
  case groupEnableWrite => exact h.congr (portEvents_portOnly _ _).fields.2.1
  case ticks0Read => exact h.congr (portEvents_portOnly _ _).fields.2.1
  case registerWrite => exact h.congr (portEvents_portOnly _ _).fields.2.1
  case i2cPointerSet => exact h.congr (portEvents_portOnly _ _).fields.2.1
  case store | storeComplete | badCommand | replySend | noticeBuild =>
    repeat' split
    all_goals exact same rfl

end Sys2Proof.Machine
end

