-- ==== Sys2Proof/Laws/Together.lean ====
section
/-! SUPPORT. Records ended or freed one after another, as a tick, a client restart and the disable of a link end
and free them, are ended together: one state for the whole, whatever their order (R24, R34, R83 to R87). -/

namespace Sys2Proof.Machine

/-! ### Counts -/

theorem Table.list_eq_map {n : Nat} {α : Type} (t : Table n α) : t.list = (List.finRange n).map t.get := by
  apply List.ext_getElem
  · rw [t.size_eq, List.length_map, List.length_finRange]
  · intro i h₁ h₂
    simp [Table.get]

theorem Table.count_eq {n : Nat} {α : Type} (p : α → Bool) (t : Table n α) :
    t.count p = (List.finRange n).countP fun i => p (t.get i) := by
  rw [Table.count, t.list_eq_map, List.countP_map]
  rfl

theorem occupied_eq (s : State) : s.occupied = (List.finRange 128).countP fun i => (s.lease i).isSome := by
  rw [State.occupied, State.countLeases, Table.count_eq]
  congr 1
  funext i
  simp only [State.lease, State.slot]
  cases (s.slots.get i).lease <;> rfl

theorem occupied_le {s t : State} (h : ∀ i, (t.lease i).isSome = true → (s.lease i).isSome = true) :
    t.occupied ≤ s.occupied := by
  rw [occupied_eq, occupied_eq]
  exact List.countP_mono_left fun i _ => h i

theorem occupied_congr {s t : State} (h : ∀ i, (t.lease i).isSome = (s.lease i).isSome) :
    t.occupied = s.occupied := by
  rw [occupied_eq, occupied_eq]
  congr 1
  funext i
  exact h i

/-! ### One ending and many -/

/-- What happens to one record: what is left of it, the zones it gives up, whether it leaves the list, and whether
its end sets REVOKE_LATE. -/
structure Ending where
  left : Option Lease
  gives : List ZoneId
  leaves : Bool
  late : Bool

/-- The record of slot `i` ends as `eff` says, if it says so. -/
def State.endOne (eff : Lease → Option Ending) (t : State) (i : SlotId) : State :=
  match t.lease i with
  | some r =>
    match eff r with
    | some e =>
      let u := (if e.leaves then t.leaveList i else t).zonesGivenUp e.gives
      let v := match e.left with | some q => u.setLease i q | none => u.recordFreed i
      if e.late then v.raiseTable flagRevokeLate else v
    | none => t
  | none => t

/-- Some record of the slots `xs` ends in a way that satisfies `p`. -/
def State.someEnding (t : State) (eff : Lease → Option Ending) (xs : List SlotId) (p : Ending → Bool) : Bool :=
  xs.any fun i => ((t.lease i).bind eff).any p

/-- What is left of a record. -/
def leftOf (eff : Lease → Option Ending) (r : Lease) : Option Lease :=
  match eff r with | some e => e.left | none => some r

/-- The records of the slots `xs` ended together. -/
def State.endTogether (t : State) (eff : Lease → Option Ending) (xs : List SlotId) : State :=
  let slots := t.slots.mapIdx fun i x => if i ∈ xs then { x with lease := x.lease.bind (leftOf eff) } else x
  { t with
    slots := slots
    zones := t.zones.mapIdx fun z x =>
      if t.someEnding eff xs (fun e => decide (z ∈ e.gives)) then x.givenUp else x
    waiting := t.waiting.filter fun i => !(decide (i ∈ xs) && ((t.lease i).bind eff).any (·.leaves))
    armed := t.armed || (t.someEnding eff xs (·.left.isNone)
      && decide (State.occupied { t with slots := slots } < t.threshold))
    port := { t.port with
      tableCause := t.port.tableCause
        ||| (if t.someEnding eff xs (·.late) then 0x01 else 0)
        ||| (if (List.finRange 64).any fun z => t.someEnding eff xs (fun e => decide (z ∈ e.gives))
          && (t.zone z).state.isPending then 0x02 else 0) } }

/-! What one ending does to each part of the state. -/

theorem zonesGivenUp_parts (t : State) (zs : List ZoneId) :
    (t.zonesGivenUp zs).slots = t.slots ∧ (t.zonesGivenUp zs).waiting = t.waiting ∧
      (t.zonesGivenUp zs).armed = t.armed ∧ (t.zonesGivenUp zs).threshold = t.threshold ∧
      (∀ z, (t.zonesGivenUp zs).zone z = if z ∈ zs then (t.zone z).givenUp else t.zone z) ∧
      (t.zonesGivenUp zs).port.tableCause = t.port.tableCause |||
        (if zs.any fun z => (t.zone z).state.isPending then flagFenceDone else 0) :=
  ⟨rfl, rfl, rfl, rfl, fun z => zonesGivenUp_zone t zs z, rfl⟩

theorem endOne_none {eff : Lease → Option Ending} {t : State} {i : SlotId} (h : (t.lease i).bind eff = none) :
    t.endOne eff i = t := by
  unfold State.endOne
  cases hl : t.lease i with
  | none => rfl
  | some r =>
    rw [hl, Option.bind_some] at h
    simp [h]

/-- One ending is the group of one. -/
theorem endOne_eq (eff : Lease → Option Ending) (t : State) (i : SlotId) :
    t.endOne eff i = t.endTogether eff [i] := by
  have hs : ∀ p, t.someEnding eff [i] p = ((t.lease i).bind eff).any p := fun p => by
    simp [State.someEnding]
  cases he : (t.lease i).bind eff with
  | none =>
    rw [endOne_none he]
    have h₁ : (t.slots.mapIdx fun j x =>
        if j ∈ [i] then { x with lease := x.lease.bind (leftOf eff) } else x) = t.slots := by
      refine Table.ext_get fun j => ?_
      rw [Table.get_mapIdx]
      split
      · next h =>
        have hj : j = i := by simpa using h
        subst hj
        have hl : (t.slots.get j).lease.bind eff = none := he
        cases hx : (t.slots.get j).lease with
        | none => rw [Option.bind_none, ← hx]
        | some r =>
          rw [hx, Option.bind_some] at hl
          rw [Option.bind_some, leftOf, hl, ← hx]
      · rfl
    have h₂ : (t.zones.mapIdx fun z x =>
        if t.someEnding eff [i] (fun e => decide (z ∈ e.gives)) then x.givenUp else x) = t.zones := by
      refine Table.ext_get fun z => ?_
      rw [Table.get_mapIdx, hs, he]
      rfl
    have h₃ : (t.waiting.filter fun j => !(decide (j ∈ [i]) && ((t.lease j).bind eff).any (·.leaves)))
        = t.waiting := by
      rw [List.filter_eq_self]
      intro j _
      by_cases hj : j = i
      · subst hj
        simp [he]
      · simp [hj]
    unfold State.endTogether
    dsimp only
    rw [h₁, h₂, h₃]
    simp only [hs, he, Option.any_none, Bool.false_and, Bool.or_false, Bool.false_eq_true, if_false]
    have h₄ : ((List.finRange 64).any fun _ => false) = false := by simp
    rw [h₄]
    simp
  | some e =>
    cases hl : t.lease i with
    | none =>
      rw [hl] at he
      cases he
    | some r =>
      have her : eff r = some e := by
        rw [hl, Option.bind_some] at he
        exact he
      have hslots : (t.slots.mapIdx fun j x =>
          if j ∈ [i] then { x with lease := x.lease.bind (leftOf eff) } else x)
          = t.slots.set i ⟨t.generation i, e.left⟩ := by
        refine Table.ext_get fun j => ?_
        rw [Table.get_mapIdx, Table.get_set]
        by_cases hj : j = i
        · subst hj
          have hx : (t.slots.get j).lease = some r := hl
          simp [hx, leftOf, her, State.generation, State.slot]
        · simp [hj]
      have hwait : (t.waiting.filter fun j => !(decide (j ∈ [i]) && ((t.lease j).bind eff).any (·.leaves)))
          = if e.leaves then t.waiting.filter (· != i) else t.waiting := by
        split
        · next h =>
          refine List.filter_congr fun j _ => ?_
          by_cases hj : j = i
          · subst hj
            simp [he, h]
          · simp [hj]
        · next h =>
          rw [List.filter_eq_self]
          intro j _
          by_cases hj : j = i
          · subst hj
            simpa [he] using h
          · simp [hj]
      have hfence : ((List.finRange 64).any fun z => decide (z ∈ e.gives) && (t.zone z).state.isPending)
          = e.gives.any fun z => (t.zone z).state.isPending := by
        rw [Bool.eq_iff_iff]
        simp [List.any_eq_true]
      have hor : ∀ a b c : Byte, a ||| b ||| c = a ||| c ||| b := fun a b c => by
        rw [BitVec.or_assoc, BitVec.or_comm b, BitVec.or_assoc]
      have hc : t.port.tableCause ||| (if t.someEnding eff [i] (·.late) then 0x01 else 0) ||| (if (List.finRange
          64).any fun z => t.someEnding eff [i] (fun e => decide (z ∈ e.gives)) && (t.zone z).state.isPending
          then 0x02 else 0) = t.port.tableCause ||| (if e.gives.any fun z => (t.zone z).state.isPending
          then 0x02 else 0) ||| (if e.late then 0x01 else 0) := by
        simp only [hs, he, Option.any_some, hfence]
        exact hor _ _ _
      refine State.tableOnly.ext (s := t) ?_ rfl ?_ ?_ ?_ ?_ ?_ ?_
      · unfold State.endOne
        rw [hl]
        dsimp only
        rw [her]
        dsimp only
        cases e.left <;> cases e.late <;> cases e.leaves <;> rfl
      all_goals
        unfold State.endOne
        rw [hl]
        dsimp only
        rw [her]
        dsimp only
      · refine Table.ext_get fun z => ?_
        simp only [State.endTogether, Table.get_mapIdx, hs, he, Option.any_some, decide_eq_true_eq]
        cases e.left <;> cases e.late <;> cases e.leaves <;>
          exact Table.get_mapIdx (fun z x => if z ∈ e.gives then Zone.givenUp x else x) t.zones z
      · rw [show (t.endTogether eff [i]).slots = _ from hslots]
        cases e.left <;> cases e.late <;> cases e.leaves <;> rfl
      · rw [show (t.endTogether eff [i]).waiting = _ from hwait]
        cases e.left <;> cases e.late <;> cases e.leaves <;> rfl
      · cases e.left <;> cases e.late <;> cases e.leaves <;> rfl
      · simp only [State.endTogether, hs, he, Option.any_some, hslots]
        cases e.left <;> cases e.late <;> cases e.leaves <;> simp <;> rfl
      · rw [show (t.endTogether eff [i]).port.tableCause = _ from hc]
        cases e.left <;> cases e.late <;> cases e.leaves <;>
          simp [State.zonesGivenUp, State.recordFreed, State.setLease, State.setSlot, State.raiseTable,
            State.leaveList, flagRevokeLate, flagFenceDone, State.zone]

theorem endTogether_lease (t : State) (eff : Lease → Option Ending) (xs : List SlotId) (i : SlotId) :
    (t.endTogether eff xs).lease i = if i ∈ xs then (t.lease i).bind (leftOf eff) else t.lease i := by
  simp only [State.endTogether, State.lease, State.slot, Table.get_mapIdx]
  split <;> rfl

theorem endTogether_zone (t : State) (eff : Lease → Option Ending) (xs : List SlotId) (z : ZoneId) :
    (t.endTogether eff xs).zone z =
      if t.someEnding eff xs (fun e => decide (z ∈ e.gives)) then (t.zone z).givenUp else t.zone z := by
  simp only [State.endTogether, State.zone, Table.get_mapIdx]

theorem someEnding_congr {s t : State} {xs : List SlotId} (eff : Lease → Option Ending) (p : Ending → Bool)
    (h : ∀ i ∈ xs, s.lease i = t.lease i) : s.someEnding eff xs p = t.someEnding eff xs p := by
  unfold State.someEnding
  rw [Bool.eq_iff_iff, List.any_eq_true, List.any_eq_true]
  refine exists_congr fun i => and_congr_right fun hi => ?_
  rw [h i hi]

theorem or_flags (p q : Bool) (k : Byte) :
    (if p then k else 0) ||| (if q then k else 0) = if p || q then k else 0 := by
  cases p <;> cases q <;> simp

/-- One ending and then a group are one group. -/
theorem endTogether_cons (t : State) (eff : Lease → Option Ending) (x : SlotId) (xs : List SlotId)
    (hx : x ∉ xs) : (t.endTogether eff [x]).endTogether eff xs = t.endTogether eff (x :: xs) := by
  have hl : ∀ i, i ≠ x → (t.endTogether eff [x]).lease i = t.lease i := fun i hi => by
    rw [endTogether_lease, if_neg (by simpa using hi)]
  have hs : ∀ p, (t.endTogether eff [x]).someEnding eff xs p = t.someEnding eff xs p := fun p =>
    someEnding_congr eff p fun i hi => hl i (by rintro rfl; exact hx hi)
  have hc : ∀ p, t.someEnding eff (x :: xs) p = (t.someEnding eff [x] p || t.someEnding eff xs p) := fun p => by
    simp [State.someEnding]
  have hslots : ((t.endTogether eff [x]).endTogether eff xs).slots = (t.endTogether eff (x :: xs)).slots := by
    refine Table.ext_get fun i => ?_
    simp only [State.endTogether, Table.get_mapIdx]
    by_cases hi : i = x
    · subst hi
      simp [hx]
    · by_cases hm : i ∈ xs <;> simp [hi, hm]
  refine State.tableOnly.ext (s := t) rfl rfl ?_ hslots ?_ rfl ?_ ?_
  · refine Table.ext_get fun z => ?_
    show ((t.endTogether eff [x]).endTogether eff xs).zone z = (t.endTogether eff (x :: xs)).zone z
    rw [endTogether_zone, endTogether_zone, endTogether_zone, hs, hc]
    generalize t.someEnding eff [x] _ = a
    generalize t.someEnding eff xs _ = b
    cases a <;> cases b <;> simp
  · show (List.filter _ (List.filter _ t.waiting)) = List.filter _ t.waiting
    rw [List.filter_filter]
    refine List.filter_congr fun i _ => ?_
    by_cases hi : i = x
    · subst hi
      simp [hx]
    · rw [hl i hi]
      simp [hi]
  · show ((t.endTogether eff [x]).armed || _) = (t.armed || _)
    have h₁ : ∀ (u v : State) (a b : Bool), u.occupied ≤ v.occupied → (b = false → u.occupied = v.occupied) →
        (t.armed || (a && decide (v.occupied < t.threshold)) || (b && decide (u.occupied < t.threshold)))
          = (t.armed || ((a || b) && decide (u.occupied < t.threshold))) := by
      intro u v a b hle heq
      cases t.armed <;> cases a <;> cases b <;> simp
      · rw [heq rfl]
      · intro h
        omega
    rw [hs, hc]
    refine Eq.trans ?_ (h₁ (t.endTogether eff (x :: xs)) (t.endTogether eff [x]) _ _ (occupied_le fun i hi => ?_)
      fun hb => occupied_congr fun i => ?_)
    · show _ = (t.armed || _ || _)
      congr 1
      congr 1
      exact congrArg (fun k => decide (k < t.threshold))
        (occupied_congr (s := t.endTogether eff (x :: xs)) fun i => by
          show (Slot.lease (((t.endTogether eff [x]).endTogether eff xs).slots.get i)).isSome = _
          rw [hslots]
          rfl)
    · rw [endTogether_lease] at hi ⊢
      by_cases hix : i = x
      · subst hix
        simpa using hi
      · rw [if_neg (by simpa using hix)]
        by_cases hm : i ∈ xs
        · rw [if_pos (by simp [hm])] at hi
          cases h : t.lease i with
          | none => simp [h] at hi
          | some r => rfl
        · rw [if_neg (by simp [hm, hix])] at hi
          exact hi
    · rw [endTogether_lease, endTogether_lease]
      by_cases hix : i = x
      · subst hix
        simp
      · rw [if_neg (show i ∉ [x] by simpa using hix)]
        by_cases hm : i ∈ xs
        · rw [if_pos (by simp [hm])]
          have := List.any_eq_false.mp hb i hm
          cases h : t.lease i with
          | none => rfl
          | some r =>
            rw [h, Option.bind_some] at this
            rw [Option.bind_some, leftOf]
            cases he : eff r with
            | none => rfl
            | some e =>
              rw [he] at this
              cases hle : e.left <;> simp_all
        · rw [if_neg (by simp [hm, hix])]
  · show (t.endTogether eff [x]).port.tableCause ||| _ ||| _ = t.port.tableCause ||| _ ||| _
    show t.port.tableCause ||| _ ||| _ ||| _ ||| _ = t.port.tableCause ||| _ ||| _
    have hor : ∀ c a b a' b' : Byte, c ||| a ||| b ||| a' ||| b' = c ||| (a ||| a') ||| (b ||| b') := by
      intro c a b a' b'
      rw [BitVec.or_assoc (c ||| a), BitVec.or_comm b a', ← BitVec.or_assoc, ← BitVec.or_assoc c,
        BitVec.or_assoc (c ||| a ||| a')]
    rw [hor, or_flags, or_flags, hs, hc]
    congr 2
    congr 1
    rw [Bool.eq_iff_iff, Bool.or_eq_true, List.any_eq_true, List.any_eq_true, List.any_eq_true]
    simp only [endTogether_zone, hs, hc, Bool.and_eq_true, Bool.or_eq_true, List.mem_finRange, true_and]
    constructor
    · rintro (⟨z, h₁, h₂⟩ | ⟨z, h₁, h₂⟩)
      · exact ⟨z, .inl h₁, h₂⟩
      · refine ⟨z, .inr h₁, ?_⟩
        split at h₂
        · rw [givenUp_isPending] at h₂
          cases h₂
        · exact h₂
    · rintro ⟨z, h₁, h₂⟩
      by_cases ha : t.someEnding eff [x] (fun e => decide (z ∈ e.gives)) = true
      · exact .inl ⟨z, ha, h₂⟩
      · exact .inr ⟨z, h₁.resolve_left ha, by rwa [if_neg ha]⟩

/-- Endings one after another are the endings together. -/
theorem endOne_foldl (eff : Lease → Option Ending) (xs : List SlotId) (hn : xs.Nodup) (t : State) (h : xs ≠ []) :
    xs.foldl (State.endOne eff) t = t.endTogether eff xs := by
  induction xs generalizing t with
  | nil => exact absurd rfl h
  | cons x xs ih =>
    rw [List.nodup_cons] at hn
    rw [List.foldl_cons, endOne_eq]
    by_cases hxs : xs = []
    · rw [hxs]
      rfl
    · rw [ih hn.2 _ hxs, endTogether_cons t eff x xs hn.1]

/-! ### The endings of a tick, and records freed -/

theorem zonesGivenUp_nil (s : State) : s.zonesGivenUp [] = s := by
  refine State.tableOnly.ext (s := s) rfl rfl ?_ rfl rfl rfl rfl ?_
  · refine Table.ext_get fun z => ?_
    show (s.zonesGivenUp []).zone z = s.zone z
    rw [zonesGivenUp_zone]
    simp
  · have := (zonesGivenUp_parts s []).2.2.2.2.2
    simpa using this

/-- The end of a record whose countdown a tick has brought to 0 (R83 to R86). -/
def dueEnding (enabled : Link → Bool) (r : Lease) : Option Ending :=
  if r.due then
    some
      { left :=
          if enabled r.owner then
            some { r with phase :=
              if r.phase.queued then .lapsed .waitOut
              else if r.phase.countdown = 0 then .expired
              else .revoked .yieldLate }
          else none
        gives := if r.phase.holds then r.zones else []
        leaves := r.phase.queued
        late := !r.phase.queued && r.phase.countdown != 0 }
  else none

theorem endIfDue_eq (s : State) (i : SlotId) :
    s.endIfDue i = s.endOne (dueEnding fun l => (s.link l).line.enabled) i := by
  unfold State.endIfDue State.endOne
  cases hl : s.lease i with
  | none => rfl
  | some r =>
    dsimp only
    unfold dueEnding
    cases hd : r.due with
    | false => rfl
    | true =>
      have hz : ∀ t : State, t.zonesGivenUp [] = t := zonesGivenUp_nil
      have h₁ : ∀ zs l, (s.zonesGivenUp zs).link l = s.link l := fun _ _ => rfl
      have h₂ : ∀ l, (s.leaveList i).link l = s.link l := fun _ => rfl
      have hf := hd
      cases hp : r.phase with
      | waiting c q | parked c q =>
        simp [Lease.due, hp, Phase.live, Phase.holds, Phase.queued, Phase.countdown, Phase.isYielding] at hf
        cases he : (s.link r.owner).line.enabled <;>
          (simp [Phase.queued, Phase.holds, State.lapseAt, hl, hp, Phase.countdown, hf, State.endQueued, terminate_eq,
            hz, State.recordEnded, h₂, he]; try rfl)
      | held c w =>
        simp [Lease.due, hp, Phase.live, Phase.holds, Phase.queued, Phase.countdown, Phase.isYielding] at hf
        cases he : (s.link r.owner).line.enabled <;>
          (simp [Phase.queued, Phase.holds, State.expireAt, hl, hp, Phase.countdown, hf, State.endHeld, terminate_eq,
            giveUpZones_eq, State.recordEnded, h₁, he]; try rfl)
      | yielding c y w =>
        by_cases hc : c = 0
        · cases he : (s.link r.owner).line.enabled <;>
            (simp [Phase.queued, Phase.holds, State.expireAt, hl, hp, Phase.countdown, hc, State.endHeld,
              terminate_eq, giveUpZones_eq, State.recordEnded, h₁, he]; try rfl)
        · simp [Lease.due, hp, Phase.live, Phase.holds, Phase.queued, Phase.countdown, Phase.isYielding,
            Phase.yieldCountdown, hc] at hf
          cases he : (s.link r.owner).line.enabled <;>
            (simp [Phase.queued, Phase.holds, State.revokeLateAt, hl, hp, Phase.countdown, hc, hf, State.endHeld,
              terminate_eq, giveUpZones_eq, State.recordEnded, h₁, he, Phase.isYielding,
              Phase.yieldCountdown]; try rfl)
      | expired | revoked _ | lapsed _ => simp [Lease.due, hp, Phase.live, Phase.holds, Phase.queued] at hf

/-- The endings of a tick, made slot by slot, are made together. -/
theorem endAll_eq (s : State) :
    s.endAll = s.endTogether (dueEnding fun l => (s.link l).line.enabled) (List.finRange 128) := by
  rw [← endOne_foldl _ _ (List.nodup_finRange 128) _ (by decide), State.endAll]
  suffices h : ∀ (xs : List SlotId) (t : State), t.links = s.links →
      xs.foldl State.endIfDue t = xs.foldl (State.endOne (dueEnding fun l => (s.link l).line.enabled)) t from
    h _ s rfl
  intro xs
  induction xs with
  | nil => exact fun t _ => rfl
  | cons x xs ih =>
    intro t ht
    have hl : (t.endIfDue x).links = s.links := ((endIfDue_tableOnly t x).fields.2.2.2.2.1).trans ht
    have he : t.endIfDue x = t.endOne (dueEnding fun l => (s.link l).line.enabled) x := by
      have := endIfDue_eq t x
      simp only [State.link, ht] at this
      exact this
    rw [List.foldl_cons, List.foldl_cons, ← he]
    exact ih _ hl

/-- The end of a record freed because it satisfies `p` (R24). -/
def freeEnding (p : Lease → Bool) (r : Lease) : Option Ending :=
  if p r then some { left := none, gives := [], leaves := r.phase.queued, late := false } else none

theorem freeAt_eq (p : Lease → Bool) (s : State) (i : SlotId) :
    s.freeAt p i = s.endOne (freeEnding p) i := by
  unfold State.freeAt State.endOne freeEnding
  cases hl : s.lease i with
  | none => rfl
  | some r =>
    cases hp : p r with
    | false => simp [hp]
    | true => cases hq : r.phase.queued <;> simp [hp, hq, zonesGivenUp_nil, freeSlot_eq]

/-- The records freed slot by slot are freed together. -/
theorem freeWhere_eq (s : State) (p : Lease → Bool) :
    s.freeWhere p = s.endTogether (freeEnding p) (List.finRange 128) := by
  rw [← endOne_foldl _ _ (List.nodup_finRange 128) _ (by decide), State.freeWhere]
  congr 1
  funext t i
  exact freeAt_eq p t i

end Sys2Proof.Machine
end

