-- ==== Sys2Proof/Laws/Walk.lean ====
section
/-! SUPPORT. What the walk of the list does with the clock running, entry by entry and as a whole: which entries
it grants, which earmarks it sets, which holders it asks to yield (R54 to R58). -/

namespace Sys2Proof.Machine

/-! ### Yields -/

theorem startYield_not_held (r : Lease) (c : Nat) (w : Bool) : r.startYield.phase ≠ .held c w := by
  unfold Lease.startYield
  split
  · simp
  · next h => exact h c w

theorem startYield_of_not_held {r : Lease} (h : ∀ c w, r.phase ≠ .held c w) : r.startYield = r := by
  unfold Lease.startYield
  split
  · next c w hp => exact absurd hp (h c w)
  · rfl

@[simp] theorem startYield_startYield (r : Lease) : r.startYield.startYield = r.startYield :=
  startYield_of_not_held (startYield_not_held r)

/-- Record `q` is `r`, or `r` asked to yield. -/
def Lease.asked (r q : Lease) : Prop := q = r ∨ q = r.startYield

theorem Lease.asked.trans {r q v : Lease} (h₁ : r.asked q) (h₂ : q.asked v) : r.asked v := by
  rcases h₁ with rfl | rfl
  · exact h₂
  · rcases h₂ with rfl | rfl
    · exact .inr rfl
    · exact .inr (startYield_startYield r)

/-- Being asked to yield ends HELD for good. -/
theorem Lease.asked.not_held {r q : Lease} (h : r.asked q) (hr : ∀ c w, r.phase ≠ .held c w) :
    ∀ c w, q.phase ≠ .held c w := by
  rcases h with rfl | rfl
  · exact hr
  · exact startYield_not_held r

theorem Lease.asked.keeps {r q : Lease} (h : r.asked q) :
    q.zones = r.zones ∧ q.priority = r.priority ∧ q.yieldable = r.yieldable ∧ q.limits = r.limits ∧
      q.owner = r.owner ∧ q.phase.holds = r.phase.holds ∧ q.phase.queued = r.phase.queued := by
  rcases h with rfl | rfl <;> simp

/-! ### One entry that is not granted (R57, R58) -/

/-- A zone after the entry has earmarked what it lists. -/
def Zone.marked (x : Zone) (e : Option SlotId) : Zone :=
  { x with earmark := match x.state with | .free | .held _ => x.earmark.or e | _ => x.earmark }

/-- What an earmark on one zone does: the zone marked, the list kept, and each record as it was or asked to
yield; the holder asked is not HELD afterwards. -/
theorem earmarkZone_views (e : SlotId) (p : Priority) (t : State) (z : ZoneId) :
    (∀ w, (t.earmarkZone true e p z).zone w = (t.zone w).marked (if w = z then some e else none)) ∧
      (t.earmarkZone true e p z).waiting = t.waiting ∧
      (∀ i, t.lease i = (t.earmarkZone true e p z).lease i ∨ ∃ r q, t.lease i = some r ∧
        (t.earmarkZone true e p z).lease i = some q ∧ r.asked q) ∧
      ∀ h r, (t.zone z).state = .held h → (t.zone z).earmark = none →
        (t.earmarkZone true e p z).lease h = some r → r.yieldable = true → r.priority < p →
        ∀ c w, r.phase ≠ .held c w := by
  unfold State.earmarkZone
  split
  · next he hs =>
    refine ⟨fun w => ?_, by simp, fun i => .inl (by simp), fun h r hh => ?_⟩
    · by_cases hw : w = z
      · subst hw
        simp [Zone.marked, he, hs]
      · simp only [State.setEarmark_views, hw, if_false, Zone.marked, Option.or_none]
        split <;> rfl
    · rw [hs] at hh
      cases hh
  · next h he hs =>
    simp only [if_true]
    obtain ⟨h₁, h₂, -, -, h₅⟩ := askYield_views (t.setEarmark z (some e)) h p
    refine ⟨fun w => ?_, by rw [h₂]; simp, fun i => ?_, fun k r hk _ hr hy hp => ?_⟩
    · rw [h₁]
      by_cases hw : w = z
      · subst hw
        simp [Zone.marked, he, hs]
      · simp only [State.setEarmark_views, hw, if_false, Zone.marked, Option.or_none]
        split <;> rfl
    · rcases h₅ i with h' | ⟨r, h', h''⟩
      · exact .inl (by rw [h']; simp)
      · exact .inr ⟨r, _, by simpa using h', h'', .inr rfl⟩
    · rw [hs] at hk
      cases hk
      unfold State.askYield at hr
      split at hr
      · next q hq =>
        split at hr
        · simp only [State.setLease_views, if_true, Option.some.injEq] at hr
          rw [← hr]
          exact startYield_not_held q
        · next hc =>
          rw [hq] at hr
          cases hr
          simp [hy, hp] at hc
      · next hq =>
        rw [hq] at hr
        cases hr
  · next h₁ h₂ =>
    refine ⟨fun w => ?_, rfl, fun i => .inl rfl, fun h r hh he => ?_⟩
    · by_cases hw : w = z
      · subst hw
        simp only [if_true]
        generalize t.zone w = x at h₁ h₂
        obtain ⟨st, c, m⟩ := x
        cases m <;> cases st <;> simp_all [Zone.marked]
      · simp only [hw, if_false, Zone.marked, Option.or_none]
        split <;> rfl
    · exact absurd hh (h₂ h he)

theorem marked_marked (x : Zone) (a b : Option SlotId) : (x.marked a).marked b = x.marked (a.or b) := by
  obtain ⟨st, c, e⟩ := x
  cases st <;> simp [Zone.marked, Option.or_assoc]

theorem marked_none (x : Zone) : x.marked none = x := by
  obtain ⟨st, c, e⟩ := x
  cases st <;> simp [Zone.marked]

/-- What an entry that is not granted does to the zones, the records and the list. -/
theorem earmarkZones_views (e : SlotId) (p : Priority) (zs : List ZoneId) (t : State) :
    let u := zs.foldl (State.earmarkZone true e p) t
    (∀ w, u.zone w = (t.zone w).marked (if w ∈ zs then some e else none)) ∧ u.waiting = t.waiting ∧
      (∀ i, t.lease i = u.lease i ∨ ∃ r q, t.lease i = some r ∧ u.lease i = some q ∧ r.asked q) ∧
      ∀ z ∈ zs, ∀ h r, (t.zone z).state = .held h → (t.zone z).earmark = none → u.lease h = some r →
        r.yieldable = true → r.priority < p → ∀ c w, r.phase ≠ .held c w := by
  induction zs generalizing t with
  | nil =>
    refine ⟨fun w => ?_, rfl, fun i => .inl rfl, fun z hz => ?_⟩
    · simp [marked_none]
    · cases hz
  | cons x zs ih =>
    obtain ⟨h₁, h₂, h₃, h₄⟩ := earmarkZone_views e p t x
    obtain ⟨k₁, k₂, k₃, k₄⟩ := ih (t.earmarkZone true e p x)
    rw [List.foldl_cons]
    refine ⟨fun w => ?_, k₂.trans h₂, fun i => ?_, fun z hz h r hs he hr hy hp => ?_⟩
    · rw [k₁, h₁, marked_marked]
      congr 1
      by_cases hw : w = x
      · by_cases hm : w ∈ zs <;> simp [hw]
      · by_cases hm : w ∈ zs <;> simp [hw, hm]
    · rcases h₃ i with h | ⟨r, q, hr, hq, hrq⟩
      · rw [h]
        exact k₃ i
      · rcases k₃ i with k | ⟨r', q', hr', hq', hrq'⟩
        · exact .inr ⟨r, q, hr, k ▸ hq, hrq⟩
        · rw [hq] at hr'
          cases hr'
          exact .inr ⟨r, q', hr, hq', hrq.trans hrq'⟩
    · by_cases hzx : z = x
      · subst hzx
        rcases k₃ h with k | ⟨r', q', hr', hq', hrq'⟩
        · exact h₄ h r hs he (k ▸ hr) hy hp
        · rw [hr] at hq'
          cases hq'
          refine hrq'.not_held (h₄ h r' hs he hr' ?_ ?_)
          · rw [← hrq'.keeps.2.2.1]
            exact hy
          · rw [← hrq'.keeps.2.1]
            exact hp
      · have hm : z ∈ zs := (List.mem_cons.mp hz).resolve_left hzx
        refine k₄ z hm h r ?_ ?_ hr hy hp
        · rw [h₁]
          exact hs
        · rw [h₁, if_neg hzx, marked_none]
          exact he

/-! ### The walk (R54 to R58) -/

/-- Slot `x` holds a record that lists zone `z`. -/
def State.lists (s : State) (x : SlotId) (z : ZoneId) : Bool :=
  match s.lease x with
  | some r => decide (z ∈ r.zones)
  | none => false

/-- An entry of the list can be granted: each of its zones is FREE and listed by no entry before it (R55). -/
def State.entryGrantable (s : State) (e : SlotId) : Bool :=
  match s.lease e with
  | some r => r.zones.all fun z =>
      (s.zone z).state == .free && (s.waiting.takeWhile (· != e)).all fun x => !s.lists x z
  | none => false

/-- What the walk has made of state `s` when it has taken the entries of `a`. -/
structure State.Walked (s : State) (a : List SlotId) (t : State) : Prop where
  waiting : t.waiting = s.waiting.filter fun x => !(decide (x ∈ a) && s.entryGrantable x)
  zone : ∀ z, ((t.zone z).state = (s.zone z).state ∧
      ∀ x ∈ a, s.entryGrantable x = true → s.lists x z = false) ∨
    ∃ x ∈ a, s.entryGrantable x = true ∧ s.lists x z = true ∧ (t.zone z).state = .held x
  earmark : ∀ z, (t.zone z).earmark =
    match (t.zone z).state with
    | .free | .held _ => (a.filter fun x => !s.entryGrantable x).find? fun x => s.lists x z
    | _ => none
  lease : ∀ i, if i ∈ a ∧ s.entryGrantable i = true
    then ∃ r q, s.lease i = some r ∧ t.lease i = some q ∧ r.granted.asked q
    else s.lease i = t.lease i ∨ ∃ r q, s.lease i = some r ∧ t.lease i = some q ∧ r.asked q
  asks : (∀ z h, (s.zone z).state = .held h → h ∉ s.waiting) → ∀ z h e r q, (t.zone z).state = .held h →
    (t.zone z).earmark = some e → t.lease h = some r → s.lease e = some q → r.yieldable = true →
    r.priority < q.priority → ∀ c w, r.phase ≠ .held c w

theorem takeWhile_before {a b : List SlotId} {e : SlotId} (h : e ∉ a) :
    (a ++ e :: b).takeWhile (· != e) = a := by
  rw [List.takeWhile_append_of_pos]
  · simp
  · intro x hx
    simp only [bne_iff_ne, ne_eq]
    rintro rfl
    exact h hx

theorem State.Walked.start {s : State} (h : ∀ z, (s.zone z).earmark = none) : s.Walked [] s := by
  refine ⟨?_, fun z => .inl ⟨rfl, fun _ h => nomatch h⟩, fun z => ?_, fun i => ?_, fun _ z h' e r q _ he => ?_⟩
  · simp
  · rw [h]
    split <;> rfl
  · simp
  · rw [h] at he
    cases he

theorem granted_not_asked {s : State} {i : SlotId} {a : List SlotId} {t : State} (h : s.Walked a t)
    (hi : i ∉ a) {r : Lease} (hr : s.lease i = some r) (hq : r.phase.queued = true) :
    t.lease i = some r := by
  have := h.lease i
  rw [if_neg fun h' => hi h'.1] at this
  rcases this with h' | ⟨r', q, h', h'', hrq⟩
  · rw [← h', hr]
  · rw [hr] at h'
    cases h'
    rw [h'']
    rcases hrq with rfl | rfl
    · rfl
    · rw [startYield_idle]
      cases hp : r.phase <;> simp_all [Phase.queued, Phase.holds]

/-- An entry met in the walk is granted exactly when it could be before the walk (R55). -/
theorem State.Walked.grantable_iff {s t : State} {a b : List SlotId} {e : SlotId} {r : Lease} (h : s.Walked a t)
    (hw : s.waiting = a ++ e :: b) (he : e ∉ a) (hr : s.lease e = some r) :
    t.grantable r = s.entryGrantable e := by
  rw [Bool.eq_iff_iff]
  simp only [State.grantable, State.entryGrantable, hr, hw, takeWhile_before he, List.all_eq_true,
    Bool.and_eq_true, beq_iff_eq, Bool.not_eq_true']
  refine forall_congr' fun z => imp_congr_right fun _ => ?_
  have hz := h.zone z
  have hm := h.earmark z
  constructor
  · rintro ⟨hf, hn⟩
    rcases hz with ⟨hs, hg⟩ | ⟨x, -, -, -, hx⟩
    · refine ⟨hs ▸ hf, fun x hx => ?_⟩
      cases hl : s.lists x z with
      | false => rfl
      | true =>
        cases hgx : s.entryGrantable x with
        | true =>
          rw [hg x hx hgx] at hl
          cases hl
        | false =>
          rw [hn, hf] at hm
          have := List.find?_eq_none.mp hm.symm x (List.mem_filter.mpr ⟨hx, by simp [hgx]⟩)
          exact absurd hl this
    · rw [hf] at hx
      cases hx
  · rintro ⟨hf, hn⟩
    rcases hz with ⟨hs, -⟩ | ⟨x, hx, -, hl, -⟩
    · rw [hf] at hs
      refine ⟨hs, ?_⟩
      rw [hm, hs]
      simp only [List.find?_eq_none]
      intro x hx
      simp [hn x (List.mem_filter.mp hx).1]
    · rw [hn x hx] at hl
      cases hl

/-- The walk takes one more entry. -/
theorem State.Walked.step {s t : State} {a b : List SlotId} {e : SlotId} {r : Lease} (h : s.Walked a t)
    (hw : s.waiting = a ++ e :: b) (hn : s.waiting.Nodup) (hr : s.lease e = some r)
    (hq : r.phase.queued = true) : s.Walked (a ++ [e]) (t.walkEntry true e) := by
  have he : e ∉ a := by
    rw [hw] at hn
    exact fun hm => (List.nodup_append.mp hn).2.2 e hm e (List.mem_cons_self ..) rfl
  have hte := granted_not_asked h he hr hq
  have hg := h.grantable_iff hw he hr
  have hlists : ∀ z, s.lists e z = decide (z ∈ r.zones) := fun z => by simp [State.lists, hr]
  unfold State.walkEntry
  rw [hte]
  dsimp only
  rw [hg, Bool.true_and]
  split
  · next hc =>
    have hfree : ∀ z ∈ r.zones, (t.zone z).state = .free ∧ (t.zone z).earmark = none := by
      rw [hc] at hg
      simpa [State.grantable] using hg
    refine ⟨?_, fun z => ?_, fun z => ?_, fun i => ?_, fun hh z k e' r' q hs hm hl hq' hy hp => ?_⟩
    · simp only [State.grant, takeZones_views, State.setLease_fields, State.leaveList_fields, h.waiting,
        List.filter_filter]
      refine List.filter_congr fun x _ => ?_
      by_cases hx : x = e
      · simp [hx, hc]
      · by_cases hxa : x ∈ a <;> simp [hx, hxa]
    · simp only [State.grant, takeZones_views, State.setLease_views, State.leaveList_views]
      by_cases hz : z ∈ r.zones
      · exact .inr ⟨e, by simp, hc, by simp [hlists, hz], by simp [hz]⟩
      · rw [if_neg hz]
        rcases h.zone z with ⟨h₁, h₂⟩ | ⟨x, hx, h₁, h₂, h₃⟩
        · refine .inl ⟨h₁, fun x hx hgx => ?_⟩
          rcases List.mem_append.mp hx with hx | hx
          · exact h₂ x hx hgx
          · rw [List.mem_singleton.mp hx, hlists]
            simpa using hz
        · exact .inr ⟨x, by simp [hx], h₁, h₂, h₃⟩
    · simp only [State.grant, takeZones_views, State.setLease_views, State.leaveList_views,
        List.filter_append, List.filter_cons, hc, Bool.not_true, Bool.false_eq_true, if_false, List.filter_nil,
        List.append_nil]
      by_cases hz : z ∈ r.zones
      · have hm := h.earmark z
        rw [(hfree z hz).1] at hm
        rw [if_pos hz]
        exact hm
      · rw [if_neg hz]
        exact h.earmark z
    · simp only [State.grant, takeZones_views, State.setLease_views, State.leaveList_views]
      by_cases hi : i = e
      · subst hi
        rw [if_pos ⟨by simp, hc⟩]
        exact ⟨r, r.granted, hr, by simp, .inl rfl⟩
      · have := h.lease i
        simpa [hi] using this
    · simp only [State.grant, takeZones_views, State.setLease_views, State.leaveList_views] at hs hm hl
      by_cases hz : z ∈ r.zones
      · rw [if_pos hz] at hm
        rw [show (t.zone z).earmark = none from (hfree z hz).2] at hm
        cases hm
      · rw [if_neg hz] at hs hm
        have hk : k ≠ e := by
          rintro rfl
          rcases h.zone z with ⟨h₁, -⟩ | ⟨x, hx, -, -, h₃⟩
          · refine hh z k (h₁ ▸ hs) ?_
            rw [hw]
            simp
          · rw [hs] at h₃
            cases h₃
            exact he hx
        rw [if_neg hk] at hl
        exact h.asks hh z k e' r' q hs hm hl hq' hy hp
  · next hc =>
    simp only [Bool.not_eq_true] at hc
    obtain ⟨k₁, k₂, k₃, k₄⟩ := earmarkZones_views e r.priority r.zones t
    generalize r.zones.foldl (State.earmarkZone true e r.priority) t = u at k₁ k₂ k₃ k₄
    have hst : ∀ z, (u.zone z).state = (t.zone z).state := fun z => by rw [k₁]; rfl
    refine ⟨?_, fun z => ?_, fun z => ?_, fun i => ?_, fun hh z k e' r' q hs hm hl hq' hy hp => ?_⟩
    · rw [k₂, h.waiting]
      refine List.filter_congr fun x _ => ?_
      by_cases hx : x = e
      · simp [hx, hc]
      · simp [hx]
    · rw [hst]
      rcases h.zone z with ⟨h₁, h₂⟩ | ⟨x, hx, h₁, h₂, h₃⟩
      · refine .inl ⟨h₁, fun x hx hgx => ?_⟩
        rcases List.mem_append.mp hx with hx | hx
        · exact h₂ x hx hgx
        · rw [List.mem_singleton.mp hx, hc] at hgx
          cases hgx
      · exact .inr ⟨x, by simp [hx], h₁, h₂, h₃⟩
    · rw [hst, k₁]
      have hm := h.earmark z
      simp only [Zone.marked, List.filter_append, List.filter_cons, hc, Bool.not_false, if_true,
        List.filter_nil, List.find?_append, List.find?_cons, List.find?_nil, hlists]
      split <;> simp_all <;> split <;> simp_all
    · have := h.lease i
      by_cases hi : i = e
      · subst hi
        rw [if_neg fun h' => by rw [hc] at h'; cases h'.2]
        rcases k₃ i with k | ⟨r₁, q, h₁, h₂, h₃⟩
        · exact .inl (by rw [hr, ← k, hte])
        · rw [hte] at h₁
          cases h₁
          exact .inr ⟨r, q, hr, h₂, h₃⟩
      · have hmem : i ∈ a ++ [e] ↔ i ∈ a := by simp [hi]
        simp only [hmem]
        split
        · next hg' =>
          rw [if_pos hg'] at this
          obtain ⟨r₁, q, h₁, h₂, h₃⟩ := this
          rcases k₃ i with k | ⟨r₂, q₂, g₁, g₂, g₃⟩
          · exact ⟨r₁, q, h₁, k ▸ h₂, h₃⟩
          · rw [h₂] at g₁
            cases g₁
            exact ⟨r₁, q₂, h₁, g₂, h₃.trans g₃⟩
        · next hg' =>
          rw [if_neg hg'] at this
          rcases this with h₁ | ⟨r₁, q, h₁, h₂, h₃⟩
          · rw [h₁]
            exact k₃ i
          · rcases k₃ i with k | ⟨r₂, q₂, g₁, g₂, g₃⟩
            · exact .inr ⟨r₁, q, h₁, k ▸ h₂, h₃⟩
            · rw [h₂] at g₁
              cases g₁
              exact .inr ⟨r₁, q₂, h₁, g₂, h₃.trans g₃⟩
    · rw [hst] at hs
      have hback : ∃ r₀, t.lease k = some r₀ ∧ r₀.asked r' := by
        rcases k₃ k with k' | ⟨r₁, q₁, g₁, g₂, g₃⟩
        · exact ⟨r', k' ▸ hl, .inl rfl⟩
        · rw [hl] at g₂
          cases g₂
          exact ⟨r₁, g₁, g₃⟩
      obtain ⟨r₀, hr₀, hrr⟩ := hback
      cases hm' : (t.zone z).earmark with
      | some x =>
        have hx : x = e' := by
          rw [k₁, Zone.marked] at hm
          rw [hs, hm'] at hm
          simpa using hm
        subst hx
        refine hrr.not_held (h.asks hh z k x r₀ q hs hm' hr₀ hq' ?_ ?_)
        · rw [← hrr.keeps.2.2.1]
          exact hy
        · rw [← hrr.keeps.2.1]
          exact hp
      | none =>
        have hx : z ∈ r.zones ∧ e' = e := by
          rw [k₁, Zone.marked] at hm
          rw [hs, hm'] at hm
          by_cases hz : z ∈ r.zones
          · simp [hz] at hm
            exact ⟨hz, hm.symm⟩
          · simp [hz] at hm
        rw [hx.2, hr] at hq'
        cases hq'
        exact k₄ z hx.1 k r' hs hm' hl hy hp

/-- The whole walk, from a state with no earmarks whose list obeys its law. -/
theorem walk_walked {s : State} (hl : s.ListLaw) (hm : ∀ z, (s.zone z).earmark = none) :
    s.Walked s.waiting (s.walk true) := by
  have key : ∀ (b a : List SlotId) (t : State), s.waiting = a ++ b → s.Walked a t →
      s.Walked s.waiting (b.foldl (State.walkEntry true) t) := by
    intro b
    induction b with
    | nil =>
      intro a t hw h
      rw [List.append_nil] at hw
      rw [hw]
      exact h
    | cons e b ih =>
      intro a t hw h
      obtain ⟨r, hr, hq⟩ := (hl.2.2 e).mp (by rw [hw]; simp)
      refine ih (a ++ [e]) _ (by rw [hw]; simp) ?_
      exact h.step hw hl.1 hr hq
  exact key s.waiting [] s rfl (State.Walked.start hm)

end Sys2Proof.Machine
end

