-- ==== Sys2Proof/Tests/Slice0.lean ====
section
/-! SUPPORT. Tests: the spec's worked examples command by command, the labels that the well-formedness check
refuses, and for each obligation states and operands that meet its hypotheses, clause by clause. -/

namespace Sys2Proof.Tests

set_option Elab.async false

open Sys2Proof.Machine

/-! ### Small states -/

/-- The state a command leaves. -/
def after (c : Instr) (s : State) : State :=
  match exec c s with
  | .next t => t
  | _ => s

/-- The part with its clock in INTERNAL and every link enabled. -/
def up : State := { State.reset with
  clock := { Clock.cold with state := .internal 24000 }
  links := .fill 4 { LinkState.cold with line := { LineParams.cold with enabled := true } } }

/-- The same with the clock HALTED. -/
def stopped (s : State) : State := s.setClock { s.clock with state := .halted }

/-- A frame waiting in a link's request slot. -/
def sent (s : State) (l : Link) (f : List Byte) : State := s.setLink l { s.link l with requestSlot := some f }

/-- A command waiting in the mailbox. -/
def asked (s : State) (code : Byte) (args : List Byte) : State :=
  s.setPort { s.port with command := code, phase := .waiting (.bytes8 args) }

/-- A record of class C0's limits. -/
def mk (l : Link) (tag : Byte) (p : Priority) (y : Bool) (zs : List ZoneId) (term renewals : Nat)
    (phase : Phase) : Lease :=
  ⟨l, tag, p, y, zs, ⟨5000, some 500, 1000, 16, 10000⟩, term, renewals, phase, none⟩

/-- A record placed in a slot with a generation, its zones HELD or its entry at the list's tail. -/
def put (s : State) (i : SlotId) (g : Byte) (r : Lease) : State :=
  let t := s.setSlot i ⟨g, some r⟩
  if r.phase.holds then t.zonesTaken i r.zones
  else if r.phase.queued then { t with waiting := t.waiting ++ [i] } else t

/-- The reply a link's request has left. -/
def reply (s : State) (l : Link) : Option (List Byte) := (s.link l).replyBuffer.map (·.payload)

/-- The result code and bytes of the last command. -/
def result (s : State) : Byte × List Byte := (s.port.result, s.port.res.list)

/-- State, holder's slot and earmark of a zone. -/
def zoneRow (s : State) (z : ZoneId) : Byte × Option SlotId × Option SlotId :=
  ((s.zone z).state.code, (s.zone z).state.holder, (s.zone z).earmark)

/-- The phase of a slot's record. -/
def phaseAt (s : State) (i : SlotId) : Option Phase := (s.lease i).map (·.phase)

/-! ### Labels of port bytes -/

theorem test_label_cause : Instr.wellFormed (.causeClear [.csLow, .spiByte 0x0C] (.spiByte 1)) = false := by decide
theorem test_label_enable :
    Instr.wellFormed (.groupEnableWrite [.csLow, .spiByte 0x05] (.spiByte 1)) = false := by decide
theorem test_label_register :
    Instr.wellFormed (.registerWrite [.csLow, .spiByte 0x03, .spiByte 0] (.spiByte 1)) = false := by decide
theorem test_label_direction :
    Instr.wellFormed (.registerWrite [.csLow, .spiByte 0x94] (.spiByte 1)) = false := by decide
theorem test_label_last : Instr.wellFormed (.causeClear [.csLow, .spiByte 0x09] .csHigh) = false := by decide
theorem test_label_read : Instr.wellFormed (.ticks0Read [.csLow, .spiByte 0x1E, .spiByte 0]) = false := by decide
theorem test_label_pointer : Instr.wellFormed (.i2cPointerSet [.i2cStart] (.i2cRead true)) = false := by decide
theorem test_label_good :
    Instr.wellFormed (.registerWrite [.csLow, .spiByte 0x13, .spiByte 9] (.spiByte 1)) = true ∧
      Instr.wellFormed (.ticks0Read [.csLow, .spiByte 0x9E, .spiByte 0]) = true := by decide

/-! ### Client requests: the worked examples -/

/-- Spec 13.1, event 1. -/
def frame131 : List Byte := [0x10, 5, 1, 0, 2, 1, 2, 0x07, 0xD0, 0x0B, 0xB8]

theorem test_acquire_grants : reply (after (.acquire 0) (sent up 0 frame131)) 0 =
    some [0x20, 0x10, 0, 1, 5, 2, 0, 0x07, 0xD0, 0x07, 0xD0] := by decide +kernel

/-- Spec 3.4: the four records, with the list S2, S3 and the counter at 42. -/
def crossing : State :=
  let s := put (put up 0 1 (mk 2 1 0 true [3] 900 0 (.held 800 false))) 4 1
    (mk 3 1 1 false [5] 900 0 (.held 800 false))
  let s := put (put s 2 1 (mk 1 1 1 false [4, 5] 900 0 (.waiting 500 40))) 3 1
    (mk 0 1 0 false [6, 4] 900 0 (.waiting 500 41))
  { s with sequence := 42 }

/-- Spec 3.4, event 1 and Table 3-7. -/
theorem test_acquire_waits :
    let t := after (.acquire 0) (sent crossing 0 [0x10, 2, 2, 0, 2, 3, 4, 0, 100, 0, 100])
    [3, 4, 5, 6].map (zoneRow t) =
        [(2, some 0, some 1), (1, none, some 1), (2, some 4, some 2), (1, none, some 3)] ∧
      t.waiting = [1, 2, 3] ∧ t.sequence = 43 ∧ phaseAt t 0 = some (.yielding 800 1000 false) := by
  decide +kernel

/-- Spec 10.6: a HELD record of L2 in S17, generation 3, tag 42; its RELEASE and the frame of the reply. -/
theorem test_release_reply :
    let s := put up 17 3 (mk 2 42 1 false [8] 900 0 (.held 800 false))
    ((after (.release 2) (sent s 2 [0x12, 0x11, 0x03])).link 2).replyBuffer.map OutFrame.wire =
      some [0xD5, 7, 0x20, 0x12, 0x11, 0x03, 0x2A, 2, 0, 0x87] := by decide +kernel

/-- Spec 13.1 before event 5. -/
def aisle : State :=
  put (put up 0 1 (mk 0 5 1 false [2] 2000 0 (.held 1200 false))) 1 1
    (mk 1 9 1 false [2, 3] 1500 0 (.waiting 3300 0))

/-- Spec 13.1, event 5 and Table 13-2. -/
theorem test_release_passes_zone_on :
    let t := after (.release 0) (sent aisle 0 [0x12, 0, 1])
    [1, 2, 3].map (zoneRow t) = [(1, none, none), (2, some 1, none), (2, some 1, none)] ∧
      phaseAt t 1 = some (.held 1500 false) ∧ t.slot 0 = ⟨1, none⟩ ∧ t.waiting = [] := by decide +kernel

/-- A record in slot S3, generation 9, of link L0, yieldable, on Z5. -/
def mine (phase : Phase) : Lease := mk 0 7 1 true [5] 3000 2 phase

/-- The part with that record alone. -/
def one (phase : Phase) : State := put up 3 9 (mine phase)

theorem test_renew : reply (after (.renew 0) (sent (one (.held 10 true)) 0 [0x11, 3, 9, 0x07, 0xD0])) 0 =
    some [0x20, 0x11, 3, 9, 7, 2, 0, 0x07, 0xD0, 0x07, 0xD0, 3] := by decide +kernel

/-- Spec 13.3: S8 on Z20 and Z21 with no renewals left, S9 waiting for Z21. -/
def crew : State :=
  put (put up 8 6 (mk 1 1 2 false [20, 21] 4000 16 (.held 700 false))) 9 1
    (mk 0 2 0 false [21] 1200 0 (.waiting 5000 0))

/-- Spec 13.3, event 2. -/
theorem test_renew_limit : reply (after (.renew 1) (sent crew 1 [0x11, 8, 6, 0, 100])) 1 =
    some [0x21, 0x11, 8, 6, 16] := by decide +kernel

/-- Class C3 of the examples of chapter 4: max duration 3000, warn lead 300, renewal limit 8. -/
def withC3 (s : State) (z : ZoneId) : State :=
  (s.setClass 3 ⟨3000, 300, 1000, 8, 10000⟩).setZone z { s.zone z with cls := 3 }

/-- Chapter 4's example of WIDEN. -/
theorem test_widen :
    let t := after (.widen 0)
      (sent (withC3 (put up 3 9 (mk 0 7 1 true [10] 5000 5 (.held 4200 false))) 11) 0 [0x13, 3, 9, 11])
    reply t 0 = some [0x20, 0x13, 3, 9, 2, 0, 0x0B, 0xB8, 0x0B, 0xB8, 11, 2] ∧
      (t.lease 3).map (·.limits) = some ⟨3000, some 300, 1000, 8, 10000⟩ ∧ zoneRow t 11 = (2, some 3, none) := by
  decide +kernel

/-- Spec 13.1, event 3. -/
theorem test_widen_earmarked : reply (after (.widen 0) (sent (aisle.setEarmark 3 (some 1)) 0 [0x13, 0, 1, 3])) 0 =
    some [0x21, 0x13, 0, 1, 20] := by decide +kernel

/-- Spec 6.7 before event 1. -/
def shared : State :=
  let s := put (put up 7 1 (mk 2 3 0 true [30, 31] 3000 0 (.yielding 2140 640 false))) 14 1
    (mk 1 4 2 false [32] 3000 0 (.held 900 false))
  ((put s 12 1 (mk 0 5 2 false [31, 32] 3000 0 (.waiting 900 0))).setEarmark 31 (some 12)).setEarmark 32 (some 12)

/-- Spec 6.7, event 1 and Table 6-3. -/
theorem test_narrow :
    let t := after (.narrow 2) (sent shared 2 [0x14, 7, 1, 31])
    [30, 31, 32].map (zoneRow t) = [(2, some 7, none), (1, none, some 12), (2, some 14, some 12)] ∧
      reply t 2 = some [0x20, 0x14, 7, 1, 2, 0, 0x0B, 0xB8, 0x08, 0x5C, 31, 1] := by decide +kernel

/-- Spec 13.2 before event 2. -/
def crane : State :=
  let s := put (put up 4 2 (mk 2 6 1 true [10, 11] 3000 2 (.yielding 2650 850 false))) 5 1
    (mk 3 7 3 false [11] 4000 0 (.waiting 1850 120))
  { s with sequence := 121 }

/-- Spec 13.2, event 2 and Table 13-4. -/
theorem test_park :
    let t := after (.park 2) (sent crane 2 [0x15, 4, 2])
    reply t 2 = some [0x20, 0x15, 4, 2, 6, 4, 0, 0x0B, 0xB8, 0x27, 0x10, 2] ∧
      [10, 11].map (zoneRow t) = [(1, none, some 4), (2, some 5, some 4)] ∧ t.waiting = [4] ∧
      t.sequence = 122 ∧ phaseAt t 5 = some (.held 4000 false) := by decide +kernel

theorem test_query_lease : reply (after (.queryLease 0) (sent (one (.held 10 true)) 0 [0x18, 3, 9])) 0 =
    some [0x20, 0x18, 3, 9, 7, 2, 1, 0, 1, 1, 0x0B, 0xB8, 0, 10, 0, 0, 2, 1, 5] := by decide +kernel

theorem test_query_zone :
    reply (after (.queryZone 0) (sent (one (.held 10 true)) 0 [0x19, 5])) 0 =
        some [0x20, 0x19, 5, 2, 0, 0, 1, 3, 9] ∧
      reply (after (.queryZone 1) (sent (one (.held 10 true)) 1 [0x19, 5])) 1 =
        some [0x20, 0x19, 5, 2, 0, 0, 2, 0xFF, 0] := by decide +kernel

theorem test_bad_kind : reply (after (.badKind 0) (sent up 0 [0x16, 1, 2])) 0 = some [0x21, 0x16, 1] := by
  decide +kernel

/-! ### Mailbox commands -/

theorem test_read_zone : result (after .readZone (asked crossing 1 [5])) =
    (0, [2, 0, 4, 1, 3, 0xFF, 2, 0]) := by decide +kernel

theorem test_set_zone : result (after .setZone (asked crossing 2 [7, 0, 3])) =
    (0, [0, 3, 0xFF, 0, 0xFF, 0xFF, 0, 0]) := by decide +kernel

theorem test_set_zone_in_use : result (after .setZone (asked crossing 2 [5, 0, 3])) =
    (3, [0, 0, 0, 0, 0, 0, 0, 0]) := by decide +kernel

theorem test_read_class : result (after .readClass (asked up 3 [0, 0])) =
    (0, [0x13, 0x88, 0x01, 0xF4, 0x03, 0xE8, 0x27, 0x10]) := by decide +kernel

/-- R9: a max duration of 300 lowers the warn lead of 500 to 299. -/
theorem test_set_class : result (after .setClass (asked up 4 [3, 0, 0x01, 0x2C])) =
    (0, [0x01, 0x2C, 0x01, 0x2B, 0, 3, 0, 0]) := by decide +kernel

theorem test_read_lease : result (after .readLease (asked crossing 5 [4, 1])) =
    (0, [1, 5, 0xFF, 0xFF, 0xFF, 0xFF, 0, 1]) := by decide +kernel

theorem test_set_threshold : result (after .setThreshold (asked crossing 6 [4, 1])) =
    (0, [4, 4, 2, 0, 0, 1, 0, 0]) := by decide +kernel

theorem test_read_list : result (after .readList (asked crossing 7 [0])) =
    (0, [2, 2, 1, 1, 1, 1, 0x01, 0xF4]) := by decide +kernel

theorem test_next_expiry : result (after .nextExpiry (asked crossing 8 [])) =
    (0, [0, 1, 0x03, 0x20, 2, 2, 2, 2]) := by decide +kernel

theorem test_class_load : result (after .classLoad (asked crossing 9 [0])) =
    (0, [2, 0, 0, 0x06, 0x40, 2, 62, 0]) := by decide +kernel

/-- Spec 13.3, event 1 and Table 13-5. -/
theorem test_fence_wait : result (after .fenceWait (asked crew 0x0A [20, 0])) =
    (0, [3, 2, 8, 6, 0xFF, 0, 0xFF, 1]) := by decide +kernel

/-- Spec 7.6 after event 1. -/
def forced : State :=
  let s := put (put up 20 1 (mk 1 3 1 false [40, 41] 4000 0 (.held 3000 false))) 21 1
    (mk 2 4 0 true [42] 4000 0 (.yielding 900 800 false))
  let s := (put s 22 1 (mk 3 5 2 false [41, 42] 4000 0 (.waiting 900 0))).setEarmark 42 (some 22)
  (s.setEarmark 41 (some 22)).setZoneState 40 (.fencePending 20)

/-- Spec 7.6, event 2 and Table 7-4. -/
theorem test_fence_force :
    let t := after .fenceForce (asked forced 0x0A [40, 1])
    result t = (0, [4, 3, 0xFF, 0, 20, 1, 0xFF, 0]) ∧
      [40, 41, 42].map (zoneRow t) = [(4, none, none), (1, none, some 22), (2, some 21, some 22)] ∧
      phaseAt t 20 = some (.revoked .fence) ∧ phaseAt t 21 = some (.yielding 900 800 false) ∧
      t.port.tableCause = 2 := by decide +kernel

/-- Spec 7.6, event 4. -/
theorem test_lift : result (after .lift (asked (up.setZoneState 40 .fenced) 0x0B [40])) =
    (0, [1, 4, 0xFF, 0, 0xFF, 0, 0xFF, 0]) := by decide +kernel

theorem test_revoke : result (after .revoke (asked crossing 0x0C [4, 1])) =
    (0, [2, 3, 1, 1, 0, 0, 0, 0]) := by decide +kernel

theorem test_set_timebase : result (after (.setTimebase 0) (asked up 0x10 [1])) =
    (0, [1, 3, 1, 0, 0, 0, 0, 0]) := by decide +kernel

theorem test_read_link : result (after .readLink (asked up 0x11 [2, 0])) =
    (0, [1, 0, 13, 0, 0, 1, 0, 0]) := by decide +kernel

theorem test_set_link : result (after .setLink (asked up 0x12 [2, 1, 0, 0, 5, 3, 2])) =
    (0, [1, 0, 1, 5, 3, 2, 0, 0]) := by decide +kernel

theorem test_link_reset : result (after .linkReset (asked (sent up 1 [0x19, 5]) 0x13 [1])) =
    (0, [1, 0, 0, 0, 0, 0, 0, 0]) := by decide +kernel

theorem test_store : (after .store (asked up 0x20 [])).port.busy = true := by decide +kernel

theorem test_store_complete :
    let t := after .storeComplete (after .store (asked { up with storeInvalid := true } 0x20 []))
    t.image.mark = true ∧ t.image.contents.threshold = 112 ∧ t.storeInvalid = false ∧ t.port.busy = false := by
  decide +kernel

theorem test_bad_command : result (after .badCommand (asked up 0x0D [])) = (1, [0, 0, 0, 0, 0, 0, 0, 0]) := by
  decide +kernel

/-! ### Restarts -/

/-- Spec 13.4, Table 13-7. -/
def mixed : State :=
  let dis := { LineParams.cold with enabled := false }
  let s := up.setLink 3 { up.link 3 with line := dis }
  let s := put (put s 0 1 { mk 0 1 1 false [1] 3000 0 (.held 2200 false) with reported := some (.held, false) }) 1 1
    { mk 1 1 0 true [2] 3000 0 (.yielding 1500 400 false) with reported := some (.yielding, false) }
  let s := put (put s 2 1 { mk 2 1 1 false [3] 3000 0 .expired with reported := some (.held, true) }) 3 1
    { mk 2 2 2 false [2] 3000 0 (.waiting 900 300) with reported := some (.waiting, false) }
  let s := put (put s 4 1 { mk 0 2 0 true [5] 3000 0 (.parked 6000 301) with reported := some (.parked, false) }) 6 1
    (mk 3 1 2 false [5] 4000 0 (.held 3000 false))
  asked (sent ((s.setEarmark 2 (some 3)).setEarmark 5 (some 4)) 0 [0x11, 0, 1, 0, 9]) 7 [0]

/-- Spec 13.4, event 1. -/
theorem test_wrst_n_low :
    let t := after .wrstNLow mixed
    t.restarting = true ∧ t.port.result = 7 ∧ t.port.cmdCause = 1 ∧ t.waiting = [] ∧
      (t.link 0).requestSlot = none ∧ phaseAt t 3 = some (.lapsed .restart) ∧
      phaseAt t 1 = some (.yielding 1500 400 false) := by decide +kernel

/-- Spec 13.4, event 2 and Table 13-8. -/
theorem test_restart_end :
    let t := after (.restartEnd true) (after .wrstNLow mixed)
    [0, 1, 2, 3, 4, 6].map (phaseAt t) = [some (.held 2200 false), some (.held 1500 false), some .expired,
        some (.lapsed .restart), some (.lapsed .restart), some (.held 3000 false)] ∧
      [1, 2, 5].map (zoneRow t) = [(2, some 0, none), (2, some 1, none), (2, some 6, none)] ∧
      [0, 1, 2, 3, 4].map (fun i => (List.finRange 4).any fun l => t.dirtyAt l i) =
        [false, true, true, true, true] ∧
      t.restarting = false ∧ t.port.cmdCause = 5 := by decide +kernel

theorem test_warm_restart :
    let t := after .warmRestart (asked up 0x21 [])
    t.restarting = true ∧ t.port.busy = true := by decide +kernel

theorem test_cold_start : (after .coldStart crossing).lease 0 = none ∧ (after .coldStart crossing).inReset = true := by
  decide +kernel

theorem test_leave_reset :
    let t := after (.leaveReset true false true false) (after .coldStart crossing)
    t.inReset = false ∧ t.port.i2cAddress = 0x59 ∧ t.storeInvalid = false := by decide +kernel

/-! ### The lease clock: spec 8.11, Table 8-5, with t at instant 0 -/

/-- At t: the last pulse was tick 5000. -/
def locked : State := up.setClock { Clock.cold with
  state := .external 0, lockRun := 8, lastPulse := some 0, lastTick := some 0, tickCount := 5000 }

theorem test_syncin_loss :
    let t := after .syncinLoss locked
    t.clock.state = .internal 49200 ∧ t.clock.tickCount = 5001 ∧ t.port.timeCause = 1 ∧
      t.clock.now = 25200 := by decide +kernel

theorem test_internal_tick :
    let t := after .internalTick (after .syncinLoss locked)
    t.clock.state = .internal 73200 ∧ t.clock.tickCount = 5002 ∧ t.clock.now = 49200 := by decide +kernel

/-- At 9.40 ms: seven valid pulses, the last internal tick at 9.05 ms. -/
def relocking : State := up.setClock { Clock.cold with
  state := .internal 241200, lockRun := 7, lastPulse := some 225600, lastTick := some 217200
  tickCount := 5009, now := 225600 }

/-- At 10.40 ms: the internal tick at 10.05 ms, then the lock, which gives no tick; at 11.40 ms a tick. -/
theorem test_syncin_pulse :
    let t := after (.syncinPulse 24000) relocking
    t.clock.state = .external 249600 ∧ t.clock.tickCount = 5010 ∧ t.clock.lockRun = 8 ∧
      (after (.syncinPulse 24000) t).clock.tickCount = 5011 := by decide +kernel

theorem test_lock_run_timeout : (after .lockRunTimeout relocking).clock.lockRun = 0 := by decide +kernel

theorem test_search_timeout :
    let t := after .searchTimeout State.reset
    t.clock.state = .internal 504000 ∧ t.port.timeCause = 5 := by decide +kernel

theorem test_running_change_scan :
    let s := crossing.setClock { crossing.clock with handed := [.runningChange] }
    zoneRow (after .runningChangeScan s) 6 = (1, none, some 3) := by decide +kernel

/-! ### The expiry engine: spec 5.7 -/

/-- Tables 5-4 and 5-5. -/
def ending : State :=
  let s := put (put up 2 1 (mk 0 1 1 false [10, 11] 3000 0 (.held 1 true))) 5 1
    (mk 1 1 0 true [12] 2000 0 (.yielding 300 1 true))
  let s := put (put s 6 1 (mk 2 1 2 false [20] 4000 0 (.held 501 false))) 9 1
    (mk 3 1 2 false [10, 11] 2000 0 (.waiting 40 0))
  let s := (put s 11 1 (mk 1 2 0 false [20] 1500 0 (.waiting 1 0))).setZoneState 12 (.fencePending 5)
  let s := ((s.setEarmark 10 (some 9)).setEarmark 11 (some 9)).setEarmark 20 (some 11)
  s.setClock { s.clock with handed := [.tick] }

/-- Tables 5-6 and 5-7. -/
theorem test_tick :
    let t := after .tick ending
    [2, 5, 6, 9, 11].map (phaseAt t) = [some .expired, some (.revoked .yieldLate), some (.held 500 true),
        some (.held 2000 false), some (.lapsed .waitOut)] ∧
      [10, 11, 12, 20].map (zoneRow t) =
        [(2, some 9, none), (2, some 9, none), (4, none, none), (2, some 6, none)] ∧
      t.port.tableCause = 3 ∧ t.waiting = [] ∧ t.clock.handed = [] := by decide +kernel

theorem test_lapse : phaseAt (after (.lapse 3) (one (.waiting 0 5))) 3 = some (.lapsed .waitOut) := by
  decide +kernel

theorem test_expiry :
    let t := after (.expiry 3) (one (.held 0 true))
    phaseAt t 3 = some .expired ∧ zoneRow t 5 = (1, none, none) := by decide +kernel

theorem test_revoke_for_lateness :
    let t := after (.revokeForLateness 3) (one (.yielding 1 0 true))
    phaseAt t 3 = some (.revoked .yieldLate) ∧ t.port.tableCause = 1 := by decide +kernel

/-! ### The links -/

/-- A character of good stop bits. -/
def good (b : Byte) : RawChar := ⟨b, false, true, true, 0, true⟩

/-- A character all low, after a line that was high and after one that was not. -/
def low (high : Bool) : RawChar := ⟨0, false, false, false, 0, high⟩

theorem test_character_received :
    ((after (.characterReceived 0 0 (good 0xD5)) up).link 0).fifo = [⟨0xD5, false, false, false, true, false⟩] ∧
      ((after (.characterReceived 0 0 (low true)) up).link 0).fifo = [⟨0, false, false, true, true, false⟩] := by
  decide +kernel

/-- R133: a line held low gives one BREAK entry, and one met low at the enable none. -/
theorem test_one_break :
    ((after (.characterReceived 0 0 (low false)) (after (.characterReceived 0 0 (low true)) up)).link 0).fifo =
        [⟨0, false, false, true, true, false⟩] ∧
      after (.characterReceived 0 0 (low false)) up = up := by decide +kernel

/-- A link whose decoder and FIFO stand as given. -/
def fed (d : Decoder) (es : List FifoEntry) : State := up.setLink 0 { up.link 0 with decoder := d, fifo := es }

/-- Spec 10.6: the checksum 0xD7 ends the RELEASE. -/
theorem test_decode_entry :
    let t := after (.decodeEntry 0) (fed (.check 3 [0x12, 0x11, 0x03]) [⟨0xD7, false, false, false, false, false⟩])
    (t.link 0).requestSlot = some [0x12, 0x11, 0x03] ∧ (t.link 0).decoder = .hold := by decide +kernel

theorem test_client_restart :
    let t := after (.clientRestart 0) ((one (.waiting 9 0)).setLink 0
      { up.link 0 with fifo := [⟨0, false, false, true, false, false⟩] })
    t.lease 3 = none ∧ t.waiting = [] ∧ t.port.linkCause.get 0 = 0x10 := by decide +kernel

theorem test_link_disable :
    let t := after (.linkDisable 0) (one .expired)
    t.lease 3 = none ∧ (t.link 0).line.enabled = false := by decide +kernel

theorem test_reply_send :
    let t := after (.replySend 0) (after (.badKind 0) (sent up 0 [0x16]))
    (t.link 0).tx = .reply ⟨[0x21, 0x16, 1], none⟩ ∧ (t.link 0).replyBuffer = none := by decide +kernel

/-- R132, R140: the start byte goes under the old line parameters, the rest under parity ODD, two stop bits. -/
theorem test_transmitted :
    let p : LineParams := ⟨true, 1, 0, .odd, .two⟩
    let s := after (.replySend 0) (after (.badKind 0) (sent up 0 [0x16]))
    let t := after (.frameComplete 0) (after (.setLink 1) (asked s 0x12 [0, 1, 0, 1, 0, 3, 2]))
    (t.link 0).txd = txChar (up.link 0).line 0xD5 :: [3, 0x21, 0x16, 1, 0xC5].map (txChar p) ∧
      (txChar p 0x16).bits = [false, false, true, true, false, true, false, false, false, false, true, true] := by
  decide +kernel

/-- Spec 13.1, event 5: the notice to L1. -/
theorem test_notice_build :
    ((after (.noticeBuild 1) (after (.release 0) (sent aisle 0 [0x12, 0, 1]))).link 1).tx =
      .notice 1 ⟨[0x30, 1, 1, 9, 2, 0, 0, 0x05, 0xDC, 2, 2, 3], some ⟨1, 1, .held, false⟩⟩ := by decide +kernel

theorem test_frame_complete :
    let t := after (.frameComplete 0) (after (.noticeBuild 0) (one .expired))
    t.slot 3 = ⟨9, none⟩ ∧ (t.link 0).noticePointer = 4 := by decide +kernel

/-! ### Bytes on the port -/

/-- The command byte of an SPI transfer. -/
def spi (b : Byte) : List PortEvent := [.csLow, .spiByte b]

/-- The start and the address byte of an I2C transfer. -/
def i2c (b : Byte) : List PortEvent := [.i2cStart, .i2cByte b]

/-- A part on the I2C bus at address 0x58. -/
def bus : State := up.setPort { up.port with msel := true }

theorem test_cause_clear :
    (after (.causeClear (spi 9) (.spiByte 1)) (up.raiseTable 3)).port.tableCause = 2 := by decide +kernel

theorem test_group_enable_write :
    let t := after (.groupEnableWrite (spi 4) (.spiByte 0xFF)) (up.raiseTable 3)
    t.port.groupEnable = 0x7F ∧ t.irqN = false := by decide +kernel

theorem test_ticks0_read :
    let t := after (.ticks0Read (spi 0x9E ++ [.spiByte 0])) (up.setClock { up.clock with tickCount := 0x01020304 })
    t.port.portOut = [.byte t.status, .byte 4] ∧ t.readReg 0x1F = 3 ∧ t.readReg 0x21 = 1 := by decide +kernel

theorem test_i2c_pointer_set :
    let t := after (.i2cPointerSet (i2c 0xB0) (.i2cByte 0x94)) bus
    t.port.i2cPointer = 0x14 ∧ t.port.portOut = [.acknowledge, .acknowledge] ∧
      (after (.registerWrite [] (.i2cByte 1)) t).port.phase = .waiting (.fill 8 0) ∧
      (after (.ticks0Read (i2c 0xB1 ++ [.i2cRead false, .i2cRead false])) t).port.portOut =
        [.acknowledge, .byte 0, .released] ∧
      (after (.i2cPointerSet (i2c 0xB2) (.i2cByte 0x94)) bus).port.portOut = [.released, .released] := by
  decide +kernel

theorem test_register_write :
    let t := after (.registerWrite [] (.spiByte 1)) (after (.registerWrite (spi 0x13) (.spiByte 9)) up)
    t.port.args.get 7 = 9 ∧ t.port.phase = .waiting t.port.args ∧ t.port.command = 1 := by decide +kernel

/-- R170: the further bytes of a transfer begun in reset are discarded; R160: so are bytes of no transfer. -/
theorem test_transfer_begun_in_reset :
    let t := after (.leaveReset false false false false) (after (.registerWrite (spi 0x04) (.spiByte 1)) (.cold .blank []))
    let u := after (.registerWrite [] (.spiByte 0x7F)) t
    u.port.groupEnable = 0 ∧ u.port.portOut = [.released] ∧
      (after (.registerWrite [.csHigh] (.spiByte 0x7F)) up).port.portOut = [.released] := by decide +kernel

/-- R29: L1 was served last, so L3 stands before the mailbox, and the mailbox before L0. -/
theorem test_rotation :
    let s (l : Link) : State := { asked (sent up l [0x16]) 7 [0] with arbiter := 1 }
    (s 3).turn 3 = true ∧ (s 0).turn 4 = true ∧ (s 0).turn 0 = false := by decide +kernel

/-- R124: the pulse at the instant of a loss is the first of a new lock run, whichever is taken first. -/
theorem test_loss_then_pulse :
    let s := up.setClock { Clock.cold with
      state := .external 100000, lockRun := 7, lastPulse := some 100000, now := 100000 }
    let t := after (.syncinPulse 0) (after .syncinLoss s)
    t.clock.lockRun = 0 ∧ t.clock.state.code = 2 ∧ t.clock.lastPulse = some 125200 ∧
      (after (.syncinPulse 24000) t).clock.lockRun = 1 := by decide +kernel

/-- R169, R173: the command taken before WRST_N goes low completes with its own result, its DONE standing. -/
theorem test_finishing :
    let t := after (.wrstNLow (.fill 4 0) true) (asked up 7 [0])
    let u := after (.wrstNLow (.fill 4 0) false) (asked up 7 [0])
    result t = (0, [0xFF, 0, 0, 0, 0, 0xFF, 0, 0]) ∧ t.port.cmdCause = 1 ∧ t.restarting = true ∧
      (result u).1 = 7 ∧ u.port.cmdCause = 1 := by decide +kernel

/-! ### What meets the hypotheses of the obligations -/

theorem forallLeases {s : State} {P : SlotId → Lease → Prop} (h : ∀ i, ∀ r ∈ s.lease i, P i r) :
    ∀ i r, s.lease i = some r → P i r := fun i r hr => h i r hr

theorem noLease {s : State} {P : SlotId → Lease → Prop} (h : ∀ i, ∀ r ∈ s.lease i, ¬P i r) :
    ¬∃ i r, s.lease i = some r ∧ P i r := fun ⟨i, r, hr, hp⟩ => h i r hr hp

theorem quiet_iff (s : State) (t : Nat) : QuietUntil s t ↔
    s.clock.now ≤ t ∧ (∀ p ∈ s.clock.lastPulse, t ≤ p + 25200) ∧ ∀ q ∈ s.stateDeadline, t ≤ q.1 := by
  unfold QuietUntil State.stateDeadline
  cases s.clock.state <;> simp [searchLimit, spanMax]

theorem listLaw_of {s : State} (h₁ : s.waiting.Nodup) (h₂ : s.waiting.length ≤ 32)
    (h₃ : ∀ i, i ∈ s.waiting ↔ ∃ r ∈ s.lease i, r.phase.queued = true) : s.ListLaw := ⟨h₁, h₂, h₃⟩

/-- `takesRequest` as a value. -/
def takesNow (s : State) (l : Link) (f : List Byte) : Bool :=
  (s.link l).requestSlot == some f && s.turn (linkSource l)

theorem takes_iff (s : State) (l : Link) (f : List Byte) : s.takesRequest l f ↔ takesNow s l f = true := by
  simp [takesNow, State.takesRequest]

/-- `handleNames` as a value. -/
def namesNow (s : State) (a b : Byte) (i : SlotId) (r : Lease) : Bool :=
  a.toNat == i.1 && s.lease i == some r && s.generation i == b

theorem names_iff (s : State) (a b : Byte) (i : SlotId) (r : Lease) :
    s.handleNames a b i r ↔ namesNow s a b i r = true := by
  simp [namesNow, State.handleNames, and_assoc]

/-- `OwnRequest` as a value. -/
def ownNow (s : State) (l : Link) (f : List Byte) (kind : Byte) (len : Nat) (i : SlotId) (r : Lease) : Bool :=
  takesNow s l f && frameByte f 0 == kind && f.length == len &&
    namesNow s (frameByte f 1) (frameByte f 2) i r && r.owner == l

theorem own_iff (s : State) (l : Link) (f : List Byte) (kind : Byte) (len : Nat) (i : SlotId) (r : Lease) :
    OwnRequest s l f kind len i r ↔ ownNow s l f kind len i r = true := by
  simp [ownNow, OwnRequest, takes_iff, names_iff, and_assoc]

/-- One phase of every record state. -/
def phases : List Phase :=
  [.waiting 9 0, .held 9 false, .yielding 9 9 false, .parked 9 0, .expired, .revoked .fence, .lapsed .waitOut]

/-- A frame on S3, generation 9, padded to a length. -/
def handleFrame (kind : Byte) (n : Nat) (x : Byte) : List Byte := [kind, 3, 9] ++ List.replicate (n - 3) x

theorem test_meets_step :
    State.pending { up with pending := [.tick] } = .tick :: [] ∧ State.reset.pending = [] := by decide +kernel

theorem test_meets_no_occasion :
    (∀ f, ¬up.takesRequest 0 f) ∧ (∀ c a, ¬up.takesCommand c a) ∧ (∀ c a, ¬up.takesDirect c a) ∧
      (State.reset.link 0).line.enabled = false ∧ State.reset.running = false ∧
      (after .coldStart up).inReset = true ∧ (after .wrstNLow up).restarting = true :=
  ⟨fun _ h => (nomatch h.1), fun _ _ h => (nomatch h.1), fun _ _ h => (nomatch h.1), by decide, by decide, rfl,
    by decide +kernel⟩

theorem test_meets_leave_reset :
    let valid : Image := ⟨.cold, true, Config.imageCheck .cold⟩
    let s := State.cold valid []
    s.inReset = true ∧ s.image.mark = true ∧ s.image.check = Config.imageCheck s.image.contents ∧
      (State.cold .blank []).inReset = true ∧ (State.cold .blank []).image.mark = false :=
  ⟨rfl, rfl, rfl, rfl, rfl⟩

/-- A handle request taken with a bad length, a slot of 128, a FREE slot, another generation. -/
theorem test_meets_refused_at_once :
    ∀ x ∈ handleRequests.map (·.2),
      let m (f : List Byte) := State.takesRequest (sent (one (.held 9 false)) 0 f) 0 f ∧ frameByte f 0 = x.1
      (m (handleFrame x.1 (x.2 + 1) 0) ∧ (handleFrame x.1 (x.2 + 1) 0).length ≠ x.2) ∧
        m ([x.1, 128, 9] ++ List.replicate (x.2 - 3) 0) ∧ (m ([x.1, 127, 9] ++ List.replicate (x.2 - 3) 0) ∧
          (one (.held 9 false)).lease 127 = none) ∧
        (m ([x.1, 3, 8] ++ List.replicate (x.2 - 3) 0) ∧ (one (.held 9 false)).generation 3 ≠ 8) := by
  simp only [takes_iff]
  decide +kernel

theorem test_meets_bad_kind : ∀ k ∈ ([0x0F, 0x16, 0x17, 0x1A, 0xFF] : List Byte),
    State.takesRequest (sent up 0 [k]) 0 [k] ∧
      frameByte [k] 0 ∉ [0x10, 0x11, 0x12, 0x13, 0x14, 0x15, 0x18, 0x19] := by
  simp only [takes_iff]
  decide +kernel

theorem test_meets_not_owner :
    (∀ x ∈ handleRequests.map (·.2),
      let f := handleFrame x.1 x.2 0
      let s := sent (one (.held 9 false)) 1 f
      s.takesRequest 1 f ∧ frameByte f 0 = x.1 ∧ f.length = x.2 ∧
        s.handleNames (frameByte f 1) (frameByte f 2) 3 (mine (.held 9 false)) ∧
        (mine (.held 9 false)).owner ≠ 1) ∧
      let s := asked (one (.held 9 false)) 0x0C [3, 9]
      s.takesCommand 0x0C (.bytes8 [3, 9]) ∧ s.handleNames 3 9 3 (mine (.held 9 false)) ∧
        (mine (.held 9 false)).phase.live = true := by
  simp only [takes_iff, names_iff, State.takesCommand]
  decide +kernel

theorem test_meets_revoke_stale :
    let s := asked (one (.held 9 false)) 0x0C [3, 8]
    s.takesCommand 0x0C (.bytes8 [3, 8]) ∧
      ¬∃ i r, s.handleNames (argOf (.bytes8 [3, 8]) 0) (argOf (.bytes8 [3, 8]) 1) i r := by
  refine ⟨by simp only [State.takesCommand]; decide +kernel, fun ⟨i, r, h₁, _, h₃⟩ => ?_⟩
  have hi : i = 3 := Fin.ext h₁.symm
  subst hi
  revert h₃
  decide +kernel

theorem test_meets_acquire_fields :
    ∀ f ∈ ([[0x10, 1, 1, 0], [0x10, 1, 1, 0, 1, 5, 0, 1, 0, 1, 9], [0x10, 1, 1, 0, 0, 0, 1, 0, 1],
        [0x10, 1, 1, 0, 5, 1, 2, 3, 4, 5, 0, 1, 0, 1], [0x10, 1, 1, 0, 1, 64, 0, 1, 0, 1],
        [0x10, 1, 1, 0, 2, 63, 63, 0, 1, 0, 1], [0x10, 1, 4, 0, 1, 63, 0, 1, 0, 1]] : List (List Byte)),
      State.takesRequest (sent up 0 f) 0 f ∧ frameByte f 0 = 0x10 ∧
        let n := (frameByte f 4).toNat
        (f.length < 5 ∨ f.length ≠ 9 + n) ∨ (5 ≤ f.length ∧ f.length = 9 + n ∧
          (n = 0 ∨ 4 < n ∨ (∃ b ∈ (f.drop 5).take n, 64 ≤ b.toNat) ∨ ¬((f.drop 5).take n).Nodup ∨
            4 ≤ (frameByte f 2).toNat)) := by
  simp only [takes_iff]
  decide +kernel

/-- The checks 3 to 7 of Table 3-2, one state for each. -/
theorem test_meets_acquire_checks :
    let f := acquireFrame 7 1 0 [5, 6] 100 100
    let dis := sent (up.setZone 6 ⟨.disabled, 0, none⟩) 0 f
    let tag := sent (one .expired) 0 f
    let own := sent (put up 3 9 { mine (.held 9 false) with tag := 8 }) 0 f
    let full := sent { up with slots := .fill 128 ⟨1, some { mine .expired with tag := 8 }⟩ } 0 f
    (dis.takesRequest 0 f ∧ (dis.zone 6).state = .disabled) ∧
      (tag.takesRequest 0 f ∧ (∀ z, (tag.zone z).state ≠ .disabled) ∧ tag.lease 3 = some (mine .expired)) ∧
      (own.takesRequest 0 f ∧ (∀ i, ∀ r ∈ own.lease i, r.tag ≠ 7) ∧ (own.zone 5).state = .held 3) ∧
      ((stopped (sent up 0 f)).takesRequest 0 f ∧ (stopped (sent up 0 f)).running = false ∧
        ∀ i, up.lease i = none) ∧
      (full.takesRequest 0 f ∧ full.running = true ∧ ∀ i, full.lease i ≠ none) := by
  simp only [takes_iff]
  decide +kernel

/-- An earmark of priority `p` on Z6 by slot S4. -/
def earmarked (p : Priority) : State :=
  (put up 4 1 (mk 2 9 p false [6, 8] 100 0 (.waiting 9 0))).setEarmark 6 (some 4)

theorem passes_of {s : State} {l : Link} {tag : Byte} {zs : List ZoneId} {i : SlotId}
    (h₁ : ∀ z ∈ zs, (s.zone z).state ≠ .disabled) (h₂ : ∀ j, ∀ r ∈ s.lease j, r.owner = l → r.tag ≠ tag)
    (h₃ : ∀ z ∈ zs, ∀ h ∈ (s.zone z).state.holder, ∀ r ∈ s.lease h, r.owner ≠ l) (h₄ : s.running = true)
    (h₅ : s.lease i = none) (h₆ : ∀ j, j < i → s.lease j ≠ none) : AcquirePasses s l tag zs i :=
  ⟨h₁, h₂, fun z hz h r hh hr => h₃ z hz h hh r hr, h₄, h₅, h₆⟩

theorem grantable_of {s : State} {p : Priority} {zs : List ZoneId} (h₁ : ∀ z ∈ zs, (s.zone z).state = .free)
    (h₂ : ∀ z ∈ zs, ∀ e ∈ (s.zone z).earmark, ∀ q ∈ s.lease e, q.priority < p) : GrantableAtOnce s p zs :=
  ⟨h₁, fun z hz e q he hq => h₂ z hz e he q hq⟩

/-- Zones FREE, one earmarked by an entry of priority 1: a request of priority 2 is granted at once, one of
priority 1 is not. -/
theorem test_meets_acquire_granted :
    let f := acquireFrame 7 2 1 [6] 65535 0
    State.takesRequest (sent (earmarked 1) 0 f) 0 f ∧ AcquirePasses (sent (earmarked 1) 0 f) 0 7 [6] 0 ∧
      GrantableAtOnce (sent (earmarked 1) 0 f) 2 [6] := by
  refine ⟨by simp only [takes_iff]; decide +kernel, ?_, ?_⟩
  · apply passes_of <;> decide +kernel
  · apply grantable_of <;> decide +kernel

/-- Not granted at once, for an earmark of its own priority or a zone held, with a wait of 0, with 32 entries
waiting, and with 31. -/
theorem test_meets_acquire_waits :
    let f (wait : Nat) := acquireFrame 7 1 1 [6] 1 wait
    let long (n : Nat) : State := { earmarked 1 with waiting := (List.finRange 128).take n }
    (∀ n ∈ [0, 1, 65535], State.takesRequest (sent (earmarked 1) 0 (f n)) 0 (f n)) ∧
      AcquirePasses (sent (earmarked 1) 0 (f 0)) 0 7 [6] 0 ∧
      (¬GrantableAtOnce (sent (earmarked 1) 0 (f 0)) 1 [6]) ∧
      min 0 ((earmarked 1).limitsOf [6]).maxWait = 0 ∧ min 1 ((earmarked 1).limitsOf [6]).maxWait ≠ 0 ∧
      (State.takesRequest (sent (long 32) 0 (f 1)) 0 (f 1) ∧ 32 ≤ (sent (long 32) 0 (f 1)).waiting.length) ∧
      (State.takesRequest (sent (long 31) 0 (f 1)) 0 (f 1) ∧ (sent (long 31) 0 (f 1)).waiting.length < 32) := by
  refine ⟨by simp only [takes_iff]; decide +kernel, ?_, ?_, by decide +kernel, by decide +kernel, ?_, ?_⟩
  · apply passes_of <;> decide +kernel
  · intro h
    have := h.2 6 (by decide) 4 (mk 2 9 1 false [6, 8] 100 0 (.waiting 9 0)) (by decide +kernel) (by decide +kernel)
    exact absurd this (by decide)
  · simp only [takes_iff]
    decide +kernel
  · simp only [takes_iff]
    decide +kernel

/-- The link's own record `q` stands in S3 of `s` and its request waits, padded with `b`. -/
def owns (kind : Byte) (len : Nat) (s : State) (b : Byte) (q : Lease) : Prop :=
  OwnRequest (sent (put s 3 9 q) 0 (handleFrame kind len b)) 0 (handleFrame kind len b) kind len 3 q

/-- `owns` as a value. -/
def ownsNow (kind : Byte) (len : Nat) (s : State) (b : Byte) (q : Lease) : Bool :=
  ownNow (sent (put s 3 9 q) 0 (handleFrame kind len b)) 0 (handleFrame kind len b) kind len 3 q

theorem owns_iff (kind : Byte) (len : Nat) (s : State) (b : Byte) (q : Lease) :
    owns kind len s b q ↔ ownsNow kind len s b q = true := own_iff _ _ _ _ _ _ _

/-- The link's own record in every state, under every request that carries a handle. -/
theorem test_meets_own_request : ∀ x ∈ handleRequests.map (·.2), ∀ p ∈ phases,
    let f := handleFrame x.1 x.2 0
    OwnRequest (sent (one p) 0 f) 0 f x.1 x.2 3 (mine p) := by
  simp only [own_iff]
  decide +kernel

theorem test_meets_phases :
    phases.map (fun p => (p.queued, p.holds, p.isYielding, p.terminal)) =
      [(true, false, false, false), (false, true, false, false), (false, true, true, false),
        (true, false, false, false), (false, false, false, true), (false, false, false, true),
        (false, false, false, true)] := by decide

/-- RENEW of a HELD record with the clock stopped, at its renewal limit, and one below it. -/
theorem test_meets_renew :
    let f := handleFrame 0x11 5 0xFF
    let at_ (n : Nat) : Lease := { mine (.held 9 false) with renewals := n }
    (OwnRequest (sent (stopped (one (.held 9 false))) 0 f) 0 f 0x11 5 3 (mine (.held 9 false)) ∧
        (sent (stopped (one (.held 9 false))) 0 f).running = false) ∧
      (∀ n ∈ [15, 16], OwnRequest (sent (put up 3 9 (at_ n)) 0 f) 0 f 0x11 5 3 (at_ n) ∧
        (sent (put up 3 9 (at_ n)) 0 f).running = true) ∧
      (at_ 16).limits.renewalLimit ≤ (at_ 16).renewals ∧ (at_ 15).renewals < (at_ 15).limits.renewalLimit := by
  simp only [own_iff]
  decide +kernel

/-- WIDEN to a listed zone, to byte 64, from a list of four, and to an unlisted zone in every state. -/
theorem test_meets_widen :
    let r := mine (.held 9 false)
    let four : Lease := { r with zones := [60, 61, 62, 63] }
    let worn (n : Nat) : Lease := { r with renewals := n }
    let own := owns 0x13 4
    own up 5 r ∧ own up 64 r ∧ own up 0 four ∧ own (stopped up) 0 r ∧ own up 0 (worn 16) ∧ own up 0 (worn 17) ∧
      (up.limitsOf [5, 0]).renewalLimit = 16 ∧
      ∀ x ∈ [Zone.mk .disabled 0 none, ⟨.fencePending 9, 0, none⟩, ⟨.fenced, 0, none⟩, ⟨.held 9, 0, none⟩,
          ⟨.free, 0, some 9⟩, ⟨.free, 0, none⟩],
        own (up.setZone 0 x) 0 r ∧ (put (up.setZone 0 x) 3 9 r).zone 0 = x := by
  simp only [owns_iff]
  decide +kernel

/-- NARROW of a byte that names no listed zone, of the last zone, and of one of two. -/
theorem test_meets_narrow :
    let own := owns 0x14 4 up
    let two : Lease := { mine (.yielding 9 9 false) with zones := [63, 5] }
    (own 0xFF (mine (.held 9 false)) ∧ ∀ z ∈ (mine (.held 9 false)).zones, z.1 ≠ (0xFF : Byte).toNat) ∧
      own 5 (mine (.held 9 false)) ∧ own 63 two := by
  simp only [owns_iff]
  decide +kernel

/-- PARK of a yielding record with no wait allowed, with 32 entries waiting, and with 31. -/
theorem test_meets_park :
    let r := mine (.yielding 9 9 false)
    let never : Lease := { r with limits := { r.limits with maxWait := 0 } }
    let long (n : Nat) : State := { up with waiting := (List.finRange 128).take n }
    let own (s : State) (q : Lease) : Prop := owns 0x15 3 s 0 q
    own up never ∧ (own (long 32) r ∧ 32 ≤ (long 32).waiting.length) ∧
      (own (long 31) r ∧ (long 31).waiting.length < 32) := by
  simp only [owns_iff]
  decide +kernel

/-- QUERY_ZONE of a bad length, of byte 64, of a zone with no holder, with the link's own holder, with another's. -/
theorem test_meets_query_zone :
    let s := one (.held 9 false)
    (∀ f ∈ ([[0x19], [0x19, 64], [0x19, 63], [0x19, 5]] : List (List Byte)),
        State.takesRequest (sent s 0 f) 0 f ∧ State.takesRequest (sent s 1 f) 1 f) ∧
      (s.zone 63).state.holder = none ∧ (s.zone 5).state.holder = some 3 ∧
      s.lease 3 = some (mine (.held 9 false)) := by
  simp only [takes_iff]
  decide +kernel

/-! The grant scan and the expiry engine -/

theorem test_meets_running_change :
    let s := up.setClock { up.clock with handed := [.runningChange] }
    s.clock.handed = .runningChange :: [] ∧ s.inReset = false ∧ s.restarting = false := by decide +kernel

theorem test_meets_scans :
    (stopped up).running = false ∧ (let s := put up 1 1 (mine (.waiting 9 0))
      s.running = true ∧ s.waiting = 1 :: [] ∧ s.lease 1 = some (mine (.waiting 9 0)) ∧
        ∀ z ∈ (mine (.waiting 9 0)).zones, (s.zone z).state = .free) ∧
      (let s := put up 1 1 (mine (.parked 9 0))
      s.waiting = 1 :: [] ∧ s.lease 1 = some (mine (.parked 9 0))) := by decide +kernel

/-- An entry whose zones are FREE and unwanted, and one behind it whose zone the first lists. -/
theorem test_meets_entry_granted :
    let s := put (put up 1 1 (mine (.waiting 9 0))) 2 1 (mk 1 1 0 false [5] 100 0 (.waiting 9 1))
    (s.running = true ∧ s.ListLaw) ∧
      (s.waiting = [] ++ 1 :: [2] ∧ s.lease 1 = some (mine (.waiting 9 0)) ∧
        ∀ z ∈ (mine (.waiting 9 0)).zones, (s.zone z).state = .free) ∧
      s.waiting = [1] ++ 2 :: [] ∧ s.lease 2 = some (mk 1 1 0 false [5] 100 0 (.waiting 9 1)) ∧
      (5 : ZoneId) ∈ (mine (.waiting 9 0)).zones := by
  refine ⟨⟨by decide +kernel, ?_⟩, by decide +kernel, by decide +kernel, by decide +kernel, by decide +kernel⟩
  apply listLaw_of <;> decide +kernel

theorem holderLaw_of {s : State} (h : ∀ i z, (s.zone z).state.holder = some i ↔
    ∃ r ∈ s.lease i, r.phase.holds = true ∧ z ∈ r.zones) : s.HolderLaw := fun z i => h i z

/-- An entry of priority 2 for the zone of a yieldable holder of priority 1. -/
theorem test_meets_ask :
    let s := put (one (.held 9 false)) 4 1 (mk 1 1 2 false [5] 100 0 (.waiting 9 0))
    let t := s.grantScan
    s.running = true ∧ s.ListLaw ∧ s.HolderLaw ∧ (t.zone 5).state = .held 3 ∧ (t.zone 5).earmark = some 4 ∧
      t.lease 3 = some (mine (.yielding 9 1000 false)) ∧
      t.lease 4 = some (mk 1 1 2 false [5] 100 0 (.waiting 9 0)) := by
  refine ⟨by decide +kernel, ?_, ?_, by decide +kernel, by decide +kernel, by decide +kernel, by decide +kernel⟩
  · apply listLaw_of <;> decide +kernel
  · apply holderLaw_of
    decide +kernel

/-- After a scan: a yieldable record with a FENCE_PENDING zone, and one that yields to an earmark. -/
theorem test_meets_yields :
    let s := (one (.held 9 false)).setZoneState 5 (.fencePending 3)
    (s.running = true ∧ s.grantScan.lease 3 = some (mine (.yielding 9 1000 false)) ∧
      (s.grantScan.zone 5).state = .fencePending 3) ∧
      forced.running = true ∧ (forced.grantScan.lease 21).map (·.phase.isYielding) = some true := by
  decide +kernel

theorem test_meets_tick_counts :
    let s := (put (one (.yielding 2 2 false)) 4 1 (mine (.waiting 2 0))).setClock
      { up.clock with handed := [.tick] }
    s.clock.handed = .tick :: [] ∧ s.inReset = false ∧ s.restarting = false ∧ s.running = true ∧
      ∀ i, ∀ r ∈ s.lease i, r.phase.live = true →
        2 ≤ r.phase.countdown ∧ (r.phase.isYielding = true → 2 ≤ r.phase.yieldCountdown) := by decide +kernel

/-- Spec 5.7's table before its tick: S2, S5 and S11 are due. -/
theorem test_meets_tick_ends :
    (ending.clock.handed = .tick :: [] ∧ ending.inReset = false ∧ ending.restarting = false ∧
      ending.running = true ∧ ending.ListLaw) ∧
      (∃ r, ending.lease 2 = some r ∧ r.phase.holds = true ∧ r.phase.countdown ≤ 1) ∧
      (∃ r, ending.lease 5 = some r ∧ 1 < r.phase.countdown ∧ r.phase.isYielding = true ∧
        r.phase.yieldCountdown ≤ 1) ∧
      (∃ r, ending.lease 11 = some r ∧ r.phase.queued = true ∧ r.phase.countdown ≤ 1) ∧
      exec .tick ending = .next (after .tick ending) ∧ ∃ i r, ending.lease i = some r ∧ tickEnd r ≠ none := by
  refine ⟨⟨by decide +kernel, by decide +kernel, by decide +kernel, by decide +kernel, ?_⟩,
    ⟨_, rfl, rfl, by decide⟩, ⟨_, rfl, by decide, rfl, by decide⟩, ⟨_, rfl, rfl, by decide⟩, rfl, 2, _, rfl,
    by decide⟩
  apply listLaw_of <;> decide +kernel

theorem test_meets_endings :
    (∀ s ∈ [one (.waiting 0 0), one (.parked 0 0), one (.held 0 false), one (.yielding 0 0 true),
        one (.yielding 1 0 true)], s.inReset = false ∧ s.restarting = false ∧ s.running = true) ∧
      (∀ p ∈ [Phase.waiting 0 0, .parked 0 0], (one p).lease 3 = some (mine p) ∧ p.queued = true ∧ p.countdown = 0) ∧
      (∀ p ∈ [Phase.held 0 false, .yielding 0 0 true], (one p).lease 3 = some (mine p) ∧ p.holds = true ∧
        p.countdown = 0) ∧
      (one (.yielding 1 0 true)).lease 3 = some (mine (.yielding 1 0 true)) := by decide +kernel

/-! The lease clock -/

/-- The part with its clock in a state, the last pulse and tick at given instants. -/
def clocked (x : ClockState) (run : Nat) (pulse tick : Option Nat) : State := up.setClock { Clock.cold with
  state := x, lockRun := run, lastPulse := pulse, lastTick := tick, now := 100000 }

/-- In EXTERNAL with the reference at 100000: the earliest and the latest pulse accepted, one cycle too early. -/
theorem test_meets_pulse_external :
    let s := clocked (.external 100000) 8 (some 100000) (some 100000)
    s.inReset = false ∧ s.clock.state = .external 100000 ∧
      ∀ e ∈ [22799, 22800, 25200], QuietUntil s (s.clock.now + e) := by
  simp only [quiet_iff]
  decide +kernel

/-- In INTERNAL: a lock 0.5 ms after a tick, a lock one cycle sooner, a pulse that is no lock, a lock under a
manual mode. -/
theorem test_meets_pulse_internal :
    let s (run tick : Nat) := clocked (.internal 130000) run (some 100000) (some tick)
    (∀ x ∈ [(7, 112000), (7, 112001), (6, 112000)],
      (s x.1 x.2).inReset = false ∧ (s x.1 x.2).clock.state = .internal 130000 ∧
        QuietUntil (s x.1 x.2) ((s x.1 x.2).clock.now + 24000)) ∧
      isLock (s 7 112000).clock 124000 ∧ isLock (s 7 112001).clock 124000 ∧ ¬isLock (s 6 112000).clock 124000 ∧
      (s 7 112000).clock.mode = .auto ∧
      (∀ k, (s 7 112000).clock.lastTick = some k → k + 12000 ≤ 124000) ∧
      ¬∀ k, (s 7 112001).clock.lastTick = some k → k + 12000 ≤ 124000 := by
  simp only [quiet_iff, isLock]
  refine ⟨by decide +kernel, by decide +kernel, by decide +kernel, by decide +kernel, by decide +kernel, ?_, ?_⟩
  · intro k hk
    injection hk with hk
    omega
  · intro h
    exact absurd (h 112001 rfl) (by decide)

/-- In SEARCH and HALTED, out of and in a warm restart: a lock, and a first pulse. -/
theorem test_meets_pulse_stopped :
    ∀ x ∈ [ClockState.search 100000, .halted], ∀ b ∈ [false, true],
      let s : State := { clocked x 7 (some 100000) none with restarting := b }
      let u : State := { clocked x 0 none none with restarting := b }
      (s.inReset = false ∧ s.running = false ∧ QuietUntil s (s.clock.now + 25200) ∧ isLock s.clock 125200) ∧
        u.running = false ∧ QuietUntil u (u.clock.now + 25200) ∧ ¬isLock u.clock 125200 := by
  simp only [quiet_iff, isLock]
  decide +kernel

theorem test_meets_deadlines :
    let s (x : ClockState) := clocked x 3 (some 100000) none
    ((s .halted).clock.lastPulse = some 100000 ∧ QuietUntil (s .halted) (100000 + 25200)) ∧
      (∀ m ∈ [TimeMode.auto, .manualExternal],
        let u := (s (.external 100000)).setClock { (s (.external 100000)).clock with mode := m }
        u.inReset = false ∧ u.clock.state = .external 100000 ∧ QuietUntil u (100000 + 25200)) ∧
      QuietUntil (s (.internal 124000)) 124000 ∧
      (clocked (.search 0) 0 none none).clock.state = .search 0 ∧
      QuietUntil (clocked (.search 0) 0 none none) (0 + 480000) := by
  simp only [quiet_iff]
  decide +kernel

/-- The end of the lock run falls due first, then a tick; a pulse, a SET_TIMEBASE and the tick come after it. -/
theorem test_meets_deadlines_first :
    let s := clocked (.internal 130000) 3 (some 100000) none
    let m := asked s 0x10 [1]
    (s.inReset = false ∧ dueAt s .lockRunTimeout = some 125200 ∧ QuietUntil s 125200 ∧
      exec .lockRunTimeout s = .next (after .lockRunTimeout s) ∧ 125200 < s.clock.now + 25201 ∧
      dueAt s .internalTick = some 130000 ∧ 125200 < 130000) ∧
      m.takesDirect 0x10 (.bytes8 [1]) ∧ dueAt m .lockRunTimeout = some 125200 ∧ QuietUntil m 125200 ∧
      ∀ x ∈ [(ClockState.external 100000, Instr.syncinLoss), (.search 0, .searchTimeout)],
        (dueAt (clocked x.1 0 none none) x.2).isSome = true := by
  simp only [quiet_iff, State.takesDirect]
  exact ⟨⟨by decide +kernel, by decide +kernel, by decide +kernel, rfl, by decide, by decide +kernel, by decide⟩,
    by decide +kernel⟩

/-- SET_TIMEBASE in every clock state with every mode code and with 3, latched and not, with and without a tick. -/
theorem test_meets_set_timebase :
    ∀ x ∈ [ClockState.search 100000, .external 100000, .internal 124000, .halted],
      ∀ b ∈ ([0, 1, 2, 3, 0xFF] : List Byte), ∀ latched ∈ [false, true], ∀ tick ∈ [none, some 90000],
        let s := clocked x 0 none tick
        let m := asked (s.setClock { s.clock with latched := latched }) 0x10 [b]
        m.takesDirect 0x10 (.bytes8 [b]) ∧ QuietUntil m (m.clock.now + 24000) := by
  simp only [quiet_iff, State.takesDirect]
  decide +kernel

/-! Mailbox commands -/

/-- The lease engine takes a command of a code with given arguments from the part `up`. -/
def engineTakes (code : Byte) (args : List Byte) : Prop := (asked up code args).takesCommand code (.bytes8 args)

/-- The owner of a direct command takes it from the part `up`. -/
def directTakes (code : Byte) (args : List Byte) : Prop := (asked up code args).takesDirect code (.bytes8 args)

/-- `engineTakes` as a value. -/
def engineNow (code : Byte) (args : List Byte) : Bool := (asked up code args).turn mailboxSource

theorem engine_iff (code : Byte) (args : List Byte) : engineTakes code args ↔ engineNow code args = true :=
  ⟨fun h => h.2.2, fun h => ⟨rfl, rfl, h⟩⟩

theorem direct_iff (code : Byte) (args : List Byte) : directTakes code args ↔ True := by
  simp only [directTakes, State.takesDirect, iff_true]
  exact ⟨rfl, rfl, rfl, rfl⟩

/-- Argument `k` of given arguments, as a number. -/
def arg (args : List Byte) (k : Nat) : Nat := (argOf (.bytes8 args) k).toNat

theorem test_meets_bad_arguments :
    (engineTakes 1 [64] ∧ 64 ≤ arg [64] 0) ∧
      (∀ a ∈ ([[64, 0, 0], [0, 2, 0], [0, 0, 8]] : List (List Byte)),
        engineTakes 2 a ∧ (64 ≤ arg a 0 ∨ 2 ≤ arg a 1 ∨ 8 ≤ arg a 2)) ∧
      (∀ a ∈ ([[8], [0, 2]] : List (List Byte)), engineTakes 3 a ∧ (8 ≤ arg a 0 ∨ 2 ≤ arg a 1)) ∧
      (∀ a ∈ ([[8], [0, 5], [0, 3, 1, 0]] : List (List Byte)), engineTakes 4 a ∧
        (8 ≤ arg a 0 ∨ 5 ≤ arg a 1 ∨ (arg a 1 = 3 ∧ 255 < arg a 2 * 256 + arg a 3))) ∧
      (∀ a ∈ ([[128], [0, 5]] : List (List Byte)), engineTakes 5 a ∧ (128 ≤ arg a 0 ∨ 5 ≤ arg a 1)) ∧
      (∀ a ∈ ([[0, 2], [129, 1]] : List (List Byte)), engineTakes 6 a ∧
        (2 ≤ arg a 1 ∨ (arg a 1 = 1 ∧ 128 < arg a 0))) ∧
      (engineTakes 7 [32] ∧ 32 ≤ arg [32] 0) ∧ (engineTakes 9 [8] ∧ 8 ≤ arg [8] 0) ∧
      (∀ a ∈ ([[64, 0], [0, 2]] : List (List Byte)), engineTakes 0x0A a ∧
        ((64 ≤ arg a 0 ∧ arg a 1 = 0) ∨ 2 ≤ arg a 1)) ∧
      (engineTakes 0x0A [64, 1] ∧ 64 ≤ arg [64, 1] 0 ∧ arg [64, 1] 1 = 1) ∧
      (engineTakes 0x0B [64] ∧ 64 ≤ arg [64] 0) ∧
      (∀ a ∈ ([[4], [0, 2]] : List (List Byte)), directTakes 0x11 a ∧ (4 ≤ arg a 0 ∨ 2 ≤ arg a 1)) ∧
      (∀ a ∈ ([[4, 0, 0, 0, 0, 0, 1], [0, 2, 0, 0, 0, 0, 1], [0, 0, 0, 0, 16, 0, 1], [0, 0, 0, 0, 0, 5, 1],
          [0, 0, 0, 0, 0, 0, 0], [0, 0, 0, 0, 0, 0, 3]] : List (List Byte)), directTakes 0x12 a ∧
        (4 ≤ arg a 0 ∨ 2 ≤ arg a 1 ∨ 16 ≤ arg a 4 ∨ 5 ≤ arg a 5 ∨ (arg a 6 ≠ 1 ∧ arg a 6 ≠ 2))) ∧
      (directTakes 0x13 [4] ∧ 4 ≤ arg [4] 0) ∧ directTakes 0 [] ∧ directTakes 0x0D [] ∧ directTakes 0xFF [] := by
  simp only [engine_iff, direct_iff]
  refine ⟨?_, ?_, ?_, ?_, ?_, ?_, ?_, ?_, ?_, ?_, ?_, ?_, ?_⟩ <;> decide +kernel

/-- Every command of the lease and expiry engines is taken with arguments at the ends of their ranges. -/
theorem test_meets_engine_commands :
    (∀ a ∈ ([[0], [63]] : List (List Byte)), engineTakes 1 a ∧ engineTakes 0x0B a) ∧
      (∀ a ∈ ([[0, 0, 0], [63, 1, 7]] : List (List Byte)), engineTakes 2 a) ∧
      (∀ a ∈ ([[0, 0], [7, 1]] : List (List Byte)), engineTakes 3 a) ∧
      (∀ a ∈ ([[0, 0, 0, 0], [7, 3, 0, 255], [7, 4, 255, 255], [7, 1, 0x13, 0x88], [7, 2]] : List (List Byte)),
        engineTakes 4 a) ∧
      (∀ a ∈ ([[0, 0], [127, 1], [127, 2], [127, 3], [127, 4]] : List (List Byte)), engineTakes 5 a) ∧
      (∀ a ∈ ([[0, 0], [0, 1], [128, 1]] : List (List Byte)), engineTakes 6 a) ∧
      (∀ a ∈ ([[0], [31]] : List (List Byte)), engineTakes 7 a) ∧ engineTakes 8 [] ∧
      (∀ a ∈ ([[0], [7]] : List (List Byte)), engineTakes 9 a) ∧
      (∀ a ∈ ([[63, 0], [63, 1]] : List (List Byte)), engineTakes 0x0A a) := by
  simp only [engine_iff]
  decide +kernel

/-- A zone and a class in use and not in use, by a holder, by a waiting record, by a terminal record. -/
theorem test_meets_zone_in_use :
    (∃ i r, (one (.waiting 9 0)).lease i = some r ∧ r.phase.live = true ∧ (5 : ZoneId) ∈ r.zones) ∧
      ((one (.held 9 false)).zone 5).state = .held 3 ∧
      (¬∃ i r, (one .expired).lease i = some r ∧ r.phase.live = true ∧ (5 : ZoneId) ∈ r.zones) ∧
      ((one .expired).zone 5).state = .free ∧
      (∃ i r z, (one .expired).lease i = some r ∧ z ∈ r.zones ∧ ((one .expired).zone z).cls = 0) ∧
      ∀ i, up.lease i = none := by
  refine ⟨⟨3, _, rfl, rfl, by decide⟩, by decide +kernel, ?_, by decide +kernel,
    ⟨3, _, 5, rfl, by decide, by decide +kernel⟩, by decide +kernel⟩
  exact noLease (by decide +kernel)

/-- READ_LEASE of a FREE slot and of a record; SET_THRESHOLD with a FREE slot and with none; READ_LIST in and
beyond the list; NEXT_EXPIRY with and without a holder. -/
theorem test_meets_table_queries :
    ((asked up 5 [127, 4]).lease 127 = none ∧ (one .expired).lease 3 = some (mine .expired) ∧
      (mine .expired).zones.length ≤ 4) ∧
      (up.lease 0 = none ∧ (one .expired).lease 0 = none ∧ (one .expired).lease 3 ≠ none) ∧
      (let s := asked (one (.waiting 9 0)) 7 [0]
      s.takesCommand 7 (.bytes8 [0]) ∧ s.waiting[0]? = some 3 ∧ s.lease 3 = some (mine (.waiting 9 0)) ∧
        s.waiting.length ≤ 31) ∧
      (let s := asked crossing 8 []
      s.takesCommand 8 (.bytes8 []) ∧ (∃ r, s.lease 0 = some r ∧ r.phase.holds = true ∧
        ∀ j, ∀ q ∈ s.lease j, q.phase.holds = true → r.phase.countdown ≤ q.phase.countdown)) ∧
      ∀ i, ∀ r ∈ (one (.waiting 9 0)).lease i, r.phase.holds = false := by
  simp only [State.takesCommand]
  refine ⟨by decide +kernel, by decide +kernel, by decide +kernel, ⟨by decide +kernel, _, rfl, rfl, ?_⟩,
    by decide +kernel⟩
  decide +kernel

/-- A full table: no slot is FREE. -/
theorem test_meets_full_table :
    let s := asked { up with slots := .fill 128 ⟨1, some (mine .expired)⟩ } 6 [128, 1]
    s.takesCommand 6 (.bytes8 [128, 1]) ∧ ∀ i, s.lease i ≠ none := by
  simp only [State.takesCommand]
  decide +kernel

/-- FENCE and LIFT on a zone in every state. -/
theorem test_meets_fences :
    ∀ x ∈ [ZoneState.disabled, .free, .held 3, .fencePending 3, .fenced],
      let s := (one (.held 9 false)).setZoneState 5 x
      (∀ a ∈ ([[5, 0], [5, 1]] : List (List Byte)), (asked s 0x0A a).takesCommand 0x0A (.bytes8 a)) ∧
        (asked s 0x0B [5]).takesCommand 0x0B (.bytes8 [5]) ∧ (s.zone 5).state = x ∧
        s.lease 3 = some (mine (.held 9 false)) := by
  simp only [State.takesCommand]
  decide +kernel

theorem test_meets_revoke : ∀ p ∈ phases,
    let s := asked (one p) 0x0C [3, 9]
    s.takesCommand 0x0C (.bytes8 [3, 9]) ∧ s.handleNames 3 9 3 (mine p) := by
  simp only [State.takesCommand, names_iff]
  decide +kernel

/-! Links, store, restarts -/

theorem test_meets_link_commands :
    (∀ a ∈ ([[3, 0], [3, 1]] : List (List Byte)), directTakes 0x11 a) ∧
      (directTakes 0x13 [3] ∧ directTakes 0x20 [] ∧ directTakes 0x21 []) ∧
      (∀ e ∈ [false, true], ∀ was ∈ [false, true],
        let a : List Byte := [3, flagByte e, 0, 0, 15, 4, 2]
        let s := asked (up.setLink 3 { up.link 3 with line := { LineParams.cold with enabled := was } }) 0x12 a
        s.takesDirect 0x12 (.bytes8 a) ∧ (s.link 3).line.enabled = was ∧
          argOf (.bytes8 a) 1 = flagByte e ∧ (argOf (.bytes8 a) 4).toNat = 15 ∧
          argOf (.bytes8 a) 5 = parityCode .even ∧ argOf (.bytes8 a) 6 = stopBitsCode .two) := by
  simp only [direct_iff, State.takesDirect]
  refine ⟨?_, ?_, ?_⟩ <;> decide +kernel

theorem test_meets_storing :
    (asked up 0x20 []).takesDirect 0x20 (.bytes8 []) ∧
      ∃ copy, (after .store (asked up 0x20 [])).port.phase = .storing copy := by
  refine ⟨by simp only [State.takesDirect]; decide +kernel, _, rfl⟩

/-- A warm restart begun with the mailbox idle, with a command waiting, with a STORE in progress; and one in
progress, by the pin and by the command. -/
theorem test_meets_restarts :
    (up.inReset = false ∧ up.restarting = false ∧ up.port.phase = .idle) ∧
      ((asked up 7 [0]).port.phase = .waiting (.bytes8 [0]) ∧ (asked up 7 [0]).port.command = 7) ∧
      (∃ copy, (after .store (asked up 0x20 [])).port.phase = .storing copy) ∧
      ((after .wrstNLow up).restarting = true ∧ (after .wrstNLow up).inReset = false ∧
        (after .wrstNLow up).port.phase ≠ .restarting) ∧
      (after .warmRestart (asked up 0x21 [])).restarting = true ∧
      (after .warmRestart (asked up 0x21 [])).port.phase = .restarting :=
  ⟨by decide +kernel, by decide +kernel, ⟨_, rfl⟩, by decide +kernel, by decide +kernel, by decide +kernel⟩

/-- A command that completes as WRST_N goes low, a STORE that does, and a mailbox with nothing to complete. -/
theorem test_meets_finishing :
    let s := asked up 7 [0]
    let w := after .store (asked up 0x20 [])
    (s.inReset = false ∧ s.restarting = false ∧ s.port.phase = .waiting (.bytes8 [0]) ∧
        Instr.readList ∈ completingCommands (.bytes8 [0]) (.fill 4 0) ∧
        exec .readList s = .next (after .readList s) ∧ (after .readList s).port.busy = false) ∧
      ((∃ copy, w.port.phase = .storing copy) ∧ exec .storeComplete w = .next (after .storeComplete w)) ∧
      up.port.phase = .idle :=
  ⟨⟨by decide +kernel, by decide +kernel, by decide +kernel, by decide +kernel, rfl, by decide +kernel⟩,
    ⟨⟨_, rfl⟩, rfl⟩, rfl⟩

/-- A FIFO of 64 entries and one of 63. -/
theorem test_meets_receiver :
    let s (n : Nat) := fed .hunt (List.replicate n ⟨0, false, false, false, false, false⟩)
    (∀ n ∈ [63, 64], ((s n).link 0).line.enabled = true ∧ (s n).inReset = false ∧ (s n).restarting = false) ∧
      ((s 64).link 0).fifo.length = 64 ∧ ((s 63).link 0).fifo.length = 63 ∧ (good 0).highBefore = true ∧
      ((s 63).link 0).rxWait = true ∧ (low false).highBefore = false ∧
      exec (.characterReceived 0 0 (good 0)) (s 63) = .next (after (.characterReceived 0 0 (good 0)) (s 63)) :=
  ⟨by decide +kernel, by decide +kernel, by decide +kernel, rfl, by decide +kernel, rfl, rfl⟩

/-- An entry of every kind taken in every decoder state but HOLD. -/
theorem test_meets_entries :
    ∀ d ∈ [Decoder.hunt, .length, .body 1 [], .body 14 [0x10], .check 3 [0x12, 0x11, 0x03]],
      ∀ e ∈ [FifoEntry.mk 0xD5 false false false false false, ⟨0, false, false, false, false, false⟩,
          ⟨14, false, false, false, false, false⟩, ⟨15, false, false, false, false, false⟩,
          ⟨0xD7, false, false, false, false, false⟩, ⟨1, true, false, false, false, false⟩,
          ⟨1, false, true, false, true, false⟩, ⟨1, false, false, false, true, true⟩,
          ⟨0xD5, false, false, false, true, false⟩, ⟨1, false, false, false, true, false⟩,
          ⟨0, false, false, true, false, false⟩],
        TakesEntry (fed d [e]) 0 e [] := by
  simp only [TakesEntry]
  decide +kernel

theorem test_meets_checksums :
    (3 : Byte) + [0x12, 0x11, 0x03].foldr (· + ·) 0 + 0xD7 = 0 ∧
      (3 : Byte) + [0x12, 0x11, 0x03].foldr (· + ·) 0 + 0xD5 ≠ 0 ∧
      ([] : List Byte).length + 1 = (1 : Byte).toNat ∧ ([0x10] : List Byte).length + 1 ≠ (14 : Byte).toNat := by
  decide

/-- A reply to send, with the decoder in HOLD and in HUNT. -/
theorem test_meets_reply_send : ∀ d ∈ [Decoder.hunt, .hold],
    let s := up.setLink 0 { up.link 0 with decoder := d, replyBuffer := some ⟨[0x21, 0x16, 1], none⟩ }
    (s.link 0).line.enabled = true ∧ s.inReset = false ∧ s.restarting = false ∧ (s.link 0).tx = .idle ∧
      (s.link 0).replyBuffer = some ⟨[0x21, 0x16, 1], none⟩ := by decide +kernel

/-- A dirty record found after a wrap: the pointer at S4, the record in S3, the 127th slot searched. -/
theorem test_meets_notice_build :
    let s := (one .expired).setLink 0 { up.link 0 with noticePointer := 4 }
    ((s.link 0).line.enabled = true ∧ s.inReset = false ∧ s.restarting = false ∧ (s.link 0).tx = .idle ∧
      (s.link 0).replyBuffer = none) ∧ s.lease ((s.link 0).noticePointer + 127) = some (mine .expired) ∧
      (mine .expired).owner = 0 ∧ (mine .expired).reported = none ∧
      ∀ j, j < 127 → s.lease ((s.link 0).noticePointer + j) = none := by decide +kernel

/-- A reply waiting beside a record that became dirty in the reply's instant, and beside one that did not. -/
theorem test_meets_reply_race :
    let s (race : List (SlotId × Lease)) := (one .expired).setLink 0
      { up.link 0 with replyBuffer := some ⟨[0x21, 0x16, 1], none⟩, replyRace := race }
    (((s []).link 0).replyBuffer ≠ none ∧ ((s []).link 0).noticePointer + 3 = 3 ∧
      (3, mine .expired) ∉ ((s []).link 0).replyRace) ∧
      (3, mine .expired) ∈ ((s [(3, mine .expired)]).link 0).replyRace := by decide +kernel

/-- A frame without a pair; a pair of a FREE slot, of another generation, of the terminal state carried, of
another state. -/
theorem test_meets_frame_complete :
    let bare : OutFrame := ⟨[0x21, 0x16, 1], none⟩
    let f (p : Report) : OutFrame := ⟨[0x30], some p⟩
    let s := (one .expired).setLink 0 { up.link 0 with tx := .reply bare }
    let n (p : Report) := (one .expired).setLink 0 { up.link 0 with tx := .notice 3 (f p) }
    ((s.link 0).line.enabled = true ∧ s.inReset = false ∧ s.restarting = false ∧ (s.link 0).tx = .reply bare) ∧
      (∀ p ∈ [Report.mk 0 9 .expired false, ⟨3, 8, .expired, false⟩, ⟨3, 9, .expired, false⟩,
          ⟨3, 9, .held, true⟩], ((n p).link 0).tx = .notice 3 (f p)) ∧
      s.lease 0 = none ∧ s.generation 3 = 9 ∧ s.lease 3 = some (mine .expired) := by decide +kernel

/-! The port -/

/-- A data byte written and a data byte read, at the ends of the window, by each interface. -/
theorem test_meets_bytes :
    (∀ o ∈ ([0, 4, 5, 8, 9, 0x0A, 0x0B, 0x0C, 0x13, 0x14, 0x15, 0x1E, 0x21, 0x7F] : List (BitVec 7)),
      WritesByte (up.setTransfer (.spiWrite o)) (.spiByte 1) o 1
          (fun p => { p with transfer := .spiWrite (o + 1) }) (.byte 0) ∧
        WritesByte (bus.setPort { bus.port with i2cPointer := o, transfer := .i2cWrite }) (.i2cByte 1) o 1
          (fun p => { p with i2cPointer := o + 1 }) .acknowledge ∧
        ReadsByte (up.setTransfer (.spiRead o)) (.spiByte 1) o
          (fun p => { p with transfer := .spiRead (o + 1) }) ∧
        ReadsByte (bus.setPort { bus.port with i2cPointer := o, transfer := .i2cRead }) (.i2cRead false) o
          (fun p => { p with i2cPointer := o + 1, transfer := .none })) :=
  fun _ _ => ⟨⟨rfl, .inl ⟨rfl, rfl, rfl, rfl, rfl⟩⟩, ⟨rfl, .inr ⟨rfl, rfl, rfl, rfl, rfl, rfl⟩⟩,
    ⟨rfl, .inl ⟨rfl, rfl, ⟨_, rfl⟩, rfl⟩⟩, ⟨rfl, .inr ⟨rfl, rfl, rfl, false, rfl, rfl⟩⟩⟩

/-- A transfer in each phase that a byte begins from, by each interface, and a part held in reset. -/
theorem test_meets_framing :
    (up.inReset = false ∧ up.port.msel = false ∧ up.port.transfer = .none ∧
        (up.setTransfer .spiCommand).port.transfer = .spiCommand) ∧
      (bus.inReset = false ∧ bus.port.msel = true ∧ bus.port.transfer = .none ∧
        (bus.setTransfer .i2cAddress).port.transfer = .i2cAddress ∧
        (bus.setTransfer .i2cPointer).port.transfer = .i2cPointer ∧
        (0xB1 : Byte).extractLsb' 1 7 = ownAddress bus ∧ (0xB3 : Byte).extractLsb' 1 7 ≠ ownAddress bus) ∧
      (after .coldStart up).inReset = true := by decide +kernel

theorem test_meets_command_write :
    (up.port.busy = false ∧ up.restarting = false) ∧ (asked up 7 [0]).port.busy = true ∧
      (after .wrstNLow up).restarting = true ∧ up.inReset = false := by decide +kernel

/-! The laws -/

/-- Spec 3.4's table obeys every law, with a command at the front of its queue. -/
theorem test_meets_laws :
    let s : State := { crossing with pending := [.runningChangeScan] }
    s.HolderLaw ∧ s.ListLaw ∧ s.OrderLaw ∧ s.ZonesLaw ∧ s.TerminalLaw ∧ s.RangeLaw ∧ s.BoundLaw ∧
      step s = .next (after .runningChangeScan { s with pending := [] }) := by
  refine ⟨?_, ?_, ?_, ?_, ?_, ⟨?_, ?_, fun _ h => nomatch h⟩, ?_, rfl⟩
  · apply holderLaw_of
    decide +kernel
  · apply listLaw_of <;> decide +kernel
  · refine List.pairwise_pair.mpr fun ra rb ha hb => .inl ?_
    injection ha with ha
    injection hb with hb
    subst ha hb
    decide
  · exact forallLeases (by decide +kernel)
  · exact forallLeases (by decide +kernel)
  · unfold ConfigInRange ClassInRange LineInRange
    decide +kernel
  · unfold ConfigInRange ClassInRange LineInRange
    decide +kernel
  · unfold State.BoundLaw
    decide +kernel

/-- Two entries of one priority and kind, the first as old as the counter's width leaves room for, and an earmark for
it on the zone that both want. -/
def turns : State :=
  let s := put (put (put up 0 1 (mk 2 1 0 false [5] 900 0 (.held 800 false))) 2 1
    (mk 1 1 1 false [5] 900 0 (.waiting 500 44))) 3 1 (mk 0 1 1 false [5] 900 0 (.waiting 500 41))
  { s.setEarmark 5 (some 2) with sequence := 42, pending := [.tick] }

theorem test_meets_record_laws :
    turns.HolderLaw ∧ turns.ZonesLaw ∧ turns.ListLaw ∧ turns.OrderLaw ∧ turns.SequenceRoom ∧ turns.SequenceLaw ∧
      turns.TagLaw ∧ turns.LimitsLaw ∧ turns.RangeLaw ∧ turns.CountdownLaw ∧ turns.YieldableLaw ∧
      turns.EarmarkLaw ∧ (∀ i rest, turns.pending ≠ .lapse i :: rest) ∧
      step turns = .next (after .tick { turns with pending := [] }) := by
  refine ⟨?_, ?_, ?_, ?_, ?_, ⟨?_, ?_⟩, ?_, ?_, ⟨?_, ?_, fun _ h => nomatch h⟩, ?_, ?_, ?_, fun i rest h => ?_, rfl⟩
  · apply holderLaw_of
    decide +kernel
  · exact forallLeases (by decide +kernel)
  · apply listLaw_of <;> decide +kernel
  · refine List.pairwise_pair.mpr fun ra rb ha hb => .inr ?_
    injection ha with ha
    injection hb with hb
    subst ha hb
    decide
  · show ∀ i ∈ turns.waiting, ∀ r ∈ turns.lease i, turns.age r + 1 < 4294967296
    decide +kernel
  · show ∀ i ∈ turns.waiting, ∀ r ∈ turns.lease i, 0 < turns.age r
    decide +kernel
  · refine List.pairwise_pair.mpr fun ra rb ha hb _ _ => ?_
    injection ha with ha
    injection hb with hb
    subst ha hb
    decide
  · have h : ∀ i, ∀ r ∈ turns.lease i, ∀ j, ∀ q ∈ turns.lease j, i ≠ j → r.owner = q.owner → r.tag ≠ q.tag := by
      decide +kernel
    exact fun i j r q hr hq => h i r hr j q hq
  · unfold State.LimitsLaw State.WithinLimits
    exact forallLeases (by decide +kernel)
  · unfold ConfigInRange ClassInRange LineInRange
    decide +kernel
  · unfold ConfigInRange ClassInRange LineInRange
    decide +kernel
  · exact forallLeases (by decide +kernel)
  · exact forallLeases (by decide +kernel)
  · show ∀ z, ∀ e ∈ (turns.zone z).earmark, ∃ r ∈ turns.lease e, r.phase.queued = true ∧ z ∈ r.zones
    decide +kernel
  · have hc : [Instr.tick] = .lapse i :: rest := h
    cases hc

end Sys2Proof.Tests
end

section
/-! PROOFS. Laws of the zones, the records and the list that every step keeps (R3, R46, R47). -/

namespace Sys2Proof.Machine

/-! ### Commands that only read -/

theorem evalReadZone_same (a : Table 8 Byte) (s : State) : (evalReadZone a s).1 = s := by
  unfold evalReadZone
  split <;> rfl

theorem evalReadClass_same (a : Table 8 Byte) (s : State) : (evalReadClass a s).1 = s := by
  unfold evalReadClass
  split <;> rfl

theorem evalReadLease_same (a : Table 8 Byte) (s : State) : (evalReadLease a s).1 = s := by
  unfold evalReadLease
  split <;> rfl

theorem evalReadList_same (a : Table 8 Byte) (s : State) : (evalReadList a s).1 = s := by
  unfold evalReadList
  split <;> rfl

theorem evalClassLoad_same (a : Table 8 Byte) (s : State) : (evalClassLoad a s).1 = s := by
  unfold evalClassLoad
  split <;> rfl

theorem evalReadLink_same (a : Table 8 Byte) (s : State) : (evalReadLink a s).1 = s := by
  unfold evalReadLink
  split <;> rfl

/-! ### Properties of the zones, the records and the list -/

/-- `P` is a property of the zones, the records and the list which every operation on them keeps, and which a part
without records, holders and entries has. -/
structure TableInvariant (P : State → Prop) : Prop where
  congr : ∀ {s t : State}, P s → t.zones = s.zones → t.slots = s.slots → t.waiting = s.waiting → P t
  empty : ∀ {s : State}, (∀ z, (s.zone z).state.holder = none) → (∀ i, s.lease i = none) → s.waiting = [] → P s
  acquire : ∀ l f {s : State}, P s → P (evalAcquire l f s).1
  renew : ∀ l f {s : State}, P s → P (evalRenew l f s).1
  release : ∀ l f {s : State}, P s → P (evalRelease l f s).1
  widen : ∀ l f {s : State}, P s → P (evalWiden l f s).1
  narrow : ∀ l f {s : State}, P s → P (evalNarrow l f s).1
  park : ∀ l f {s : State}, P s → P (evalPark l f s).1
  setZone : ∀ a {s : State}, P s → P (evalSetZone a s).1
  fenceWait : ∀ a {s : State}, P s → P (evalFenceWait a s).1
  fenceForce : ∀ a {s : State}, P s → P (evalFenceForce a s).1
  lift : ∀ a {s : State}, P s → P (evalLift a s).1
  revoke : ∀ a {s : State}, P s → P (evalRevoke a s).1
  grantScan : ∀ {s : State}, P s → P s.grantScan
  takeTick : ∀ {s : State}, P s → P s.takeTick
  lapseAt : ∀ i {s : State}, P s → P (s.lapseAt i)
  expireAt : ∀ i {s : State}, P s → P (s.expireAt i)
  revokeLateAt : ∀ i {s : State}, P s → P (s.revokeLateAt i)
  clientRestart : ∀ l {s : State}, P s → P (s.clientRestart l)
  disableLink : ∀ l n {s : State}, P s → P (s.disableLink l n)
  applyFrame : ∀ f {s : State}, P s → P (s.applyFrame f)
  beginRestart : ∀ b {s : State}, P s → P (s.beginRestart b)
  endRestart : ∀ {s : State}, P s → P s.endRestart

section
variable {P : State → Prop} (hP : TableInvariant P)
include hP

theorem TableInvariant.clockOnly {s t : State} (h : P s) (ht : s.clockOnly t) : P t :=
  have ⟨hz, hs, hw, _⟩ := ht.fields
  hP.congr h hz hs hw

theorem TableInvariant.trafficOnly {s t : State} (h : P s) (ht : s.trafficOnly t) : P t :=
  have ⟨hz, hs, hw, _⟩ := ht.fields
  hP.congr h hz hs hw

theorem TableInvariant.portEvents {s : State} (h : P s) (es : List PortEvent) : P (s.portEvents es) :=
  have ⟨hz, hs, hw, _⟩ := (portEvents_portOnly s es).fields
  hP.congr h hz hs hw

theorem TableInvariant.takeRequest {l : Link} {k : Byte → Bool} {ev : List Byte → State → State × OutFrame}
    (hev : ∀ f t, P t → P (ev f t).1) {s : State} (h : P s) : P (takeRequest l k ev s) := by
  unfold Machine.takeRequest
  split
  · split
    · exact hP.congr (hev _ _ (hP.congr (t := s.takeSlot l) h rfl rfl rfl)) rfl rfl rfl
    · exact h
  · exact h

theorem TableInvariant.takeCommand {c : Byte} {g : Table 8 Byte → Bool}
    {ev : Table 8 Byte → State → State × CmdResult} (hev : ∀ a t, P t → P (ev a t).1) {s : State} (h : P s) :
    P (takeCommand c g ev s) := by
  unfold Machine.takeCommand
  split
  · split
    · exact hP.congr (hev _ _ (hP.congr (t := s.served) h rfl rfl rfl)) rfl rfl rfl
    · exact h
  · exact h

theorem TableInvariant.takeDirect {c : Byte} {ev : Table 8 Byte → State → State × CmdResult}
    (hev : ∀ a t, P t → P (ev a t).1) {s : State} (h : P s) : P (takeDirect c ev s) := by
  unfold Machine.takeDirect
  split
  · split
    · exact hP.congr (hev _ _ h) rfl rfl rfl
    · exact h
  · exact h

theorem TableInvariant.setTimebase (e : Nat) (a : Table 8 Byte) {s : State} (h : P s) :
    P (evalSetTimebase a (s.passTo (s.clock.now + e))).1 := by
  have hp := hP.clockOnly h (passTo_clockOnly s (s.clock.now + e))
  unfold evalSetTimebase
  repeat' split
  · exact hp
  · exact hp
  · exact hP.clockOnly hp (chooseMode_clockOnly _ _)

theorem TableInvariant.setLink (n : Nat) (a : Table 8 Byte) {s : State} (h : P s) : P (evalSetLink n a s).1 := by
  unfold evalSetLink
  split
  · next l p _ _ =>
    have ht : P (s.setLink l ((s.link l).setLine p n)) := hP.congr h rfl rfl rfl
    dsimp only [State.applyLine]
    split
    · exact hP.disableLink l n ht
    · exact ht
  · exact h

theorem TableInvariant.coldStart (s : State) : P (.cold s.image s.pending) :=
  hP.empty (fun z => by simp [State.cold, State.zone, Zone.cold, ZoneState.holder])
    (fun i => by simp [State.cold, State.lease, State.slot, Slot.cold]) rfl

theorem TableInvariant.judgeImage {s : State} (h : P s) (hl : ∀ i, s.lease i = none) (hw : s.waiting = []) :
    P s.judgeImage := by
  unfold State.judgeImage
  split
  · refine hP.empty (fun z => ?_) hl hw
    simp only [State.loadImage, State.zone, Table.get_mapIdx, StoredZone.toZone]
    split <;> rfl
  · exact hP.congr h rfl rfl rfl

/-- Such a property is kept by every command but a restart with a command finishing. -/
theorem TableInvariant.exec_of_not_finishing {c : Instr} {s t : State} (hc : ∀ b, c ≠ .wrstNLow b true) (h : P s)
    (he : exec c s = .next t) : P t := by
  have same : ∀ {u : State}, u.zones = s.zones → u.slots = s.slots → u.waiting = s.waiting → P u :=
    fun hz hs hw => hP.congr h hz hs hw
  have reads : ∀ {ev : Table 8 Byte → State → State × CmdResult}, (∀ a t, (ev a t).1 = t) →
      ∀ a t, P t → P (ev a t).1 := fun hev a t ht => (hev a t).symm ▸ ht
  cases c
  all_goals obtain rfl := Host.Outcome.next.inj he
  case acquire l => exact hP.takeRequest (fun f _ => hP.acquire l f) h
  case renew l => exact hP.takeRequest (fun f _ => hP.renew l f) h
  case release l => exact hP.takeRequest (fun f _ => hP.release l f) h
  case widen l => exact hP.takeRequest (fun f _ => hP.widen l f) h
  case narrow l => exact hP.takeRequest (fun f _ => hP.narrow l f) h
  case park l => exact hP.takeRequest (fun f _ => hP.park l f) h
  case queryLease l => exact hP.takeRequest (fun f t ht => (evalQueryLease_same l f t).symm ▸ ht) h
  case queryZone l => exact hP.takeRequest (fun f t ht => (evalQueryZone_same l f t).symm ▸ ht) h
  case badKind l => exact hP.takeRequest (fun _ _ ht => ht) h
  case readZone => exact hP.takeCommand (reads evalReadZone_same) h
  case readClass => exact hP.takeCommand (reads evalReadClass_same) h
  case readLease => exact hP.takeCommand (reads evalReadLease_same) h
  case readList => exact hP.takeCommand (reads evalReadList_same) h
  case classLoad => exact hP.takeCommand (reads evalClassLoad_same) h
  case nextExpiry => exact hP.takeCommand (fun _ _ ht => ht) h
  case readLink => exact hP.takeDirect (reads evalReadLink_same) h
  case setZone => exact hP.takeCommand (fun a _ => hP.setZone a) h
  case setClass =>
    refine hP.takeCommand (fun a t ht => ?_) h
    unfold evalSetClass
    dsimp only
    repeat' split
    all_goals exact hP.congr ht rfl rfl rfl
  case setThreshold =>
    refine hP.takeCommand (fun a t ht => ?_) h
    unfold evalSetThreshold
    repeat' split
    all_goals exact hP.congr ht rfl rfl rfl
  case fenceWait => exact hP.takeCommand (fun a _ => hP.fenceWait a) h
  case fenceForce => exact hP.takeCommand (fun a _ => hP.fenceForce a) h
  case lift => exact hP.takeCommand (fun a _ => hP.lift a) h
  case revoke => exact hP.takeCommand (fun a _ => hP.revoke a) h
  case setTimebase e => exact hP.takeDirect (fun a _ => hP.setTimebase e a) h
  case setLink n => exact hP.takeDirect (fun a _ => hP.setLink n a) h
  case linkReset n =>
    refine hP.takeDirect (fun a t ht => ?_) h
    unfold evalLinkReset
    split <;> exact hP.congr ht rfl rfl rfl
  case warmRestart b =>
    split
    · split
      · exact hP.beginRestart b (same rfl rfl rfl)
      · exact h
    · exact h
  case wrstNLow b finishing =>
    cases finishing with
    | true => exact absurd rfl (hc b)
    | false =>
      split
      · exact h
      · split
        · exact same rfl rfl rfl
        · exact hP.beginRestart b (same rfl rfl rfl)
  case restartEnd b =>
    split
    · split
      · exact hP.endRestart h
      · exact same rfl rfl rfl
    · exact h
  case coldStart => exact hP.coldStart s
  case leaveReset =>
    have hcold := hP.coldStart s
    have hl : ∀ i, (State.cold s.image s.pending).lease i = none := fun i => by
      simp [State.cold, State.lease, State.slot, Slot.cold]
    split
    · dsimp only
      split
      · exact hP.judgeImage (hP.congr hcold rfl rfl rfl) hl rfl
      · exact hP.congr hcold rfl rfl rfl
    · exact h
  case syncinPulse e =>
    split
    · exact h
    · exact hP.clockOnly h ((passTo_clockOnly _ _).trans (pulseAt_clockOnly _ _))
  case lockRunTimeout | syncinLoss | internalTick | searchTimeout => exact hP.clockOnly h (awaitDue_clockOnly _ _)
  case runningChangeScan =>
    split
    · split
      · exact hP.grantScan (same rfl rfl rfl)
      · exact h
    · exact h
  case tick =>
    split
    · split
      · exact hP.takeTick (same rfl rfl rfl)
      · exact h
    · exact h
  case lapse i =>
    split
    · exact hP.lapseAt i h
    · exact h
  case expiry i =>
    split
    · exact hP.expireAt i h
    · exact h
  case revokeForLateness i =>
    split
    · exact hP.revokeLateAt i h
    · exact h
  case characterReceived l n c =>
    split
    · exact hP.trafficOnly h (receive_trafficOnly _ _ _ _)
    · exact h
  case decodeEntry l =>
    split
    · split
      · split
        · exact hP.clientRestart l (same rfl rfl rfl)
        · exact hP.trafficOnly h (takeEntry_trafficOnly _ _ _ _)
      · exact h
    · exact h
  case clientRestart l =>
    split
    · split
      · exact hP.clientRestart l (same rfl rfl rfl)
      · exact h
    · exact h
  case linkDisable l n =>
    split
    · exact hP.disableLink l n h
    · exact h
  case frameComplete l =>
    split
    · split
      · exact h
      · exact hP.applyFrame _ (same rfl rfl rfl)
      · exact hP.applyFrame _ (same rfl rfl rfl)
    · exact h
  case causeClear | groupEnableWrite | ticks0Read | registerWrite | i2cPointerSet => exact hP.portEvents h _
  case store | storeComplete | badCommand | replySend | noticeBuild =>
    repeat' split
    all_goals exact same rfl rfl rfl

/-- A restart with a command finishing keeps it: the command does, and so does the beginning of the restart. -/
theorem TableInvariant.exec {c : Instr} {s t : State} (h : P s) (he : exec c s = .next t) : P t := by
  by_cases hc : ∀ b, c ≠ .wrstNLow b true
  · exact hP.exec_of_not_finishing hc h he
  · push Not at hc
    obtain ⟨b, rfl⟩ := hc
    obtain rfl := Host.Outcome.next.inj he
    split
    · exact h
    · split
      · exact hP.congr h rfl rfl rfl
      · refine hP.congr (s := s.finishAndRestart b) ?_ rfl rfl rfl
        exact finishAndRestart_keeps (fun _ _ _ hc ht => hP.exec_of_not_finishing hc ht)
          (fun _ => hP.beginRestart b) (fun _ hu => hP.congr hu rfl rfl rfl) h

end

/-- A step carries out the command at the front of the queue on the state with the rest of it, or none. -/
theorem step_cases {s t : State} (h : step s = .next t) :
    t = s ∨ ∃ c rest, s.pending = c :: rest ∧ exec c { s with pending := rest } = .next t := by
  unfold step at h
  split at h
  · exact .inl (Host.Outcome.next.inj h).symm
  · next c rest hp => exact .inr ⟨c, rest, hp, h⟩

theorem TableInvariant.step {P : State → Prop} (hP : TableInvariant P) {s t : State} (h : P s)
    (hs : step s = .next t) : P t := by
  rcases step_cases hs with rfl | ⟨c, rest, -, he⟩
  · exact h
  · exact hP.exec (s := { s with pending := rest }) (hP.congr h rfl rfl rfl) he

/-! ### The law between holders and records (R3) -/

theorem holderLaw_invariant : TableInvariant State.HolderLaw where
  congr h hz hs _ := h.congr hz hs
  empty hz hl _ := empty_holderLaw hz hl
  acquire l f _ := evalAcquire_holderLaw l f
  renew l f _ := evalRenew_holderLaw l f
  release l f _ := evalRelease_holderLaw l f
  widen l f _ := evalWiden_holderLaw l f
  narrow l f _ := evalNarrow_holderLaw l f
  park l f _ := evalPark_holderLaw l f
  setZone a _ := evalSetZone_holderLaw a
  fenceWait a _ := evalFenceWait_holderLaw a
  fenceForce a _ := evalFenceForce_holderLaw a
  lift a _ := evalLift_holderLaw a
  revoke a _ := evalRevoke_holderLaw a
  grantScan := grantScan_holderLaw
  takeTick := takeTick_holderLaw
  lapseAt i _ := lapseAt_holderLaw i
  expireAt i _ := expireAt_holderLaw i
  revokeLateAt i _ := revokeLateAt_holderLaw i
  clientRestart l _ := clientRestart_holderLaw l
  disableLink l n _ := disableLink_holderLaw l n
  applyFrame f _ := applyFrame_holderLaw f
  beginRestart b _ := beginRestart_holderLaw b
  endRestart := endRestart_holderLaw

/-- Settles O56: R3 is a property of the zones and the records that every operation keeps. -/
theorem stepKeepsHolderLaw : Obligations.StepKeepsHolderLaw :=
  fun _ _ h hs => holderLaw_invariant.step h hs

/-! ### The waiting list (R46) -/

/-- SET_ZONE touches no record and no entry of the list. -/
theorem evalSetZone_records (a : Table 8 Byte) (s : State) :
    (evalSetZone a s).1.slots = s.slots ∧ (evalSetZone a s).1.waiting = s.waiting := by
  unfold evalSetZone
  repeat' split
  all_goals exact ⟨rfl, rfl⟩

/-- R46 is kept together with R3: a record revoked as the holder of a zone stands in no list. -/
theorem holderLaw_queueLaw_invariant : TableInvariant fun s => s.HolderLaw ∧ s.QueueLaw where
  congr h hz hs hw := ⟨h.1.congr hz hs, h.2.congr hw hs⟩
  empty hz hl hw := ⟨empty_holderLaw hz hl, empty_queueLaw hw fun j p b => by rw [entry_none (hl j)]; nofun⟩
  acquire l f _ h := ⟨evalAcquire_holderLaw l f h.1, evalAcquire_queueLaw l f h.2⟩
  renew l f _ h := ⟨evalRenew_holderLaw l f h.1, evalRenew_queueLaw l f h.2⟩
  release l f _ h := ⟨evalRelease_holderLaw l f h.1, evalRelease_queueLaw l f h.2⟩
  widen l f _ h := ⟨evalWiden_holderLaw l f h.1, evalWiden_queueLaw l f h.2⟩
  narrow l f _ h := ⟨evalNarrow_holderLaw l f h.1, evalNarrow_queueLaw l f h.2⟩
  park l f _ h := ⟨evalPark_holderLaw l f h.1, evalPark_queueLaw l f h.2⟩
  setZone a s h := by
    obtain ⟨hs, hw⟩ := evalSetZone_records a s
    exact ⟨evalSetZone_holderLaw a h.1, h.2.congr hw hs⟩
  fenceWait a _ h := ⟨evalFenceWait_holderLaw a h.1, evalFenceWait_queueLaw a h.2⟩
  fenceForce a _ h := ⟨evalFenceForce_holderLaw a h.1, evalFenceForce_queueLaw a h.2 h.1⟩
  lift a _ h := ⟨evalLift_holderLaw a h.1, evalLift_queueLaw a h.2⟩
  revoke a _ h := ⟨evalRevoke_holderLaw a h.1, evalRevoke_queueLaw a h.2⟩
  grantScan h := ⟨grantScan_holderLaw h.1, grantScan_queueLaw h.2⟩
  takeTick h := ⟨takeTick_holderLaw h.1, takeTick_queueLaw h.2⟩
  lapseAt i _ h := ⟨lapseAt_holderLaw i h.1, lapseAt_queueLaw i h.2⟩
  expireAt i _ h := ⟨expireAt_holderLaw i h.1, expireAt_queueLaw i h.2⟩
  revokeLateAt i _ h := ⟨revokeLateAt_holderLaw i h.1, revokeLateAt_queueLaw i h.2⟩
  clientRestart l _ h := ⟨clientRestart_holderLaw l h.1, clientRestart_queueLaw l h.2⟩
  disableLink l n _ h := ⟨disableLink_holderLaw l n h.1, disableLink_queueLaw l n h.2⟩
  applyFrame f _ h := ⟨applyFrame_holderLaw f h.1, applyFrame_queueLaw f h.2⟩
  beginRestart b _ h := ⟨beginRestart_holderLaw b h.1, beginRestart_queueLaw _ b⟩
  endRestart h := ⟨endRestart_holderLaw h.1, endRestart_queueLaw h.2⟩

/-! ### The order of insertion (R46, R47) -/

theorem State.SequenceLaw.congr {s t : State} (h : s.SequenceLaw) (hs : t.slots = s.slots)
    (hw : t.waiting = s.waiting) (hq : t.sequence = s.sequence) : t.SequenceLaw := by
  have hl : ∀ i, t.lease i = s.lease i := fun i => by simp only [State.lease, State.slot, hs]
  have ha : ∀ r, t.age r = s.age r := fun r => by rw [State.age, hq, State.age]
  have ho : t.olderThan = s.olderThan := by
    funext a b
    simp only [State.olderThan, hl, ha]
  simpa only [State.SequenceLaw, hw, hl, ha, ho] using h

/-- An empty list is in the order of insertion. -/
theorem sequenceLaw_of_empty {s : State} (h : s.waiting = []) : s.SequenceLaw := by
  simp [State.SequenceLaw, h]

/-- A restart begins with an empty list (R173), whatever command finishes with it. -/
theorem beginRestart_waiting (s : State) (b : Table 4 Nat) : (s.beginRestart b).waiting = [] :=
  endWaits_waiting _

theorem finishAndRestart_waiting (s : State) (b : Table 4 Nat) : (s.finishAndRestart b).waiting = [] := by
  unfold State.finishAndRestart
  dsimp only
  split
  · rw [(State.raiseCmd_fields _ _).2.2.2.1, beginRestart_waiting]
  · exact beginRestart_waiting s b

theorem judgeImage_waiting (s : State) : s.judgeImage.waiting = s.waiting := by
  unfold State.judgeImage
  split <;> rfl

theorem takeRequest_sequenceLaw {l : Link} {k : Byte → Bool} {ev : List Byte → State → State × OutFrame}
    {s : State} (h : s.SequenceLaw) (hev : ∀ f, (ev f (s.takeSlot l)).1.SequenceLaw) :
    (takeRequest l k ev s).SequenceLaw := by
  unfold takeRequest
  split
  · split
    · exact (hev _).congr rfl rfl rfl
    · exact h
  · exact h

theorem takeCommand_sequenceLaw {c : Byte} {g : Table 8 Byte → Bool}
    {ev : Table 8 Byte → State → State × CmdResult} {s : State} (h : s.SequenceLaw)
    (hev : ∀ a, (ev a s.served).1.SequenceLaw) : (takeCommand c g ev s).SequenceLaw := by
  unfold takeCommand
  split
  · split
    · exact (hev _).congr rfl rfl rfl
    · exact h
  · exact h

/-- Every command keeps the order of insertion: those that put no record into the list by what they do to it, ACQUIRE
and PARK while the counter has room, SET_ZONE and SET_CLASS touching neither, and the others with an empty list. -/
theorem exec_sequenceLaw {c : Instr} {s t : State} (hh : s.HolderLaw) (hz : s.ZonesLaw) (hl : s.ListLaw)
    (ho : s.OrderLaw) (hroom : s.SequenceRoom) (h : s.SequenceLaw) (he : exec c s = .next t) : t.SequenceLaw := by
  by_cases hc : evolvingRow c = true
  · exact (exec_evolves hc hh (fun i r hr => (hz i r hr).2.2.1) he).sequenceLaw hl.listQueued h
  cases c
  case acquire l =>
    obtain rfl := Host.Outcome.next.inj he
    exact takeRequest_sequenceLaw h fun f => evalAcquire_sequenceLaw l f (s := s.takeSlot l) hl ho hroom h
  case park l =>
    obtain rfl := Host.Outcome.next.inj he
    exact takeRequest_sequenceLaw h fun f => evalPark_sequenceLaw l f (s := s.takeSlot l) hl ho hroom h
  case setZone =>
    obtain rfl := Host.Outcome.next.inj he
    exact takeCommand_sequenceLaw h fun a => evalSetZone_sequenceLaw a (s := s.served) h
  case setClass =>
    obtain rfl := Host.Outcome.next.inj he
    exact takeCommand_sequenceLaw h fun a => evalSetClass_sequenceLaw a (s := s.served) h
  case coldStart =>
    obtain rfl := Host.Outcome.next.inj he
    exact sequenceLaw_of_empty rfl
  case leaveReset =>
    obtain rfl := Host.Outcome.next.inj he
    split
    · dsimp only
      split
      · exact sequenceLaw_of_empty (judgeImage_waiting _)
      · exact sequenceLaw_of_empty rfl
    · exact h
  case wrstNLow b finishing =>
    cases finishing with
    | false => exact absurd rfl hc
    | true =>
      obtain rfl := Host.Outcome.next.inj he
      split
      · exact h
      · split
        · exact h.congr rfl rfl rfl
        · exact sequenceLaw_of_empty (finishAndRestart_waiting s b)
  all_goals exact absurd rfl hc

/-- Settles O57: R46's list and its first two keys are kept as a property of the records and the list, the third key
by what each command does to the entries and the counter. -/
theorem stepKeepsListLaws : Obligations.StepKeepsListLaws := by
  refine ⟨fun s t hh hl ho hs => ?_, fun s t hh hz hl ho hroom h hs => ?_⟩
  · obtain ⟨h₁, h₂, h₃⟩ := holderLaw_queueLaw_invariant.step ⟨hh, hl, ho⟩ hs
    exact ⟨h₁, h₂, h₃⟩
  · rcases step_cases hs with rfl | ⟨c, rest, -, he⟩
    · exact h
    · exact exec_sequenceLaw (s := { s with pending := rest }) hh hz hl ho hroom h he

end Sys2Proof.Machine
end

section
/-! PROOFS. The ranges of the configured values and the bounds of the FIFOs and of the lock run, which every step keeps
(R8, R34, R123, R132, R134, R171). -/

namespace Sys2Proof.Machine

/-! ### The commands that configure nothing -/

/-- The commands that write no configured value and no image. -/
def unconfiguringRow : Instr → Bool
  | .setClass | .setThreshold | .setLink _ | .store | .storeComplete | .coldStart | .leaveReset ..
  | .wrstNLow _ true => false
  | _ => true

/-- The pulse itself bounds the lock run, whatever passed before it (R123). -/
theorem syncinPulse_confKept (s : State) (e : Nat) :
    s.confKept ((s.passTo (s.clock.now + e)).pulseAt (s.clock.now + e)) :=
  ((passTo_clockOnly _ _).trans (pulseAt_clockOnly _ _)).confKept fun _ => pulseAt_lockRun _ _

theorem awaitDue_confKept (s : State) (d : Deadline) : s.confKept (s.awaitDue d) :=
  (awaitDue_clockOnly s d).confKept (awaitDue_lockRun d)

theorem setTimebase_confKept (e : Nat) (a : Table 8 Byte) (s : State) :
    s.confKept (evalSetTimebase a (s.passTo (s.clock.now + e))).1 := by
  have hp : s.confKept (s.passTo (s.clock.now + e)) :=
    (passTo_clockOnly _ _).confKept (passFor_lockRun _ _)
  unfold evalSetTimebase
  repeat' split
  · exact hp
  · exact hp
  · exact hp.trans ((chooseMode_clockOnly _ _).confKept (chooseMode_lockRun _))

theorem setHanded_confKept (s : State) (rest : List HandedEvent) :
    s.confKept (s.setClock { s.clock with handed := rest }) :=
  ⟨rfl, rfl, rfl, rfl, fun _ => rfl, fun _ => id, id, fun _ => id⟩

theorem setWrstN_confKept (s : State) (b : Bool) : s.confKept { s with wrstN := b } :=
  ⟨rfl, rfl, rfl, rfl, fun _ => rfl, fun _ => id, id, fun _ => id⟩

theorem setRestarting_confKept (s : State) : s.confKept (s.setPort { s.port with phase := .restarting }) :=
  ⟨rfl, rfl, rfl, rfl, fun _ => rfl, fun _ => id, id, nofun⟩

theorem raiseCmd_confKept (s : State) (f : Byte) : s.confKept (s.raiseCmd f) :=
  ⟨rfl, rfl, rfl, rfl, fun _ => rfl, fun _ => id, id, fun _ => id⟩

/-- What each of these commands keeps. -/
theorem exec_confKept {c : Instr} {s t : State} (hc : unconfiguringRow c = true) (he : exec c s = .next t) :
    s.confKept t := by
  have reads : ∀ {ev : Table 8 Byte → State → State × CmdResult}, (∀ a t, (ev a t).1 = t) →
      ∀ a (t : State), t.confKept (ev a t).1 := fun hev a t => (hev a t).symm ▸ .refl t
  have frame : ∀ l (x : LinkState), x.line = (s.link l).line → x.fifo = (s.link l).fifo →
      s.confKept (s.setLink l x) :=
    fun l x hl hf => setLink_confKept s l x (by rw [hl]) (by rw [hf]; exact id)
  cases c
  case setClass | setThreshold | setLink | store | storeComplete | coldStart | leaveReset => cases hc
  all_goals obtain rfl := Host.Outcome.next.inj he
  case acquire l => exact takeRequest_confKept (evalAcquire_tableOnly l) s
  case renew l => exact takeRequest_confKept (evalRenew_tableOnly l) s
  case release l => exact takeRequest_confKept (evalRelease_tableOnly l) s
  case widen l => exact takeRequest_confKept (evalWiden_tableOnly l) s
  case narrow l => exact takeRequest_confKept (evalNarrow_tableOnly l) s
  case park l => exact takeRequest_confKept (evalPark_tableOnly l) s
  case queryLease l => exact takeRequest_confKept (fun f t => (evalQueryLease_same l f t).symm ▸ .refl t) s
  case queryZone l => exact takeRequest_confKept (fun f t => (evalQueryZone_same l f t).symm ▸ .refl t) s
  case badKind l => exact takeRequest_confKept (fun _ t => .refl t) s
  case readZone => exact takeCommand_confKept (reads evalReadZone_same) s
  case readClass => exact takeCommand_confKept (reads evalReadClass_same) s
  case readLease => exact takeCommand_confKept (reads evalReadLease_same) s
  case readList => exact takeCommand_confKept (reads evalReadList_same) s
  case classLoad => exact takeCommand_confKept (reads evalClassLoad_same) s
  case nextExpiry => exact takeCommand_confKept (fun _ t => .refl t) s
  case readLink => exact takeDirect_confKept (reads evalReadLink_same) s
  case setZone => exact takeCommand_confKept (fun a t => (evalSetZone_tableOnly a t).confKept) s
  case fenceWait => exact takeCommand_confKept (fun a t => (evalFenceWait_tableOnly a t).confKept) s
  case fenceForce => exact takeCommand_confKept (fun a t => (evalFenceForce_tableOnly a t).confKept) s
  case lift => exact takeCommand_confKept (fun a t => (evalLift_tableOnly a t).confKept) s
  case revoke => exact takeCommand_confKept (fun a t => (evalRevoke_tableOnly a t).confKept) s
  case setTimebase e => exact takeDirect_confKept (fun a t => setTimebase_confKept e a t) s
  case linkReset n =>
    refine takeDirect_confKept (fun a t => ?_) s
    unfold evalLinkReset
    split
    · next l _ => exact setLink_confKept t l _ rfl fun _ => Nat.zero_le _
    · exact .refl t
  case warmRestart b =>
    split
    · split
      · exact (setRestarting_confKept s).trans (beginRestart_confKept _ b)
      · exact .refl s
    · exact .refl s
  case badCommand =>
    split
    · split
      · exact complete_confKept s _
      · exact .refl s
    · exact .refl s
  case wrstNLow b finishing =>
    cases finishing with
    | true => cases hc
    | false =>
      split
      · exact .refl s
      · split
        · exact setWrstN_confKept s false
        · exact (setWrstN_confKept s false).trans (beginRestart_confKept _ b)
  case restartEnd b =>
    split
    · split
      · exact endRestart_confKept s
      · exact setWrstN_confKept s false
    · exact .refl s
  case syncinPulse e =>
    split
    · exact .refl s
    · exact syncinPulse_confKept s e
  case lockRunTimeout | syncinLoss | internalTick | searchTimeout => exact awaitDue_confKept s _
  case runningChangeScan =>
    split
    · split
      · exact (setHanded_confKept s _).trans (grantScan_tableOnly _).confKept
      · exact .refl s
    · exact .refl s
  case tick =>
    split
    · split
      · exact (setHanded_confKept s _).trans (takeTick_tableOnly _).confKept
      · exact .refl s
    · exact .refl s
  case lapse i =>
    split
    · exact (lapseAt_tableOnly s i).confKept
    · exact .refl s
  case expiry i =>
    split
    · exact (expireAt_tableOnly s i).confKept
    · exact .refl s
  case revokeForLateness i =>
    split
    · exact (revokeLateAt_tableOnly s i).confKept
    · exact .refl s
  case characterReceived l n c =>
    split
    · exact receive_confKept s l n c
    · exact .refl s
  case decodeEntry l =>
    split
    · next e rest hn =>
      split
      · split
        · exact takeBreak_confKept (nextEntry_rest hn)
        · exact takeEntry_confKept e (nextEntry_rest hn)
      · exact .refl s
    · exact .refl s
  case clientRestart l =>
    split
    · next e rest hn =>
      split
      · exact takeBreak_confKept (nextEntry_rest hn)
      · exact .refl s
    · exact .refl s
  case linkDisable l n =>
    split
    · exact disableLink_confKept s l n
    · exact .refl s
  case replySend l =>
    have hold : ∀ x : LinkState, x.releaseHold.line = x.line ∧ x.releaseHold.fifo = x.fifo := fun x => by
      unfold LinkState.releaseHold
      split <;> exact ⟨rfl, rfl⟩
    split
    · split
      · exact frame l _ (hold _).1 (hold _).2
      · exact .refl s
    · exact .refl s
  case noticeBuild l =>
    split
    · split
      · split
        · exact frame l _ rfl rfl
        · exact .refl s
      · exact .refl s
    · exact .refl s
  case frameComplete l =>
    split
    · split
      · exact .refl s
      · exact (frame l (s.link l).endFrame rfl rfl).trans (applyFrame_tableOnly _ _).confKept
      · next i _ _ =>
        exact (frame l { (s.link l).endFrame with noticePointer := i + 1 } rfl rfl).trans
          (applyFrame_tableOnly _ _).confKept
    · exact .refl s
  case causeClear | groupEnableWrite | ticks0Read | registerWrite | i2cPointerSet => exact portEvents_confKept s _

/-! ### The ranges and the bounds together -/

/-- The ranges of the configured values and the bounds of the FIFOs and of the lock run. -/
def State.InBounds (s : State) : Prop := s.RangeLaw ∧ s.BoundLaw

theorem State.confKept.inBounds {s t : State} (h : s.confKept t) (hs : s.InBounds) : t.InBounds :=
  ⟨h.rangeLaw hs.1, h.boundLaw hs.2⟩

/-- The present configuration lies in its ranges when the class table, the lines and the threshold do. -/
theorem configuration_inRange_iff (s : State) : ConfigInRange s.configuration ↔
    (∀ k, ClassInRange (s.cls k)) ∧ (∀ l, LineInRange (s.link l).line) ∧ 1 ≤ s.threshold ∧ s.threshold ≤ 128 := by
  simp only [ConfigInRange, State.configuration, Table.get_mapIdx, State.cls, State.link]

theorem wordOf_le (h l : Byte) : wordOf h l ≤ 65535 := by
  unfold wordOf
  omega

/-- A parameter written, within what its rule allows, leaves the class in its ranges (R9). -/
theorem writeParam_inRange {p : ClassParams} (n : Fin 5) {v : Nat} (hp : ClassInRange p) (hv : v ≤ 65535)
    (hn : n = 3 → v ≤ 255) : ClassInRange (writeParam p n v) := by
  unfold ClassInRange at *
  obtain ⟨h₁, h₂, h₃, h₄, h₅, h₆, h₇⟩ := hp
  unfold writeParam adjustClass
  split
  · dsimp only
    split <;> omega
  · split
    · dsimp only
      split <;> omega
    · split
      · dsimp only
        split <;> omega
      · split
        · next h3 =>
          have := hn h3
          dsimp only
          split <;> omega
        · dsimp only
          split <;> omega

theorem setClass_inBounds {s : State} {c : ClassId} {p : ClassParams} (h : s.InBounds) (hp : ClassInRange p) :
    (s.setClass c p).InBounds := by
  obtain ⟨⟨hconf, himage, hcopy⟩, hbound⟩ := h
  rw [configuration_inRange_iff] at hconf
  obtain ⟨hcls, hrest⟩ := hconf
  refine ⟨⟨(configuration_inRange_iff _).mpr ⟨fun k => ?_, hrest⟩, himage, hcopy⟩, hbound⟩
  rw [State.cls, State.setClass, Table.get_set]
  split
  · exact hp
  · exact hcls k

theorem evalSetClass_inBounds (a : Table 8 Byte) {s : State} (h : s.InBounds) : (evalSetClass a s).1.InBounds := by
  unfold evalSetClass
  split
  · next c n _ _ =>
    dsimp only
    split
    · exact h
    · next hv =>
      split
      · exact h
      · refine setClass_inBounds h (writeParam_inRange n ?_ (wordOf_le _ _) fun hn => ?_)
        · exact ((configuration_inRange_iff s).mp h.1.1).1 c
        · exact Nat.not_lt.mp fun hlt => hv ⟨hn, hlt⟩
  · exact h

theorem writeThreshold_inBounds {s : State} {v : Nat} (h : s.InBounds) (hv : v ≤ 128) :
    (s.writeThreshold v).InBounds := by
  obtain ⟨⟨hconf, himage, hcopy⟩, hbound⟩ := h
  rw [configuration_inRange_iff] at hconf
  obtain ⟨hcls, hline, -⟩ := hconf
  refine ⟨⟨(configuration_inRange_iff _).mpr ⟨hcls, hline, ?_⟩, himage, hcopy⟩, hbound⟩
  show 1 ≤ max v 1 ∧ max v 1 ≤ 128
  omega

theorem evalSetThreshold_inBounds (a : Table 8 Byte) {s : State} (h : s.InBounds) :
    (evalSetThreshold a s).1.InBounds := by
  unfold evalSetThreshold
  split
  · split
    · exact h
    · split
      · exact h
      · next hv => exact writeThreshold_inBounds h (Nat.not_lt.mp hv)
  · exact h

theorem lineOfArgs_inRange {a : Table 8 Byte} {p : LineParams} (h : lineOfArgs a = some p) : LineInRange p := by
  unfold lineOfArgs at h
  split at h
  · obtain rfl := Option.some.inj h
    have := wordOf_le (argOf a 2) (argOf a 3)
    unfold LineInRange
    dsimp only
    omega
  · cases h

theorem setLink_inBounds {s : State} {l : Link} {x : LinkState} (h : s.InBounds) (hx : LineInRange x.line)
    (hf : x.fifo.length ≤ 64) : (s.setLink l x).InBounds := by
  obtain ⟨⟨hconf, himage, hcopy⟩, hfifo, hrun⟩ := h
  rw [configuration_inRange_iff] at hconf
  obtain ⟨hcls, hline, hthr⟩ := hconf
  refine ⟨⟨(configuration_inRange_iff _).mpr ⟨hcls, fun k => ?_, hthr⟩, himage, hcopy⟩, fun k => ?_, hrun⟩
  · rw [State.link, State.setLink, Table.get_set]
    split
    · exact hx
    · exact hline k
  · rw [State.link, State.setLink, Table.get_set]
    split
    · exact hf
    · exact hfifo k

/-- Line parameters stored keep the FIFO or empty it (R140). -/
theorem setLine_views (x : LinkState) (p : LineParams) (n : Nat) :
    (x.setLine p n).line = p ∧ (x.setLine p n).fifo.length ≤ x.fifo.length := by
  unfold LinkState.setLine
  split
  · exact ⟨rfl, le_refl _⟩
  · split
    · exact ⟨rfl, Nat.zero_le _⟩
    · exact ⟨rfl, le_refl _⟩

theorem evalSetLink_inBounds (n : Nat) (a : Table 8 Byte) {s : State} (h : s.InBounds) :
    (evalSetLink n a s).1.InBounds := by
  unfold evalSetLink
  split
  · next l p _ hp =>
    obtain ⟨hline, hfifo⟩ := setLine_views (s.link l) p n
    have ht : (s.setLink l ((s.link l).setLine p n)).InBounds :=
      setLink_inBounds h (by rw [hline]; exact lineOfArgs_inRange hp) (hfifo.trans (h.2.1 l))
    dsimp only [State.applyLine]
    split
    · exact (disableLink_confKept _ l n).inBounds ht
    · exact ht
  · exact h

/-! ### The image and the cold start -/

theorem cold_inRange : ClassInRange ClassParams.cold ∧ LineInRange LineParams.cold := by
  unfold ClassInRange LineInRange
  decide

/-- The part at its cold values is in bounds, under an image that is. -/
theorem cold_inBounds {image : Image} (pending : List Instr) (h : ConfigInRange image.contents) :
    (State.cold image pending).InBounds := by
  obtain ⟨hcls, hline⟩ := cold_inRange
  refine ⟨⟨(configuration_inRange_iff _).mpr ⟨fun k => ?_, fun l => ?_, ?_⟩, h, nofun⟩, fun l => ?_, Nat.zero_le _⟩
  · simpa [State.cls, State.cold] using hcls
  · simpa [State.link, State.cold, LinkState.cold] using hline
  · show 1 ≤ 112 ∧ 112 ≤ 128
    decide
  · simp [State.link, State.cold, LinkState.cold]

theorem judgeImage_inBounds {s : State} (h : s.InBounds) : s.judgeImage.InBounds := by
  obtain ⟨⟨hconf, himage, hcopy⟩, hfifo, hrun⟩ := h
  obtain ⟨hcls, hline, hthr⟩ := himage
  unfold State.judgeImage
  split
  · refine ⟨⟨(configuration_inRange_iff _).mpr ⟨hcls, fun l => ?_, hthr⟩, ⟨hcls, hline, hthr⟩, hcopy⟩,
      fun l => ?_, hrun⟩
    · simpa [State.loadImage, State.link] using hline l
    · simpa [State.loadImage, State.link] using hfifo l
  · exact ⟨⟨hconf, ⟨hcls, hline, hthr⟩, hcopy⟩, hfifo, hrun⟩

theorem takeCommand_inBounds {c : Byte} {g : Table 8 Byte → Bool}
    {ev : Table 8 Byte → State → State × CmdResult} {s : State} (h : s.InBounds)
    (hev : ∀ a, (ev a s.served).1.InBounds) : (takeCommand c g ev s).InBounds := by
  unfold takeCommand
  split
  · split
    · exact (complete_confKept _ _).inBounds (hev _)
    · exact h
  · exact h

theorem takeDirect_inBounds {c : Byte} {ev : Table 8 Byte → State → State × CmdResult} {s : State}
    (h : s.InBounds) (hev : ∀ a, (ev a s).1.InBounds) : (takeDirect c ev s).InBounds := by
  unfold takeDirect
  split
  · split
    · exact (complete_confKept _ _).inBounds (hev _)
    · exact h
  · exact h

/-! ### The commands -/

/-- Every command but a restart with a command finishing keeps the ranges and the bounds. -/
theorem exec_inBounds_of_not_finishing {c : Instr} {s t : State} (hc : ∀ b, c ≠ .wrstNLow b true) (h : s.InBounds)
    (he : exec c s = .next t) : t.InBounds := by
  by_cases hu : unconfiguringRow c = true
  · exact (exec_confKept hu he).inBounds h
  have hcold : ∀ pending, (State.cold s.image pending).InBounds := fun _ => cold_inBounds _ h.1.2.1
  cases c
  case setClass =>
    obtain rfl := Host.Outcome.next.inj he
    exact takeCommand_inBounds h fun a => evalSetClass_inBounds a (s := s.served) h
  case setThreshold =>
    obtain rfl := Host.Outcome.next.inj he
    exact takeCommand_inBounds h fun a => evalSetThreshold_inBounds a (s := s.served) h
  case setLink n =>
    obtain rfl := Host.Outcome.next.inj he
    exact takeDirect_inBounds h fun a => evalSetLink_inBounds n a h
  case store =>
    obtain rfl := Host.Outcome.next.inj he
    obtain ⟨⟨hconf, himage, hcopy⟩, hbound⟩ := h
    split
    · split
      · refine ⟨⟨hconf, himage, fun copy hp => ?_⟩, hbound⟩
        obtain rfl := MailboxPhase.storing.inj hp
        exact hconf
      · exact ⟨⟨hconf, himage, hcopy⟩, hbound⟩
    · exact ⟨⟨hconf, himage, hcopy⟩, hbound⟩
  case storeComplete =>
    obtain rfl := Host.Outcome.next.inj he
    obtain ⟨⟨hconf, himage, hcopy⟩, hbound⟩ := h
    split
    · next copy hp => exact ⟨⟨hconf, hcopy copy hp, nofun⟩, hbound⟩
    · exact ⟨⟨hconf, himage, hcopy⟩, hbound⟩
  case coldStart =>
    obtain rfl := Host.Outcome.next.inj he
    exact hcold _
  case leaveReset msel a1 a0 autoload =>
    obtain rfl := Host.Outcome.next.inj he
    split
    · obtain ⟨⟨hconf, himage, -⟩, hbound⟩ := hcold s.pending
      have ht : State.InBounds { State.cold s.image s.pending with
          port := { Port.cold with msel := msel, a1 := a1, a0 := a0 }
          autoload := autoload
          inReset := false } := ⟨⟨hconf, himage, nofun⟩, hbound⟩
      dsimp only
      split
      · exact judgeImage_inBounds ht
      · exact ht
    · exact h
  case wrstNLow b finishing =>
    cases finishing with
    | false => exact absurd rfl hu
    | true => exact absurd rfl (hc b)
  all_goals exact absurd rfl hu

theorem exec_inBounds {c : Instr} {s t : State} (h : s.InBounds) (he : exec c s = .next t) : t.InBounds := by
  by_cases hc : ∀ b, c ≠ .wrstNLow b true
  · exact exec_inBounds_of_not_finishing hc h he
  · push Not at hc
    obtain ⟨b, rfl⟩ := hc
    obtain rfl := Host.Outcome.next.inj he
    split
    · exact h
    · split
      · exact (setWrstN_confKept s false).inBounds h
      · refine (setWrstN_confKept (s.finishAndRestart b) false).inBounds ?_
        exact finishAndRestart_keeps (fun _ _ _ hc ht => exec_inBounds_of_not_finishing hc ht)
          (fun u => (beginRestart_confKept u b).inBounds) (fun u => (raiseCmd_confKept u _).inBounds) h

/-- Settles O59: what configures nothing keeps the configured values, and what writes one checks its range. -/
theorem stepKeepsRanges : Obligations.StepKeepsRanges := by
  intro s t hr hb hs
  rcases step_cases hs with rfl | ⟨c, rest, -, he⟩
  · exact ⟨hr, hb⟩
  · exact exec_inBounds (s := { s with pending := rest }) ⟨hr, hb⟩ he

end Sys2Proof.Machine
end

section
/-! PROOFS. The queries of the links, the zone and class commands of the mailbox, and the bad arguments and codes
(R9, R10, R12 to R16, R32, R92, R167). -/

namespace Sys2Proof.Machine

/-! ### The queries of the links (R16, R32) -/

/-- A request whose evaluation only answers is answered with nothing else changed. -/
theorem takeRequest_answered {l : Link} {f : List Byte} {s : State} {kind : Byte → Bool}
    {eval : List Byte → State → State × OutFrame} {r : OutFrame} (h : s.takesRequest l f)
    (hk : kind (frameByte f 0) = true) (he : eval f (s.takeSlot l) = (s.takeSlot l, r)) :
    takeRequest l kind eval s = s.answered s l r := by
  rw [takeRequest_of_takes h hk, he, takeSlot_placeReply]

/-- QUERY_LEASE of the link's own record is answered with the record. -/
theorem queryLease_own : QueryLeaseOutcome := by
  rintro l f s i r ⟨ht, hk, hlen, hn, ho⟩
  exact congrArg Host.Outcome.next <| takeRequest_answered (eval := evalQueryLease l) ht (by rw [hk]; rfl)
    (withHandle_own (s := s.takeSlot l) hlen hn ho)

/-- QUERY_ZONE is answered as its evaluation says. -/
theorem queryZone_answered {l : Link} {f : List Byte} {s : State} {r : OutFrame} (h : s.takesRequest l f)
    (hk : frameByte f 0 = 0x19) (he : evalQueryZone l f (s.takeSlot l) = (s.takeSlot l, r)) :
    exec (.queryZone l) s = .next (s.answered s l r) :=
  congrArg Host.Outcome.next <| takeRequest_answered h (by rw [hk]; rfl) he

/-- The evaluation of a QUERY_ZONE that names zone `z`. -/
theorem evalQueryZone_of_names {l : Link} {f : List Byte} {z : ZoneId} (s : State) (hlen : f.length = 2)
    (hz : (frameByte f 1).toNat = z.1) :
    evalQueryZone l f s = (s, ⟨[kindAccept, kindQueryZone, frameByte f 1, (s.zone z).state.code,
      byteOf (s.zone z).cls.1, flagByte (s.zone z).earmark.isSome] ++ s.holderRelation l z, none⟩) := by
  have hzone : zoneOf (frameByte f 1) = some z := belowOf_eq_some.mpr hz
  simp [evalQueryZone, hlen, hzone]

theorem holderRelation_none {s : State} {l : Link} {z : ZoneId} (h : (s.zone z).state.holder = none) :
    s.holderRelation l z = [0, 0xFF, 0] := by
  simp [State.holderRelation, h]

theorem holderRelation_own {s : State} {l : Link} {z : ZoneId} {k : SlotId} {r : Lease}
    (h : (s.zone z).state.holder = some k) (hr : s.lease k = some r) (ho : r.owner = l) :
    s.holderRelation l z = [1, slotByte k, s.generation k] := by
  simp [State.holderRelation, State.holderOwner, h, hr, ho]

theorem holderRelation_other {s : State} {l : Link} {z : ZoneId} {k : SlotId} {r : Lease}
    (h : (s.zone z).state.holder = some k) (hr : s.lease k = some r) (ho : r.owner ≠ l) :
    s.holderRelation l z = [2, 0xFF, 0] := by
  simp [State.holderRelation, State.holderOwner, h, hr, ho]

/-- 1 where an earmark stands and 0 where none does. -/
theorem flagByte_isSome {α : Type} [DecidableEq α] (x : Option α) :
    flagByte x.isSome = if x = none then 0 else 1 := by
  cases x <;> simp [flagByte]

theorem queryZone_outcome : QueryZoneOutcome := by
  intro l f s ht hk
  refine ⟨fun hlen => ?_, fun hlen hz => ?_, fun z hlen hz => ?_⟩
  · exact queryZone_answered ht hk (if_pos hlen)
  · have hnone : zoneOf (frameByte f 1) = none := belowOf_eq_none.mpr hz
    exact queryZone_answered ht hk (by simp [evalQueryZone, hlen, hnone, refuse, kindRefuse, kindQueryZone,
      RefuseCause.code])
  · have answer : ∀ bytes, s.holderRelation l z = bytes → exec (.queryZone l) s = .next (s.answered s l
        ⟨[0x20, 0x19, frameByte f 1, (s.zone z).state.code, byteOf (s.zone z).cls.1,
          if (s.zone z).earmark = none then 0 else 1] ++ bytes, none⟩) := by
      rintro bytes rfl
      rw [← flagByte_isSome]
      exact queryZone_answered ht hk (evalQueryZone_of_names (s.takeSlot l) hlen hz)
    exact ⟨fun h => answer _ (holderRelation_none h), fun h r hh hr =>
      ⟨fun ho => answer _ (holderRelation_own hh hr ho), fun ho => answer _ (holderRelation_other hh hr ho)⟩⟩

/-- Settles O16: both queries only answer. -/
theorem queryOutcomes : Obligations.QueryOutcomes := ⟨queryLease_own, queryZone_outcome⟩

/-! ### Effective limits (R10) -/

theorem smallest_le {l : List Nat} {n : Nat} (h : n ∈ l) : smallest l ≤ n := List.min?_getD_le_of_mem h

theorem smallest_mem {l : List Nat} (h : l ≠ []) : smallest l ∈ l := by
  unfold smallest
  cases hm : l.min? with
  | none => exact absurd (List.min?_eq_none_iff.mp hm) h
  | some n => exact List.min?_mem hm

/-- The smallest value of a parameter over some zones bounds each of them and is one of them. -/
theorem smallest_map {zs : List ZoneId} (h : zs ≠ []) (f : ZoneId → Nat) :
    (∀ z ∈ zs, smallest (zs.map f) ≤ f z) ∧ ∃ z ∈ zs, smallest (zs.map f) = f z := by
  refine ⟨fun z hz => smallest_le (List.mem_map_of_mem hz), ?_⟩
  obtain ⟨z, hz, he⟩ := List.mem_map.mp (smallest_mem (List.map_eq_nil_iff.not.mpr h) (l := zs.map f))
  exact ⟨z, hz, he.symm⟩

/-- The effective limits, parameter by parameter over the zones. -/
theorem limitsOf_eq (s : State) (zs : List ZoneId) :
    let c (z : ZoneId) := s.cls (s.zone z).cls
    s.limitsOf zs = ⟨smallest (zs.map fun z => (c z).maxDuration),
      ((zs.map fun z => (c z).warnLead).filter (· ≠ 0)).min?, smallest (zs.map fun z => (c z).yieldWindow),
      smallest (zs.map fun z => (c z).renewalLimit), smallest (zs.map fun z => (c z).maxWait)⟩ := by
  simp only [State.limitsOf, List.map_map]
  rfl

/-- There is no least warn lead above 0 when all are 0. -/
theorem warnLead_none_iff (zs : List ZoneId) (f : ZoneId → Nat) :
    ((zs.map f).filter (· ≠ 0)).min? = none ↔ ∀ z ∈ zs, f z = 0 := by
  rw [List.min?_eq_none_iff, List.filter_eq_nil_iff, List.forall_mem_map]
  simp

/-- The least warn lead above 0. -/
theorem warnLead_some {zs : List ZoneId} {f : ZoneId → Nat} {n : Nat}
    (h : ((zs.map f).filter (· ≠ 0)).min? = some n) :
    n ≠ 0 ∧ (∃ z ∈ zs, f z = n) ∧ ∀ z ∈ zs, f z ≠ 0 → n ≤ f z := by
  obtain ⟨hmem, hle⟩ := List.min?_eq_some_iff.mp h
  obtain ⟨hn, h0⟩ := List.mem_filter.mp hmem
  refine ⟨of_decide_eq_true h0, List.mem_map.mp hn, fun z hz hne => hle _ ?_⟩
  exact List.mem_filter.mpr ⟨List.mem_map_of_mem hz, decide_eq_true hne⟩

/-- Settles O17: each parameter is a least value over the zones listed. -/
theorem effectiveLimitsAreSmallest : Obligations.EffectiveLimitsAreSmallest := by
  intro s zs hzs
  rw [limitsOf_eq]
  exact ⟨smallest_map hzs _, smallest_map hzs _, smallest_map hzs _, smallest_map hzs _,
    warnLead_none_iff zs _, fun n hn => warnLead_some hn⟩

/-! ### Commands of the mailbox -/

/-- A command of the engines taken completes as its evaluation says. -/
theorem takeCommand_completed {s t : State} {code : Byte} {args : Table 8 Byte} {form : Table 8 Byte → Bool}
    {eval : Table 8 Byte → State → State × CmdResult} {r : CmdResult} (h : s.takesCommand code args)
    (hf : form args = true) (he : eval args s.served = (t, r)) :
    takeCommand code form eval s = t.completed r.code r.bytes := by
  rw [takeCommand_of_takes h hf, he]

theorem takeDirect_completed {s t : State} {code : Byte} {args : Table 8 Byte}
    {eval : Table 8 Byte → State → State × CmdResult} {r : CmdResult} (h : s.takesDirect code args)
    (he : eval args s = (t, r)) : takeDirect code eval s = t.completed r.code r.bytes := by
  rw [takeDirect_of_takes h, he]

/-! ### READ_ZONE and SET_ZONE (R12, R13) -/

theorem zoneResults_eq (s : State) (z : ZoneId) : s.zoneResults z = zoneRecord s z := rfl

theorem evalReadZone_of_names {args : Table 8 Byte} {z : ZoneId} (s : State)
    (hz : (argOf args 0).toNat = z.1) : evalReadZone args s = (s, .ok (zoneRecord s z)) := by
  have hzone : zoneOf (argOf args 0) = some z := belowOf_eq_some.mpr hz
  simp only [evalReadZone, hzone, zoneResults_eq]

/-- R12's test of use. -/
theorem zoneInUse_iff (s : State) (z : ZoneId) : s.zoneInUse z = true ↔
    ((s.zone z).state ≠ .free ∧ (s.zone z).state ≠ .disabled) ∨
      ∃ i r, s.lease i = some r ∧ r.phase.live = true ∧ z ∈ r.zones := by
  unfold State.zoneInUse
  rw [Bool.or_eq_true, anyLease_eq_true]
  simp only [Bool.and_eq_true, List.contains_iff_mem]
  refine or_congr ?_ Iff.rfl
  cases (s.zone z).state <;> simp

/-- SET_ZONE of a zone with an enable and a class that are in range. -/
theorem evalSetZone_of_names {args : Table 8 Byte} {z : ZoneId} {e : Fin 2} {c : ClassId} (s : State)
    (hz : (argOf args 0).toNat = z.1) (he : (argOf args 1).toNat = e.1) (hc : (argOf args 2).toNat = c.1) :
    evalSetZone args s =
      if s.zoneInUse z then (s, .fail .inUse)
      else
        let t := s.setZone z ⟨if e = 1 then .free else .disabled, c, (s.zone z).earmark⟩
        (t, .ok (zoneRecord t z)) := by
  have hzone : zoneOf (argOf args 0) = some z := belowOf_eq_some.mpr hz
  have henable : belowOf 2 (argOf args 1) = some e := belowOf_eq_some.mpr he
  have hclass : classOf (argOf args 2) = some c := belowOf_eq_some.mpr hc
  simp only [evalSetZone, hzone, henable, hclass, zoneResults_eq]

/-- Settles O31: both commands by their evaluation. -/
theorem zoneCommandOutcomes : Obligations.ZoneCommandOutcomes := by
  intro s args z hz
  refine ⟨fun ht => ?_, fun c hc he ht => ?_⟩
  · exact congrArg Host.Outcome.next (takeCommand_completed ht rfl (evalReadZone_of_names s.served hz))
  · obtain ⟨e, hen, hen1⟩ : ∃ e : Fin 2, (argOf args 1).toNat = e.1 ∧ (e = 1 ↔ argOf args 1 = 1) := by
      rcases he with he | he <;> rw [he]
      · exact ⟨0, rfl, by decide⟩
      · exact ⟨1, rfl, by decide⟩
    have heval := evalSetZone_of_names s.served hz hen hc
    simp only [hen1] at heval
    refine ⟨fun hu => ?_, fun hu => ?_⟩
    · rw [if_pos ((zoneInUse_iff s.served z).mpr hu)] at heval
      exact congrArg Host.Outcome.next (takeCommand_completed ht rfl heval)
    · rw [if_neg fun h => hu ((zoneInUse_iff s.served z).mp h)] at heval
      exact congrArg Host.Outcome.next (takeCommand_completed ht rfl heval)

/-! ### READ_CLASS, SET_CLASS and CLASS_LOAD (R9, R14, R15, R92) -/

theorem evalReadClass_of_names {args : Table 8 Byte} {c : ClassId} {part : Fin 2} (s : State)
    (hc : (argOf args 0).toNat = c.1) (hp : (argOf args 1).toNat = part.1) :
    evalReadClass args s = (s, .ok (s.classResults c part)) := by
  have hclass : classOf (argOf args 0) = some c := belowOf_eq_some.mpr hc
  have hpart : belowOf 2 (argOf args 1) = some part := belowOf_eq_some.mpr hp
  simp only [evalReadClass, hclass, hpart]

theorem readClass_outcome : ReadClassOutcome := by
  intro s args c hc ht
  have read : ∀ part : Fin 2, (argOf args 1).toNat = part.1 →
      exec .readClass s = .next (s.served.completed .ok (s.served.classResults c part)) := fun part hp =>
    congrArg Host.Outcome.next (takeCommand_completed ht rfl (evalReadClass_of_names s.served hc hp))
  exact ⟨fun h => read 0 (by rw [h]; rfl), fun h => read 1 (by rw [h]; rfl)⟩

/-- A record lists a zone of the class. -/
theorem anyLease_touches_iff (s : State) (c : ClassId) : s.anyLease (s.touches c) = true ↔
    ∃ i r z, s.lease i = some r ∧ z ∈ r.zones ∧ (s.zone z).cls = c := by
  rw [anyLease_eq_true]
  simp only [State.touches, List.any_eq_true, beq_iff_eq, exists_and_left]

/-- SET_CLASS of a class and a parameter, with a value that its rule allows. -/
theorem evalSetClass_of_names {args : Table 8 Byte} {c : ClassId} {n : Fin 5} (s : State)
    (hc : (argOf args 0).toNat = c.1) (hn : (argOf args 1).toNat = n.1)
    (hv : n = 3 → wordOf (argOf args 2) (argOf args 3) ≤ 255) :
    evalSetClass args s =
      if s.anyLease (s.touches c) then (s, .fail .inUse)
      else
        let p := writeParam (s.cls c) n (wordOf (argOf args 2) (argOf args 3))
        (s.setClass c p, .ok (twoBytes (readParam p n) ++ twoBytes p.warnLead ++ [argOf args 1, argOf args 0])) := by
  have hclass : classOf (argOf args 0) = some c := belowOf_eq_some.mpr hc
  have hparam : belowOf 5 (argOf args 1) = some n := belowOf_eq_some.mpr hn
  have hok : ¬(n = 3 ∧ 255 < wordOf (argOf args 2) (argOf args 3)) := fun h => absurd (hv h.1) (Nat.not_le.mpr h.2)
  simp only [evalSetClass, hclass, hparam, hok, if_false]

/-- R9: the parameter written, the others as they were, and then the warn lead. -/
theorem writeParam_eq (p : ClassParams) (n : Fin 5) (v : Nat) :
    let maxDuration := if n = 0 then max v 1 else p.maxDuration
    let lead := if n = 1 then v else p.warnLead
    writeParam p n v = ⟨maxDuration, if maxDuration ≤ lead then maxDuration - 1 else lead,
      if n = 2 then max v 1 else p.yieldWindow, if n = 3 then v else p.renewalLimit,
      if n = 4 then v else p.maxWait⟩ := by
  fin_cases n <;> rfl

/-- Settles O32: a class in use is refused, and the parameter is written with its adjustments otherwise. -/
theorem setClassOutcome : Obligations.SetClassOutcome := by
  intro s args c n hc hn ht v used old maxDuration lead p stored hv
  have heval := evalSetClass_of_names s.served hc hn hv
  have hp : writeParam (s.served.cls c) n (wordOf (argOf args 2) (argOf args 3)) = p :=
    writeParam_eq (s.cls c) n v
  simp only [hp] at heval
  refine ⟨fun hu => ?_, fun hu => ?_⟩
  · rw [if_pos ((anyLease_touches_iff s.served c).mpr hu)] at heval
    exact congrArg Host.Outcome.next (takeCommand_completed ht rfl heval)
  · rw [if_neg fun h => hu ((anyLease_touches_iff s.served c).mp h)] at heval
    exact congrArg Host.Outcome.next (takeCommand_completed ht rfl heval)

/-- A sum formed with saturation at `m` is the sum, saturated. -/
theorem foldl_saturating {α : Type} {m : Nat} {g : Nat → α → Nat} {f : α → Nat}
    (hg : ∀ n x, n ≤ m → g n x = min m (n + f x)) (xs : List α) {n : Nat} (hn : n ≤ m) :
    xs.foldl g n = min m (n + (xs.map f).sum) := by
  induction xs generalizing n with
  | nil => simp [hn]
  | cons x xs ih =>
    rw [List.foldl_cons, hg n x hn, ih (Nat.min_le_left _ _), List.map_cons, List.sum_cons]
    omega

theorem classTicks_eq (s : State) (c : ClassId) :
    s.classTicks c = min 65535 ((List.finRange 128).map fun i =>
      match s.lease i with
      | some r => if r.phase.holds && s.touches c r then r.phase.countdown else 0
      | none => 0).sum := by
  have hfold := foldl_saturating (m := 65535)
    (g := fun n (x : Slot) => match x.lease with
      | some r => if r.phase.holds && s.touches c r then min 65535 (n + r.phase.countdown) else n
      | none => n)
    (f := fun x => match x.lease with
      | some r => if r.phase.holds && s.touches c r then r.phase.countdown else 0
      | none => 0)
    (fun n x hn => by
      split
      · split <;> omega
      · omega) s.slots.list (Nat.zero_le _)
  rw [Nat.zero_add, s.slots.list_eq_map, List.map_map] at hfold
  unfold State.classTicks
  rw [s.slots.list_eq_map]
  exact hfold

theorem evalClassLoad_of_names {args : Table 8 Byte} {c : ClassId} (s : State)
    (hc : (argOf args 0).toNat = c.1) : evalClassLoad args s = (s, .ok (s.loadResults c)) := by
  have hclass : classOf (argOf args 0) = some c := belowOf_eq_some.mpr hc
  simp only [evalClassLoad, hclass]

theorem classLoad_outcome : ClassLoadOutcome := by
  intro s args c hc ht lists zones sum
  have hsum : s.served.classTicks c = sum := classTicks_eq s c
  have heval := evalClassLoad_of_names s.served hc
  rw [State.loadResults, hsum] at heval
  exact congrArg Host.Outcome.next (takeCommand_completed ht rfl heval)

/-- Settles O36: both reports by their evaluation. -/
theorem classReports : Obligations.ClassReports := ⟨readClass_outcome, classLoad_outcome⟩

/-! ### Bad arguments and unknown codes (R167) -/

theorem lt_of_belowOf {n : Nat} {b : Byte} {k : Fin n} (h : belowOf n b = some k) : b.toNat < n := by
  rw [belowOf_eq_some.mp h]
  exact k.2

theorem lt_of_parityOf {b : Byte} {p : Parity} (h : parityOf b = some p) : b.toNat < 5 := by
  unfold parityOf at h
  by_contra hb
  have hne : ∀ k : Byte, k.toNat < 5 → b ≠ k := by
    rintro k hk rfl
    exact hb hk
  simp [hne] at h

theorem eq_of_stopBitsOf {b : Byte} {p : StopBits} (h : stopBitsOf b = some p) : b.toNat = 1 ∨ b.toNat = 2 := by
  unfold stopBitsOf at h
  split at h
  · next hb => exact .inl (by rw [hb]; rfl)
  · split at h
    · next hb => exact .inr (by rw [hb]; rfl)
    · cases h

section
variable {a : Table 8 Byte} (s : State)

theorem evalReadZone_bad (h : 64 ≤ (argOf a 0).toNat) : evalReadZone a s = (s, .fail .badArgument) := by
  unfold evalReadZone
  split
  · next z hz =>
    have := lt_of_belowOf hz
    omega
  · rfl

theorem evalSetZone_bad (h : 64 ≤ (argOf a 0).toNat ∨ 2 ≤ (argOf a 1).toNat ∨ 8 ≤ (argOf a 2).toNat) :
    evalSetZone a s = (s, .fail .badArgument) := by
  unfold evalSetZone
  split
  · next z e c hz he hc =>
    have := lt_of_belowOf hz
    have := lt_of_belowOf he
    have := lt_of_belowOf hc
    omega
  · rfl

theorem evalReadClass_bad (h : 8 ≤ (argOf a 0).toNat ∨ 2 ≤ (argOf a 1).toNat) :
    evalReadClass a s = (s, .fail .badArgument) := by
  unfold evalReadClass
  split
  · next c p hc hp =>
    have := lt_of_belowOf hc
    have := lt_of_belowOf hp
    omega
  · rfl

theorem evalSetClass_bad (h : 8 ≤ (argOf a 0).toNat ∨ 5 ≤ (argOf a 1).toNat ∨
    ((argOf a 1).toNat = 3 ∧ 255 < (argOf a 2).toNat * 256 + (argOf a 3).toNat)) :
    evalSetClass a s = (s, .fail .badArgument) := by
  unfold evalSetClass
  split
  · next c n hc hn =>
    have := lt_of_belowOf hc
    have := lt_of_belowOf hn
    have hn' := belowOf_eq_some.mp hn
    refine if_pos ⟨Fin.ext ?_, ?_⟩
    · show n.1 = 3
      omega
    · unfold wordOf
      omega
  · rfl

theorem evalReadLease_bad (h : 128 ≤ (argOf a 0).toNat ∨ 5 ≤ (argOf a 1).toNat) :
    evalReadLease a s = (s, .fail .badArgument) := by
  unfold evalReadLease
  split
  · next i p hi hp =>
    have := lt_of_belowOf hi
    have := lt_of_belowOf hp
    omega
  · rfl

theorem evalSetThreshold_bad (h : 2 ≤ (argOf a 1).toNat ∨ ((argOf a 1).toNat = 1 ∧ 128 < (argOf a 0).toNat)) :
    evalSetThreshold a s = (s, .fail .badArgument) := by
  unfold evalSetThreshold
  split
  · next k hk =>
    have := lt_of_belowOf hk
    have hk' := belowOf_eq_some.mp hk
    rw [if_neg, if_pos]
    · omega
    · rintro rfl
      rw [hk'] at h
      simp at h
  · rfl

theorem evalReadList_bad (h : 32 ≤ (argOf a 0).toNat) : evalReadList a s = (s, .fail .badArgument) := by
  unfold evalReadList
  split
  · next p hp =>
    have := lt_of_belowOf hp
    omega
  · rfl

theorem evalClassLoad_bad (h : 8 ≤ (argOf a 0).toNat) : evalClassLoad a s = (s, .fail .badArgument) := by
  unfold evalClassLoad
  split
  · next c hc =>
    have := lt_of_belowOf hc
    omega
  · rfl

theorem evalFenceWait_bad (h : 64 ≤ (argOf a 0).toNat ∨ 2 ≤ (argOf a 1).toNat) :
    evalFenceWait a s = (s, .fail .badArgument) := by
  unfold evalFenceWait
  split
  · next z k hz hk =>
    have := lt_of_belowOf hz
    have := lt_of_belowOf hk
    omega
  · rfl

theorem evalFenceForce_bad (h : 64 ≤ (argOf a 0).toNat ∨ 2 ≤ (argOf a 1).toNat) :
    evalFenceForce a s = (s, .fail .badArgument) := by
  unfold evalFenceForce
  split
  · next z k hz hk =>
    have := lt_of_belowOf hz
    have := lt_of_belowOf hk
    omega
  · rfl

theorem evalLift_bad (h : 64 ≤ (argOf a 0).toNat) : evalLift a s = (s, .fail .badArgument) := by
  unfold evalLift
  split
  · next z hz =>
    have := lt_of_belowOf hz
    omega
  · rfl

theorem evalReadLink_bad (h : 4 ≤ (argOf a 0).toNat ∨ 2 ≤ (argOf a 1).toNat) :
    evalReadLink a s = (s, .fail .badArgument) := by
  unfold evalReadLink
  split
  · next l p hl hp =>
    have := lt_of_belowOf hl
    have := lt_of_belowOf hp
    omega
  · rfl

theorem lineOfArgs_bad (h : 2 ≤ (argOf a 1).toNat ∨ 16 ≤ (argOf a 4).toNat ∨ 5 ≤ (argOf a 5).toNat ∨
    ((argOf a 6).toNat ≠ 1 ∧ (argOf a 6).toNat ≠ 2)) : lineOfArgs a = none := by
  unfold lineOfArgs
  split
  · next e f p b he hf hp hb =>
    have := lt_of_belowOf he
    have := lt_of_belowOf hf
    have := lt_of_parityOf hp
    have := eq_of_stopBitsOf hb
    omega
  · rfl

theorem evalSetLink_bad (n : Nat) (h : 4 ≤ (argOf a 0).toNat ∨ 2 ≤ (argOf a 1).toNat ∨ 16 ≤ (argOf a 4).toNat ∨
    5 ≤ (argOf a 5).toNat ∨ ((argOf a 6).toNat ≠ 1 ∧ (argOf a 6).toNat ≠ 2)) :
    evalSetLink n a s = (s, .fail .badArgument) := by
  unfold evalSetLink
  split
  · next l p hl hp =>
    have := lt_of_belowOf hl
    rw [lineOfArgs_bad (by omega)] at hp
    cases hp
  · rfl

theorem evalLinkReset_bad (n : Nat) (h : 4 ≤ (argOf a 0).toNat) :
    evalLinkReset n a s = (s, .fail .badArgument) := by
  unfold evalLinkReset
  split
  · next l hl =>
    have := lt_of_belowOf hl
    omega
  · rfl

end

/-- Each command with a bad argument, by its evaluation. -/
theorem badArguments_refused : BadArgumentsRefused := by
  intro s args a engine direct
  have refused : ∀ {code : Byte} {form : Table 8 Byte → Bool} {eval : Table 8 Byte → State → State × CmdResult},
      s.takesCommand code args → form args = true → eval args s.served = (s.served, .fail .badArgument) →
        Host.Outcome.next (takeCommand code form eval s) =
          (.next (s.served.completed .badArgument []) : Host.Outcome State Fault Refusal) :=
    fun ht hf he => congrArg Host.Outcome.next (takeCommand_completed ht hf he)
  have refusedDirect : ∀ {code : Byte} {eval : Table 8 Byte → State → State × CmdResult},
      s.takesDirect code args → eval args s = (s, .fail .badArgument) →
        Host.Outcome.next (takeDirect code eval s) =
          (.next (s.completed .badArgument []) : Host.Outcome State Fault Refusal) :=
    fun ht he => congrArg Host.Outcome.next (takeDirect_completed ht he)
  have form : ∀ k : Byte, a 1 ≠ k.toNat → (argOf args 1 != k) = true := fun k hk =>
    bne_iff_ne.mpr fun h => hk (congrArg BitVec.toNat h)
  refine ⟨fun ht h => refused ht rfl (evalReadZone_bad _ h), fun ht h => refused ht rfl (evalSetZone_bad _ h),
    fun ht h => refused ht rfl (evalReadClass_bad _ h), fun ht h => refused ht rfl (evalSetClass_bad _ h),
    fun ht h => refused ht rfl (evalReadLease_bad _ h), fun ht h => refused ht rfl (evalSetThreshold_bad _ h),
    fun ht h => refused ht rfl (evalReadList_bad _ h), fun ht h => refused ht rfl (evalClassLoad_bad _ h),
    fun ht h => refused ht (form 1 ?_) (evalFenceWait_bad _ (h.imp_left And.left)),
    fun ht h => refused ht (form 0 ?_) (evalFenceForce_bad _ (h.imp_left And.left)),
    fun ht h => refused ht rfl (evalLift_bad _ h), fun ht h => refusedDirect ht (evalReadLink_bad _ h),
    fun n => ⟨fun ht h => refusedDirect ht (evalSetLink_bad _ n h),
      fun ht h => refusedDirect ht (evalLinkReset_bad _ n h)⟩⟩
  · show a 1 ≠ 1
    omega
  · show a 1 ≠ 0
    omega

/-- A code that is none of Table 11-5 is no command. -/
theorem isCommandCode_false {code : Byte}
    (h : code ∉ [0x01, 0x02, 0x03, 0x04, 0x05, 0x06, 0x07, 0x08, 0x09, 0x0A, 0x0B, 0x0C, 0x10, 0x11, 0x12,
      0x13, 0x20, 0x21]) : isCommandCode code = false := by
  simp only [List.mem_cons, List.not_mem_nil, or_false, not_or] at h
  simp only [isCommandCode, isEngineCode, Bool.or_eq_false_iff, Bool.and_eq_false_iff, decide_eq_false_iff_not,
    beq_eq_false_iff_ne, codeSetTimebase, codeReadLink, codeSetLink, codeLinkReset, codeStore, codeWarmRestart]
  bv_omega

theorem badCommand_outcome : BadCommandOutcome := by
  rintro s args code ⟨hp, rfl, hreset, hrestart⟩ hcode
  simp only [exec, execBadCommand, hp, hreset, hrestart, isCommandCode_false hcode]
  rfl

/-- Settles O43: bad arguments by each command's evaluation, unknown codes by R167's own step. -/
theorem badCommandsRefused : Obligations.BadCommandsRefused := ⟨badArguments_refused, badCommand_outcome⟩

/-! ### The cold start -/

/-- Settles O3: every block's cold value, read from the state held in reset. -/
theorem coldValues : Obligations.ColdValues := by
  intro s
  refine ⟨.cold s.image s.pending, rfl, Table.get_fill _, Table.get_fill _, Table.get_fill _, rfl, rfl, rfl, rfl, rfl,
    rfl, rfl, rfl, rfl, rfl, rfl, fun l => ?_, Table.get_fill _, rfl, rfl, rfl, rfl, rfl, Table.get_fill _, rfl, rfl,
    Table.get_fill _, rfl, rfl, rfl, rfl, rfl, rfl, rfl⟩
  rw [show (State.cold s.image s.pending).link l = .cold from Table.get_fill _ l]
  exact ⟨rfl, rfl, rfl, rfl, rfl, rfl, rfl, rfl⟩

end Sys2Proof.Machine
end

section
/-! PROOFS. The laws of the records that every step keeps (R6, R10, R19, R23, R25, R58, R64, R81). -/

namespace Sys2Proof.Machine

/-! ### The restart with a command finishing -/

/-- The commands of the mailbox but STORE and WARM_RESTART, and STORE's completion: those that can finish with the
beginning of a warm restart (R169, R173). -/
def finishableRow : Instr → Bool
  | .readZone | .setZone | .readClass | .setClass | .readLease | .setThreshold | .readList | .nextExpiry | .classLoad
  | .fenceWait | .fenceForce | .lift | .revoke | .setTimebase _ | .readLink | .setLink _ | .linkReset _
  | .storeComplete | .badCommand => true
  | _ => false

theorem completions_finishable {n : Nat} {f : State → Host.Outcome State Fault Refusal} (hf : f ∈ completions n) :
    ∃ c, finishableRow c = true ∧ f = exec c := by
  rw [completions_exec, List.mem_map] at hf
  obtain ⟨c, hc, rfl⟩ := hf
  refine ⟨c, ?_, rfl⟩
  revert c
  simp [finishableRow]

/-- A property that the commands which can finish keep, and the beginning of a restart, the restart with a command
finishing keeps. -/
theorem wrstNLow_finishing_keeps {p : State → Prop} {b : Table 4 Nat} {s t : State}
    (hc : ∀ c u v, finishableRow c = true → p u → exec c u = .next v → p v)
    (hb : ∀ u : State, p u → p (u.beginRestart b)) (hr : ∀ u : State, p u → p (u.raiseCmd flagDone))
    (hw : ∀ u : State, p u → p { u with wrstN := false }) (h : p s) (he : exec (.wrstNLow b true) s = .next t) :
    p t := by
  have hfinish : p (s.finishCommand b) := finishCommand_keeps (fun u v hu f hf hv => by
    obtain ⟨c, hrow, rfl⟩ := completions_finishable hf
    exact hc c u v hrow hu hv) h
  have hrestart : p (s.finishAndRestart b) := by
    unfold State.finishAndRestart
    dsimp only
    split
    · exact hr _ (hb _ hfinish)
    · exact hb _ h
  obtain rfl := Host.Outcome.next.inj he
  split
  · exact h
  · split
    · exact hw s h
    · exact hw _ hrestart

/-! ### Zones of the records (R19) -/

theorem zonesLaw_invariant : TableInvariant State.ZonesLaw where
  congr h hz hs _ := h.congr hz hs
  empty _ hl _ := fun i r hr => by
    rw [hl i] at hr
    cases hr
  acquire l f _ := evalAcquire_zonesLaw l f
  renew l f _ := evalRenew_zonesLaw l f
  release l f _ := evalRelease_zonesLaw l f
  widen l f _ := evalWiden_zonesLaw l f
  narrow l f _ := evalNarrow_zonesLaw l f
  park l f _ := evalPark_zonesLaw l f
  setZone a _ := evalSetZone_zonesLaw a
  fenceWait a _ := evalFenceWait_zonesLaw a
  fenceForce a _ := evalFenceForce_zonesLaw a
  lift a _ := evalLift_zonesLaw a
  revoke a _ := evalRevoke_zonesLaw a
  grantScan := grantScan_zonesLaw
  takeTick := takeTick_zonesLaw
  lapseAt i _ := lapseAt_zonesLaw i
  expireAt i _ := expireAt_zonesLaw i
  revokeLateAt i _ := revokeLateAt_zonesLaw i
  clientRestart l _ := clientRestart_zonesLaw l
  disableLink l n _ := disableLink_zonesLaw l n
  applyFrame f _ := applyFrame_zonesLaw f
  beginRestart b _ := beginRestart_zonesLaw b
  endRestart := endRestart_zonesLaw

/-! ### Terminal records and their links (R25) -/

section
variable {s t : State}

/-- The records and the links stay. -/
theorem State.TerminalLaw.same (h : s.TerminalLaw) (hl : t.links = s.links) (hs : t.slots = s.slots) :
    t.TerminalLaw :=
  h.congr (fun l => by rw [State.link, hl, State.link]) hs

theorem State.TerminalLaw.clockOnly (h : s.TerminalLaw) (ht : s.clockOnly t) : t.TerminalLaw :=
  have ⟨_, hs, _, _, _, _, _, _, hl, _⟩ := ht.fields
  h.same hl hs

theorem State.TerminalLaw.trafficOnly (h : s.TerminalLaw) (ht : s.trafficOnly t) : t.TerminalLaw :=
  h.congr (fun l => by rw [ht.2]) ht.fields.2.1

theorem State.TerminalLaw.portEvents (h : s.TerminalLaw) (es : List PortEvent) : (s.portEvents es).TerminalLaw :=
  have ⟨_, hs, _, _, _, _, _, _, _, hl, _⟩ := (portEvents_portOnly s es).fields
  h.same hl hs

theorem State.TerminalLaw.setLink (h : s.TerminalLaw) (l : Link) {x : LinkState} (hx : x.line = (s.link l).line) :
    (s.setLink l x).TerminalLaw := h.trafficOnly (setLink_trafficOnly s l x hx)

theorem takeRequest_terminalLaw {l : Link} {k : Byte → Bool} {ev : List Byte → State → State × OutFrame}
    (hev : ∀ f u, State.TerminalLaw u → State.TerminalLaw (ev f u).1) (h : s.TerminalLaw) :
    (takeRequest l k ev s).TerminalLaw := by
  have htaken : (s.takeSlot l).TerminalLaw :=
    (h.setLink l (x := { s.link l with requestSlot := none }) rfl).same rfl rfl
  unfold takeRequest
  split
  · split
    · exact (hev _ _ htaken).setLink l rfl
    · exact h
  · exact h

theorem takeCommand_terminalLaw {c : Byte} {g : Table 8 Byte → Bool}
    {ev : Table 8 Byte → State → State × CmdResult} (hev : ∀ a u, State.TerminalLaw u → State.TerminalLaw (ev a u).1)
    (h : s.TerminalLaw) : (takeCommand c g ev s).TerminalLaw := by
  unfold takeCommand
  split
  · split
    · exact (hev _ s.served (h.same rfl rfl)).same rfl rfl
    · exact h
  · exact h

theorem takeDirect_terminalLaw {c : Byte} {ev : Table 8 Byte → State → State × CmdResult}
    (hev : ∀ a u, State.TerminalLaw u → State.TerminalLaw (ev a u).1) (h : s.TerminalLaw) :
    (takeDirect c ev s).TerminalLaw := by
  unfold takeDirect
  split
  · split
    · exact (hev _ _ h).same rfl rfl
    · exact h
  · exact h

theorem evalSetTimebase_terminalLaw (e : Nat) (a : Table 8 Byte) (h : s.TerminalLaw) :
    (evalSetTimebase a (s.passTo (s.clock.now + e))).1.TerminalLaw := by
  have hp := h.clockOnly (passTo_clockOnly s (s.clock.now + e))
  unfold evalSetTimebase
  repeat' split
  · exact hp
  · exact hp
  · exact hp.clockOnly (chooseMode_clockOnly _ _)

/-- The disable of a link by itself keeps R25. -/
theorem disableLink_of_terminalLaw (l : Link) (n : Nat) (h : s.TerminalLaw) : (s.disableLink l n).TerminalLaw :=
  disableLink_terminalLaw l n fun i r hr ht _ => h i r hr ht

theorem takeBreak_terminalLaw (l : Link) (rest : List FifoEntry) (h : s.TerminalLaw) :
    (s.takeBreak l rest).TerminalLaw :=
  clientRestart_terminalLaw l
    ((h.setLink l (x := { s.link l with fifo := rest, decoder := .hunt }) rfl).same rfl rfl)

/-- A part without records. -/
theorem terminalLaw_of_empty (hl : s.slots = .fill 128 .cold) : s.TerminalLaw := by
  intro i r hr
  simp only [State.lease, State.slot, hl, Table.get_fill, Slot.cold] at hr
  cases hr

theorem judgeImage_slots (s : State) : s.judgeImage.slots = s.slots := by
  unfold State.judgeImage
  split <;> rfl

theorem releaseHold_line (x : LinkState) : x.releaseHold.line = x.line := by
  unfold LinkState.releaseHold
  split <;> rfl

/-- Every command but a restart with a command finishing keeps R25. -/
theorem exec_terminalLaw {c : Instr} (hc : ∀ b, c ≠ .wrstNLow b true) (h : s.TerminalLaw)
    (he : exec c s = .next t) : t.TerminalLaw := by
  have same : ∀ {u : State}, u.links = s.links → u.slots = s.slots → u.TerminalLaw := h.same
  have reads : ∀ {ev : Table 8 Byte → State → State × CmdResult}, (∀ a u, (ev a u).1 = u) →
      ∀ a u, State.TerminalLaw u → State.TerminalLaw (ev a u).1 := fun hev a u hu => (hev a u).symm ▸ hu
  cases c
  all_goals obtain rfl := Host.Outcome.next.inj he
  case acquire l => exact takeRequest_terminalLaw (fun f _ => evalAcquire_terminalLaw l f) h
  case renew l => exact takeRequest_terminalLaw (fun f _ => evalRenew_terminalLaw l f) h
  case release l => exact takeRequest_terminalLaw (fun f _ => evalRelease_terminalLaw l f) h
  case widen l => exact takeRequest_terminalLaw (fun f _ => evalWiden_terminalLaw l f) h
  case narrow l => exact takeRequest_terminalLaw (fun f _ => evalNarrow_terminalLaw l f) h
  case park l => exact takeRequest_terminalLaw (fun f _ => evalPark_terminalLaw l f) h
  case queryLease l => exact takeRequest_terminalLaw (fun f u hu => (evalQueryLease_same l f u).symm ▸ hu) h
  case queryZone l => exact takeRequest_terminalLaw (fun f u hu => (evalQueryZone_same l f u).symm ▸ hu) h
  case badKind l => exact takeRequest_terminalLaw (fun _ _ hu => hu) h
  case readZone => exact takeCommand_terminalLaw (reads evalReadZone_same) h
  case readClass => exact takeCommand_terminalLaw (reads evalReadClass_same) h
  case readLease => exact takeCommand_terminalLaw (reads evalReadLease_same) h
  case readList => exact takeCommand_terminalLaw (reads evalReadList_same) h
  case classLoad => exact takeCommand_terminalLaw (reads evalClassLoad_same) h
  case nextExpiry => exact takeCommand_terminalLaw (fun _ _ hu => hu) h
  case readLink => exact takeDirect_terminalLaw (reads evalReadLink_same) h
  case setZone =>
    refine takeCommand_terminalLaw (fun a u hu => ?_) h
    unfold evalSetZone
    repeat' split
    all_goals exact hu.same rfl rfl
  case setClass =>
    refine takeCommand_terminalLaw (fun a u hu => ?_) h
    unfold evalSetClass
    dsimp only
    repeat' split
    all_goals exact hu.same rfl rfl
  case setThreshold =>
    refine takeCommand_terminalLaw (fun a u hu => ?_) h
    unfold evalSetThreshold
    repeat' split
    all_goals exact hu.same rfl rfl
  case fenceWait => exact takeCommand_terminalLaw (fun a _ => evalFenceWait_terminalLaw a) h
  case fenceForce => exact takeCommand_terminalLaw (fun a _ => evalFenceForce_terminalLaw a) h
  case lift => exact takeCommand_terminalLaw (fun a _ => evalLift_terminalLaw a) h
  case revoke => exact takeCommand_terminalLaw (fun a _ => evalRevoke_terminalLaw a) h
  case setTimebase e => exact takeDirect_terminalLaw (fun a _ => evalSetTimebase_terminalLaw e a) h
  case setLink n =>
    refine takeDirect_terminalLaw (fun a u hu => ?_) h
    unfold evalSetLink
    split
    · exact applyLine_terminalLaw _ _ _ hu
    · exact hu
  case linkReset n =>
    refine takeDirect_terminalLaw (fun a u hu => ?_) h
    unfold evalLinkReset
    split
    · exact hu.setLink _ rfl
    · exact hu
  case warmRestart b =>
    split
    · split
      · exact beginRestart_terminalLaw b (same rfl rfl)
      · exact h
    · exact h
  case wrstNLow b finishing =>
    cases finishing with
    | true => exact absurd rfl (hc b)
    | false =>
      split
      · exact h
      · split
        · exact same rfl rfl
        · exact beginRestart_terminalLaw b (same rfl rfl)
  case restartEnd b =>
    split
    · split
      · exact endRestart_terminalLaw h
      · exact same rfl rfl
    · exact h
  case coldStart => exact terminalLaw_of_empty rfl
  case leaveReset =>
    split
    · dsimp only
      split
      · exact terminalLaw_of_empty (judgeImage_slots _)
      · exact terminalLaw_of_empty rfl
    · exact h
  case syncinPulse e =>
    split
    · exact h
    · exact h.clockOnly ((passTo_clockOnly _ _).trans (pulseAt_clockOnly _ _))
  case lockRunTimeout | syncinLoss | internalTick | searchTimeout => exact h.clockOnly (awaitDue_clockOnly _ _)
  case runningChangeScan =>
    split
    · split
      · exact grantScan_terminalLaw (same rfl rfl)
      · exact h
    · exact h
  case tick =>
    split
    · split
      · exact takeTick_terminalLaw (same rfl rfl)
      · exact h
    · exact h
  case lapse i =>
    split
    · exact lapseAt_terminalLaw i h
    · exact h
  case expiry i =>
    split
    · exact expireAt_terminalLaw i h
    · exact h
  case revokeForLateness i =>
    split
    · exact revokeLateAt_terminalLaw i h
    · exact h
  case characterReceived l n c =>
    split
    · exact h.trafficOnly (receive_trafficOnly _ _ _ _)
    · exact h
  case decodeEntry l =>
    split
    · split
      · split
        · exact takeBreak_terminalLaw l _ h
        · exact h.trafficOnly (takeEntry_trafficOnly _ _ _ _)
      · exact h
    · exact h
  case clientRestart l =>
    split
    · split
      · exact takeBreak_terminalLaw l _ h
      · exact h
    · exact h
  case linkDisable l n =>
    split
    · exact disableLink_of_terminalLaw l n h
    · exact h
  case replySend l =>
    split
    · split
      · exact h.setLink l (releaseHold_line _)
      · exact h
    · exact h
  case noticeBuild l =>
    split
    · split
      · split
        · exact h.setLink l rfl
        · exact h
      · exact h
    · exact h
  case frameComplete l =>
    split
    · split
      · exact h
      · exact applyFrame_terminalLaw _ (h.setLink l rfl)
      · exact applyFrame_terminalLaw _ (h.setLink l rfl)
    · exact h
  case causeClear | groupEnableWrite | ticks0Read | registerWrite | i2cPointerSet => exact h.portEvents _
  case store | storeComplete | badCommand =>
    repeat' split
    all_goals exact same rfl rfl

/-- A restart with a command finishing keeps it too. -/
theorem exec_keeps_terminalLaw {c : Instr} (h : s.TerminalLaw) (he : exec c s = .next t) : t.TerminalLaw := by
  by_cases hc : ∀ b, c ≠ .wrstNLow b true
  · exact exec_terminalLaw hc h he
  · push Not at hc
    obtain ⟨b, rfl⟩ := hc
    refine wrstNLow_finishing_keeps (fun c u v hrow hu => exec_terminalLaw (fun b => ?_) hu)
      (fun _ => beginRestart_terminalLaw b) (fun _ hu => hu.same rfl rfl) (fun _ hu => hu.same rfl rfl) h he
    rintro rfl
    cases hrow

end

/-! ### The laws that stand behind the others (R3, R19, R46) -/

/-- R3, R19 and what of R46 the grant scan relies on. -/
structure State.Founded (s : State) : Prop where
  holder : s.HolderLaw
  zones : s.ZonesLaw
  listQueued : s.ListQueued

section
variable {s t : State}

/-- What leaves the zones, the records and the list leaves the laws that stand on them alone. -/
theorem State.Founded.congr (h : s.Founded) (hz : t.zones = s.zones) (hs : t.slots = s.slots)
    (hw : t.waiting = s.waiting) : t.Founded := by
  refine ⟨h.holder.congr hz hs, h.zones.congr hz hs, ?_⟩
  have hl := h.listQueued
  unfold State.ListQueued State.lease State.slot at *
  rwa [hw, hs]

/-- SET_ZONE and SET_CLASS touch neither the records nor the list. -/
theorem takeCommand_listQueued {c : Byte} {g : Table 8 Byte → Bool} {ev : Table 8 Byte → State → State × CmdResult}
    (hev : ∀ a u, (ev a u).1.slots = u.slots ∧ (ev a u).1.waiting = u.waiting) (h : s.ListQueued) :
    (takeCommand c g ev s).ListQueued := by
  have same : ∀ u : State, u.slots = s.slots → u.waiting = s.waiting → u.ListQueued := fun u hs hw => by
    unfold State.ListQueued State.lease State.slot at *
    rwa [hw, hs]
  unfold takeCommand
  split
  · next a _ =>
    split
    · exact same _ (hev a s.served).1 (hev a s.served).2
    · exact h
  · exact h

theorem evalSetClass_records (a : Table 8 Byte) (s : State) :
    (evalSetClass a s).1.slots = s.slots ∧ (evalSetClass a s).1.waiting = s.waiting := by
  unfold evalSetClass
  dsimp only
  repeat' split
  all_goals exact ⟨rfl, rfl⟩

/-- The commands that can finish with a restart put no record into the list. -/
theorem exec_founded {c : Instr} (hc : finishableRow c = true) (h : s.Founded) (he : exec c s = .next t) :
    t.Founded := by
  refine ⟨holderLaw_invariant.exec h.holder he, zonesLaw_invariant.exec h.zones he, ?_⟩
  by_cases hr : evolvingRow c = true
  · exact (exec_evolves hr h.holder (fun i r hi => (h.zones i r hi).2.2.1) he).listQueued h.listQueued
  · cases c
    case setZone =>
      obtain rfl := Host.Outcome.next.inj he
      exact takeCommand_listQueued evalSetZone_records h.listQueued
    case setClass =>
      obtain rfl := Host.Outcome.next.inj he
      exact takeCommand_listQueued evalSetClass_records h.listQueued
    case acquire | park | coldStart | leaveReset | wrstNLow => cases hc
    all_goals exact absurd rfl hr

theorem beginRestart_founded (b : Table 4 Nat) (h : s.Founded) : (s.beginRestart b).Founded :=
  ⟨beginRestart_holderLaw b h.holder, beginRestart_zonesLaw b h.zones,
    (beginRestart_evolves s b).listQueued h.listQueued⟩

/-- A property that the commands which can finish keep, and the beginning of a restart, on the ground of these laws,
the restart with a command finishing keeps. -/
theorem wrstNLow_finishing_keeps_founded {p : State → Prop} {b : Table 4 Nat}
    (hc : ∀ c u v, finishableRow c = true → u.Founded → p u → exec c u = .next v → p v)
    (hb : ∀ u : State, u.Founded → p u → p (u.beginRestart b)) (hr : ∀ u : State, p u → p (u.raiseCmd flagDone))
    (hw : ∀ u : State, p u → p { u with wrstN := false }) (hs : s.Founded) (h : p s)
    (he : exec (.wrstNLow b true) s = .next t) : p t :=
  (wrstNLow_finishing_keeps (p := fun u => u.Founded ∧ p u)
    (fun c u v hrow hu hv => ⟨exec_founded hrow hu.1 hv, hc c u v hrow hu.1 hu.2 hv⟩)
    (fun u hu => ⟨beginRestart_founded b hu.1, hb u hu.1 hu.2⟩)
    (fun u hu => ⟨hu.1.congr rfl rfl rfl, hr u hu.2⟩)
    (fun u hu => ⟨hu.1.congr rfl rfl rfl, hw u hu.2⟩) ⟨hs, h⟩ he).2

/-! ### Tags and limits (R10, R23, R64) -/

/-- The zones' classes, the class table and the records stay. -/
theorem State.RecordsLaw.same (h : s.RecordsLaw) (hz : t.zones = s.zones) (hc : t.classes = s.classes)
    (hs : t.slots = s.slots) : t.RecordsLaw :=
  h.congr hs fun _ r _ _ =>
    limitsOf_congr (fun z => by rw [State.zone, hz, State.zone]) (fun c => by rw [State.cls, hc, State.cls]) r.zones

theorem takeRequest_recordsLaw {l : Link} {k : Byte → Bool} {ev : List Byte → State → State × OutFrame}
    (h : s.RecordsLaw) (hev : ∀ f, (ev f (s.takeSlot l)).1.RecordsLaw) : (takeRequest l k ev s).RecordsLaw := by
  unfold takeRequest
  split
  · split
    · exact (hev _).same rfl rfl rfl
    · exact h
  · exact h

theorem takeCommand_recordsLaw {c : Byte} {g : Table 8 Byte → Bool}
    {ev : Table 8 Byte → State → State × CmdResult} (h : s.RecordsLaw) (hev : ∀ a, (ev a s.served).1.RecordsLaw) :
    (takeCommand c g ev s).RecordsLaw := by
  unfold takeCommand
  split
  · split
    · exact (hev _).same rfl rfl rfl
    · exact h
  · exact h

/-- What puts no record into the table keeps the tags and the limits, and so do SET_ZONE and SET_CLASS. -/
theorem exec_recordsLaw_of_finishable {c : Instr} (hc : finishableRow c = true ∨ evolvingRow c = true)
    (hs : s.Founded) (h : s.RecordsLaw) (he : exec c s = .next t) : t.RecordsLaw := by
  by_cases hr : evolvingRow c = true
  · exact (exec_evolves hr hs.holder (fun i r hi => (hs.zones i r hi).2.2.1) he).recordsLaw hs.listQueued h
  · have hrow := hc.resolve_right hr
    cases c
    case setZone =>
      obtain rfl := Host.Outcome.next.inj he
      exact takeCommand_recordsLaw h fun a => evalSetZone_recordsLaw a (s := s.served) (h.same rfl rfl rfl)
    case setClass =>
      obtain rfl := Host.Outcome.next.inj he
      exact takeCommand_recordsLaw h fun a => evalSetClass_recordsLaw a (s := s.served) (h.same rfl rfl rfl)
    case acquire | park | coldStart | leaveReset | wrstNLow => cases hrow
    all_goals exact absurd rfl hr

/-- Every command keeps the tags and the limits: ACQUIRE and PARK by their checks, a cold start having no record. -/
theorem exec_recordsLaw {c : Instr} (hh : s.HolderLaw) (hz : s.ZonesLaw) (hl : s.ListLaw) (h : s.RecordsLaw)
    (he : exec c s = .next t) : t.RecordsLaw := by
  have hs : s.Founded := ⟨hh, hz, hl.listQueued⟩
  have hempty : ∀ u : State, u.waiting = [] → u.slots = .fill 128 .cold → u.RecordsLaw := fun u hw hu =>
    (empty_laws hw fun i => by simp only [State.lease, State.slot, hu, Table.get_fill, Slot.cold]).2
  by_cases hr : finishableRow c = true ∨ evolvingRow c = true
  · exact exec_recordsLaw_of_finishable hr hs h he
  cases c
  case acquire l =>
    obtain rfl := Host.Outcome.next.inj he
    exact takeRequest_recordsLaw h fun f => evalAcquire_recordsLaw l f (s := s.takeSlot l) hl (h.same rfl rfl rfl)
  case park l =>
    obtain rfl := Host.Outcome.next.inj he
    exact takeRequest_recordsLaw h fun f =>
      evalPark_recordsLaw l f (s := s.takeSlot l) hl.listQueued (h.same rfl rfl rfl)
  case coldStart =>
    obtain rfl := Host.Outcome.next.inj he
    exact hempty _ rfl rfl
  case leaveReset =>
    obtain rfl := Host.Outcome.next.inj he
    split
    · dsimp only
      split
      · exact hempty _ (judgeImage_waiting _) (judgeImage_slots _)
      · exact hempty _ rfl rfl
    · exact h
  case wrstNLow b finishing =>
    cases finishing with
    | false => exact absurd (.inr rfl) hr
    | true =>
      exact wrstNLow_finishing_keeps_founded (fun c u v hrow hu => exec_recordsLaw_of_finishable (.inl hrow) hu)
        (fun u hu => (beginRestart_evolves u b).recordsLaw hu.listQueued) (fun _ hu => hu.same rfl rfl rfl)
        (fun _ hu => hu.same rfl rfl rfl) hs h he
  case setZone | setClass => exact absurd (.inl rfl) hr
  all_goals exact absurd (.inr rfl) hr

/-! ### Countdowns and yieldability (R58, R81) -/

/-- Every command keeps the records sound; those that can finish with a restart give no record new limits. -/
theorem exec_keeps_sound {c : Instr} (hh : s.HolderLaw) (hz : s.ZonesLaw) (hl : s.ListLaw)
    (hr : s.RangeLaw) (h : s.Sound) (he : exec c s = .next t) : t.Sound := by
  by_cases hc : ∀ b, c ≠ .wrstNLow b true
  · exact exec_sound hc hh hz hl.listQueued (.inl ⟨hl, hr.classesPositive⟩) h he
  · push Not at hc
    obtain ⟨b, rfl⟩ := hc
    refine wrstNLow_finishing_keeps_founded (fun c u v hrow hu =>
      exec_sound ?_ hu.holder hu.zones hu.listQueued (.inr ?_)) (fun u _ => beginRestart_sound b)
      (fun _ hu => hu.congr rfl) (fun _ hu => hu.congr rfl) ⟨hh, hz, hl.listQueued⟩ h he
    · rintro b rfl
      cases hrow
    · cases c
      case acquire | widen | narrow => cases hrow
      all_goals rfl

/-- With every countdown at least 1, no record lapses, expires or is late outside a tick. -/
theorem lapseAt_of_countdownLaw (h : s.CountdownLaw) (i : SlotId) : s.lapseAt i = s := by
  unfold State.lapseAt
  split
  · next r hr =>
    refine if_neg fun hd => ?_
    obtain ⟨hq, hd⟩ := Bool.and_eq_true_iff.mp hd
    have := (h i r hr (by simp [Phase.live, hq])).2.1
    simp at hd
    omega
  · rfl

theorem expireAt_of_countdownLaw (h : s.CountdownLaw) (i : SlotId) : s.expireAt i = s := by
  unfold State.expireAt
  split
  · next r hr =>
    refine if_neg fun hd => ?_
    obtain ⟨hh, hd⟩ := Bool.and_eq_true_iff.mp hd
    have := (h i r hr (by simp [Phase.live, hh])).2.1
    simp at hd
    omega
  · rfl

theorem revokeLateAt_of_countdownLaw (h : s.CountdownLaw) (i : SlotId) : s.revokeLateAt i = s := by
  unfold State.revokeLateAt
  split
  · next r hr =>
    refine if_neg fun hd => ?_
    simp only [Bool.and_eq_true, beq_iff_eq] at hd
    have := (h i r hr (by simp [Phase.live, isYielding_holds hd.1.1])).2.2 hd.1.1
    omega
  · rfl

/-- LAPSE, EXPIRY and REVOKE_FOR_LATENESS by themselves have no occasion then (log entry 7). -/
theorem exec_ending_of_countdownLaw (h : s.CountdownLaw) (i : SlotId) :
    exec (.lapse i) s = .next s ∧ exec (.expiry i) s = .next s ∧ exec (.revokeForLateness i) s = .next s := by
  simp only [exec, execLapse, execExpiry, execRevokeForLateness, lapseAt_of_countdownLaw h,
    expireAt_of_countdownLaw h, revokeLateAt_of_countdownLaw h, ite_self, and_self]

/-! ### Earmarks (R6) -/

theorem raiseCmd_wantsKept (s : State) (f : Byte) : s.wantsKept (s.raiseCmd f) := .of_eq rfl rfl

/-- A restart begins with every earmark cleared, whatever command finishes with it. -/
theorem finishAndRestart_earmarkLaw (s : State) (b : Table 4 Nat) : (s.finishAndRestart b).EarmarkLaw := by
  unfold State.finishAndRestart
  dsimp only
  split
  · exact (raiseCmd_wantsKept _ _).earmarkLaw (beginRestart_earmarkLaw _ b)
  · exact beginRestart_earmarkLaw s b

theorem takeRequest_earmarkLaw {l : Link} {k : Byte → Bool} {ev : List Byte → State → State × OutFrame}
    (h : s.EarmarkLaw) (hev : ∀ f, (ev f (s.takeSlot l)).1.EarmarkLaw) : (takeRequest l k ev s).EarmarkLaw := by
  unfold takeRequest
  split
  · split
    · exact (State.wantsKept.of_eq rfl rfl).earmarkLaw (hev _)
    · exact h
  · exact h

/-- Every command keeps R6, LAPSE by itself where no countdown stands at 0. -/
theorem exec_earmarkLaw {c : Instr} (hh : s.HolderLaw) (hl : s.ListLaw) (h : s.EarmarkLaw)
    (hc : s.CountdownLaw ∨ ∀ i, c ≠ .lapse i) (he : exec c s = .next t) : t.EarmarkLaw := by
  have wrst : ∀ u : State, u.EarmarkLaw → State.EarmarkLaw { u with wrstN := false } :=
    fun u => (State.wantsKept.of_eq rfl rfl).earmarkLaw
  by_cases hr : scanningRow c = true
  · exact exec_marksKept hr hh he hl.listQueued h
  cases c
  case acquire l =>
    obtain rfl := Host.Outcome.next.inj he
    exact takeRequest_earmarkLaw h fun f => evalAcquire_earmarkLaw l f (s := s.takeSlot l) hl
      ((State.wantsKept.of_eq rfl rfl).earmarkLaw h)
  case lapse i =>
    rcases hc with hc | hc
    · rw [(exec_ending_of_countdownLaw hc i).1] at he
      obtain rfl := Host.Outcome.next.inj he
      exact h
    · exact absurd rfl (hc i)
  case wrstNLow b finishing =>
    cases finishing with
    | false => exact absurd rfl hr
    | true =>
      obtain rfl := Host.Outcome.next.inj he
      split
      · exact h
      · split
        · exact wrst s h
        · exact wrst _ (finishAndRestart_earmarkLaw s b)
  all_goals exact absurd rfl hr

end

/-! ### The step -/

/-- Settles O58: the zones as a property of the table, the links of terminal records command by command, and the tags,
the limits, the countdowns and the earmarks by what each command does to the records. -/
theorem stepKeepsRecordLaws : Obligations.StepKeepsRecordLaws := by
  refine ⟨fun s t hz ht hs => ⟨zonesLaw_invariant.step hz hs, ?_⟩, fun s t hh hz hl htag hlim hs => ?_,
    fun s t hh hz hl hlim hr hc hy hs => ?_, fun s i hc => exec_ending_of_countdownLaw hc i,
    fun s t hh hl h hc hs => ?_⟩ <;>
  rcases step_cases hs with rfl | ⟨c, rest, hp, he⟩
  · exact ht
  · exact exec_keeps_terminalLaw (s := { s with pending := rest }) ht he
  · exact ⟨htag, hlim⟩
  · exact exec_recordsLaw (s := { s with pending := rest }) hh hz hl ⟨htag, hlim⟩ he
  · exact ⟨hc, hy⟩
  · have := exec_keeps_sound (s := { s with pending := rest }) hh hz hl hr (sound_of_laws hz hlim hr hc hy) he
    exact ⟨this.countdownLaw, this.yieldableLaw⟩
  · exact h
  · refine exec_earmarkLaw (s := { s with pending := rest }) hh hl h (hc.imp_right fun hne i => ?_) he
    rintro rfl
    exact hne i rest hp

end Sys2Proof.Machine
end

section
/-! PROOFS. The step, the occasions of the commands and the arbiter's rotation (R29, R30, R45, R130). -/

namespace Sys2Proof.Machine

/-! ### The step and the queue -/

/-- Settles O1: by the definition of the step on a full and on an empty queue. -/
theorem stepTakesFrontOrIdles : Obligations.StepTakesFrontOrIdles := by
  refine ⟨fun c rest s hp => ?_, fun s hp => ?_⟩
  · rw [step, hp]
  · rw [step, hp]

theorem exec_next (c : Instr) (s : State) : ∃ t, exec c s = .next t := by
  cases c <;> exact ⟨_, rfl⟩

theorem takeCommand_pending {c : Byte} {g : Table 8 Byte → Bool} {ev : Table 8 Byte → State → State × CmdResult}
    (hev : ∀ a t, (ev a t).1.pending = t.pending) (s : State) : (takeCommand c g ev s).pending = s.pending := by
  unfold takeCommand
  repeat' split
  · exact hev _ _
  · rfl
  · rfl

theorem evalSetLink_pending (n : Nat) (a : Table 8 Byte) (s : State) :
    (evalSetLink n a s).1.pending = s.pending := by
  unfold evalSetLink
  split
  · unfold State.applyLine
    dsimp only
    split
    · exact (disableLink_confKept _ _ _).pending
    · rfl
  · rfl

theorem judgeImage_pending (s : State) : s.judgeImage.pending = s.pending := by
  unfold State.judgeImage
  split <;> rfl

/-- No command but a restart with a command finishing touches the queue. -/
theorem exec_pending_of_not_finishing {c : Instr} {s t : State} (hc : ∀ b, c ≠ .wrstNLow b true)
    (he : exec c s = .next t) : t.pending = s.pending := by
  by_cases hu : unconfiguringRow c = true
  · exact (exec_confKept hu he).pending
  cases c
  case setClass =>
    obtain rfl := Host.Outcome.next.inj he
    refine takeCommand_pending (fun a u => ?_) s
    unfold evalSetClass
    dsimp only
    repeat' split
    all_goals rfl
  case setThreshold =>
    obtain rfl := Host.Outcome.next.inj he
    refine takeCommand_pending (fun a u => ?_) s
    unfold evalSetThreshold
    repeat' split
    all_goals rfl
  case setLink n =>
    obtain rfl := Host.Outcome.next.inj he
    unfold takeDirect
    repeat' split
    · exact evalSetLink_pending n _ s
    · rfl
    · rfl
  case store | storeComplete =>
    obtain rfl := Host.Outcome.next.inj he
    repeat' split
    all_goals rfl
  case coldStart =>
    obtain rfl := Host.Outcome.next.inj he
    rfl
  case leaveReset =>
    obtain rfl := Host.Outcome.next.inj he
    split
    · dsimp only
      split
      · exact judgeImage_pending _
      · rfl
    · rfl
  case wrstNLow b finishing =>
    cases finishing with
    | false => exact absurd rfl hu
    | true => exact absurd rfl (hc b)
  all_goals exact absurd rfl hu

theorem exec_pending {c : Instr} {s t : State} (he : exec c s = .next t) : t.pending = s.pending := by
  by_cases hc : ∀ b, c ≠ .wrstNLow b true
  · exact exec_pending_of_not_finishing hc he
  · push Not at hc
    obtain ⟨b, rfl⟩ := hc
    refine wrstNLow_finishing_keeps (p := fun u => u.pending = s.pending) (fun c u v hrow hu hv => ?_)
      (fun u hu => (beginRestart_confKept u b).pending.trans hu) (fun _ hu => hu) (fun _ hu => hu) rfl he
    refine (exec_pending_of_not_finishing ?_ hv).trans hu
    rintro b rfl
    cases hrow

/-! ### Commands without an occasion (log entry 1) -/

section
variable {s : State}

/-- Where no owner can take a command, the part is in reset or in a warm restart, or no command waits. -/
theorem owner_not_free (h : ∀ code args, ¬s.takesDirect code args) {args : Table 8 Byte}
    (hp : s.port.phase = .waiting args) : (!s.inReset && !s.restarting) = false := by
  by_contra hf
  simp only [Bool.not_eq_false, Bool.and_eq_true, Bool.not_eq_true'] at hf
  exact h s.port.command args ⟨hp, rfl, hf⟩

theorem requests_still {l : Link} (h : ∀ f, ¬s.takesRequest l f) :
    ∀ c ∈ [Instr.acquire l, .renew l, .release l, .widen l, .narrow l, .park l, .queryLease l, .queryZone l,
      .badKind l], exec c s = .next s := by
  have still : ∀ {kind eval}, (.next (takeRequest l kind eval s) : Host.Outcome State Fault Refusal) = .next s :=
    congrArg _ (takeRequest_of_not h)
  simp only [List.forall_mem_cons, List.not_mem_nil, false_imp_iff, implies_true, and_true]
  exact ⟨still, still, still, still, still, still, still, still, still⟩

theorem commands_still (h : ∀ code args, ¬s.takesCommand code args) :
    ∀ c ∈ [Instr.readZone, .setZone, .readClass, .setClass, .readLease, .setThreshold, .readList, .nextExpiry,
      .classLoad, .fenceWait, .fenceForce, .lift, .revoke], exec c s = .next s := by
  have still : ∀ {code form eval},
      (.next (takeCommand code form eval s) : Host.Outcome State Fault Refusal) = .next s :=
    congrArg _ (takeCommand_of_not h)
  simp only [List.forall_mem_cons, List.not_mem_nil, false_imp_iff, implies_true, and_true]
  exact ⟨still, still, still, still, still, still, still, still, still, still, still, still, still⟩

theorem directCommands_still (h : ∀ code args, ¬s.takesDirect code args) (n e : Nat) (b : Table 4 Nat) :
    ∀ c ∈ [Instr.readLink, .setLink n, .linkReset n, .store, .warmRestart b, .badCommand, .setTimebase e],
      exec c s = .next s := by
  have still : ∀ {code eval}, (.next (takeDirect code eval s) : Host.Outcome State Fault Refusal) = .next s :=
    congrArg _ (takeDirect_of_not h)
  simp only [List.forall_mem_cons, List.not_mem_nil, false_imp_iff, implies_true, and_true]
  refine ⟨still, still, still, ?_, ?_, ?_, still⟩ <;>
  · simp only [exec, execStore, execWarmRestart, execBadCommand]
    split
    · next hp => rw [owner_not_free h hp, Bool.false_and, if_neg Bool.false_ne_true]
    · rfl

/-- A link that does not take part neither receives, decodes nor sends. -/
theorem linkCommands_still {l : Link} (h : s.linkActive l = false) (n idle : Nat) (x : RawChar) :
    ∀ c ∈ [Instr.decodeEntry l, .clientRestart l, .linkDisable l n, .replySend l, .noticeBuild l, .frameComplete l,
      .characterReceived l idle x], exec c s = .next s := by
  simp only [List.forall_mem_cons, List.not_mem_nil, false_imp_iff, implies_true, and_true]
  refine ⟨?_, ?_, ?_, ?_, ?_, ?_, ?_⟩ <;>
  simp only [exec, execDecodeEntry, execClientRestart, execLinkDisable, execReplySend, execNoticeBuild,
    execFrameComplete, execCharacterReceived, State.mayNotice, h, Bool.false_and, Bool.false_eq_true, if_false]
  all_goals repeat' split
  all_goals rfl

theorem linkActive_false {l : Link}
    (h : (s.link l).line.enabled = false ∨ s.inReset = true ∨ s.restarting = true) : s.linkActive l = false := by
  unfold State.linkActive
  rcases h with h | h | h <;> simp [h]

theorem expiryCommands_still (h : s.tickable = false) (i : SlotId) :
    ∀ c ∈ [Instr.tick, .lapse i, .expiry i, .revokeForLateness i], exec c s = .next s := by
  simp only [List.forall_mem_cons, List.not_mem_nil, false_imp_iff, implies_true, and_true]
  refine ⟨?_, ?_, ?_, ?_⟩ <;>
  simp only [exec, execTick, execLapse, execExpiry, execRevokeForLateness, h, Bool.false_eq_true, if_false]
  split <;> rfl

theorem tickable_false (h : s.inReset = true ∨ s.restarting = true ∨ s.running = false) : s.tickable = false := by
  unfold State.tickable
  rcases h with h | h | h <;> simp [h]

theorem clockCommands_still (h : s.inReset = true) (e : Nat) (b : Table 4 Nat) (finishing : Bool) :
    ∀ c ∈ [Instr.lockRunTimeout, .syncinLoss, .internalTick, .searchTimeout, .runningChangeScan,
      .wrstNLow b finishing, .syncinPulse e], exec c s = .next s := by
  have still : ∀ d, (.next (s.awaitDue d) : Host.Outcome State Fault Refusal) = .next s :=
    fun d => congrArg _ (if_pos h)
  simp only [List.forall_mem_cons, List.not_mem_nil, false_imp_iff, implies_true, and_true]
  refine ⟨still _, still _, still _, still _, ?_, congrArg _ (if_pos h), congrArg _ (if_pos h)⟩
  simp only [exec, execRunningChangeScan, h, Bool.not_true, Bool.false_and, Bool.false_eq_true, if_false]
  split <;> rfl

end

theorem noOccasion_changes_nothing : NoOccasionChangesNothing := fun _ =>
  ⟨fun _ => requests_still, commands_still, directCommands_still, fun _ h => linkCommands_still (linkActive_false h),
    fun h => expiryCommands_still (tickable_false h), clockCommands_still⟩

/-! ### The arbiter's rotation (R29) -/

theorem isEngineCode_iff (c : Byte) : isEngineCode c = true ↔
    c ∈ [0x01, 0x02, 0x03, 0x04, 0x05, 0x06, 0x07, 0x08, 0x09, 0x0A, 0x0B, 0x0C] := by
  simp only [isEngineCode, Bool.and_eq_true, decide_eq_true_eq, List.mem_cons, List.not_mem_nil, or_false]
  bv_omega

theorem sourceWaits_iff (s : State) (k : Fin 5) : s.sourceWaits k = true ↔ SourceWaits s k := by
  unfold State.sourceWaits SourceWaits
  split
  · next hk =>
    rw [Option.isSome_iff_ne_none]
    constructor
    · exact fun h => .inl ⟨⟨k.1, hk⟩, rfl, h⟩
    · rintro (⟨l, hl, h⟩ | ⟨rfl, -⟩)
      · rwa [show (⟨k.1, hk⟩ : Link) = l from Fin.ext hl]
      · exact absurd hk (by decide)
  · next hk =>
    have hmail : k = 4 := by omega
    constructor
    · intro h
      split at h
      · next args hp => exact .inr ⟨hmail, (isEngineCode_iff _).mp h, args, hp⟩
      · cases h
    · rintro (⟨l, hl, -⟩ | ⟨-, hcode, args, hp⟩)
      · omega
      · rw [hp]
        exact (isEngineCode_iff _).mpr hcode

/-- The five sources in rotation after the one served last. -/
theorem rotation_eq (a : Fin 5) : [a + 1, a + 2, a + 3, a + 4, a] = (List.finRange 5).map (a + 1 + ·) := by
  revert a
  decide

theorem arbiterNext_iff (s : State) (k : Fin 5) : s.arbiterNext = some k ↔
    SourceWaits s k ∧ ∃ d : Fin 5, s.arbiter + 1 + d = k ∧ ∀ e < d, ¬SourceWaits s (s.arbiter + 1 + e) := by
  rw [State.arbiterNext, rotation_eq, List.find?_map, Option.map_eq_some_iff]
  simp only [find?_finRange, Function.comp_apply, ← sourceWaits_iff, Bool.not_eq_true]
  constructor
  · rintro ⟨d, ⟨hw, hbefore⟩, rfl⟩
    exact ⟨hw, d, rfl, hbefore⟩
  · rintro ⟨hw, d, rfl, hbefore⟩
    exact ⟨d, ⟨hw, hbefore⟩, rfl⟩

theorem engineFree_iff (s : State) : s.engineFree = true ↔ s.inReset = false ∧ s.restarting = false ∧
    ¬(s.running = true ∧ HandedEvent.runningChange ∈ s.clock.handed) := by
  simp only [State.engineFree, State.scanOwed, Bool.and_eq_true, Bool.not_eq_true', and_assoc,
    ← Bool.not_eq_true, List.contains_iff_mem]

theorem arbiter_rotation : ArbiterRotation := by
  intro s k
  rw [State.turn, Bool.and_eq_true, beq_iff_eq, engineFree_iff, arbiterNext_iff]
  simp only [and_assoc]

/-- Settles O2: every command by its own form, and the arbiter by its search in rotation order. -/
theorem everyCommandAnswersNext : Obligations.EveryCommandAnswersNext := by
  refine ⟨fun c s => ?_, noOccasion_changes_nothing, arbiter_rotation⟩
  obtain ⟨t, ht⟩ := exec_next c s
  exact ⟨t, ht, exec_pending ht⟩

end Sys2Proof.Machine
end

section
/-! PROOFS. The refusals common to the requests that carry a handle (R20, R21, R63, R147, R149, R150). -/

namespace Sys2Proof.Machine

/-- A request that carries a handle and fails a check common to all of them is refused, and nothing else changes. -/
theorem handleRequest_refused {c : Link → Instr} {kind : Byte} {len : Nat} (hc : (c, kind, len) ∈ handleRequests)
    {l : Link} {f : List Byte} {s : State} (ht : s.takesRequest l f) (hk : frameByte f 0 = kind)
    {cause : RefuseCause}
    (hr : ∀ k, withHandle len kind l f (s.takeSlot l) k = (s.takeSlot l, refuse kind (handleIdent f) cause)) :
    exec (c l) s = .next (s.answered s l ⟨[0x21, kind, frameByte f 1, frameByte f 2, cause.code], none⟩) := by
  have answer : ∀ {eval : List Byte → State → State × OutFrame},
      (∃ k, eval f (s.takeSlot l) = withHandle len kind l f (s.takeSlot l) k) →
        takeRequest l (· == kind) eval s =
          s.answered s l ⟨[0x21, kind, frameByte f 1, frameByte f 2, cause.code], none⟩ := by
    rintro eval ⟨k, he⟩
    exact takeRequest_answered ht (beq_iff_eq.mpr hk) (he.trans (hr k))
  simp only [handleRequests, List.mem_cons, Prod.mk.injEq, List.not_mem_nil, or_false] at hc
  rcases hc with ⟨rfl, rfl, rfl⟩ | ⟨rfl, rfl, rfl⟩ | ⟨rfl, rfl, rfl⟩ | ⟨rfl, rfl, rfl⟩ | ⟨rfl, rfl, rfl⟩ |
    ⟨rfl, rfl, rfl⟩
  · exact congrArg Host.Outcome.next (answer (eval := evalRenew l) ⟨_, rfl⟩)
  · exact congrArg Host.Outcome.next (answer (eval := evalRelease l) ⟨_, rfl⟩)
  · exact congrArg Host.Outcome.next (answer (eval := evalWiden l) ⟨_, rfl⟩)
  · exact congrArg Host.Outcome.next (answer (eval := evalNarrow l) ⟨_, rfl⟩)
  · exact congrArg Host.Outcome.next (answer (eval := evalPark l) ⟨_, rfl⟩)
  · exact congrArg Host.Outcome.next (answer (eval := evalQueryLease l) ⟨_, rfl⟩)

/-- A handle out of range, of a FREE slot or of another generation names no record (R20). -/
theorem handleNames_stale {s : State} {a b : Byte}
    (h : 128 ≤ a.toNat ∨ ∃ i : SlotId, a.toNat = i.1 ∧ (s.lease i = none ∨ s.generation i ≠ b)) :
    ¬∃ i r, s.handleNames a b i r := by
  rintro ⟨j, r, hj, hl, hg⟩
  rcases h with h | ⟨i, hi, h⟩
  · omega
  · obtain rfl : i = j := Fin.ext (hi.symm.trans hj)
    rcases h with h | h
    · rw [h] at hl
      cases hl
    · exact h hg

theorem badLength_and_staleHandle_refused : BadLengthAndStaleHandleRefused := by
  intro c kind len hc l f s ht hk refused
  exact ⟨fun hlen => handleRequest_refused hc ht hk fun _ => withHandle_badLength hlen,
    fun hlen hs => handleRequest_refused hc ht hk fun _ =>
      withHandle_stale hlen (handleNames_stale (s := s.takeSlot l) hs)⟩

theorem isRequestKind_false {k : Byte} (h : k ∉ [0x10, 0x11, 0x12, 0x13, 0x14, 0x15, 0x18, 0x19]) :
    isRequestKind k = false := by
  simp only [List.mem_cons, List.not_mem_nil, or_false, not_or] at h
  obtain ⟨h₁, h₂, h₃, h₄, h₅, h₆, h₇, h₈⟩ := h
  simp only [isRequestKind, Bool.or_eq_false_iff, beq_eq_false_iff_ne]
  exact ⟨⟨⟨⟨⟨⟨⟨h₁, h₂⟩, h₃⟩, h₄⟩, h₅⟩, h₆⟩, h₇⟩, h₈⟩

theorem badKind_refused : BadKindRefused := by
  intro l f s ht hk
  exact congrArg Host.Outcome.next <| takeRequest_answered (eval := evalBadKind) ht
    (by rw [isRequestKind_false hk]; rfl) rfl

/-- Settles O6: the first two checks of the handle requests, and a frame of no request kind. -/
theorem requestRefusedAtOnce : Obligations.RequestRefusedAtOnce :=
  ⟨badLength_and_staleHandle_refused, badKind_refused⟩

/-- REVOKE of a live record, whatever its owner. -/
theorem evalRevoke_of_names {args : Table 8 Byte} {i : SlotId} {r : Lease} (s : State)
    (hn : s.handleNames (argOf args 0) (argOf args 1) i r) (hl : r.phase.live = true) :
    evalRevoke args s = (s.revokeLease i r, .ok (s.revokeResults r)) := by
  simp [evalRevoke, matchHandle_eq_some.mpr hn, Phase.terminal, hl]

theorem evalRevoke_stale {args : Table 8 Byte} (s : State)
    (hn : ¬∃ i r, s.handleNames (argOf args 0) (argOf args 1) i r) :
    evalRevoke args s = (s, .fail .staleHandle) := by
  simp only [evalRevoke, matchHandle_eq_none.mpr hn]

/-- Settles O5: the third check of the handle requests, and REVOKE by its evaluation. -/
theorem notOwnerRefusedThird : Obligations.NotOwnerRefusedThird := by
  refine ⟨fun c kind len hc l f s i r ht hk hlen hn ho => ?_, fun args s i r ht hn hl => ?_, fun args s ht hn => ?_⟩
  · exact handleRequest_refused hc ht hk fun _ => withHandle_notOwner (s := s.takeSlot l) hlen hn ho
  · exact ⟨_, congrArg Host.Outcome.next (takeCommand_completed ht rfl (evalRevoke_of_names s.served hn hl)), rfl⟩
  · exact congrArg Host.Outcome.next (takeCommand_completed ht rfl (evalRevoke_stale s.served hn))

end Sys2Proof.Machine
end

section
/-! PROOFS. READ_LEASE, SET_THRESHOLD, the end of a warm restart and a completed frame
(R28, R33 to R35, R132, R139, R146, R156, R174). -/

namespace Sys2Proof.Machine

/-! ### READ_LEASE (R33) -/

section
variable {args : Table 8 Byte} {i : SlotId} {part : Fin 5} {s : State}

/-- READ_LEASE of a slot that holds a record. -/
theorem evalReadLease_record {r : Lease} (hi : (argOf args 0).toNat = i.1) (hp : (argOf args 1).toNat = part.1)
    (hr : s.lease i = some r) : evalReadLease args s = (s, .ok (leaseResults (s.generation i) r part)) := by
  have hslot : slotOf (argOf args 0) = some i := belowOf_eq_some.mpr hi
  have hpart : belowOf 5 (argOf args 1) = some part := belowOf_eq_some.mpr hp
  simp only [evalReadLease, hslot, hpart, hr]

/-- READ_LEASE of a FREE slot. -/
theorem evalReadLease_free (hi : (argOf args 0).toNat = i.1) (hp : (argOf args 1).toNat = part.1)
    (hr : s.lease i = none) : evalReadLease args s = (s, .ok (freeSlotResults (s.generation i) part)) := by
  have hslot : slotOf (argOf args 0) = some i := belowOf_eq_some.mpr hi
  have hpart : belowOf 5 (argOf args 1) = some part := belowOf_eq_some.mpr hp
  simp only [evalReadLease, hslot, hpart, hr]

end

/-- Table 2-5 has room for four zones and fills the rest of it. -/
theorem zoneBytes_filled {zs : List ZoneId} (h : zs.length ≤ 4) :
    ((zs.map fun z : ZoneId => byteOf z.1) ++ [0xFF, 0xFF, 0xFF, 0xFF]).take 4 =
      (zs.map fun z => byteOf z.1) ++ List.replicate (4 - zs.length) 0xFF := by
  rw [List.take_append, List.length_map, List.take_of_length_le (by simpa using h),
    show ([0xFF, 0xFF, 0xFF, 0xFF] : List Byte) = List.replicate 4 0xFF from rfl, List.take_replicate,
    Nat.min_eq_left (Nat.sub_le 4 _)]

/-- Settles O33: the five parts of Table 2-5 by the evaluation, for a FREE slot and for a record. -/
theorem readLeaseOutcome : Obligations.ReadLeaseOutcome := by
  intro s args i hi ht g part
  have number : ∀ n : Fin 5, argOf args 1 = byteOf n.1 → (argOf args 1).toNat = n.1 := fun n hn => by
    rw [hn, byteOf_toNat (by omega)]
  have free : s.lease i = none → ∀ n : Fin 5, part (byteOf n.1) (freeSlotResults g n) := fun hl n hn =>
    congrArg Host.Outcome.next
      (takeCommand_completed ht rfl (evalReadLease_free (s := s.served) hi (number n hn) hl))
  have full : ∀ r, s.lease i = some r → ∀ n : Fin 5, part (byteOf n.1) (leaseResults g r n) := fun r hl n hn =>
    congrArg Host.Outcome.next
      (takeCommand_completed ht rfl (evalReadLease_record (s := s.served) hi (number n hn) hl))
  refine ⟨fun hl => ⟨free hl 0, free hl 1, free hl 2, free hl 3, free hl 4⟩, fun r hl hz =>
    ⟨full r hl 0, ?_, full r hl 2, full r hl 3, full r hl 4⟩⟩
  rw [List.append_assoc [_], ← zoneBytes_filled hz]
  exact full r hl 1

/-! ### SET_THRESHOLD (R35) -/

/-- The lowest FREE slot as a byte. -/
theorem slotByteOr_lowestFree {s : State} {b : Byte} (h : (∀ i, s.lease i ≠ none) ∧ b = 0xFF ∨
    ∃ i : SlotId, s.lease i = none ∧ (∀ j, j < i → s.lease j ≠ none) ∧ b = slotByte i) :
    slotByteOr s.lowestFree = b := by
  rcases h with ⟨hfull, rfl⟩ | ⟨i, hi, hbefore, rfl⟩
  · rw [lowestFree_eq_none.mpr hfull]
    rfl
  · rw [lowestFree_eq_some.mpr ⟨hi, hbefore⟩]
    rfl

theorem evalSetThreshold_read {args : Table 8 Byte} (s : State) (h : argOf args 1 = 0) :
    evalSetThreshold args s = (s, .ok s.thresholdResults) := by
  have hact : belowOf 2 (argOf args 1) = some 0 := belowOf_eq_some.mpr (by rw [h]; rfl)
  simp only [evalSetThreshold, hact, if_true]

theorem evalSetThreshold_write {args : Table 8 Byte} (s : State) (h : argOf args 1 = 1)
    (hv : (argOf args 0).toNat ≤ 128) :
    evalSetThreshold args s =
      (s.writeThreshold (argOf args 0).toNat, .ok (s.writeThreshold (argOf args 0).toNat).thresholdResults) := by
  have hact : belowOf 2 (argOf args 1) = some 1 := belowOf_eq_some.mpr (by rw [h]; rfl)
  simp only [evalSetThreshold, hact, Nat.not_lt.mpr hv, if_false, Fin.one_eq_zero_iff, OfNat.ofNat_ne_one]

/-- Settles O34: the report and the write by the evaluation. -/
theorem setThresholdOutcome : Obligations.SetThresholdOutcome := by
  intro s args ht report lowest hlow
  have hb := slotByteOr_lowestFree hlow
  have hreport : ∀ u : State, u.slots = s.slots → u.thresholdResults = report u.threshold u.armed lowest := by
    intro u hu
    have hcount : ∀ p, u.countLeases p = s.countLeases p := fun p => by rw [State.countLeases, hu, State.countLeases]
    have hfree : u.lowestFree = s.lowestFree := by rw [State.lowestFree, hu, State.lowestFree]
    simp only [State.thresholdResults, State.occupied, hcount, hfree, hb, report]
  refine ⟨fun ha => ?_, fun ha hv => ?_⟩
  · have he := evalSetThreshold_read s.served ha
    rw [hreport s.served rfl] at he
    exact congrArg Host.Outcome.next (takeCommand_completed ht rfl he)
  · have he := evalSetThreshold_write s.served ha hv
    rw [hreport (s.served.writeThreshold (argOf args 0).toNat) rfl] at he
    exact congrArg Host.Outcome.next (takeCommand_completed ht rfl he)

/-! ### The end of a warm restart (R34, R174) -/

/-- A grant scan neither puts a record into the table nor takes one out. -/
theorem grantScan_occupied (s : State) : s.grantScan.occupied = s.occupied := by
  refine occupied_congr fun i => ?_
  rcases ((grantScan_scanKeeps s).2.2 i).2 with ⟨hs, ht⟩ | ⟨r, q, hs, ht, -⟩ <;> rw [hs, ht]
  rfl

theorem completeRestart_of_restarting {s : State} (h : s.port.phase = .restarting) :
    s.completeRestart = s.completed .ok [] := by
  rw [State.completeRestart, h]
  rfl

theorem completeRestart_of_not {s : State} (h : s.port.phase ≠ .restarting) : s.completeRestart = s := by
  unfold State.completeRestart
  split
  · next hp => exact absurd hp h
  · rfl

/-- The armed indication at the end of a restart is that of the count before it, which the scan keeps. -/
theorem completeRestart_count (s : State) :
    s.grantScan.completeRestart.occupied = s.occupied ∧ s.grantScan.completeRestart.threshold = s.threshold := by
  have hthreshold : s.grantScan.threshold = s.threshold := (grantScan_tableOnly s).fields.2.1
  rw [← grantScan_occupied s, ← hthreshold]
  unfold State.completeRestart
  split <;> exact ⟨rfl, rfl⟩

theorem endRestart_eq (s : State) : s.endRestart =
    { s.grantScan.completeRestart.raiseCmd flagRestartDone with
      restarting := false, wrstN := true, armed := decide (s.occupied < s.threshold) } := by
  obtain ⟨hcount, hthreshold⟩ := completeRestart_count s
  rw [← hcount, ← hthreshold]
  rfl

/-- Settles O45: the scan, the completion of a WARM_RESTART in progress, and the flags, in the order of R174. -/
theorem restartEndOutcome : Obligations.RestartEndOutcome := by
  intro s hr t ended
  have hexec : exec (.restartEnd true) s = .next s.endRestart := by
    simp only [exec, execRestartEnd, hr, if_true]
  have hphase : s.grantScan.port.phase = s.port.phase := by
    rw [grantScan_tableOnly s]
  refine ⟨fun hp => ?_, fun hp => ?_⟩
  · rw [hexec, endRestart_eq, completeRestart_of_restarting (hphase.trans hp)]
    rfl
  · rw [hexec, endRestart_eq, completeRestart_of_not (hphase ▸ hp)]
    rfl

/-! ### The characters of a frame (R132, R139, R146) -/

theorem foldl_add_eq (bs : List Byte) (a : Byte) : bs.foldl (· + ·) a = a + bs.foldr (· + ·) 0 := by
  induction bs generalizing a with
  | nil => simp
  | cons b bs ih => rw [List.foldl_cons, List.foldr_cons, ih, BitVec.add_assoc]

theorem wire_eq_frameBytes (tx : Transmitter) : tx.wire = frameBytes tx := by
  cases tx <;> simp only [Transmitter.wire, OutFrame.wire, checksum, foldl_add_eq, frameBytes]

/-- A count that is not odd is even. -/
theorem not_decide_odd (n : Nat) : (!decide (n % 2 = 1)) = decide (n % 2 = 0) := by
  rcases Nat.mod_two_eq_zero_or_one n with h | h <;> simp [h]

/-- The parity of some bits taken one after another is that of their count. -/
theorem foldl_bne_eq (p : Nat → Bool) (ks : List Nat) (x : Bool) :
    ks.foldl (fun x k => x != p k) x = (x != decide (ks.countP p % 2 = 1)) := by
  induction ks generalizing x with
  | nil => simp
  | cons k ks ih =>
    rw [List.foldl_cons, ih, List.countP_cons]
    cases p k with
    | false => simp
    | true => simp [Nat.succ_mod_two_eq_one_iff, ← not_decide_odd]

theorem oddOnes_eq (b : Byte) : oddOnes b = decide (((List.range 8).countP fun k => b.getLsbD k) % 2 = 1) := by
  rw [oddOnes, foldl_bne_eq]
  simp

theorem txChar_eq_sentChar (p : LineParams) (b : Byte) : txChar p b = sentChar p b := by
  have hdata : [false] ++ (List.range 8).map b.getLsbD = [false, b.getLsbD 0, b.getLsbD 1, b.getLsbD 2, b.getLsbD 3,
      b.getLsbD 4, b.getLsbD 5, b.getLsbD 6, b.getLsbD 7] := rfl
  unfold txChar sentChar
  rw [hdata, bitTime]
  cases p.parity <;> cases p.stopBits <;> simp [parityBitOf, oddOnes_eq, not_decide_odd]

/-- The characters begun of a frame, as the transmitter sends them. -/
theorem sendTo_eq (x : LinkState) (n : Nat) : x.sendTo n = { x with txd := sentBy x n } := by
  have hchar : txChar x.line = sentChar x.line := funext (txChar_eq_sentChar x.line)
  rw [LinkState.sendTo, sentBy, wire_eq_frameBytes, hchar]

/-! ### A completed frame (R28, R139, R156) -/

theorem wire_length (f : OutFrame) : f.wire.length = f.payload.length + 3 := by
  simp only [OutFrame.wire, List.length_append, List.length_cons, List.length_nil]
  omega

theorem endFrame_reply {x : LinkState} {f : OutFrame} (h : x.tx = .reply f) :
    x.endFrame = { x with tx := .idle, txd := sentBy x (f.payload.length + 3) } := by
  rw [LinkState.endFrame, sendTo_eq, h, Transmitter.wire, wire_length]

theorem endFrame_notice {x : LinkState} {i : SlotId} {f : OutFrame} (h : x.tx = .notice i f) :
    x.endFrame = { x with tx := .idle, txd := sentBy x (f.payload.length + 3) } := by
  rw [LinkState.endFrame, sendTo_eq, h, Transmitter.wire, wire_length]

theorem applyReport_stale {s : State} {p : Report}
    (h : s.lease p.slot = none ∨ s.generation p.slot ≠ p.generation) : s.applyReport p = s := by
  unfold State.applyReport
  split
  · next r hr =>
    rw [if_neg]
    exact h.resolve_left (by simp [hr])
  · rfl

theorem applyReport_frees {s : State} {p : Report} {r : Lease} (hr : s.lease p.slot = some r)
    (hg : s.generation p.slot = p.generation) (ht : r.phase.terminal = true) (hp : r.phase.state = p.state) :
    s.applyReport p = s.recordFreed p.slot := by
  simp [State.applyReport, hr, hg, ht, hp, freeSlot_eq]

theorem applyReport_reports {s : State} {p : Report} {r : Lease} (hr : s.lease p.slot = some r)
    (hg : s.generation p.slot = p.generation) (h : ¬(r.phase.terminal = true ∧ r.phase.state = p.state)) :
    s.applyReport p = s.setLease p.slot { r with reported := some (p.state, p.warned) } := by
  have h' : ¬(r.phase.terminal && r.phase.state == p.state) = true := by simpa using h
  simp only [State.applyReport, hr, hg, if_true, if_neg h']

/-- FRAME_COMPLETE ends the frame on the line, moves the pointer past a notice's slot and applies the frame. -/
theorem frameComplete_eq {s u : State} {l : Link} {f : OutFrame} (ha : s.linkActive l = true)
    (hu : let sent := sentBy (s.link l) (f.payload.length + 3)
      (s.link l).tx = .reply f ∧ u = s.setLink l { s.link l with tx := .idle, txd := sent } ∨
        ∃ i, (s.link l).tx = .notice i f ∧
          u = s.setLink l { s.link l with tx := .idle, txd := sent, noticePointer := i + 1 }) :
    exec (.frameComplete l) s = .next (u.applyFrame f) := by
  rcases hu with ⟨htx, rfl⟩ | ⟨i, htx, rfl⟩
  · simp only [exec, execFrameComplete, ha, if_true, htx, endFrame_reply htx]
  · simp only [exec, execFrameComplete, ha, if_true, htx, endFrame_notice htx]

/-- Settles O51: the frame ended, and its pair applied to the table in the three ways of R28. -/
theorem frameCompleteOutcome : Obligations.FrameCompleteOutcome := by
  intro s l f he hreset hrestart sent u hu
  have hexec := frameComplete_eq (by simp [State.linkActive, he, hreset, hrestart]) hu
  have hslots : u.slots = s.slots := by
    rcases hu with ⟨-, rfl⟩ | ⟨_, -, rfl⟩ <;> rfl
  have hlease : ∀ i, u.lease i = s.lease i := fun i => by rw [State.lease, State.slot, hslots]; rfl
  have hgen : ∀ i, u.generation i = s.generation i := fun i => by rw [State.generation, State.slot, hslots]; rfl
  refine ⟨fun hf => ?_, fun p hf => ?_⟩
  · rw [hexec, State.applyFrame, hf]
  rw [hexec, show u.applyFrame f = u.applyReport p by rw [State.applyFrame, hf]]
  refine ⟨fun h => ?_, fun r hr hg => ⟨fun ht hp => ?_, fun h => ?_⟩⟩
  · rw [applyReport_stale (by rwa [hlease, hgen])]
  · rw [applyReport_frees ((hlease _).trans hr) ((hgen _).trans hg) ht hp]
  · rw [applyReport_reports ((hlease _).trans hr) ((hgen _).trans hg) h]

end Sys2Proof.Machine
end

section
/-! PROOFS. The place of insertion into the list, and the scan with the clock stopped (R47, R61). -/

namespace Sys2Proof.Machine

/-! ### The place of insertion (R47) -/

/-- An entry that a new one passes has a lower priority, or waits where the new one is PARKED at its priority. -/
theorem behind_iff {s : State} {p : Priority} {parked : Bool} {x : SlotId} : s.behind p parked x = true ↔
    ∃ r, s.lease x = some r ∧
      (r.priority < p ∨ (parked = true ∧ r.priority = p ∧ r.phase.isParked = false)) := by
  unfold State.behind
  cases s.lease x with
  | none => simp
  | some r => simp [and_assoc]

/-- Settles O18: the list is split before the first entry that the new one passes. -/
theorem insertionPlace : Obligations.InsertionPlace := by
  intro s i p parked passes
  obtain ⟨a, b, hw, hi, ha, hb⟩ := insertBefore_split (s.behind p parked) i s.waiting
  refine ⟨a, b, hw, ?_, fun x hx hp => ?_, fun x hx => behind_iff.mp (hb x hx)⟩
  · rw [State.enterList, hi]
  · exact Bool.false_ne_true ((ha x hx).symm.trans (behind_iff.mpr hp))

/-! ### The scan with the clock stopped (R61) -/

/-- Every zone marked as `f` says, where it is FREE or HELD and has no earmark yet. -/
def State.markZones (s : State) (f : ZoneId → Option SlotId) : State :=
  { s with zones := s.zones.mapIdx fun z x => x.marked (f z) }

@[simp] theorem markZones_zone (s : State) (f : ZoneId → Option SlotId) (z : ZoneId) :
    (s.markZones f).zone z = (s.zone z).marked (f z) := by
  simp [State.markZones, State.zone]

/-- Two markings come to one, in which the first has precedence. -/
theorem markZones_markZones (s : State) (f g : ZoneId → Option SlotId) :
    (s.markZones f).markZones g = s.markZones fun z => (f z).or (g z) := by
  have hz : ((s.markZones f).markZones g).zones = (s.markZones fun z => (f z).or (g z)).zones :=
    Table.ext_get fun z => show State.zone _ z = State.zone _ z by simp only [markZones_zone, marked_marked]
  exact congrArg (fun x => { s with zones := x }) hz

theorem markZones_none (s : State) : s.markZones (fun _ => none) = s := by
  have hz : (s.markZones fun _ => none).zones = s.zones :=
    Table.ext_get fun z => (markZones_zone s _ z).trans (marked_none _)
  exact congrArg (fun x => { s with zones := x }) hz

/-- With the clock stopped an entry marks the zone and does nothing else. -/
theorem earmarkZone_stopped (e : SlotId) (p : Priority) (s : State) (z : ZoneId) :
    s.earmarkZone false e p z = s.markZones fun w => if w = z then some e else none := by
  have hset : s.earmarkZone false e p z = s.setZone z ((s.zone z).marked (some e)) := by
    unfold State.earmarkZone
    split
    · next he hs => simp [State.setEarmark, Zone.marked, he, hs]
    · next he hs => simp [State.setEarmark, Zone.marked, he, hs]
    · next hfree hheld =>
      have hmark : (s.zone z).marked (some e) = s.zone z := by
        generalize s.zone z = x at hfree hheld
        obtain ⟨state, c, mark⟩ := x
        cases mark <;> cases state <;> simp_all [Zone.marked]
      rw [hmark]
      exact congrArg (fun x => { s with zones := x }) (Table.set_get s.zones z).symm
  rw [hset]
  refine congrArg (fun x => { s with zones := x }) (Table.ext_get fun w => ?_)
  rw [Table.get_set, Table.get_mapIdx]
  dsimp only
  split
  · next hw => rw [hw, State.zone]
  · rw [marked_none]

theorem earmarkZones_stopped (e : SlotId) (p : Priority) (zs : List ZoneId) (s : State) :
    zs.foldl (State.earmarkZone false e p) s = s.markZones fun w => if w ∈ zs then some e else none := by
  induction zs generalizing s with
  | nil => simp [markZones_none]
  | cons z zs ih =>
    rw [List.foldl_cons, ih, earmarkZone_stopped, markZones_markZones]
    congr 1
    funext w
    by_cases hw : w = z <;> simp [hw]

/-- With the clock stopped an entry marks the zones it lists and does nothing else. -/
theorem walkEntry_stopped (s : State) (e : SlotId) :
    s.walkEntry false e = s.markZones fun z => if s.lists e z then some e else none := by
  unfold State.walkEntry State.lists
  cases hr : s.lease e with
  | none => simp [markZones_none]
  | some r => simp [earmarkZones_stopped]

theorem walk_stopped (l : List SlotId) (s : State) :
    l.foldl (State.walkEntry false) s = s.markZones fun z => l.find? fun e => s.lists e z := by
  induction l generalizing s with
  | nil => simp [markZones_none]
  | cons e l ih =>
    have hlists : ∀ f x z, (s.markZones f).lists x z = s.lists x z := fun _ _ _ => rfl
    rw [List.foldl_cons, ih, walkEntry_stopped, markZones_markZones]
    simp only [hlists, List.find?_cons]
    congr 1
    funext z
    cases s.lists e z <;> rfl

/-- With the clock stopped a scan is one marking of the zones. -/
theorem grantScan_of_stopped {s : State} (h : s.running = false) :
    s.grantScan = s.clearEarmarks.markZones fun z => s.waiting.find? fun e => s.lists e z := by
  rw [State.grantScan, h, if_neg Bool.false_ne_true]
  exact walk_stopped s.waiting s.clearEarmarks

/-- Settles O20: the earmarks cleared and the zones marked come to one new earmark for each zone. -/
theorem stoppedScanOnlyEarmarks : Obligations.StoppedScanOnlyEarmarks := by
  intro s hs
  rw [grantScan_of_stopped hs]
  refine congrArg (fun x => { s with zones := x }) (Table.ext_get fun z => ?_)
  rw [Table.get_mapIdx, Table.get_mapIdx, State.clearEarmarks, Table.get_mapIdx]
  generalize s.zones.get z = x
  obtain ⟨state, c, mark⟩ := x
  cases state <;> rfl

end Sys2Proof.Machine
end

section
/-! PROOFS. The grant scan with the clock running: what it touches, which entries it grants, the earmarks it leaves and
the yields it asks for (R54 to R60, R130). -/

namespace Sys2Proof.Machine

/-! ### Steps 3 and 4 (R59, R60) -/

/-- A record as steps 3 and 4 of a scan leave it: made YIELDING for a FENCE_PENDING zone, and returned to HELD with
neither such a zone nor one that an entry of higher priority has earmarked. -/
def State.settle (s : State) (i : SlotId) (r : Lease) : Lease :=
  if s.holdsPending i r then (if r.yieldable then r.startYield else r)
  else if s.contested r then r else r.withdrawYield

theorem holdsPending_iff {s : State} {i : SlotId} {r : Lease} :
    s.holdsPending i r = true ↔ ∃ z ∈ r.zones, (s.zone z).state = .fencePending i := by
  simp [State.holdsPending]

theorem contested_iff {s : State} {r : Lease} : s.contested r = true ↔
    ∃ z ∈ r.zones, ∃ e q, (s.zone z).earmark = some e ∧ s.lease e = some q ∧ r.priority < q.priority := by
  unfold State.contested
  rw [List.any_eq_true]
  refine exists_congr fun z => and_congr_right fun _ => ?_
  cases (s.zone z).earmark with
  | none => simp
  | some e => cases hl : s.lease e <;> simp [hl]

/-- What a record's reasons to yield are judged by: the zones and the priorities of the records. -/
theorem reasons_congr {s t : State} {q r : Lease} (hz : ∀ z, t.zone z = s.zone z)
    (hl : ∀ e, (t.lease e).map Lease.priority = (s.lease e).map Lease.priority) (hzones : q.zones = r.zones)
    (hprio : q.priority = r.priority) (i : SlotId) :
    t.holdsPending i q = s.holdsPending i r ∧ t.contested q = s.contested r := by
  have hless : ∀ (u : State) e, (∃ v, u.lease e = some v ∧ r.priority < v.priority) ↔
      ∃ p, (u.lease e).map Lease.priority = some p ∧ r.priority < p := fun u e => by
    cases u.lease e <;> simp
  constructor
  · simp only [State.holdsPending, hz, hzones]
  · rw [Bool.eq_iff_iff, contested_iff, contested_iff]
    simp only [hz, hzones, hprio, exists_and_left, hless, hl]

theorem fenceYields_priority (s : State) (e : SlotId) :
    (s.fenceYields.lease e).map Lease.priority = (s.lease e).map Lease.priority := by
  simp only [State.fenceYields, State.mapLeases_views, Option.map_map]
  congr 1
  funext r
  dsimp only [Function.comp]
  split <;> simp

/-! Steps 3 and 4 together keep the zones and the list and settle every record. -/

theorem settled_zone (s : State) (z : ZoneId) : s.fenceYields.withdrawYields.zone z = s.zone z := rfl

theorem settled_waiting (s : State) : s.fenceYields.withdrawYields.waiting = s.waiting := rfl

theorem settled_lease (s : State) (i : SlotId) :
    s.fenceYields.withdrawYields.lease i = (s.lease i).map (s.settle i) := by
  have hstep3 : s.fenceYields.lease i = (s.lease i).map _ := (State.mapLeases_views s _).2.2.1 i
  rw [State.withdrawYields, (State.mapLeases_views s.fenceYields _).2.2.1, hstep3, Option.map_map]
  congr 1
  funext r
  dsimp only [Function.comp, State.settle]
  have hkeep : ∀ b : Bool, (if b then r.startYield else r).zones = r.zones ∧
      (if b then r.startYield else r).priority = r.priority := fun b => by cases b <;> simp
  obtain ⟨hzones, hprio⟩ := hkeep (r.yieldable && s.holdsPending i r)
  obtain ⟨hpending, hcontested⟩ :=
    reasons_congr (s := s) (t := s.fenceYields) (fun _ => rfl) (fenceYields_priority s) hzones hprio i
  simp only [hpending, hcontested]
  cases s.holdsPending i r <;> cases s.contested r <;> simp

theorem grantScan_of_running {s : State} (h : s.running = true) :
    s.grantScan = (s.clearEarmarks.walk true).fenceYields.withdrawYields := by
  rw [State.grantScan, if_pos h]

theorem grantScan_zone {s : State} (h : s.running = true) (z : ZoneId) :
    s.grantScan.zone z = (s.clearEarmarks.walk true).zone z := by
  rw [grantScan_of_running h, settled_zone]

@[simp] theorem startYield_withdrawYield (r : Lease) : r.startYield.withdrawYield = r.withdrawYield := by
  obtain ⟨owner, tag, priority, yieldable, zones, limits, term, renewals, phase, reported⟩ := r
  cases phase <;> rfl

/-- A record asked to yield in the walk is, once settled, as it was, YIELDING or HELD. -/
theorem settle_of_asked {r q : Lease} (s : State) (i : SlotId) (h : r.asked q) :
    s.settle i q = r ∨ s.settle i q = r.startYield ∨ s.settle i q = r.withdrawYield := by
  have hcases : s.settle i q = q ∨ s.settle i q = q.startYield ∨ s.settle i q = q.withdrawYield := by
    unfold State.settle
    repeat' split
    all_goals simp
  rcases h with rfl | rfl
  · exact hcases
  · exact .inr (by simpa using hcases)

theorem settle_idle {r : Lease} (s : State) (i : SlotId) (h : r.phase.holds = false) : s.settle i r = r := by
  rcases settle_of_asked s i (.inl rfl : r.asked r) with hr | hr | hr
  · exact hr
  · exact hr.trans (startYield_idle h)
  · exact hr.trans (withdrawYield_idle h)

/-! ### What a scan makes of a record (R56, R58 to R60) -/

/-! The clearing of the earmarks touches nothing that the walk's grants are judged by. -/

@[simp] theorem clearEarmarks_lists (s : State) (e : SlotId) (z : ZoneId) :
    s.clearEarmarks.lists e z = s.lists e z := rfl

@[simp] theorem clearEarmarks_entryGrantable (s : State) (e : SlotId) :
    s.clearEarmarks.entryGrantable e = s.entryGrantable e := by
  simp [State.entryGrantable]

/-- The walk of a scan, from the state before it with the earmarks cleared. -/
theorem scan_walked {s : State} (hl : s.ListLaw) :
    s.clearEarmarks.Walked s.waiting (s.clearEarmarks.walk true) :=
  walk_walked (s := s.clearEarmarks) hl (fun z => by simp)

/-- A record after a scan with the clock running: one granted, or the record as it was, and that one settled. -/
theorem grantScan_record {s : State} {i : SlotId} {r q : Lease} (hs : s.running = true) (hl : s.ListLaw)
    (hr : s.lease i = some r) (hq : s.grantScan.lease i = some q) :
    ∃ r₁, (r₁ = r ∨ (r.phase.queued = true ∧ r₁ = r.granted)) ∧
      (q = r₁ ∨ q = r₁.startYield ∨ q = r₁.withdrawYield) := by
  rw [grantScan_of_running hs, settled_lease, Option.map_eq_some_iff] at hq
  obtain ⟨v, hv, rfl⟩ := hq
  have hwalk := (scan_walked hl).lease i
  simp only [State.clearEarmarks_views, hr, hv, Option.some.injEq] at hwalk
  split at hwalk
  · next hg =>
    obtain ⟨_, _, rfl, rfl, hask⟩ := hwalk
    obtain ⟨r', hr', hqueued⟩ := (hl.2.2 i).mp hg.1
    cases hr.symm.trans hr'
    exact ⟨_, .inr ⟨hqueued, rfl⟩, settle_of_asked _ i hask⟩
  · have hask : r.asked v := by
      rcases hwalk with rfl | ⟨_, _, rfl, rfl, hask⟩
      · exact .inl rfl
      · exact hask
    exact ⟨r, .inl rfl, settle_of_asked _ i hask⟩

/-- The moves of a record that a scan with the clock running makes. -/
theorem scanMoves_of_record {r r₁ q : Lease} (h₁ : r₁ = r ∨ (r.phase.queued = true ∧ r₁ = r.granted))
    (hq : q = r₁ ∨ q = r₁.startYield ∨ q = r₁.withdrawYield) (hy : r.mayYield q) : ScanMoves r q := by
  obtain ⟨owner, tag, priority, yieldable, zones, limits, term, renewals, phase, reported⟩ := r
  cases phase with
  | waiting c n | parked c n =>
    rcases h₁ with rfl | ⟨-, rfl⟩
    · rcases hq with rfl | rfl | rfl <;> exact .inl rfl
    · rcases hq with rfl | rfl | rfl
      · exact .inr (.inl rfl)
      · exact .inr (.inr ⟨(hy.2 rfl).resolve_right Bool.false_ne_true, rfl⟩)
      · exact .inr (.inl rfl)
  | held c w =>
    obtain rfl := h₁.resolve_right fun h => Bool.false_ne_true h.1
    rcases hq with rfl | rfl | rfl
    · exact .inl rfl
    · exact .inr ⟨(hy.2 rfl).resolve_right Bool.false_ne_true, rfl⟩
    · exact .inl rfl
  | yielding c y w =>
    obtain rfl := h₁.resolve_right fun h => Bool.false_ne_true h.1
    rcases hq with rfl | rfl | rfl
    · exact .inl rfl
    · exact .inl rfl
    · exact .inr rfl
  | expired | revoked | lapsed =>
    obtain rfl := h₁.resolve_right fun h => Bool.false_ne_true h.1
    rcases hq with rfl | rfl | rfl <;> rfl

theorem scanMoves_refl (r : Lease) : ScanMoves r r := by
  unfold ScanMoves
  split <;> simp

/-- What a scan makes of a record, whether the clock runs or not. -/
theorem grantScan_moves {s : State} {i : SlotId} {r q : Lease} (hl : s.ListLaw) (hr : s.lease i = some r)
    (hq : s.grantScan.lease i = some q) : ScanMoves r q := by
  cases hs : s.running with
  | true =>
    obtain ⟨r₁, h₁, hsettled⟩ := grantScan_record hs hl hr hq
    obtain ⟨r', hr', hy⟩ := grantScan_asksYieldable s i q hq
    cases hr.symm.trans hr'
    exact scanMoves_of_record h₁ hsettled hy
  | false =>
    rw [grantScan_of_stopped hs] at hq
    cases hr.symm.trans hq
    exact scanMoves_refl r

/-! ### What a scan touches (R54, R130) -/

/-- The oldest change into running handed over is taken with one scan. -/
theorem runningChange_scanned : RunningChangeIsScanned := by
  intro s rest hh hr hw
  show execRunningChangeScan s = _
  simp [execRunningChangeScan, hh, hr, hw, State.setClock]

theorem grantScan_frame : GrantScanFrame := by
  intro s
  obtain ⟨hwaiting, hzone, hslot⟩ := grantScan_scanKeeps s
  refine ⟨s.grantScan, rfl, grantScan_scanOnly s, hzone, hwaiting, fun i => ⟨(hslot i).1, ?_⟩⟩
  rcases (hslot i).2 with hnone | ⟨r, q, hr, hq, hkeep, -⟩
  · exact .inl hnone
  · exact .inr ⟨r, q, hr, hq, hkeep, fun hl => grantScan_moves hl hr hq⟩

/-- Settles O19: the change into running is one scan, and a scan touches what its operations touch. -/
theorem scanFrame : Obligations.ScanFrame := ⟨runningChange_scanned, grantScan_frame⟩

end Sys2Proof.Machine
end

section
/-! PROOFS. Which entries of the list a scan with the clock running grants, and what a grant makes of the record and its
zones (R55 to R57). -/

namespace Sys2Proof.Machine

/-! ### A grant (R56) -/

/-- In state `t` the entry of slot `e` has been granted as record `r`: it has left the list and holds its zones, and
has at most been asked to yield since. -/
structure State.GrantedTo (t : State) (e : SlotId) (r : Lease) : Prop where
  record : ∃ q, t.lease e = some q ∧ r.granted.asked q
  left : e ∉ t.waiting
  zones : ∀ z ∈ r.zones, (t.zone z).state = .held e

theorem grant_grantedTo (t : State) (e : SlotId) (r : Lease) : (t.grant e r).GrantedTo e r where
  record := ⟨r.granted, by simp [State.grant], .inl rfl⟩
  left := by simp [State.grant]
  zones z hz := by simp [State.grant, hz]

/-- The walk's turn at another entry may ask the record of slot `e` to yield, and no more. -/
theorem walkEntry_other {t : State} {x e : SlotId} {r : Lease} (hne : e ≠ x)
    (h : ∃ q, t.lease e = some q ∧ r.asked q) : ∃ q, (t.walkEntry true x).lease e = some q ∧ r.asked q := by
  obtain ⟨q, hq, hask⟩ := h
  unfold State.walkEntry
  split
  · next v hv =>
    split
    · exact ⟨q, by simp [State.grant, hne, hq], hask⟩
    · obtain ⟨-, -, hlease, -⟩ := earmarkZones_views x v.priority v.zones t
      rcases hlease e with hsame | ⟨q₁, q₂, h₁, h₂, hask₂⟩
      · exact ⟨q, hsame.symm.trans hq, hask⟩
      · cases hq.symm.trans h₁
        exact ⟨q₂, h₂, hask.trans hask₂⟩
  · exact ⟨q, hq, hask⟩

theorem State.GrantedTo.walkEntry {t : State} {x e : SlotId} {r : Lease} (hne : e ≠ x) (h : t.GrantedTo e r) :
    (t.walkEntry true x).GrantedTo e r where
  record := walkEntry_other hne h.record
  left hm := h.left ((walkEntry_scanKeeps true t x).1.subset hm)
  zones z hz := by
    obtain ⟨-, hzone, -⟩ := walkEntry_scanKeeps true t x
    rcases (hzone z).2 with hsame | ⟨hfree, -⟩
    · exact hsame.trans (h.zones z hz)
    · cases (h.zones z hz).symm.trans hfree

theorem State.GrantedTo.walk {t : State} {e : SlotId} {r : Lease} (b : List SlotId) (he : e ∉ b)
    (h : t.GrantedTo e r) : (b.foldl (State.walkEntry true) t).GrantedTo e r := by
  induction b generalizing t with
  | nil => exact h
  | cons x b ih =>
    rw [List.mem_cons, not_or] at he
    exact ih he.2 (h.walkEntry he.1)

/-- What a scan leaves of an entry that it grants. -/
def State.GrantLeft (t : State) (e : SlotId) (r : Lease) : Prop :=
  ∃ q, t.lease e = some q ∧ q.phase.holds = true ∧ q.phase.countdown = r.term ∧ q.phase.warned = false ∧
    q.renewals = (if r.phase.isParked then r.renewals else 0) ∧ e ∉ t.waiting ∧
    ∀ z ∈ r.zones, (t.zone z).state = .held e

theorem State.GrantedTo.settled {t : State} {e : SlotId} {r : Lease} (h : t.GrantedTo e r) :
    t.fenceYields.withdrawYields.GrantLeft e r := by
  obtain ⟨⟨q, hq, hask⟩, hleft, hzones⟩ := h
  have hlast := (settled_lease t e).trans (congrArg (Option.map (t.settle e)) hq)
  rcases settle_of_asked t e hask with hv | hv | hv <;>
    exact ⟨_, hlast, by rw [hv]; rfl, by rw [hv]; rfl, by rw [hv]; rfl, by rw [hv]; rfl, hleft, hzones⟩

/-- An entry that can be granted when the walk comes to it is granted for good. -/
theorem grantScan_grants {s : State} {a b : List SlotId} {e : SlotId} {r : Lease} (hs : s.running = true)
    (hw : s.waiting = a ++ e :: b) (he : e ∉ b)
    (hr : (a.foldl (State.walkEntry true) s.clearEarmarks).lease e = some r)
    (hg : (a.foldl (State.walkEntry true) s.clearEarmarks).grantable r = true) : s.grantScan.GrantLeft e r := by
  have hwalk : s.clearEarmarks.walk true = b.foldl (State.walkEntry true)
      ((a.foldl (State.walkEntry true) s.clearEarmarks).walkEntry true e) := by
    show s.waiting.foldl _ _ = _
    rw [hw, List.foldl_append, List.foldl_cons]
  rw [grantScan_of_running hs, hwalk]
  refine State.GrantedTo.settled (State.GrantedTo.walk b he ?_)
  rw [State.walkEntry, hr]
  simp only [hg, Bool.and_self, if_true]
  exact grant_grantedTo _ e r

/-- The head of the list is granted when its zones are FREE. -/
theorem head_isGranted : HeadIsGranted := by
  intro s e rest r hs hw he hr hfree
  exact grantScan_grants (a := []) hs hw he hr (by simpa [State.grantable] using hfree)

/-! ### Which entries can be granted (R55) -/

/-- The walk as far as the entries of `a`, at the front of the list. -/
theorem walk_front_walked {s : State} (hl : s.ListLaw) (hm : ∀ z, (s.zone z).earmark = none) (a b : List SlotId)
    (hw : s.waiting = a ++ b) : s.Walked a (a.foldl (State.walkEntry true) s) := by
  induction a using List.reverseRecOn generalizing b with
  | nil => exact .start hm
  | append_singleton a e ih =>
    rw [List.append_assoc] at hw
    obtain ⟨r, hr, hq⟩ := (hl.2.2 e).mp (by simp [hw])
    rw [List.foldl_concat]
    exact (ih _ hw).step hw hl.1 hr hq

theorem lists_eq_false {s : State} {x : SlotId} {z : ZoneId} :
    s.lists x z = false ↔ ∀ q, s.lease x = some q → z ∉ q.zones := by
  unfold State.lists
  cases s.lease x <;> simp

/-- An entry can be granted when its zones are FREE and no entry before it lists them. -/
theorem entryGrantable_iff {s : State} {a b : List SlotId} {e : SlotId} {r : Lease} (hw : s.waiting = a ++ e :: b)
    (he : e ∉ a) (hr : s.lease e = some r) : s.entryGrantable e = true ↔
      ∀ z ∈ r.zones, (s.zone z).state = .free ∧ ∀ x ∈ a, ∀ q, s.lease x = some q → z ∉ q.zones := by
  simp only [State.entryGrantable, hr, hw, takeWhile_before he, List.all_eq_true, Bool.and_eq_true, beq_iff_eq,
    Bool.not_eq_true', lists_eq_false]

/-- The entries that a scan leaves in the list. -/
theorem grantScan_waiting {s : State} (hs : s.running = true) (hl : s.ListLaw) :
    s.grantScan.waiting = s.waiting.filter fun x => !s.entryGrantable x := by
  rw [grantScan_of_running hs, settled_waiting, (scan_walked hl).waiting]
  refine List.filter_congr fun x hx => ?_
  rw [clearEarmarks_entryGrantable, decide_eq_true (p := x ∈ s.waiting) hx, Bool.true_and]

/-- An entry that is not granted keeps its record as it is. -/
theorem grantScan_entry_left {s : State} {e : SlotId} {r : Lease} (hs : s.running = true) (hl : s.ListLaw)
    (hr : s.lease e = some r) (he : e ∈ s.waiting) (hg : s.entryGrantable e = false) :
    s.grantScan.lease e = some r := by
  obtain ⟨r', hr', hqueued⟩ := (hl.2.2 e).mp he
  cases hr.symm.trans hr'
  have hidle := queued_not_holds hqueued
  have hwalk := (scan_walked hl).lease e
  rw [if_neg (by rw [clearEarmarks_entryGrantable, hg]; exact fun h => Bool.false_ne_true h.2)] at hwalk
  have hsame : (s.clearEarmarks.walk true).lease e = some r := by
    rcases hwalk with h | ⟨r₁, q, h₁, hq, hask⟩
    · exact h.symm.trans hr
    · cases hr.symm.trans h₁
      rcases hask with rfl | rfl
      · exact hq
      · rw [hq, startYield_idle hidle]
  rw [grantScan_of_running hs, settled_lease, hsame, Option.map_some, settle_idle _ _ hidle]

theorem entry_isGrantedOrNot : EntryIsGrantedOrNot := by
  intro s a b e r hs hl hw hr unwanted grantable t
  have hnodup : (a ++ e :: b).Nodup := hw ▸ hl.1
  have hea : e ∉ a := fun h => (List.nodup_append.mp hnodup).2.2 e h e (List.mem_cons_self ..) rfl
  have heb : e ∉ b := (List.nodup_cons.mp (List.nodup_append.mp hnodup).2.1).1
  have hiff : s.entryGrantable e = true ↔ grantable := entryGrantable_iff hw hea hr
  obtain ⟨r', hr', hqueued⟩ := (hl.2.2 e).mp (by simp [hw])
  cases hr.symm.trans hr'
  refine ⟨fun hg => ?_, fun hg => ?_⟩
  · have hfront := walk_front_walked (s := s.clearEarmarks) hl (by simp) a (e :: b) hw
    refine grantScan_grants hs hw heb (granted_not_asked hfront hea hr hqueued) ?_
    rw [hfront.grantable_iff hw hea hr, clearEarmarks_entryGrantable]
    exact hiff.mpr hg
  · have hfalse : s.entryGrantable e = false := Bool.eq_false_iff.mpr fun h => hg (hiff.mp h)
    have hmem : e ∈ s.waiting := by simp [hw]
    refine ⟨grantScan_entry_left hs hl hr hmem hfalse, ?_⟩
    show e ∈ s.grantScan.waiting
    rw [grantScan_waiting hs hl]
    exact List.mem_filter.mpr ⟨hmem, by rw [hfalse]; rfl⟩

/-- Settles O21: the walk grants an entry when it comes to it, and what comes after leaves it granted. -/
theorem headEntryIsGranted : Obligations.HeadEntryIsGranted := ⟨head_isGranted, entry_isGrantedOrNot⟩

end Sys2Proof.Machine
end

section
/-! PROOFS. What a scan with the clock running leaves: the earmarks, the yields they ask for, and no yield without a
reason (R54, R57 to R60). -/

namespace Sys2Proof.Machine

/-! ### Records settled (R59, R60) -/

theorem settle_keeps (s : State) (i : SlotId) (r : Lease) :
    (s.settle i r).zones = r.zones ∧ (s.settle i r).priority = r.priority ∧
      (s.settle i r).yieldable = r.yieldable := by
  rcases settle_of_asked s i (.inl rfl : r.asked r) with h | h | h <;> rw [h] <;> simp

/-- A yieldable record that holds a FENCE_PENDING zone leaves HELD. -/
theorem settle_not_held {s : State} {i : SlotId} {r : Lease} (hy : r.yieldable = true)
    (hp : s.holdsPending i r = true) : (s.settle i r).phase.state ≠ .held := by
  rw [State.settle, if_pos hp, if_pos hy]
  intro h
  cases hphase : r.startYield.phase with
  | held c w => exact startYield_not_held r c w hphase
  | _ => rw [hphase] at h; cases h

theorem withdrawYield_not_yielding (r : Lease) : r.withdrawYield.phase.isYielding = false := by
  obtain ⟨owner, tag, priority, yieldable, zones, limits, term, renewals, phase, reported⟩ := r
  cases phase <;> rfl

/-- A record still YIELDING has a reason. -/
theorem settle_yielding {s : State} {i : SlotId} {r : Lease} (h : (s.settle i r).phase.isYielding = true) :
    s.holdsPending i r = true ∨ s.contested r = true := by
  by_contra hn
  rw [not_or] at hn
  rw [State.settle, if_neg hn.1, if_neg hn.2, withdrawYield_not_yielding] at h
  cases h

/-- A contested record that is not HELD stays as it is. -/
theorem settle_of_contested {s : State} (i : SlotId) {r : Lease} (hc : s.contested r = true)
    (hn : ∀ c w, r.phase ≠ .held c w) : s.settle i r = r := by
  unfold State.settle
  rw [startYield_of_not_held hn, if_pos hc]
  repeat' split
  all_goals rfl

/-- A record after a scan: settled from what the walk made of it, for the reasons that the scan leaves. -/
theorem grantScan_settles {s : State} {i : SlotId} {r : Lease} (hs : s.running = true)
    (hr : s.grantScan.lease i = some r) : ∃ v, (s.clearEarmarks.walk true).lease i = some v ∧
      r = (s.clearEarmarks.walk true).settle i v ∧
      s.grantScan.holdsPending i r = (s.clearEarmarks.walk true).holdsPending i v ∧
      s.grantScan.contested r = (s.clearEarmarks.walk true).contested v := by
  rw [grantScan_of_running hs] at hr ⊢
  generalize s.clearEarmarks.walk true = u at hr ⊢
  rw [settled_lease, Option.map_eq_some_iff] at hr
  obtain ⟨v, hv, rfl⟩ := hr
  obtain ⟨hzones, hprio, -⟩ := settle_keeps u i v
  refine ⟨v, hv, rfl, reasons_congr (settled_zone u) (fun e => ?_) hzones hprio i⟩
  rw [settled_lease, Option.map_map]
  congr 1
  funext q
  exact (settle_keeps u e q).2.1

theorem yields_haveReasons : YieldsHaveReasons := by
  intro s i r hs hr t pending contested
  have hpending : s.grantScan.holdsPending i r = true ↔ pending := holdsPending_iff
  have hcontested : s.grantScan.contested r = true ↔ contested := contested_iff
  obtain ⟨v, -, hsettle, hp, hc⟩ := grantScan_settles hs hr
  rw [← hpending, ← hcontested, hp, hc]
  refine ⟨fun hy hpend => ?_, fun hyield => ?_, fun hyield => ?_⟩
  · rw [hsettle] at hy ⊢
    exact settle_not_held ((settle_keeps _ i v).2.2.symm.trans hy) hpend
  · rw [hsettle] at hyield
    exact settle_yielding hyield
  · obtain ⟨r₀, hr₀, hkeep, hmay⟩ := grantScan_asksYieldable s i r hr
    exact (hmay hyield).imp hkeep.trans fun h => ⟨r₀, hr₀, h⟩

/-! ### The earmarks (R54, R57) -/

/-- A scan changes the zones of no record. -/
theorem grantScan_lists (s : State) (e : SlotId) (z : ZoneId) : s.grantScan.lists e z = s.lists e z := by
  unfold State.lists
  rcases ((grantScan_scanKeeps s).2.2 e).2 with ⟨h, h'⟩ | ⟨r, q, h, h', hkeep, -⟩
  · rw [h, h']
  · rw [h, h', hkeep]

theorem earmarks_afterScan : EarmarksAfterScan := by
  intro s hs hl z t
  have hzone : t.zone z = (s.clearEarmarks.walk true).zone z := grantScan_zone hs z
  have hfirst : ((s.waiting.filter fun x => !s.entryGrantable x).find? fun x => s.lists x z) =
      t.waiting.find? fun x => t.lists x z := by
    show _ = s.grantScan.waiting.find? fun x => s.grantScan.lists x z
    rw [grantScan_waiting hs hl]
    simp only [grantScan_lists]
  have hmark := (scan_walked hl).earmark z
  simp only [clearEarmarks_lists, clearEarmarks_entryGrantable] at hmark
  rw [← hzone, hfirst] at hmark
  exact hmark

/-! ### The yields that the earmarks ask for (R58) -/

/-- A record that a scan leaves YIELDING counts down its yield window, or goes on with its countdown. -/
theorem scanMoves_yielding {r q : Lease} (h : ScanMoves r q) (hq : q.phase.isYielding = true) :
    q.phase = .yielding q.phase.countdown
      (if r.phase.isYielding then r.phase.yieldCountdown else q.limits.yieldWindow) q.phase.warned := by
  unfold ScanMoves at h
  cases hp : r.phase with
  | waiting c n | parked c n =>
    rw [hp] at h
    rcases h with rfl | rfl | ⟨-, rfl⟩
    · rw [hp] at hq
      cases hq
    · cases hq
    · rfl
  | held c w =>
    rw [hp] at h
    rcases h with rfl | ⟨-, rfl⟩
    · rw [hp] at hq
      cases hq
    · rfl
  | yielding c y w =>
    rw [hp] at h
    rcases h with rfl | rfl
    · rw [hp]
      rfl
    · cases hq
  | expired | revoked | lapsed =>
    rw [hp] at h
    obtain rfl := h
    rw [hp] at hq
    cases hq

/-- A record that holds zones and is not HELD is YIELDING. -/
theorem isYielding_of_holds {p : Phase} (hp : p.holds = true) (hn : ∀ c w, p ≠ .held c w) : p.isYielding = true := by
  cases p with
  | held c w => exact absurd rfl (hn c w)
  | yielding c y w => rfl
  | _ => cases hp

/-- The holder of a zone is in no list. -/
theorem holder_not_waiting {s : State} (hl : s.ListLaw) (hh : s.HolderLaw) {z : ZoneId} {h : SlotId}
    (hz : (s.zone z).state = .held h) : h ∉ s.waiting := by
  intro hm
  obtain ⟨r, hr, hq⟩ := (hl.2.2 h).mp hm
  obtain ⟨r', hr', hholds, -⟩ := (hh z h).mp (by rw [hz]; rfl)
  cases hr.symm.trans hr'
  rw [queued_not_holds hq] at hholds
  cases hholds

theorem earmark_asksToYield : EarmarkAsksToYield := by
  intro s z h e r q hs hl hh t hz he hr hq hy hp
  obtain ⟨r₀, hr₀, -⟩ := grantScan_asksYieldable s h r hr
  refine ⟨r₀, hr₀, scanMoves_yielding (grantScan_moves hl hr₀ hr) ?_⟩
  -- the holder's record holds the zone, and is contested through it
  obtain ⟨r', hr', hholds, hmem⟩ := (grantScan_holderLaw hh z h).mp (by rw [hz]; rfl)
  cases hr.symm.trans hr'
  have hcontested : t.contested r = true := contested_iff.mpr ⟨z, hmem, e, q, he, hq, hp⟩
  -- the walk has asked it to yield
  obtain ⟨v, hv, hsettle, -, hc⟩ := grantScan_settles hs hr
  obtain ⟨q₀, hq₀, hkeep, -⟩ : ∃ q₀, s.lease e = some q₀ ∧ q₀.scanned q := by
    rcases ((grantScan_scanKeeps s).2.2 e).2 with ⟨-, hnone⟩ | ⟨q₀, q', hq₀, hq', hscan⟩
    · cases hq.symm.trans hnone
    · cases hq.symm.trans hq'
      exact ⟨q₀, hq₀, hscan⟩
  have hzone : t.zone z = (s.clearEarmarks.walk true).zone z := grantScan_zone hs z
  obtain ⟨-, hprio, hyield⟩ := settle_keeps (s.clearEarmarks.walk true) h v
  rw [← hsettle] at hprio hyield
  have hasked := (scan_walked hl).asks (fun z h hz => holder_not_waiting hl hh (by simpa using hz)) z h e v q₀
    (hzone ▸ hz) (hzone ▸ he) hv hq₀ (hyield ▸ hy) (by rw [← hprio]; rw [hkeep] at hp; exact hp)
  -- so it is YIELDING, and stays so
  have hsame : r = v := hsettle.trans (settle_of_contested h (hc.symm.trans hcontested) hasked)
  exact isYielding_of_holds hholds (hsame ▸ hasked)

/-- Settles O22: the reasons as the last two steps judge them, the earmarks and the yields as the walk leaves them. -/
theorem yieldsHaveReasonsAfterScan : Obligations.YieldsHaveReasonsAfterScan :=
  ⟨yields_haveReasons, earmarks_afterScan, earmark_asksToYield⟩

end Sys2Proof.Machine
end

section
/-! PROOFS. READ_LIST and NEXT_EXPIRY (R51, R91). -/

namespace Sys2Proof.Machine

/-! ### READ_LIST (R51) -/

/-- READ_LIST of a position in range. -/
theorem evalReadList_of_lt {args : Table 8 Byte} (s : State) (h : (argOf args 0).toNat < 32) :
    evalReadList args s = (s, .ok (s.listResults (argOf args 0).toNat)) := by
  have hpos : belowOf 32 (argOf args 0) = some ⟨(argOf args 0).toNat, h⟩ := belowOf_eq_some.mpr rfl
  simp only [evalReadList, hpos]

theorem listResults_beyond {s : State} {n : Nat} (h : s.waiting.length ≤ n) :
    s.listResults n = [0xFF, byteOf s.waiting.length, 0, 0, 0, 0xFF, 0, 0] := by
  simp only [State.listResults, List.getElem?_eq_none h]

theorem listResults_entry {s : State} {n : Nat} {i : SlotId} {r : Lease} (hi : s.waiting[n]? = some i)
    (hr : s.lease i = some r) : s.listResults n =
      [slotByte i, byteOf s.waiting.length, s.generation i, r.phase.state.code, byteOf r.priority.1,
        byteOf r.owner.1] ++ twoBytes r.phase.countdown := by
  simp only [State.listResults, hi, hr]

/-! ### NEXT_EXPIRY (R91) -/

theorem leaseCountdown_eq_some {s : State} {i : SlotId} {c : Nat} : s.leaseCountdown i = some c ↔
    ∃ r, s.lease i = some r ∧ r.phase.holds = true ∧ r.phase.countdown = c := by
  unfold State.leaseCountdown
  cases hl : s.lease i with
  | none => simp
  | some r => simp

theorem leastCountdown_none {s : State} (h : ∀ i r, s.lease i = some r → r.phase.holds = false) :
    s.leastCountdown = none := by
  rw [State.leastCountdown, List.min?_eq_none_iff, List.filterMap_eq_nil_iff]
  intro i _
  rw [Option.eq_none_iff_forall_ne_some]
  intro c hc
  obtain ⟨r, hr, hholds, -⟩ := leaseCountdown_eq_some.mp hc
  rw [h i r hr] at hholds
  cases hholds

/-- A countdown that a held record has and none undercuts is the least one. -/
theorem leastCountdown_of_least {s : State} {i : SlotId} {r : Lease} (hr : s.lease i = some r)
    (hholds : r.phase.holds = true)
    (hleast : ∀ j q, s.lease j = some q → q.phase.holds = true → r.phase.countdown ≤ q.phase.countdown) :
    s.leastCountdown = some r.phase.countdown := by
  rw [State.leastCountdown, List.min?_eq_some_iff]
  refine ⟨List.mem_filterMap.mpr ⟨i, List.mem_finRange i, leaseCountdown_eq_some.mpr ⟨r, hr, hholds, rfl⟩⟩, ?_⟩
  intro c hc
  obtain ⟨j, -, hj⟩ := List.mem_filterMap.mp hc
  obtain ⟨q, hq, hq', rfl⟩ := leaseCountdown_eq_some.mp hj
  exact hleast j q hq hq'

/-- The first slot with the least countdown. -/
theorem firstExpiring {s : State} {i : SlotId} {r : Lease} (hr : s.lease i = some r) (hholds : r.phase.holds = true)
    (hfirst : ∀ j q, j < i → s.lease j = some q → q.phase.holds = true → r.phase.countdown < q.phase.countdown) :
    ((List.finRange 128).find? fun j => s.leaseCountdown j == some r.phase.countdown) = some i := by
  rw [find?_finRange, beq_iff_eq]
  refine ⟨leaseCountdown_eq_some.mpr ⟨r, hr, hholds, rfl⟩, fun j hlt => beq_eq_false_iff_ne.mpr fun hj => ?_⟩
  obtain ⟨q, hq, hq', hsame⟩ := leaseCountdown_eq_some.mp hj
  exact absurd hsame (hfirst j q hlt hq hq').ne'

theorem expiryResults_none {s : State} (h : ∀ i r, s.lease i = some r → r.phase.holds = false) :
    s.expiryResults = [0xFF, 0, 0, 0, 0xFF, 0, byteOf (s.countLeases fun r => r.phase.holds), 0] := by
  simp only [State.expiryResults, leastCountdown_none h]

theorem expiryResults_first {s : State} {i : SlotId} {r : Lease} (hr : s.lease i = some r)
    (hholds : r.phase.holds = true)
    (hleast : ∀ j q, s.lease j = some q → q.phase.holds = true → r.phase.countdown ≤ q.phase.countdown)
    (hfirst : ∀ j q, j < i → s.lease j = some q → q.phase.holds = true → r.phase.countdown < q.phase.countdown) :
    s.expiryResults = [slotByte i, s.generation i] ++ twoBytes r.phase.countdown
      ++ [byteOf r.owner.1, r.phase.state.code, byteOf (s.countLeases fun q => q.phase.holds),
        byteOf (s.countLeases fun q => q.phase.holds && q.phase.countdown == r.phase.countdown)] := by
  simp only [State.expiryResults, leastCountdown_of_least hr hholds hleast, firstExpiring hr hholds hfirst, hr]

/-- Settles O35: both queries by their evaluation. -/
theorem listQueriesOutcome : Obligations.ListQueriesOutcome := by
  intro s args
  constructor
  · intro ht hlt len
    have hread := takeCommand_completed (form := anyForm) ht rfl (evalReadList_of_lt s.served hlt)
    refine ⟨fun hbeyond => ?_, fun i r hi hr => ?_⟩
    · rw [listResults_beyond (s := s.served) hbeyond] at hread
      exact congrArg Host.Outcome.next hread
    · rw [listResults_entry (s := s.served) hi hr] at hread
      exact congrArg Host.Outcome.next hread
  · intro ht held
    have hnext : exec .nextExpiry s = .next (s.served.completed .ok s.served.expiryResults) :=
      congrArg Host.Outcome.next (takeCommand_completed (form := anyForm) (eval := evalNextExpiry) ht rfl rfl)
    refine ⟨fun hnone => ?_, fun i r hr hholds hleast hfirst => ?_⟩
    · rw [hnext, expiryResults_none (s := s.served) hnone]
      rfl
    · rw [hnext, expiryResults_first (s := s.served) hr hholds hleast hfirst]
      rfl

end Sys2Proof.Machine
end

section
/-! PROOFS. ACQUIRE: its checks in their order, the grant at once, and the entry into the waiting list (R39 to R44,
R147, R148). -/

namespace Sys2Proof.Machine

/-! ### The frame (R39, Table 10-3) -/

theorem byteOf_zone_injective : Function.Injective fun z : ZoneId => byteOf z.1 := fun z w h =>
  Option.some.inj ((belowOf_byteOf z (by omega)).symm.trans ((congrArg (belowOf 64) h).trans
    (belowOf_byteOf w (by omega))))

/-- Bytes name zones exactly when they are the numbers of these zones. -/
theorem zonesOf_eq_some {bs : List Byte} {zs : List ZoneId} :
    zonesOf bs = some zs ↔ bs = zs.map fun z => byteOf z.1 := by
  induction bs generalizing zs with
  | nil => cases zs <;> simp [zonesOf]
  | cons b bs ih =>
    unfold zonesOf
    constructor
    · split
      · next z ws hz hws =>
        rintro ⟨⟩
        have hb : b = byteOf z.1 := BitVec.eq_of_toNat_eq
          ((belowOf_eq_some.mp hz).trans (byteOf_toNat (by omega)).symm)
        rw [ih.mp hws, hb, List.map_cons]
      · nofun
    · intro h
      cases zs with
      | nil => cases h
      | cons z zs =>
        rw [List.map_cons, List.cons.injEq] at h
        have hz : zoneOf b = some z := by rw [h.1, zoneOf, belowOf_byteOf z (by omega)]
        rw [hz, ih.mpr h.2]

/-- Check 2 of Table 3-2 fails. -/
theorem acquireFields_bad {f : List Byte}
    (h : (frameByte f 4).toNat = 0 ∨ 4 < (frameByte f 4).toNat ∨
      (∃ b ∈ (f.drop 5).take (frameByte f 4).toNat, 64 ≤ b.toNat) ∨
      ¬((f.drop 5).take (frameByte f 4).toNat).Nodup ∨ 4 ≤ (frameByte f 2).toNat) : acquireFields f = none := by
  unfold acquireFields
  dsimp only
  split
  · next p zs hp hz =>
    have hbytes := zonesOf_eq_some.mp hz
    have hprio := belowOf_eq_some.mp hp
    refine if_neg fun ⟨hmin, hmax, hnodup⟩ => ?_
    rcases h with h | h | ⟨b, hb, h⟩ | h | h
    · omega
    · omega
    · rw [hbytes, List.mem_map] at hb
      obtain ⟨z, -, rfl⟩ := hb
      rw [byteOf_toNat (by omega)] at h
      omega
    · rw [hbytes] at h
      exact h (hnodup.map byteOf_zone_injective)
    · omega
  · rfl

theorem frameByte_append (f g : List Byte) {n : Nat} (k : Nat) (h : f.length = n) :
    frameByte (f ++ g) (n + k) = frameByte g k := by
  subst h
  simp [frameByte, List.getD_eq_getElem?_getD, List.getElem?_append_right]

theorem wordOf_twoBytes (n : Nat) : wordOf (byteOf (n / 256)) (byteOf n) = n % 65536 := by
  simp only [wordOf, byteOf, BitVec.toNat_ofNat]
  omega

section
variable (tag : Byte) (p : Priority) (options : Byte) (duration wait : Nat) {zs : List ZoneId}

theorem acquireFrame_zoneCount (hmax : zs.length ≤ 4) :
    (frameByte (acquireFrame tag p options zs duration wait) 4).toNat = zs.length :=
  byteOf_toNat (by omega)

theorem acquireFrame_length (hmax : zs.length ≤ 4) :
    acquireLengthOk (acquireFrame tag p options zs duration wait) = true := by
  simp only [acquireLengthOk, acquireFrame_zoneCount tag p options duration wait hmax, Bool.and_eq_true,
    decide_eq_true_eq, beq_iff_eq]
  simp only [acquireFrame, twoBytes, List.length_append, List.length_map, List.length_cons, List.length_nil]
  omega

/-- The two-byte quantities stand behind the zones. -/
theorem acquireFrame_words :
    frameWord (acquireFrame tag p options zs duration wait) (5 + zs.length) = duration % 65536 ∧
      frameWord (acquireFrame tag p options zs duration wait) (7 + zs.length) = wait % 65536 := by
  have hsplit : acquireFrame tag p options zs duration wait =
      ([0x10, tag, byteOf p.1, options, byteOf zs.length] ++ zs.map fun z => byteOf z.1)
        ++ (twoBytes duration ++ twoBytes wait) := by
    rw [acquireFrame, List.append_assoc _ (twoBytes duration)]
  have hbyte : ∀ k, frameByte (acquireFrame tag p options zs duration wait) (5 + zs.length + k) =
      frameByte (twoBytes duration ++ twoBytes wait) k := fun k => by
    rw [hsplit, frameByte_append]
    simp only [List.length_append, List.length_map, List.length_cons, List.length_nil]
  rw [show 7 + zs.length = 5 + zs.length + 2 by omega]
  exact ⟨(congrArg₂ wordOf (hbyte 0) (hbyte 1)).trans (wordOf_twoBytes duration),
    (congrArg₂ wordOf (hbyte 2) (hbyte 3)).trans (wordOf_twoBytes wait)⟩

theorem acquireFrame_fields (hmin : 1 ≤ zs.length) (hmax : zs.length ≤ 4) (hnodup : zs.Nodup) :
    acquireFields (acquireFrame tag p options zs duration wait) =
      some ⟨tag, p, options.getLsbD 0, zs, duration % 65536, wait % 65536⟩ := by
  have hprio : priorityOf (frameByte (acquireFrame tag p options zs duration wait) 2) = some p :=
    belowOf_byteOf p (by omega)
  have hzones : zonesOf (((acquireFrame tag p options zs duration wait).drop 5).take zs.length) = some zs :=
    zonesOf_eq_some.mpr (by simp [acquireFrame])
  obtain ⟨hduration, hwait⟩ := acquireFrame_words tag p options duration wait (zs := zs)
  simp only [acquireFields, acquireFrame_zoneCount tag p options duration wait hmax, hprio, hzones, hduration, hwait]
  exact if_pos ⟨hmin, hmax, hnodup⟩

end

/-! ### The checks (R40, R42) -/

theorem namesDisabled_iff {s : State} {zs : List ZoneId} :
    (zs.any fun z => (s.zone z).state == .disabled) = true ↔ ∃ z ∈ zs, (s.zone z).state = .disabled := by
  simp

theorem tagInUse_iff {s : State} {l : Link} {tag : Byte} :
    (s.anyLease fun r => r.owner == l && r.tag == tag) = true ↔
      ∃ i r, s.lease i = some r ∧ r.owner = l ∧ r.tag = tag := by
  simp [anyLease_eq_true]

theorem holderOwner_eq_some {s : State} {z : ZoneId} {l : Link} : s.holderOwner z = some l ↔
    ∃ h r, (s.zone z).state.holder = some h ∧ s.lease h = some r ∧ r.owner = l := by
  unfold State.holderOwner
  cases (s.zone z).state.holder <;> simp

theorem ownConflict_iff {s : State} {l : Link} {zs : List ZoneId} :
    (zs.any fun z => s.holderOwner z == some l) = true ↔
      ∃ z ∈ zs, ∃ h r, (s.zone z).state.holder = some h ∧ s.lease h = some r ∧ r.owner = l := by
  simp [holderOwner_eq_some]

/-- With the checks 3 to 5 of Table 3-2 passed, the clock decides. -/
theorem acquireCheck_clock {s : State} {l : Link} {q : AcquireReq}
    (hd : ¬∃ z ∈ q.zones, (s.zone z).state = .disabled)
    (hu : ¬∃ i r, s.lease i = some r ∧ r.owner = l ∧ r.tag = q.tag)
    (ho : ¬∃ z ∈ q.zones, ∃ h r, (s.zone z).state.holder = some h ∧ s.lease h = some r ∧ r.owner = l) :
    acquireCheck s l q = if !s.running then some .timeHalted else none := by
  rw [acquireCheck, if_neg (namesDisabled_iff.not.mpr hd), if_neg (tagInUse_iff.not.mpr hu),
    if_neg (ownConflict_iff.not.mpr ho)]

theorem acquireCheck_none {s : State} {l : Link} {q : AcquireReq} {i : SlotId}
    (h : AcquirePasses s l q.tag q.zones i) : acquireCheck s l q = none := by
  obtain ⟨henabled, htag, hown, hrun, -⟩ := h
  rw [acquireCheck_clock (fun ⟨z, hz, hs⟩ => henabled z hz hs) (fun ⟨j, r, hr, ho, ht⟩ => htag j r hr ho ht)
    (fun ⟨z, hz, k, r, hk, hr, ho⟩ => hown z hz k r hk hr ho), hrun]
  rfl

theorem lowestFree_of_passes {s : State} {l : Link} {tag : Byte} {zs : List ZoneId} {i : SlotId}
    (h : AcquirePasses s l tag zs i) : s.lowestFree = some i := by
  obtain ⟨-, -, -, -, hi, hbefore⟩ := h
  exact lowestFree_eq_some.mpr ⟨hi, hbefore⟩

theorem barred_iff {s : State} {q : AcquireReq} : s.barred q = true ↔
    ∃ z ∈ q.zones, ∃ e r, (s.zone z).earmark = some e ∧ s.lease e = some r ∧ q.priority ≤ r.priority := by
  unfold State.barred
  rw [List.any_eq_true]
  refine exists_congr fun z => and_congr_right fun _ => ?_
  cases (s.zone z).earmark with
  | none => simp
  | some e => cases hl : s.lease e <;> simp [hl]

theorem atOnce_iff {s : State} {q : AcquireReq} : s.atOnce q = true ↔ GrantableAtOnce s q.priority q.zones := by
  rw [State.atOnce, Bool.and_eq_true, Bool.not_eq_true', Bool.eq_false_iff, ne_eq, barred_iff, GrantableAtOnce]
  refine and_congr (by simp) ⟨fun h z hz e r he hr => ?_, fun h ⟨z, hz, e, r, he, hr, hle⟩ => ?_⟩
  · exact not_le.mp fun hle => h ⟨z, hz, e, r, he, hr, hle⟩
  · exact absurd hle (not_le.mpr (h z hz e r he hr))

/-! ### The evaluation, case by case -/

section
variable {l : Link} {f : List Byte} {s : State} {q : AcquireReq} {i : SlotId}

/-- The reply to an ACQUIRE that is refused. -/
theorem refuse_acquire (tag : Byte) (c : RefuseCause) :
    refuse kindAcquire [tag] c = ⟨[0x21, 0x10, tag, c.code], none⟩ := rfl

theorem evalAcquire_badLength (h : acquireLengthOk f = false) :
    evalAcquire l f s = (s, refuse kindAcquire [frameByte f 1] .badLength) := by
  simp [evalAcquire, h]

theorem evalAcquire_badField (hlen : acquireLengthOk f = true) (h : acquireFields f = none) :
    evalAcquire l f s = (s, refuse kindAcquire [frameByte f 1] .badField) := by
  simp [evalAcquire, hlen, h]

theorem evalAcquire_refused {c : RefuseCause} (hlen : acquireLengthOk f = true) (hq : acquireFields f = some q)
    (hc : acquireCheck s l q = some c) : evalAcquire l f s = (s, refuse kindAcquire [frameByte f 1] c) := by
  simp [evalAcquire, hlen, hq, hc]

theorem evalAcquire_tableFull (hlen : acquireLengthOk f = true) (hq : acquireFields f = some q)
    (hc : acquireCheck s l q = none) (hfull : s.lowestFree = none) :
    evalAcquire l f s = (s.raiseTable flagExhausted, refuse kindAcquire [frameByte f 1] .tableFull) := by
  simp [evalAcquire, hlen, hq, hc, hfull]

theorem evalAcquire_granted (hlen : acquireLengthOk f = true) (hq : acquireFields f = some q)
    (hc : acquireCheck s l q = none) (hi : s.lowestFree = some i) (ha : s.atOnce q = true) :
    ∃ r, evalAcquire l f s = (acquireGrant l q i s,
      leaseReply kindAcquire false (acquireGrant l q i s) i ((acquireGrant l q i s).recordAt i r)) :=
  ⟨_, by simp [evalAcquire, hlen, hq, hc, hi, ha]; rfl⟩

theorem evalAcquire_unavailable (hlen : acquireLengthOk f = true) (hq : acquireFields f = some q)
    (hc : acquireCheck s l q = none) (hi : s.lowestFree = some i) (ha : s.atOnce q = false)
    (hw : min q.wait (s.limitsOf q.zones).maxWait = 0) :
    evalAcquire l f s = (s, refuse kindAcquire [frameByte f 1] .unavailable) := by
  simp only [evalAcquire, hlen, hq, hc, hi, ha, hw, Bool.not_true, Bool.false_eq_true, if_false, if_true]

theorem evalAcquire_listFull (hlen : acquireLengthOk f = true) (hq : acquireFields f = some q)
    (hc : acquireCheck s l q = none) (hi : s.lowestFree = some i) (ha : s.atOnce q = false)
    (hw : min q.wait (s.limitsOf q.zones).maxWait ≠ 0) (hfull : 32 ≤ s.waiting.length) :
    evalAcquire l f s = (s.raiseTable flagExhausted, refuse kindAcquire [frameByte f 1] .listFull) := by
  simp only [evalAcquire, hlen, hq, hc, hi, ha, hw, hfull, Bool.not_true, Bool.false_eq_true, if_false, if_true]

theorem evalAcquire_waiting (hlen : acquireLengthOk f = true) (hq : acquireFields f = some q)
    (hc : acquireCheck s l q = none) (hi : s.lowestFree = some i) (ha : s.atOnce q = false)
    (hw : min q.wait (s.limitsOf q.zones).maxWait ≠ 0) (hroom : s.waiting.length < 32) :
    ∃ r, evalAcquire l f s = (acquireWait l q i s,
      leaseReply kindAcquire false (acquireWait l q i s) i ((acquireWait l q i s).recordAt i r)) :=
  ⟨_, by simp only [evalAcquire, hlen, hq, hc, hi, ha, hw, Nat.not_le.mpr hroom, Bool.not_true, Bool.false_eq_true,
    if_false]; rfl⟩

/-! ### The answers -/

/-- An ACQUIRE whose evaluation leaves the part as `u`, but for the request taken. -/
theorem acquire_answered {u : State} {r : OutFrame} (ht : s.takesRequest l f) (hk : frameByte f 0 = 0x10)
    (he : evalAcquire l f (s.takeSlot l) = (u.takeSlot l, r)) :
    exec (.acquire l) s = .next (u.answered s l r) := by
  refine congrArg Host.Outcome.next ?_
  rw [takeRequest_of_takes (kind := (· == kindAcquire)) ht (beq_iff_eq.mpr hk), he, takeSlot_placeReply]

/-- An ACQUIRE accepted: the record that it has put into slot `i` of `u` is reported as the scan leaves it. -/
theorem acquire_accepted {u : State} {r : Lease} (ht : s.takesRequest l f) (hk : frameByte f 0 = 0x10)
    (hr : u.lease i = some r) (hnew : r.renewals = 0) (hg : u.generation i = s.generation i + 1)
    (he : ∃ r', evalAcquire l f (s.takeSlot l) =
      (u.grantScan, leaseReply kindAcquire false u.grantScan i (u.grantScan.recordAt i r'))) :
    ∃ q, u.grantScan.lease i = some q ∧ q = { r with phase := q.phase } ∧
      exec (.acquire l) s = .next (u.grantScan.placeReply s l
        ⟨[0x20, 0x10, slotByte i, s.generation i + 1, q.tag, q.phase.state.code, flagByte q.phase.warned]
            ++ twoBytes q.term ++ twoBytes q.phase.countdown,
          some ⟨i, s.generation i + 1, q.phase.state, q.phase.warned⟩⟩) := by
  obtain ⟨q, hq, hkeep, hrenew⟩ := grantScan_lease hr
  have hzero : q.renewals = r.renewals := hrenew.elim id (·.trans hnew.symm)
  rw [hzero] at hkeep
  refine ⟨q, hq, hkeep, congrArg Host.Outcome.next ?_⟩
  obtain ⟨r', he⟩ := he
  have hrecord : u.grantScan.recordAt i r' = q := by rw [State.recordAt, hq]; rfl
  rw [takeRequest_of_takes (kind := (· == kindAcquire)) ht (beq_iff_eq.mpr hk), he, hrecord, ← hg,
    ← grantScan_generation u i]
  simp only [leaseReply, Bool.false_eq_true, if_false, List.append_nil]
  rfl

end

/-! ### The outcomes of ACQUIRE -/

theorem acquire_length_and_fields : AcquireLengthAndFieldsChecked := by
  intro l f s ht hk n refused
  refine ⟨fun hbad => ?_, fun h5 hn hbad => ?_⟩
  · have hlen : acquireLengthOk f = false := by
      rw [acquireLengthOk, Bool.and_eq_false_iff, decide_eq_false_iff_not, beq_eq_false_iff_ne]
      exact hbad.imp Nat.not_le.mpr id
    exact acquire_answered ht hk (evalAcquire_badLength hlen)
  · have hlen : acquireLengthOk f = true := by
      rw [acquireLengthOk, Bool.and_eq_true, decide_eq_true_eq, beq_iff_eq]
      exact ⟨h5, hn⟩
    exact acquire_answered ht hk (evalAcquire_badField hlen (acquireFields_bad hbad))

theorem acquire_checks_inOrder : AcquireChecksInOrder := by
  intro l s tag p options zs duration wait hmin hmax hnodup ht refusal disabled tagUsed own
  have hlen := acquireFrame_length tag p options duration wait hmax
  have hq := acquireFrame_fields tag p options duration wait hmin hmax hnodup
  have refused : ∀ c, acquireCheck s l ⟨tag, p, options.getLsbD 0, zs, duration % 65536, wait % 65536⟩ = some c →
      exec (.acquire l) s = .next (s.answered s l (refusal c.code)) := fun c hc =>
    acquire_answered ht rfl (evalAcquire_refused hlen hq (s := s.takeSlot l) hc)
  have h₁ : _ ↔ disabled := namesDisabled_iff
  have h₂ : _ ↔ tagUsed := tagInUse_iff
  have h₃ : _ ↔ own := ownConflict_iff
  refine ⟨fun hd => ?_, fun hd hu => ?_, fun hd hu ho => ?_, fun hd hu ho hrun => ?_, fun hd hu ho hrun hfull => ?_⟩
  · exact refused .zoneDisabled (by rw [acquireCheck, if_pos (h₁.mpr hd)])
  · exact refused .tagInUse (by rw [acquireCheck, if_neg (h₁.not.mpr hd), if_pos (h₂.mpr hu)])
  · exact refused .ownConflict (by
      rw [acquireCheck, if_neg (h₁.not.mpr hd), if_neg (h₂.not.mpr hu), if_pos (h₃.mpr ho)])
  · exact refused .timeHalted (by rw [acquireCheck_clock hd hu ho, hrun]; rfl)
  · have hnone : acquireCheck s l ⟨tag, p, options.getLsbD 0, zs, duration % 65536, wait % 65536⟩ = none := by
      rw [acquireCheck_clock hd hu ho, hrun]
      rfl
    exact acquire_answered (u := s.raiseTable 0x08) ht rfl
      (evalAcquire_tableFull (s := s.takeSlot l) hlen hq hnone (lowestFree_eq_none.mpr hfull))

/-- Settles O7: the length and the fields first, then the checks of the table. -/
theorem acquireRefusals : Obligations.AcquireRefusals := ⟨acquire_length_and_fields, acquire_checks_inOrder⟩

/-- Settles O8: the evaluation is the grant at once, and the scan keeps all of the record but its phase. -/
theorem acquireGrantedAtOnce : Obligations.AcquireGrantedAtOnce := by
  intro l s tag p options zs duration wait i hmin hmax hnodup hd hw ht hpass hgrant lim term r t
  have hq := acquireFrame_fields tag p options duration wait hmin hmax hnodup
  rw [Nat.mod_eq_of_lt hd, Nat.mod_eq_of_lt hw] at hq
  have heval := evalAcquire_granted (s := s.takeSlot l) (acquireFrame_length tag p options duration wait hmax) hq
    (acquireCheck_none (s := s) hpass) (lowestFree_of_passes hpass) (atOnce_iff.mpr hgrant)
  have ht' : t = (((s.takeSlot l).allocate i r).takeZones i zs).grantScan := by
    rw [allocate_eq, takeZones_eq]
  rw [ht']
  obtain ⟨q, hlease, hkeep, hexec⟩ := acquire_accepted (u := ((s.takeSlot l).allocate i r).takeZones i zs)
    (r := r) ht rfl (by simp) rfl (by simp) heval
  refine ⟨q, hlease, hkeep, ?_⟩
  rw [hexec, show q.tag = tag from congrArg Lease.tag hkeep, show q.term = term from congrArg Lease.term hkeep]

/-- Settles O9: the three ways of a request that is not granted at once. -/
theorem acquireWaitsOrIsRefused : Obligations.AcquireWaitsOrIsRefused := by
  intro l s tag p options zs duration wait i hmin hmax hnodup hd hw ht hpass hgrant lim term w refusal r t
  have hlen := acquireFrame_length tag p options duration wait hmax
  have hq := acquireFrame_fields tag p options duration wait hmin hmax hnodup
  rw [Nat.mod_eq_of_lt hd, Nat.mod_eq_of_lt hw] at hq
  have hcheck := acquireCheck_none (s := s) (q := ⟨tag, p, options.getLsbD 0, zs, duration, wait⟩) hpass
  have hfree := lowestFree_of_passes hpass
  have hnot : s.atOnce ⟨tag, p, options.getLsbD 0, zs, duration, wait⟩ = false :=
    Bool.eq_false_iff.mpr (atOnce_iff.not.mpr hgrant)
  refine ⟨fun hzero => ?_, fun hpos hfull => ?_, fun hpos hroom => ?_⟩
  · exact acquire_answered ht rfl
      (evalAcquire_unavailable (s := s.takeSlot l) hlen hq hcheck hfree hnot hzero)
  · exact acquire_answered (u := s.raiseTable 0x08) ht rfl
      (evalAcquire_listFull (s := s.takeSlot l) hlen hq hcheck hfree hnot hpos hfull)
  · have heval := evalAcquire_waiting (s := s.takeSlot l) hlen hq hcheck hfree hnot hpos hroom
    have ht' : t = (((s.takeSlot l).allocate i r).enterList i p false).grantScan := by rw [allocate_eq]
    rw [ht']
    obtain ⟨q, hlease, hkeep, hexec⟩ := acquire_accepted (u := ((s.takeSlot l).allocate i r).enterList i p false)
      (r := r) ht rfl (by simp) rfl (by simp) heval
    refine ⟨q, hlease, ?_⟩
    rw [hexec, show q.tag = tag from congrArg Lease.tag hkeep]

end Sys2Proof.Machine
end

section
/-! PROOFS. Holding a lease: RENEW, RELEASE, WIDEN and NARROW of a link's own record (R64 to R78, R152). -/

namespace Sys2Proof.Machine

/-! ### The states of a record (Table 2-2) -/

theorem terminal_iff {p : Phase} : p.terminal = true ↔ p.holds = false ∧ p.queued = false := by
  simp [Phase.terminal, Phase.live]

theorem queued_not_terminal {p : Phase} (h : p.queued = true) : p.terminal = false := by
  simp [Phase.terminal, Phase.live, h]

theorem holds_not_terminal {p : Phase} (h : p.holds = true) : p.terminal = false := by
  simp [Phase.terminal, Phase.live, h]

theorem phase_of_state_held {p : Phase} (h : p.state = .held) : ∃ c w, p = .held c w := by
  cases p with
  | held c w => exact ⟨c, w, rfl⟩
  | _ => cases h

/-! The checks 4 to 6 that WIDEN and RENEW share (R65, R69). -/

theorem widenRecordCheck_terminal {r : Lease} (h : r.phase.terminal = true) :
    widenRecordCheck r = some .leaseEnded := if_pos h

theorem widenRecordCheck_queued {r : Lease} (h : r.phase.queued = true) : widenRecordCheck r = some .wrongState := by
  simp [widenRecordCheck, queued_not_terminal h, h]

theorem widenRecordCheck_yielding {r : Lease} (h : r.phase.isYielding = true) :
    widenRecordCheck r = some .yieldPending := by
  have hholds := isYielding_holds h
  simp [widenRecordCheck, holds_not_terminal hholds, holds_not_queued hholds, h]

theorem widenRecordCheck_held {r : Lease} (h : r.phase.state = .held) : widenRecordCheck r = none := by
  obtain ⟨c, w, hp⟩ := phase_of_state_held h
  rw [widenRecordCheck, hp]
  rfl

/-- RENEW makes the checks of the record that WIDEN makes, and then looks at the clock and the renewals. -/
theorem renewCheck_eq (s : State) (r : Lease) : renewCheck s r = (widenRecordCheck r).or
    (if !s.running then some .timeHalted
      else if r.limits.renewalLimit ≤ r.renewals then some .renewLimit else none) := by
  unfold renewCheck widenRecordCheck
  by_cases hterminal : r.phase.terminal = true
  · simp [hterminal]
  by_cases hqueued : r.phase.queued = true
  · simp [hterminal, hqueued]
  by_cases hyielding : r.phase.isYielding = true
  · simp [hterminal, hqueued, hyielding]
  · simp [hterminal, hqueued, hyielding]

/-! ### A request on the link's own record (R20, R21, R63) -/

section
variable {s : State} {l : Link} {f : List Byte} {kind : Byte} {len : Nat} {i : SlotId} {r : Lease}
  {eval : List Byte → State → State × OutFrame} {k : SlotId → Lease → State × OutFrame}

theorem ownRequest_names (h : OwnRequest s l f kind len i r) :
    s.handleNames (frameByte f 1) (frameByte f 2) i r := by
  obtain ⟨-, -, -, hn, -⟩ := h
  exact hn

/-- A request on the link's own record passes the checks common to all that carry a handle. -/
theorem ownRequest_taken (h : OwnRequest s l f kind len i r)
    (he : eval f (s.takeSlot l) = withHandle len kind l f (s.takeSlot l) k) :
    takeRequest l (· == kind) eval s = (k i r).1.placeReply s l (k i r).2 := by
  obtain ⟨ht, hk, hlen, hn, ho⟩ := h
  rw [takeRequest_of_takes (kind := (· == kind)) ht (beq_iff_eq.mpr hk), he,
    withHandle_own (s := s.takeSlot l) hlen hn ho]

/-- A request on the link's own record whose evaluation leaves the part as `u`, but for the request taken. -/
theorem ownRequest_answered {u : State} {reply : OutFrame} (h : OwnRequest s l f kind len i r)
    (he : eval f (s.takeSlot l) = withHandle len kind l f (s.takeSlot l) k) (hk : k i r = (u.takeSlot l, reply)) :
    takeRequest l (· == kind) eval s = u.answered s l reply := by
  rw [ownRequest_taken h he, hk, takeSlot_placeReply]

/-- A request on the link's own record that fails a check of its own. -/
theorem ownRequest_refused {c : RefuseCause} (h : OwnRequest s l f kind len i r)
    (he : eval f (s.takeSlot l) = withHandle len kind l f (s.takeSlot l) k)
    (hk : k i r = (s.takeSlot l, refuse kind (handleIdent f) c)) :
    takeRequest l (· == kind) eval s =
      s.answered s l ⟨[0x21, kind, slotByte i, s.generation i, c.code], none⟩ := by
  rw [handleIdent_of_names (ownRequest_names h)] at hk
  exact ownRequest_answered h he hk

end

/-! ### RENEW (R65 to R67) -/

section
variable {s : State} {l : Link} {f : List Byte} {i : SlotId} {r : Lease}

theorem renew_refused {c : RefuseCause} (h : OwnRequest s l f 0x11 5 i r) (hc : renewCheck s r = some c) :
    exec (.renew l) s = .next (s.answered s l ⟨[0x21, 0x11, slotByte i, s.generation i, c.code], none⟩) := by
  have hc' : renewCheck (s.takeSlot l) r = some c := hc
  exact congrArg Host.Outcome.next (ownRequest_refused h (eval := evalRenew l) rfl (by simp only [hc']))

theorem renew_accepted (h : OwnRequest s l f 0x11 5 i r) (hc : renewCheck s r = none) :
    exec (.renew l) s = .next ((s.setLease i (r.renewed (frameWord f 3))).answered s l
      (leaseReply kindRenew true s i (r.renewed (frameWord f 3)))) := by
  have hc' : renewCheck (s.takeSlot l) r = none := hc
  have hg : ∀ q, ((s.takeSlot l).setLease i q).generation i = s.generation i := by simp
  refine congrArg Host.Outcome.next (ownRequest_answered h (eval := evalRenew l) rfl ?_)
  simp only [hc', leaseReply, State.reportOf, hg]
  rfl

end

/-- Settles O10: the checks in their order, and the record renewed. -/
theorem renewOutcome : Obligations.RenewOutcome := by
  intro l f s i r h refused term r'
  refine ⟨fun hp => ?_, fun hp => ?_, fun hp => ?_, fun hp hrun => ?_, fun hp hrun hlim => ?_,
    fun hp hrun hlim => ?_⟩
  · exact renew_refused (c := .leaseEnded) h (by simp [renewCheck_eq, widenRecordCheck_terminal hp])
  · exact renew_refused (c := .wrongState) h (by simp [renewCheck_eq, widenRecordCheck_queued hp])
  · exact renew_refused (c := .yieldPending) h (by simp [renewCheck_eq, widenRecordCheck_yielding hp])
  · exact renew_refused (c := .timeHalted) h (by simp [renewCheck_eq, widenRecordCheck_held hp, hrun])
  · exact renew_refused (c := .renewLimit) h (by simp [renewCheck_eq, widenRecordCheck_held hp, hrun, hlim])
  · exact renew_accepted h (by simp [renewCheck_eq, widenRecordCheck_held hp, hrun, hlim])

/-! ### RELEASE (R76 to R78) -/

section
variable {s : State} {l : Link} {f : List Byte} {i : SlotId} {r : Lease}

/-- RELEASE of the link's own record is never refused; it reports the state found (R78). -/
theorem release_taken (h : OwnRequest s l f 0x12 3 i r) :
    exec (.release l) s = .next (((s.takeSlot l).releaseLease i r).placeReply s l
      ⟨[0x20, 0x12, slotByte i, s.generation i, r.tag, r.phase.state.code, r.phase.endCode], none⟩) :=
  congrArg Host.Outcome.next (ownRequest_taken h (eval := evalRelease l) rfl)

theorem releaseLease_of_holds (h : r.phase.holds = true) :
    s.releaseLease i r = ((s.zonesGivenUp r.zones).recordFreed i).grantScan := by
  rw [State.releaseLease, if_pos h, giveUpZones_eq, freeSlot_eq]

theorem releaseLease_of_queued (h : r.phase.queued = true) :
    s.releaseLease i r = ((s.leaveList i).recordFreed i).grantScan := by
  rw [State.releaseLease, queued_not_holds h, if_neg Bool.false_ne_true, if_pos h, freeSlot_eq]

theorem releaseLease_of_terminal (h : r.phase.terminal = true) : s.releaseLease i r = s.recordFreed i := by
  obtain ⟨hholds, hqueued⟩ := terminal_iff.mp h
  rw [State.releaseLease, hholds, hqueued, if_neg Bool.false_ne_true, if_neg Bool.false_ne_true, freeSlot_eq]

/-- A live record has no end cause (Table 2-3). -/
theorem endCode_of_live {p : Phase} (h : p.live = true) : p.endCode = 0 := by
  cases p with
  | revoked c => cases h
  | lapsed c => cases h
  | _ => rfl

theorem recordFreed_lease (s : State) (i : SlotId) : (s.recordFreed i).lease i = none := by
  simp [State.recordFreed, State.lease, State.slot]

/-- A record freed is one fewer slot that is not FREE (R34). -/
theorem recordFreed_occupied (h : s.lease i = some r) : (s.recordFreed i).occupied + 1 = s.occupied := by
  have hslot : (s.slots.get i).lease = some r := h
  have hcount := Table.count_set (fun x => match x.lease with | some _ => true | none => false) s.slots i
    ⟨s.generation i, none⟩
  simp only [hslot, if_true, Bool.false_eq_true, if_false] at hcount
  exact hcount

theorem dirtyAt_of_free (k : Link) (h : s.lease i = none) : s.dirtyAt k i = false := by
  simp [State.dirtyAt, h]

end

/-- Settles O11: a live record reports no end cause, and its release is the change named. -/
theorem releaseOfLiveRecord : Obligations.ReleaseOfLiveRecord := by
  intro l f s i r h reply
  refine ⟨fun hp => ?_, fun hp => ?_⟩
  · rw [release_taken h, releaseLease_of_holds hp, endCode_of_live (by simp [Phase.live, hp])]
  · rw [release_taken h, releaseLease_of_queued hp, endCode_of_live (by simp [Phase.live, hp])]

/-- Settles O12: the slot is FREE, so no link finds a dirty record there, and the count falls by one. -/
theorem releaseOfTerminalRecord : Obligations.ReleaseOfTerminalRecord := by
  intro l f s i r h hp
  obtain ⟨-, hlease, -⟩ := ownRequest_names h
  refine ⟨?_, recordFreed_lease s i, recordFreed_occupied hlease,
    fun k => dirtyAt_of_free k (recordFreed_lease s i)⟩
  rw [release_taken h, releaseLease_of_terminal hp]
  exact congrArg Host.Outcome.next (placeReply_takeSlot_of (u := s.recordFreed i) s rfl)

/-! ### WIDEN (R69 to R71, R152) -/

section
variable {s : State} {l : Link} {f : List Byte} {i : SlotId} {r : Lease} {z : ZoneId}

/-- WIDEN refused for the record's state. -/
theorem widen_refused_record {c : RefuseCause} (h : OwnRequest s l f 0x13 4 i r)
    (hc : widenRecordCheck r = some c) :
    exec (.widen l) s = .next (s.answered s l ⟨[0x21, 0x13, slotByte i, s.generation i, c.code], none⟩) :=
  congrArg Host.Outcome.next (ownRequest_refused h (eval := evalWiden l) rfl (by simp only [hc]))

/-- WIDEN of a HELD record by a number that is no zone. -/
theorem widen_refused_number (h : OwnRequest s l f 0x13 4 i r) (hp : r.phase.state = .held)
    (hz : 64 ≤ (frameByte f 3).toNat) :
    exec (.widen l) s = .next (s.answered s l ⟨[0x21, 0x13, slotByte i, s.generation i, 3], none⟩) := by
  have hnone : zoneOf (frameByte f 3) = none := belowOf_eq_none.mpr hz
  exact congrArg Host.Outcome.next (ownRequest_refused h (eval := evalWiden l) (c := .badField) rfl
    (by simp only [widenRecordCheck_held hp, hnone]))

/-- WIDEN of a HELD record refused for the zone. -/
theorem widen_refused_zone {c : RefuseCause} (h : OwnRequest s l f 0x13 4 i r) (hp : r.phase.state = .held)
    (hz : (frameByte f 3).toNat = z.1) (hc : widenZoneCheck s r z = some c) :
    exec (.widen l) s = .next (s.answered s l ⟨[0x21, 0x13, slotByte i, s.generation i, c.code], none⟩) := by
  have hsome : zoneOf (frameByte f 3) = some z := belowOf_eq_some.mpr hz
  have hc' : widenZoneCheck (s.takeSlot l) r z = some c := hc
  exact congrArg Host.Outcome.next (ownRequest_refused h (eval := evalWiden l) rfl
    (by simp only [widenRecordCheck_held hp, hsome, hc']))

theorem widen_accepted (h : OwnRequest s l f 0x13 4 i r) (hp : r.phase.state = .held)
    (hz : (frameByte f 3).toNat = z.1) (hc : widenZoneCheck s r z = none) :
    exec (.widen l) s = .next (((s.setLease i (s.widened r z)).zonesTaken i [z]).answered s l
      (zoneReply kindWiden (frameByte f 3) s i (s.widened r z))) := by
  have hsome : zoneOf (frameByte f 3) = some z := belowOf_eq_some.mpr hz
  have hc' : widenZoneCheck (s.takeSlot l) r z = none := hc
  have hwidened : (s.takeSlot l).widened r z = s.widened r z := rfl
  have hg : ∀ q, (((s.takeSlot l).setLease i q).zonesTaken i [z]).generation i = s.generation i := by
    simp [← takeZones_eq]
  refine congrArg Host.Outcome.next (ownRequest_answered h (eval := evalWiden l) rfl ?_)
  simp only [widenRecordCheck_held hp, hsome, hc', hwidened, zoneReply, State.reportOf, takeZones_eq, hg]
  rfl

/-- The record that WIDEN makes of a HELD one is HELD, and as often warned (R70). -/
theorem widened_held (h : r.phase.state = .held) :
    (s.widened r z).phase =
      .held (min r.phase.countdown (s.limitsOf (r.zones ++ [z])).maxDuration) r.phase.warned := by
  obtain ⟨c, w, hp⟩ := phase_of_state_held h
  simp [State.widened, hp, Phase.clampLease, Phase.countdown, Phase.warned]

/-! The checks 7 to 14 of R69. -/

theorem widenZoneCheck_listed (h : z ∈ r.zones) : widenZoneCheck s r z = some .badField := by
  simp [widenZoneCheck, h]

theorem widenZoneCheck_full (h : z ∉ r.zones) (hfull : 4 ≤ r.zones.length) :
    widenZoneCheck s r z = some .listLimit := by
  simp [widenZoneCheck, h, hfull]

theorem widenZoneCheck_disabled (h : z ∉ r.zones) (hroom : r.zones.length < 4)
    (hz : (s.zone z).state = .disabled) : widenZoneCheck s r z = some .zoneDisabled := by
  simp [widenZoneCheck, h, Nat.not_le.mpr hroom, hz]

theorem widenZoneCheck_fenced (h : z ∉ r.zones) (hroom : r.zones.length < 4)
    (hz : (s.zone z).state.isPending = true ∨ (s.zone z).state = .fenced) :
    widenZoneCheck s r z = some .zoneFenced := by
  cases hs : (s.zone z).state with
  | fencePending k => simp [widenZoneCheck, h, Nat.not_le.mpr hroom, hs]
  | fenced => simp [widenZoneCheck, h, Nat.not_le.mpr hroom, hs]
  | _ => simp [hs, ZoneState.isPending] at hz

theorem widenZoneCheck_held (h : z ∉ r.zones) (hroom : r.zones.length < 4) {k : SlotId}
    (hz : (s.zone z).state = .held k) : widenZoneCheck s r z = some .zoneHeld := by
  simp [widenZoneCheck, h, Nat.not_le.mpr hroom, hz]

/-- For a FREE zone the earmark, the clock and the renewals decide. -/
theorem widenZoneCheck_free (h : z ∉ r.zones) (hroom : r.zones.length < 4) (hz : (s.zone z).state = .free) :
    widenZoneCheck s r z =
      if (s.zone z).earmark.isSome then some .zoneEarmarked
      else if !s.running then some .timeHalted
      else if (s.limitsOf (r.zones ++ [z])).renewalLimit < r.renewals then some .renewLimit
      else none := by
  simp [widenZoneCheck, h, Nat.not_le.mpr hroom, hz]

end

/-- Settles O13: the checks of the record, then those of the zone, and the record widened. -/
theorem widenOutcome : Obligations.WidenOutcome := by
  intro l f s i r h refused
  refine ⟨fun hp => widen_refused_record h (widenRecordCheck_terminal hp),
    fun hp => widen_refused_record h (widenRecordCheck_queued hp),
    fun hp => widen_refused_record h (widenRecordCheck_yielding hp), widen_refused_number h, ?_⟩
  intro z hp hz lim r'
  have no : ∀ c, widenZoneCheck s r z = some c → refused c.code := fun c => widen_refused_zone h hp hz
  refine ⟨fun hm => no _ (widenZoneCheck_listed hm), fun hm hfull => no _ (widenZoneCheck_full hm hfull),
    fun hm hroom => ?_⟩
  have hfree : (s.zone z).state = .free → _ := widenZoneCheck_free hm hroom
  refine ⟨fun hs => no _ (widenZoneCheck_disabled hm hroom hs), fun hs => no _ (widenZoneCheck_fenced hm hroom hs),
    fun ⟨k, hs⟩ => no _ (widenZoneCheck_held hm hroom hs), fun hs he => ?_, fun hs he hrun => ?_,
    fun hs he hrun hlim => ?_, fun hs he hrun hlim => ?_⟩
  · exact no .zoneEarmarked (by simp [hfree hs, Option.isSome_iff_ne_none.mpr he])
  · exact no .timeHalted (by simp [hfree hs, he, hrun])
  · exact no .renewLimit (by simpa [hfree hs, he, hrun] using hlim)
  · have hnew : s.widened r z = r' := by
      rw [show s.widened r z = { r' with phase := (s.widened r z).phase } from rfl, widened_held hp]
    have haccept := widen_accepted h hp hz (by simpa [hfree hs, he, hrun] using hlim)
    rw [hnew] at haccept
    rw [haccept]
    simp [zoneReply, State.reportOf, r', lim, kindAccept, kindWiden, Phase.state, RecordState.code, Phase.warned,
      Phase.countdown]

/-! ### NARROW (R72 to R74, R152) -/

section
variable {s : State} {l : Link} {f : List Byte} {i : SlotId} {r : Lease} {z : ZoneId}

/-- NARROW refused for the record's state. -/
theorem narrow_refused_record {c : RefuseCause} (h : OwnRequest s l f 0x14 4 i r)
    (hc : narrowRecordCheck r = some c) :
    exec (.narrow l) s = .next (s.answered s l ⟨[0x21, 0x14, slotByte i, s.generation i, c.code], none⟩) :=
  congrArg Host.Outcome.next (ownRequest_refused h (eval := evalNarrow l) rfl (by simp only [hc]))

theorem narrowRecordCheck_holds (h : r.phase.holds = true) : narrowRecordCheck r = none := by
  simp [narrowRecordCheck, holds_not_terminal h, holds_not_queued h]

/-- NARROW by a number that is none of the record's zones. -/
theorem narrow_refused_unlisted (h : OwnRequest s l f 0x14 4 i r) (hp : r.phase.holds = true)
    (hz : ∀ z ∈ r.zones, z.1 ≠ (frameByte f 3).toNat) :
    exec (.narrow l) s = .next (s.answered s l ⟨[0x21, 0x14, slotByte i, s.generation i, 21], none⟩) := by
  refine congrArg Host.Outcome.next (ownRequest_refused h (eval := evalNarrow l) (c := .notListed) rfl ?_)
  simp only [narrowRecordCheck_holds hp]
  cases hzone : zoneOf (frameByte f 3) with
  | none => rfl
  | some z =>
    have hm : z ∉ r.zones := fun hm => hz z hm (belowOf_eq_some.mp hzone).symm
    simp [hm, kindNarrow]

theorem narrow_refused_last (h : OwnRequest s l f 0x14 4 i r) (hp : r.phase.holds = true) (hm : z ∈ r.zones)
    (hz : (frameByte f 3).toNat = z.1) (hone : r.zones.length = 1) :
    exec (.narrow l) s = .next (s.answered s l ⟨[0x21, 0x14, slotByte i, s.generation i, 22], none⟩) := by
  have hsome : zoneOf (frameByte f 3) = some z := belowOf_eq_some.mpr hz
  exact congrArg Host.Outcome.next (ownRequest_refused h (eval := evalNarrow l) (c := .lastZone) rfl
    (by simp [narrowRecordCheck_holds hp, hsome, hm, hone, kindNarrow]))

/-- NARROW accepted: the zone is given up, and the reply reports the record as the scan leaves it (R73, R74). -/
theorem narrow_accepted {q : Lease} (h : OwnRequest s l f 0x14 4 i r) (hp : r.phase.holds = true) (hm : z ∈ r.zones)
    (hz : (frameByte f 3).toNat = z.1) (hmore : r.zones.length ≠ 1) {t : State}
    (ht : t = (((s.takeSlot l).setLease i (s.narrowed r z)).zonesGivenUp [z]).grantScan)
    (hq : t.lease i = some q) :
    exec (.narrow l) s = .next (t.placeReply s l (zoneReply kindNarrow (frameByte f 3) t i q)) := by
  have hsome : zoneOf (frameByte f 3) = some z := belowOf_eq_some.mpr hz
  have hnarrowed : (s.takeSlot l).narrowed r z = s.narrowed r z := rfl
  have hrecord : ∀ r', t.recordAt i r' = q := fun r' => by rw [State.recordAt, hq]; rfl
  refine congrArg Host.Outcome.next ((ownRequest_taken h (eval := evalNarrow l) rfl).trans ?_)
  simp [narrowRecordCheck_holds hp, hsome, hm, hmore, hnarrowed, giveUpZone_eq, ← ht, hrecord]

end

/-- Settles O14: the checks in their order, and the record narrowed as the scan leaves it. -/
theorem narrowOutcome : Obligations.NarrowOutcome := by
  intro l f s i r h refused
  refine ⟨fun hp => ?_, fun hp => ?_, narrow_refused_unlisted h, ?_⟩
  · exact narrow_refused_record (c := .leaseEnded) h (if_pos hp)
  · exact narrow_refused_record (c := .wrongState) h (by simp [narrowRecordCheck, queued_not_terminal hp, hp])
  intro z hm hp hz zs r' t
  refine ⟨narrow_refused_last h hp hm hz, fun hmore => ?_⟩
  have hr' : (((s.takeSlot l).setLease i r').zonesGivenUp [z]).lease i = some r' := by simp [← giveUpZones_eq]
  obtain ⟨q, hq, hkeep, -⟩ := grantScan_lease hr'
  have hzones : q.zones = zs := congrArg Lease.zones hkeep
  have hlimits : q.limits = s.limitsOf zs := congrArg Lease.limits hkeep
  have hg : t.generation i = s.generation i := by
    rw [grantScan_generation, ← giveUpZones_eq]
    simp
  refine ⟨q, hq, hzones, hlimits, (narrow_accepted (t := t) h hp hm hz hmore rfl hq).trans ?_⟩
  simp [zoneReply, State.reportOf, hg, hzones, kindAccept, kindNarrow]

end Sys2Proof.Machine
end

section
/-! PROOFS. The expiry engine: a tick as the passing of time over every record, the endings of the records due made
together, and one scan; and the three endings taken by themselves (R80 to R88). -/

namespace Sys2Proof.Machine

variable {s : State} {i : SlotId} {r : Lease} {rest : List HandedEvent}

/-! ### A record counted down and warned (R81, R82) -/

/-- The record after phases 1 and 2 of a tick. -/
def Lease.ticked (r : Lease) : Lease := { r with phase := tickedPhase r.limits.warnLead r.phase }

theorem warn_decrement (lead : Option Nat) (p : Phase) : p.decrement.warn lead = tickedPhase lead p := by
  cases p <;> cases lead <;> rfl

@[simp] theorem tickedPhase_keeps (lead : Option Nat) (p : Phase) :
    (tickedPhase lead p).holds = p.holds ∧ (tickedPhase lead p).queued = p.queued ∧
      (tickedPhase lead p).isYielding = p.isYielding := by
  cases p <;> exact ⟨rfl, rfl, rfl⟩

@[simp] theorem tickedPhase_countdowns (lead : Option Nat) (p : Phase) :
    (tickedPhase lead p).countdown = p.countdown - 1 ∧
      (tickedPhase lead p).yieldCountdown = p.yieldCountdown - 1 := by
  cases p <;> exact ⟨rfl, rfl⟩

/-- Phases 1 and 2 of a tick are one pass over the records. -/
theorem warnAll_decrementAll (s : State) : s.decrementAll.warnAll = s.mapLeases fun _ r => r.ticked := by
  refine congrArg (fun x => { s with slots := x }) (Table.ext_get fun i => ?_)
  simp only [State.decrementAll, State.mapLeases_fields, Table.get_mapIdx]
  cases (s.slots.get i).lease with
  | none => rfl
  | some r => simp [Lease.ticked, warn_decrement]

/-! ### The end that a tick brings (R83 to R86) -/

/-- The tick brings one of the record's countdowns to 0 (R83). -/
def Lease.dueNext (r : Lease) : Bool :=
  r.phase.live && (decide (r.phase.countdown ≤ 1) || (r.phase.isYielding && decide (r.phase.yieldCountdown ≤ 1)))

/-- The phase in which a record that is due ends (R84 to R86). -/
def Lease.endPhase (r : Lease) : Phase :=
  if r.phase.queued then .lapsed .waitOut else if r.phase.countdown ≤ 1 then .expired else .revoked .yieldLate

theorem beq_zero_after_tick (n : Nat) : (n - 1 == 0) = decide (n ≤ 1) := by
  rw [Bool.eq_iff_iff]
  simp [Nat.sub_eq_zero_iff_le]

theorem ticked_due (r : Lease) : r.ticked.due = r.dueNext := by
  simp only [Lease.due, Lease.dueNext, Lease.ticked, Phase.live, tickedPhase_keeps, tickedPhase_countdowns,
    beq_zero_after_tick]

theorem dueNext_iff : r.dueNext = true ↔ r.phase.live = true ∧
    (r.phase.countdown ≤ 1 ∨ (r.phase.isYielding = true ∧ r.phase.yieldCountdown ≤ 1)) := by
  simp [Lease.dueNext]

theorem isYielding_of_not_holds {p : Phase} (h : p.holds = false) : p.isYielding = false := by
  by_contra hy
  rw [isYielding_holds (Bool.eq_true_of_not_eq_false hy)] at h
  cases h

/-- The tick ends exactly the records that are due next: a holder by its lease or its yield countdown, an entry of the
list by its wait countdown. -/
theorem tickEnd_eq (r : Lease) : tickEnd r = if r.dueNext then some r.endPhase else none := by
  unfold tickEnd Lease.dueNext Lease.endPhase Phase.live
  cases hq : r.phase.queued with
  | true => simp [isYielding_of_not_holds (queued_not_holds hq)]
  | false =>
    cases hh : r.phase.holds with
    | true => by_cases hc : r.phase.countdown ≤ 1 <;> simp [hc]
    | false => simp

theorem tickEnd_eq_some {p : Phase} (h : tickEnd r = some p) : r.dueNext = true ∧ p = r.endPhase := by
  rw [tickEnd_eq] at h
  split at h
  · next hd => exact ⟨hd, (Option.some.inj h).symm⟩
  · cases h

theorem endPhase_not_holds (r : Lease) : r.endPhase.holds = false := by
  unfold Lease.endPhase
  repeat' split
  all_goals rfl

/-- What an end in phase `p` makes of a record: what is left of it, its zones, its place in the list and the cause it
sets (R84 to R87). -/
def tickEnding (enabled : Link → Bool) (r : Lease) (p : Phase) : Ending where
  left := if enabled r.owner then some { r with phase := p } else none
  gives := if r.phase.holds then r.zones else []
  leaves := r.phase.queued
  late := p == .revoked .yieldLate

/-- REVOKE_LATE is the cause of a holder that ends before its term. -/
theorem endPhase_late (r : Lease) :
    (r.endPhase == .revoked .yieldLate) = (!r.phase.queued && !decide (r.phase.countdown ≤ 1)) := by
  unfold Lease.endPhase
  cases r.phase.queued <;> by_cases hc : r.phase.countdown ≤ 1 <;> simp [hc]

/-- A record that time has passed over is due exactly where the tick ends it, and ends in that way. -/
theorem dueEnding_ticked (enabled : Link → Bool) (r : Lease) :
    dueEnding enabled r.ticked = (tickEnd r).map (tickEnding enabled r) := by
  rw [tickEnd_eq, dueEnding, ticked_due]
  split
  · simp only [Option.map_some, tickEnding, endPhase_late]
    simp [Lease.ticked, Lease.endPhase, Nat.sub_eq_zero_iff_le, bne, beq_zero_after_tick]
  · rfl

/-! ### The tick (R80, R88) -/

/-- The state after phases 1 and 2 of the tick taken, the oldest event handed over. -/
def State.ticked (s : State) (rest : List HandedEvent) : State :=
  (s.setClock { s.clock with handed := rest }).mapLeases fun _ r => r.ticked

theorem anyDue_iff : s.anyDue = true ↔ ∃ i r, s.lease i = some r ∧ r.due = true := by
  rw [State.anyDue, Table.any_list]
  refine exists_congr fun i => ?_
  rw [show (s.slots.get i).lease = s.lease i from rfl]
  cases s.lease i <;> simp

/-- Some record is due once time has passed exactly when the tick ends some record. -/
theorem anyDue_ticked :
    (s.ticked rest).anyDue = true ↔ ∃ i r, s.lease i = some r ∧ tickEnd r ≠ none := by
  simp only [anyDue_iff, State.ticked, State.mapLeases_views, State.setClock_views, Option.map_eq_some_iff]
  refine exists_congr fun i => ⟨?_, ?_⟩
  · rintro ⟨_, ⟨r, hr, rfl⟩, hd⟩
    exact ⟨r, hr, by simpa [tickEnd_eq, ticked_due] using hd⟩
  · rintro ⟨r, hr, hd⟩
    exact ⟨r.ticked, ⟨r, hr, rfl⟩, by simpa [tickEnd_eq, ticked_due] using hd⟩

theorem tickable_of_running (hr : s.inReset = false) (hw : s.restarting = false) (hrun : s.running = true) :
    s.tickable = true := by
  simp [State.tickable, hr, hw, hrun]

/-- A tick taken is the passing of time over the records, then the endings and the scan. -/
theorem exec_tick (hh : s.clock.handed = .tick :: rest) (hr : s.inReset = false) (hw : s.restarting = false)
    (hrun : s.running = true) : exec .tick s = .next (s.ticked rest).endAndScan := by
  refine congrArg Host.Outcome.next ?_
  simp [hh, tickable_of_running hr hw hrun, State.takeTick, warnAll_decrementAll, State.ticked]

/-- Settles O23: no record is due, so that the passing of time is all of the tick. -/
theorem tickCountsDownAndWarns : Obligations.TickCountsDownAndWarns := by
  intro s rest hh hr hw hrun hlong
  have hnone : (s.ticked rest).anyDue ≠ true := by
    rw [ne_eq, anyDue_ticked]
    rintro ⟨i, r, hlease, hend⟩
    obtain ⟨p, hp⟩ := Option.ne_none_iff_exists'.mp hend
    obtain ⟨hlive, hdue⟩ := dueNext_iff.mp (tickEnd_eq_some hp).1
    obtain ⟨hcount, hyield⟩ := hlong i r hlease hlive
    rcases hdue with hc | ⟨hy, hyc⟩
    · omega
    · have := hyield hy
      omega
  rw [exec_tick hh hr hw hrun, State.endAndScan, if_neg hnone]
  rfl

/-! ### The endings together (R83 to R87, R112) -/

section Together

variable (s rest) (enabled : Link → Bool)

/-- The ending that slot `i` comes to has a property, judged by the record before the tick. -/
theorem ending_ticked {q : Ending → Bool} {p : Lease → Bool}
    (h : ∀ r e, tickEnd r = some e → q (tickEnding enabled r e) = p r) (i : SlotId) :
    (((s.ticked rest).lease i).bind (dueEnding enabled)).any q = endsWith s p i := by
  simp only [State.ticked, State.mapLeases_views, State.setClock_views, endsWith]
  cases s.lease i with
  | none => rfl
  | some r =>
    simp only [Option.map_some, Option.bind_some, dueEnding_ticked]
    cases he : tickEnd r with
    | none => rfl
    | some e => simp [h r e he]

theorem leaves_ticked (i : SlotId) :
    (((s.ticked rest).lease i).bind (dueEnding enabled)).any (·.leaves) = endsWith s (fun r => r.phase.queued) i :=
  ending_ticked s rest enabled (fun _ _ _ => rfl) i

theorem someEnding_ticked {q : Ending → Bool} {p : Lease → Bool}
    (h : ∀ r e, tickEnd r = some e → q (tickEnding enabled r e) = p r) :
    (s.ticked rest).someEnding (dueEnding enabled) (List.finRange 128) q = someEnds s p :=
  congrArg (List.finRange 128).any (funext (ending_ticked s rest enabled h))

theorem someEnding_gives_ticked (z : ZoneId) :
    (s.ticked rest).someEnding (dueEnding enabled) (List.finRange 128) (fun e => decide (z ∈ e.gives)) =
      someEnds s fun r => r.phase.holds && decide (z ∈ r.zones) :=
  someEnding_ticked s rest enabled fun r _ _ => by cases hh : r.phase.holds <;> simp [tickEnding, hh]

theorem someEnding_late_ticked :
    (s.ticked rest).someEnding (dueEnding enabled) (List.finRange 128) (·.late) =
      someEnds s fun r => tickEnd r == some (.revoked .yieldLate) :=
  someEnding_ticked s rest enabled fun _ _ he => by simp [tickEnding, he]

theorem someEnding_freed_ticked :
    (s.ticked rest).someEnding (dueEnding enabled) (List.finRange 128) (·.left.isNone) =
      someEnds s fun r => !enabled r.owner :=
  someEnding_ticked s rest enabled fun r _ _ => by cases he : enabled r.owner <;> simp [tickEnding, he]

theorem leftOf_ticked (r : Lease) : leftOf (dueEnding enabled) r.ticked =
    match tickEnd r with
    | some p => if enabled r.owner then some { r with phase := p } else none
    | none => some r.ticked := by
  unfold leftOf
  rw [dueEnding_ticked]
  cases tickEnd r <;> rfl

end Together

theorem endTogether_ticked_slots (s : State) (rest : List HandedEvent) :
    ((s.ticked rest).endTogether (dueEnding fun l => (s.link l).line.enabled) (List.finRange 128)).slots =
      (tickEnded s rest).slots := by
  refine Table.ext_get fun i => ?_
  simp only [State.endTogether, tickEnded, State.ticked, State.mapLeases_fields, State.setClock_fields,
    Table.get_mapIdx, List.mem_finRange, if_true]
  cases (s.slots.get i).lease with
  | none => rfl
  | some r =>
    simp only [Option.map_some, Option.bind_some, leftOf_ticked]
    rfl

/-- The endings of the tick, made slot by slot, leave the state that the endings together leave. -/
theorem endAll_ticked (s : State) (rest : List HandedEvent) : (s.ticked rest).endAll = tickEnded s rest := by
  have hslots := endTogether_ticked_slots s rest
  rw [endAll_eq, show (fun l => ((s.ticked rest).link l).line.enabled) = fun l => (s.link l).line.enabled from rfl]
  refine State.tableOnly.ext (s := s.setClock { s.clock with handed := rest }) rfl rfl ?_ hslots ?_ rfl ?_ ?_
  · refine Table.ext_get fun z => ?_
    simp only [State.endTogether, tickEnded, Table.get_mapIdx, someEnding_gives_ticked]
    rfl
  · refine List.filter_congr fun i _ => ?_
    simp [leaves_ticked]
  · unfold State.endTogether tickEnded at hslots ⊢
    dsimp only at hslots ⊢
    rw [someEnding_freed_ticked, hslots]
    rfl
  · simp only [State.endTogether, tickEnded, someEnding_gives_ticked, someEnding_late_ticked]
    rfl

/-- A tick that ends a record makes the endings and then one scan. -/
theorem tick_endsThenScans : TickEndsThenScans := by
  intro s rest hh hr hw hrun hends
  rw [exec_tick hh hr hw hrun, State.endAndScan, if_pos (anyDue_ticked.mpr hends), endAll_ticked]

/-! ### The records due (R83 to R86) -/

/-- What the endings leave of a record that ends. -/
theorem tickEnded_lease {p : Phase} (hlease : s.lease i = some r) (hend : tickEnd r = some p) :
    (tickEnded s rest).lease i = if (s.link r.owner).line.enabled then some { r with phase := p } else none := by
  rw [State.lease, State.slot] at hlease ⊢
  simp [tickEnded, hlease, hend]

/-- A slot whose record ends is in the list no more. -/
theorem tickEnded_not_mem_waiting (hl : s.ListLaw) (hlease : s.lease i = some r) (hend : tickEnd r ≠ none) :
    i ∉ (tickEnded s rest).waiting := by
  intro hi
  obtain ⟨-, -, hmem⟩ := hl
  obtain ⟨hi, hkeep⟩ := List.mem_filter.mp hi
  obtain ⟨r', hr', hq⟩ := (hmem i).mp hi
  obtain rfl := Option.some.inj (hlease.symm.trans hr')
  simp [endsWith, hlease, hq, Option.isSome_iff_ne_none.mpr hend] at hkeep

/-- A scan allocates no slot. -/
theorem grantScan_lease_none (h : s.lease i = none) : s.grantScan.lease i = none := by
  rcases ((grantScan_scanKeeps s).2.2 i).2 with ⟨-, hnone⟩ | ⟨r, -, hr, -⟩
  · exact hnone
  · rw [h] at hr
    cases hr

/-- The scan after the endings leaves what they leave of a record that ends. -/
theorem tickEnded_grantScan_lease {p : Phase} (hl : s.ListLaw) (hlease : s.lease i = some r)
    (hend : tickEnd r = some p) : (tickEnded s rest).grantScan.lease i =
      if (s.link r.owner).line.enabled then some { r with phase := p } else none := by
  have hleft := tickEnded_lease (rest := rest) hlease hend
  by_cases he : (s.link r.owner).line.enabled = true
  · rw [if_pos he] at hleft ⊢
    obtain ⟨-, rfl⟩ := tickEnd_eq_some hend
    have hout : i ∉ (tickEnded s rest).waiting := tickEnded_not_mem_waiting hl hlease (by simp [hend])
    obtain ⟨-, hrests, -⟩ := grantScan_restsAt ⟨hout, hleft, endPhase_not_holds r⟩
    exact hrests
  · rw [if_neg he] at hleft ⊢
    exact grantScan_lease_none hleft

theorem dueRecords_end : DueRecordsEnd := by
  intro s t rest i r hh hr hw hrun hl hlease hlive hdue ht
  have hend : tickEnd r = some r.endPhase := by rw [tickEnd_eq, if_pos (dueNext_iff.mpr ⟨hlive, hdue⟩)]
  rw [tick_endsThenScans s rest hh hr hw hrun ⟨i, r, hlease, by simp [hend]⟩] at ht
  obtain rfl := Host.Outcome.next.inj ht
  exact tickEnded_grantScan_lease hl hlease hend

/-- Settles O24: the endings of the tick are made together, and the scan passes over the records that have ended. -/
theorem tickEndsDueRecords : Obligations.TickEndsDueRecords := ⟨dueRecords_end, tick_endsThenScans⟩

/-! ### The endings by themselves (R84 to R86, log entry 7) -/

theorem lapseAt_of_waitOut (hlease : s.lease i = some r) (hq : r.phase.queued = true) (hc : r.phase.countdown = 0) :
    s.lapseAt i = (s.leaveList i).recordEnded i r (.lapsed .waitOut) := by
  rw [← terminate_eq, State.lapseAt, hlease]
  exact if_pos (by simp [hq, hc])

theorem expireAt_of_termOut (hlease : s.lease i = some r) (hh : r.phase.holds = true) (hc : r.phase.countdown = 0) :
    s.expireAt i = (s.zonesGivenUp r.zones).recordEnded i r .expired := by
  rw [← terminate_eq, ← giveUpZones_eq, State.expireAt, hlease]
  exact if_pos (by simp [hh, hc])

theorem revokeLateAt_of_yieldOut (hlease : s.lease i = some r) (hy : r.phase.isYielding = true)
    (hyc : r.phase.yieldCountdown = 0) (hc : r.phase.countdown ≠ 0) : s.revokeLateAt i =
      ((s.zonesGivenUp r.zones).recordEnded i r (.revoked .yieldLate)).raiseTable flagRevokeLate := by
  rw [← terminate_eq, ← giveUpZones_eq, State.revokeLateAt, hlease]
  exact if_pos (by simp [hy, hyc, hc])

/-- Settles O25: the record leaves the list and ends. -/
theorem lapseOutcome : Obligations.LapseOutcome := by
  intro s i r hr hw hrun hlease hq hc
  refine congrArg Host.Outcome.next ?_
  rw [if_pos (tickable_of_running hr hw hrun), lapseAt_of_waitOut hlease hq hc]
  rfl

theorem expiry_outcome : ExpiryOutcome := by
  intro s i r hr hw hrun hlease hh hc
  refine congrArg Host.Outcome.next ?_
  rw [if_pos (tickable_of_running hr hw hrun), expireAt_of_termOut hlease hh hc]

theorem revokeForLateness_outcome : RevokeForLatenessOutcome := by
  intro s i r hr hw hrun hlease hy hyc hc
  refine congrArg Host.Outcome.next ?_
  rw [if_pos (tickable_of_running hr hw hrun), revokeLateAt_of_yieldOut hlease hy hyc hc]
  rfl

/-- Settles O26: the record gives up its zones and ends, with REVOKE_LATE for the late one alone. -/
theorem lateEndings : Obligations.LateEndings := ⟨expiry_outcome, revokeForLateness_outcome⟩

end Sys2Proof.Machine
end

section
/-! PROOFS. Yield, parking and resumption: PARK of a link's own record (R97 to R99). -/

namespace Sys2Proof.Machine

section
variable {s : State} {l : Link} {f : List Byte} {i : SlotId} {r : Lease}

/-! ### PARK's checks in their order (R97) -/

theorem parkCheck_terminal (h : r.phase.terminal = true) : parkCheck s r = some .leaseEnded := if_pos h

/-- A live record that does not yield: it waits, is parked, or is HELD. -/
theorem parkCheck_notYielding (h : r.phase.queued = true ∨ r.phase.state = .held) :
    parkCheck s r = some .notYielding := by
  rcases h with hq | hh
  · have hy : r.phase.isYielding = false := isYielding_of_not_holds (queued_not_holds hq)
    simp [parkCheck, queued_not_terminal hq, hy]
  · obtain ⟨c, w, hp⟩ := phase_of_state_held hh
    rw [parkCheck, hp]
    rfl

/-- For a YIELDING record its longest wait and the room in the list decide. -/
theorem parkCheck_yielding (h : r.phase.isYielding = true) : parkCheck s r =
    if r.limits.maxWait = 0 then some .waitForbidden
    else if 32 ≤ s.waiting.length then some .listFull
    else none := by
  simp [parkCheck, holds_not_terminal (isYielding_holds h), h]

/-! ### The answers to PARK (R97 to R99) -/

/-- PARK refused for any cause but a full list, which alone raises a cause of the table. -/
theorem park_refused {c : RefuseCause} (h : OwnRequest s l f 0x15 3 i r) (hc : parkCheck s r = some c)
    (hroom : c ≠ .listFull) :
    exec (.park l) s = .next (s.answered s l ⟨[0x21, 0x15, slotByte i, s.generation i, c.code], none⟩) := by
  have hc' : parkCheck (s.takeSlot l) r = some c := hc
  refine congrArg Host.Outcome.next (ownRequest_refused h (eval := evalPark l) rfl ?_)
  simp only [hc']

theorem park_listFull (h : OwnRequest s l f 0x15 3 i r) (hc : parkCheck s r = some .listFull) :
    exec (.park l) s = .next ((s.raiseTable 0x08).answered s l
      ⟨[0x21, 0x15, slotByte i, s.generation i, 9], none⟩) := by
  have hc' : parkCheck (s.takeSlot l) r = some .listFull := hc
  refine congrArg Host.Outcome.next (ownRequest_answered h (eval := evalPark l) rfl ?_)
  simp only [hc', handleIdent_of_names (ownRequest_names h)]
  rfl

/-- PARK accepted: the reply reports the record as the scan leaves it (R98, R99). -/
theorem park_accepted {q : Lease} (h : OwnRequest s l f 0x15 3 i r) (hc : parkCheck s r = none) {t : State}
    (ht : t = (s.takeSlot l).parkLease i r) (hq : t.lease i = some q) :
    exec (.park l) s = .next (t.placeReply s l (leaseReply kindPark true t i q)) := by
  have hc' : parkCheck (s.takeSlot l) r = none := hc
  have hrecord : t.recordAt i r = q := by rw [State.recordAt, hq]; rfl
  refine congrArg Host.Outcome.next ((ownRequest_taken h (eval := evalPark l) rfl).trans ?_)
  simp only [hc', ← ht, hrecord]

theorem parkLease_generation (s : State) (i : SlotId) (r : Lease) :
    (s.parkLease i r).generation i = s.generation i := by
  simp [State.parkLease, grantScan_generation]

/-- Of the record that PARK takes, only the phase and the renewals may differ after the scan (R98). -/
theorem parkLease_lease (s : State) (i : SlotId) (r : Lease) :
    ∃ q, (s.parkLease i r).lease i = some q ∧ q = { r with phase := q.phase, renewals := q.renewals } := by
  unfold State.parkLease
  obtain ⟨q, hq, hkeep, -⟩ := grantScan_lease (i := i) (r := { r with phase := .parked r.limits.maxWait s.sequence })
    (s := ((s.giveUpZones r.zones).setLease i { r with phase := .parked r.limits.maxWait s.sequence }).enterList i
      r.priority true) (by simp)
  exact ⟨q, hq, hkeep⟩

end

/-- Settles O15: the checks in their order, and the record parked as the scan leaves it. -/
theorem parkOutcome : Obligations.ParkOutcome := by
  intro l f s i r h refusal r' t
  refine ⟨fun hp => ?_, fun hp => ?_, fun hp hw => ?_, fun hp hw hfull => ?_, fun hp hw hroom => ?_⟩
  · exact park_refused h (parkCheck_terminal hp) (by decide)
  · exact park_refused h (parkCheck_notYielding hp) (by decide)
  · exact park_refused (c := .waitForbidden) h (by simp [parkCheck_yielding hp, hw]) (by decide)
  · exact park_listFull h (by simp [parkCheck_yielding hp, hw, hfull])
  · have ht : t = (s.takeSlot l).parkLease i r := by
      rw [State.parkLease, giveUpZones_eq]
      rfl
    obtain ⟨q, hq, hkeep⟩ := parkLease_lease (s.takeSlot l) i r
    rw [← ht] at hq
    have hg : t.generation i = s.generation i := by
      rw [ht]
      exact parkLease_generation (s.takeSlot l) i r
    have htag : q.tag = r.tag := by rw [hkeep]
    have hterm : q.term = r.term := by rw [hkeep]
    have hnone : parkCheck s r = none := by simp [parkCheck_yielding hp, hw, hroom]
    refine ⟨q, hq, (park_accepted h hnone ht hq).trans ?_⟩
    simp [leaseReply, State.reportOf, hg, htag, hterm, kindAccept, kindPark]

end Sys2Proof.Machine
end

section
/-! PROOFS. The host's overrides: FENCE in its two forms, LIFT and REVOKE (R108 to R118). -/

namespace Sys2Proof.Machine

section
variable {s u : State} {args : Table 8 Byte} {z : ZoneId} {h i : SlotId} {r : Lease} {o : Byte}
  {on : Bool → SlotId → State × CmdResult}

/-! ### The results of FENCE and LIFT (Table 7-1) -/

theorem fenceDoneWith_none (z : ZoneId) (o : Byte) (s : State) :
    fenceDoneWith z o none s = (s.grantScan, .ok (fenceRecord s.grantScan z o [0xFF, 0])) := rfl

theorem fenceDoneWith_some (z : ZoneId) (o : Byte) (h : SlotId) (g : Byte) (s : State) :
    fenceDoneWith z o (some (h, g)) s = (s.grantScan, .ok (fenceRecord s.grantScan z o [slotByte h, g])) := rfl

/-- A command that acts on a zone and revokes no record completes with its scan and the zone as the scan left it. -/
theorem takeCommand_fenceDone {code : Byte} {form : Table 8 Byte → Bool}
    {eval : Table 8 Byte → State → State × CmdResult} (ht : s.takesCommand code args) (hf : form args = true)
    (he : eval args s.served = fenceDoneWith z o none u) :
    takeCommand code form eval s = u.grantScan.completed .ok (fenceRecord u.grantScan z o [0xFF, 0]) :=
  takeCommand_completed ht hf (he.trans (fenceDoneWith_none z o u))

/-! ### FENCE by the state it finds (Table 7-2) -/

theorem fenceZone_disabled (hs : (s.zone z).state = .disabled) : fenceZone z on s = (s, .fail .wrongState) := by
  simp only [fenceZone, hs]

theorem fenceZone_free (hs : (s.zone z).state = .free) :
    fenceZone z on s = fenceDoneWith z 1 none (s.closeFree z) := by simp only [fenceZone, hs]

theorem fenceZone_fenced (hs : (s.zone z).state = .fenced) : fenceZone z on s = fenceDoneWith z 0 none s := by
  simp only [fenceZone, hs]

theorem fenceZone_held (hs : (s.zone z).state = .held h) : fenceZone z on s = on false h := by
  simp only [fenceZone, hs]

theorem fenceZone_fencePending (hs : (s.zone z).state = .fencePending h) : fenceZone z on s = on true h := by
  simp only [fenceZone, hs]

/-- FENCE leaves a zone with a holder to its form, which is told whether the zone was FENCE_PENDING. -/
theorem fenceZone_holder (hs : (s.zone z).state.holder = some h) :
    fenceZone z on s = on (s.zone z).state.isPending h := by
  cases hx : (s.zone z).state with
  | held k =>
    rw [hx] at hs
    cases hs
    exact fenceZone_held hx
  | fencePending k =>
    rw [hx] at hs
    cases hs
    exact fenceZone_fencePending hx
  | _ => rw [hx] at hs; cases hs

/-! ### FENCE WAIT (R109) -/

theorem evalFenceWait_of_names (s : State) (hz : (argOf args 0).toNat = z.1) (hf : argOf args 1 = 0) :
    evalFenceWait args s = fenceZone z (fun pending h =>
      if pending then fenceDoneWith z 0 none s
      else fenceDoneWith z 2 none (s.setZoneState z (.fencePending h))) s := by
  have hzone : zoneOf (argOf args 0) = some z := belowOf_eq_some.mpr hz
  simp only [evalFenceWait, hzone, hf, show belowOf 2 (0 : Byte) = some 0 from rfl]

theorem fenceWait_outcome : FenceWaitOutcome := by
  intro s args z hz hf ht answers withState
  have heval := evalFenceWait_of_names s.served hz hf
  have hform : (argOf args 1 != 1) = true := by rw [hf]; rfl
  refine ⟨fun hs => ?disabled, fun hs => ?free, fun h hs => ?held, fun h hs => ?pending, fun hs => ?fenced⟩
  case disabled =>
    exact congrArg Host.Outcome.next (takeCommand_completed ht hform (heval.trans (fenceZone_disabled hs)))
  case free =>
    exact congrArg Host.Outcome.next (takeCommand_fenceDone ht hform (heval.trans (fenceZone_free hs)))
  case held =>
    exact congrArg Host.Outcome.next (takeCommand_fenceDone ht hform (heval.trans (fenceZone_held hs)))
  case pending =>
    exact congrArg Host.Outcome.next (takeCommand_fenceDone ht hform (heval.trans (fenceZone_fencePending hs)))
  case fenced =>
    exact congrArg Host.Outcome.next (takeCommand_fenceDone ht hform (heval.trans (fenceZone_fenced hs)))

/-! ### FENCE FORCE (R111) -/

theorem evalFenceForce_of_names (s : State) (hz : (argOf args 0).toNat = z.1) (hf : argOf args 1 = 1) :
    evalFenceForce args s =
      fenceZone z (fun _ h => fenceDoneWith z 3 (some (h, s.generation h)) (s.forceFence z h)) s := by
  have hzone : zoneOf (argOf args 0) = some z := belowOf_eq_some.mpr hz
  simp only [evalFenceForce, hzone, hf, show belowOf 2 (1 : Byte) = some 1 from rfl]

/-- FORCE closes the zone, and its holder is REVOKED and gives up its other zones. -/
theorem forceFence_of_lease (hl : s.lease h = some r) : s.forceFence z h =
    ((s.closeFree z).zonesGivenUp (r.zones.filter (· != z))).recordEnded h r (.revoked .fence) := by
  rw [State.forceFence, hl]
  exact (terminate_eq ..).trans (by rw [giveUpZones_eq])

theorem fenceForce_outcome : FenceForceOutcome := by
  intro s args z hz hf ht answers closed
  have heval := evalFenceForce_of_names s.served hz hf
  have hform : (argOf args 1 != 0) = true := by rw [hf]; rfl
  refine ⟨fun hs => ?disabled, fun hs => ?free, fun hs => ?fenced, fun h r hh hl => ?holder⟩
  case disabled =>
    exact congrArg Host.Outcome.next (takeCommand_completed ht hform (heval.trans (fenceZone_disabled hs)))
  case free =>
    exact congrArg Host.Outcome.next (takeCommand_fenceDone ht hform (heval.trans (fenceZone_free hs)))
  case fenced =>
    exact congrArg Host.Outcome.next (takeCommand_fenceDone ht hform (heval.trans (fenceZone_fenced hs)))
  case holder =>
    have hforce : s.served.forceFence z h =
        (closed.zonesGivenUp (r.zones.filter (· != z))).recordEnded h r (.revoked .fence) :=
      forceFence_of_lease (s := s.served) hl
    have hrevoked := heval.trans (fenceZone_holder hh)
    rw [hforce, fenceDoneWith_some] at hrevoked
    exact congrArg Host.Outcome.next (takeCommand_completed ht hform hrevoked)

/-! ### LIFT (R115) -/

theorem evalLift_fenced (hz : (argOf args 0).toNat = z.1) (hs : (s.zone z).state = .fenced) :
    evalLift args s = fenceDoneWith z 4 none (s.setZoneState z .free) := by
  have hzone : zoneOf (argOf args 0) = some z := belowOf_eq_some.mpr hz
  simp only [evalLift, hzone, hs]

theorem evalLift_fencePending (hz : (argOf args 0).toNat = z.1) (hs : (s.zone z).state = .fencePending h) :
    evalLift args s = fenceDoneWith z 5 none (s.setZoneState z (.held h)) := by
  have hzone : zoneOf (argOf args 0) = some z := belowOf_eq_some.mpr hz
  simp only [evalLift, hzone, hs]

/-- There is no fence to lift on a FREE, DISABLED or HELD zone. -/
theorem evalLift_unfenced (hz : (argOf args 0).toNat = z.1)
    (hs : (s.zone z).state = .free ∨ (s.zone z).state = .disabled ∨ ∃ h, (s.zone z).state = .held h) :
    evalLift args s = (s, .fail .wrongState) := by
  have hzone : zoneOf (argOf args 0) = some z := belowOf_eq_some.mpr hz
  obtain hs | hs | ⟨h, hs⟩ := hs <;> simp only [evalLift, hzone, hs]

theorem lift_outcome : LiftOutcome := by
  intro s args z hz ht answers
  refine ⟨fun hs => ?fenced, fun h hs => ?pending, fun hs => ?unfenced⟩
  case fenced =>
    exact congrArg Host.Outcome.next (takeCommand_fenceDone ht rfl (evalLift_fenced (s := s.served) hz hs))
  case pending =>
    exact congrArg Host.Outcome.next (takeCommand_fenceDone ht rfl (evalLift_fencePending (s := s.served) hz hs))
  case unfenced =>
    exact congrArg Host.Outcome.next (takeCommand_completed ht rfl (evalLift_unfenced (s := s.served) hz hs))

/-! ### REVOKE (R117, R118) -/

theorem evalRevoke_of_terminal (hn : s.handleNames (argOf args 0) (argOf args 1) i r)
    (hp : r.phase.terminal = true) : evalRevoke args s = (s, .fail .wrongState) := by
  simp only [evalRevoke, matchHandle_eq_some.mpr hn, hp, if_true]

theorem evalRevoke_of_live (hn : s.handleNames (argOf args 0) (argOf args 1) i r)
    (hp : r.phase.terminal = false) : evalRevoke args s = (s.revokeLease i r, .ok (s.revokeResults r)) := by
  simp only [evalRevoke, matchHandle_eq_some.mpr hn, hp, Bool.false_eq_true, if_false]

theorem revokeLease_of_holds (s : State) (i : SlotId) (hp : r.phase.holds = true) :
    s.revokeLease i r = ((s.zonesGivenUp r.zones).recordEnded i r (.revoked .supervisor)).grantScan := by
  rw [State.revokeLease, if_pos hp, State.endHeld, terminate_eq, giveUpZones_eq]

theorem revokeLease_of_queued (s : State) (i : SlotId) (hp : r.phase.queued = true) :
    s.revokeLease i r = ((s.leaveList i).recordEnded i r (.revoked .supervisor)).grantScan := by
  rw [State.revokeLease, queued_not_holds hp, if_neg Bool.false_ne_true, State.endQueued, terminate_eq]

theorem revokeResults_of_holds (s : State) (hp : r.phase.holds = true) :
    s.revokeResults r = [r.phase.state.code, byteOf r.owner.1, r.tag, byteOf r.zones.length,
      byteOf (r.zones.countP fun z => (s.zone z).state.isPending), flagByte (!(s.link r.owner).line.enabled)] := by
  simp only [State.revokeResults, hp, if_true]

/-- A record that waits has no zones to give up. -/
theorem revokeResults_of_queued (s : State) (hp : r.phase.queued = true) :
    s.revokeResults r = [r.phase.state.code, byteOf r.owner.1, r.tag, 0, 0,
      flagByte (!(s.link r.owner).line.enabled)] := by
  simp only [State.revokeResults, queued_not_holds hp, Bool.false_eq_true, if_false]
  rfl

end

/-- Settles O37: each command by the evaluation of the zone's state. -/
theorem fenceAndLiftOutcomes : Obligations.FenceAndLiftOutcomes :=
  ⟨fenceWait_outcome, fenceForce_outcome, lift_outcome⟩

/-- Settles O38: a terminal record is refused; a live one ends as its phase says, holding or waiting. -/
theorem revokeOutcome : Obligations.RevokeOutcome := by
  intro s args i r ht hn freed
  have hn' : s.served.handleNames (argOf args 0) (argOf args 1) i r := hn
  refine ⟨fun hp => ?terminal, fun hp => ?holds, fun hp => ?queued⟩
  case terminal =>
    exact congrArg Host.Outcome.next (takeCommand_completed ht rfl (evalRevoke_of_terminal hn' hp))
  case holds =>
    have heval := evalRevoke_of_live hn' (holds_not_terminal hp)
    rw [revokeLease_of_holds _ _ hp, revokeResults_of_holds _ hp] at heval
    exact congrArg Host.Outcome.next (takeCommand_completed ht rfl heval)
  case queued =>
    have heval := evalRevoke_of_live hn' (queued_not_terminal hp)
    rw [revokeLease_of_queued _ _ hp, revokeResults_of_queued _ hp] at heval
    exact congrArg Host.Outcome.next (takeCommand_completed ht rfl heval)

end Sys2Proof.Machine
end

section
/-! PROOFS. The lease clock: the changes of its state, pulses on SYNCIN and its deadlines (R123 to R131). -/

namespace Sys2Proof.Machine

/-! ### The deadlines that stand (R123 to R126) -/

section
variable {s : State} {d : Deadline} {t u b r n : Nat}

theorem due_search (hs : s.clock.state = .search b) : s.due .search = some (b + 480000) := by
  simp only [State.due, hs, searchLimit]

theorem due_loss (hs : s.clock.state = .external r) : s.due .loss = some (r + 25200) := by
  simp only [State.due, hs, spanMax]

theorem due_internal (hs : s.clock.state = .internal n) : s.due .internal = some n := by
  simp only [State.due, hs]

theorem stateDeadline_cases (h : s.stateDeadline = some (u, d)) :
    (∃ b, s.clock.state = .search b ∧ u = b + 480000 ∧ d = .search) ∨
      (∃ r, s.clock.state = .external r ∧ u = r + 25200 ∧ d = .loss) ∨
      (s.clock.state = .internal u ∧ d = .internal) := by
  unfold State.stateDeadline at h
  cases hs : s.clock.state with
  | search b => rw [hs] at h; cases h; exact .inl ⟨b, rfl, rfl, rfl⟩
  | external r => rw [hs] at h; cases h; exact .inr (.inl ⟨r, rfl, rfl, rfl⟩)
  | internal n => rw [hs] at h; cases h; exact .inr (.inr ⟨rfl, rfl⟩)
  | halted => rw [hs] at h; cases h

/-- Every deadline that stands is the end of the lock run or that of the clock's state. -/
theorem due_cases (h : s.due d = some u) : d = .lockRun ∨ s.stateDeadline = some (u, d) := by
  cases d with
  | lockRun => exact .inl rfl
  | _ =>
    refine .inr ?_
    dsimp only [State.due] at h
    unfold State.stateDeadline
    split at h
    · next hs => rw [hs]; cases h; rfl
    · cases h

theorem due_of_stateDeadline (h : s.stateDeadline = some (u, d)) : s.due d = some u := by
  obtain ⟨b, hs, rfl, rfl⟩ | ⟨r, hs, rfl, rfl⟩ | ⟨hs, rfl⟩ := stateDeadline_cases h
  · exact due_search hs
  · exact due_loss hs
  · exact due_internal hs

theorem nextDue_cases (h : s.nextDue t = some d) :
    (d = .lockRun ∧ ∃ p, s.due .lockRun = some p ∧ p < t) ∨ ∃ q, s.stateDeadline = some (q, d) ∧ q < t := by
  unfold State.nextDue at h
  split at h
  · next p q e hp hq =>
    split_ifs at h with _ hlt hlt
    · cases h; exact .inl ⟨rfl, p, hp, hlt⟩
    · cases h; exact .inr ⟨q, hq, hlt⟩
  · next p hp _ =>
    split_ifs at h with hlt
    cases h
    exact .inl ⟨rfl, p, hp, hlt⟩
  · next q e _ hq =>
    split_ifs at h with hlt
    cases h
    exact .inr ⟨q, hq, hlt⟩
  · cases h

theorem quietUntil_iff : QuietUntil s t ↔ s.clock.now ≤ t ∧ ∀ d q, s.due d = some q → t ≤ q := by
  refine ⟨fun ⟨hnow, hpulse, hstate⟩ => ⟨hnow, fun d q hd => ?_⟩,
    fun ⟨hnow, hdue⟩ => ⟨hnow, fun p hp => ?_, ?_⟩⟩
  · obtain rfl | hd := due_cases hd
    · obtain ⟨p, hp, rfl⟩ := Option.map_eq_some_iff.mp hd
      exact hpulse p hp
    · obtain ⟨b, hs, rfl, -⟩ | ⟨r, hs, rfl, -⟩ | ⟨hs, -⟩ := stateDeadline_cases hd
      all_goals
        rw [hs] at hstate
        exact hstate
  · exact hdue .lockRun (p + 25200) (congrArg (Option.map (· + spanMax)) hp)
  · cases hs : s.clock.state with
    | search b => exact hdue .search _ (due_search hs)
    | external r => exact hdue .loss _ (due_loss hs)
    | internal n => exact hdue .internal _ (due_internal hs)
    | halted => trivial

theorem nextDue_of_quiet (h : QuietUntil s t) : s.nextDue t = none := by
  obtain ⟨-, hdue⟩ := quietUntil_iff.mp h
  cases hd : s.nextDue t with
  | none => rfl
  | some d =>
    obtain ⟨rfl, p, hp, hlt⟩ | ⟨q, hq, hlt⟩ := nextDue_cases hd
    · exact absurd (hdue .lockRun p hp) (Nat.not_le.mpr hlt)
    · exact absurd (hdue d q (due_of_stateDeadline hq)) (Nat.not_le.mpr hlt)

end

/-! ### Time that passes with no deadline in it -/

/-- The state with the present instant `t`. -/
def State.atInstant (s : State) (t : Nat) : State := s.setClock { s.clock with now := t }

theorem passTo_of_quiet {s : State} {t : Nat} (h : QuietUntil s t) : s.passTo t = s.atInstant t := by
  rw [State.passTo, State.passFor, nextDue_of_quiet h]
  show s.setClock { s.clock with now := max s.clock.now t } = _
  rw [Nat.max_eq_right h.1]
  rfl

/-! ### Changes of state and ticks handed over (R128 to R131) -/

section
variable {s : State} {x : ClockState}

/-- Of the states of the clock, code 3 is HALTED alone (Table 8-1). -/
theorem code_eq_halted (h : x.code = ClockState.halted.code) : x = .halted := by
  cases x with
  | halted => rfl
  | search b => exact absurd h (show (0 : Byte) ≠ 3 by decide)
  | external r => exact absurd h (show (1 : Byte) ≠ 3 by decide)
  | internal n => exact absurd h (show (2 : Byte) ≠ 3 by decide)

/-- The code of a state of the clock says whether it runs (Table 8-1). -/
theorem running_eq_code (x : ClockState) : x.running = (x.code == 1 || x.code == 2) := by
  cases x <;> rfl

theorem running_of_code {x y : ClockState} (h : x.code = y.code) : x.running = y.running := by
  rw [running_eq_code, h, ← running_eq_code]

theorem handTick_eq (s : State) (t : Nat) : s.handTick t = s.setClock (tickHanded s t s.clock) := by
  unfold State.handTick tickHanded
  split <;> rfl

theorem setClock_setClock (s : State) (c c' : Clock) : (s.setClock c).setClock c' = s.setClock c' := rfl

/-- A tick handed over with a change of source. -/
theorem handTick_raiseTime (s : State) (f : Byte) (c : Clock) (k : Nat) :
    ((s.setClock c).raiseTime f).handTick k = (s.setClock (tickHanded s k c)).raiseTime f := by
  rw [handTick_eq]
  rfl

/-- A new instant in the same state of the clock is no change. -/
theorem enterClock_same (h : s.clock.state.code = x.code) :
    s.enterClock x = s.setClock { s.clock with state := x } := if_pos h

theorem enterClock_other (h : s.clock.state.code ≠ x.code) :
    s.enterClock x = State.raiseTime (timeCauses s.clock.state x) (s.setClock { s.clock with
      state := x
      handed := if !s.running && x.running && !s.restarting then s.clock.handed ++ [.runningChange]
        else s.clock.handed }) := if_neg h

/-- The clock stops (R128). -/
theorem enterClock_halted (h : s.clock.state ≠ .halted) : s.enterClock .halted =
    State.raiseTime 0x03 (s.setClock { s.clock with state := .halted }) := by
  have hcode : s.clock.state.code ≠ ClockState.halted.code := fun hc => h (code_eq_halted hc)
  have hcause : timeCauses s.clock.state .halted = 0x03 := by
    simp only [timeCauses, ClockState.running, Bool.and_false]
    rfl
  rw [enterClock_other hcode, hcause]
  simp only [ClockState.running, Bool.and_false, Bool.false_and, Bool.false_eq_true, if_false]

/-- The clock changes its source and runs on (R128). -/
theorem enterClock_runsOn (h : s.running = true) (hx : x.running = true) (hc : s.clock.state.code ≠ x.code) :
    s.enterClock x = State.raiseTime 0x01 (s.setClock { s.clock with state := x }) := by
  have hcause : timeCauses s.clock.state x = 0x01 := by
    simp only [timeCauses, show s.clock.state.running = true from h, hx]
    rfl
  rw [enterClock_other hc, hcause]
  simp only [h, Bool.not_true, Bool.false_and, Bool.false_eq_true, if_false]

theorem enterClock_toExternal {n r : Nat} (h : s.clock.state = .internal n) : s.enterClock (.external r) =
    State.raiseTime 0x01 (s.setClock { s.clock with state := .external r }) :=
  enterClock_runsOn (congrArg ClockState.running h) rfl (by rw [h]; exact show (2 : Byte) ≠ 1 by decide)

theorem enterClock_toInternal {n r : Nat} (h : s.clock.state = .external r) : s.enterClock (.internal n) =
    State.raiseTime 0x01 (s.setClock { s.clock with state := .internal n }) :=
  enterClock_runsOn (congrArg ClockState.running h) rfl (by rw [h]; exact show (1 : Byte) ≠ 2 by decide)

/-- The clock starts, and the change is handed over (R128, R130, R131). -/
theorem enterClock_starts (h : s.running = false) (hx : x.running = true) : s.enterClock x =
    State.raiseTime 0x05 (s.setClock { s.clock with
      state := x
      handed := if s.restarting then s.clock.handed else s.clock.handed ++ [.runningChange] }) := by
  have hcode : s.clock.state.code ≠ x.code := fun hc => by
    have hsame := running_of_code hc
    rw [hx, show s.clock.state.running = false from h] at hsame
    cases hsame
  have hcause : timeCauses s.clock.state x = 0x05 := by
    simp only [timeCauses, show s.clock.state.running = false from h, hx]
    rfl
  rw [enterClock_other hcode, hcause]
  cases hr : s.restarting <;> simp [h, hx]

end

/-! ### Pulses (R123 to R126) -/

section
variable {s : State} {t : Nat}

theorem inSpan_iff (p t : Nat) : inSpan p t = true ↔ p + 22800 ≤ t ∧ t ≤ p + 25200 := by
  rw [inSpan, Bool.and_eq_true, decide_eq_true_iff, decide_eq_true_iff]
  rfl

/-- The model's lock run after a pulse is that of R123 and R124. -/
theorem validPulse_runAfter (c : Clock) (t : Nat) :
    (if c.validPulse t then min 8 (c.lockRun + 1) else 0) = runAfter c t := by
  unfold Clock.validPulse runAfter
  cases c.lastPulse with
  | none => rfl
  | some p => simp only [Bool.and_eq_true, inSpan_iff, bne_iff_ne, and_assoc]

theorem locks_iff (c : Clock) (t : Nat) : c.locks t = true ↔ isLock c t := by
  rw [Clock.locks, isLock, ← validPulse_runAfter]
  cases c.validPulse t with
  | false => simp
  | true => simp only [Bool.true_and, beq_iff_eq, if_true]; omega

theorem countPulse_atInstant (s : State) (t : Nat) :
    (s.atInstant t).countPulse t = s.setClock (pulsed s.clock t) := by
  rw [pulsed, ← validPulse_runAfter]
  rfl

theorem tickRoom_iff (c : Clock) (t : Nat) :
    c.tickRoom t = true ↔ ∀ k, c.lastTick = some k → k + 12000 ≤ t := by
  unfold Clock.tickRoom
  cases c.lastTick with
  | none => simp
  | some k => simp [show halfCycles = 12000 from rfl]

/-- A pulse, after the deadlines that fall due before it. -/
theorem exec_syncinPulse (e : Nat) (hr : s.inReset = false) :
    exec (.syncinPulse e) s = .next ((s.passTo (s.clock.now + e)).pulseAt (s.clock.now + e)) := by
  simp only [exec, execSyncinPulse, hr, Bool.false_eq_true, if_false]

/-- A pulse that no deadline comes before. -/
theorem exec_syncinPulse_of_quiet {e : Nat} (hr : s.inReset = false) (hq : QuietUntil s (s.clock.now + e)) :
    exec (.syncinPulse e) s = .next ((s.atInstant (s.clock.now + e)).pulseAt (s.clock.now + e)) := by
  rw [exec_syncinPulse e hr, passTo_of_quiet hq]

theorem pulseAt_external {r : Nat} (hs : s.clock.state = .external r) :
    (s.atInstant t).pulseAt t =
      if inSpan r t then ((s.setClock (pulsed s.clock t)).enterClock (.external t)).handTick t
      else s.setClock (pulsed s.clock t) := by
  have hs' : (s.atInstant t).clock.state = .external r := hs
  simp only [State.pulseAt, hs', countPulse_atInstant]

theorem pulseAt_internal {n : Nat} (hs : s.clock.state = .internal n) :
    (s.atInstant t).pulseAt t =
      if s.clock.locks t && s.clock.mode == .auto then
        if s.clock.tickRoom t then ((s.setClock (pulsed s.clock t)).enterClock (.external t)).handTick t
        else (s.setClock (pulsed s.clock t)).enterClock (.external t)
      else s.setClock (pulsed s.clock t) := by
  have hs' : (s.atInstant t).clock.state = .internal n := hs
  simp only [State.pulseAt, hs', countPulse_atInstant]
  rfl

theorem pulseAt_stopped (h : s.running = false) :
    (s.atInstant t).pulseAt t =
      if s.clock.locks t then ((s.setClock (pulsed s.clock t)).enterClock (.external t)).handTick t
      else s.setClock (pulsed s.clock t) := by
  unfold State.running at h
  cases hs : s.clock.state with
  | external r => rw [hs] at h; cases h
  | internal n => rw [hs] at h; cases h
  | _ =>
    have hs' : (s.atInstant t).clock.state = s.clock.state := rfl
    rw [hs] at hs'
    simp only [State.pulseAt, hs', countPulse_atInstant]
    rfl

theorem pulse_inExternal : PulseInExternal := by
  intro s elapsed r hr hs hq t
  have hlate : t ≤ r + 25200 := by
    obtain ⟨-, -, hstate⟩ := hq
    rwa [hs] at hstate
  rw [exec_syncinPulse_of_quiet hr hq, pulseAt_external hs]
  refine ⟨fun h => ?tick, fun h => ?discarded⟩
  case tick =>
    have hspan : inSpan r t = true := (inSpan_iff r t).mpr ⟨h, hlate⟩
    have hcode : (s.setClock (pulsed s.clock t)).clock.state.code = (ClockState.external t).code := by
      rw [show (s.setClock (pulsed s.clock t)).clock.state = .external r from hs]
      rfl
    rw [if_pos hspan, enterClock_same hcode, handTick_eq]
    rfl
  case discarded =>
    have hspan : ¬inSpan r t = true := fun hspan => Nat.not_le.mpr h ((inSpan_iff r t).mp hspan).1
    rw [if_neg hspan]
    rfl

theorem pulse_inInternal : PulseInInternal := by
  intro s elapsed n hr hs hq t c u room
  have henter : (s.setClock (pulsed s.clock t)).enterClock (.external t) = u.setClock c :=
    enterClock_toExternal (s := s.setClock (pulsed s.clock t)) hs
  have hauto : isLock s.clock t → s.clock.mode = .auto → (s.clock.locks t && s.clock.mode == .auto) = true :=
    fun hlock hmode => by rw [(locks_iff _ _).mpr hlock, hmode]; rfl
  rw [exec_syncinPulse_of_quiet hr hq, pulseAt_internal hs]
  refine ⟨fun hlock hmode hroom => ?tick, fun hlock hmode hroom => ?close, fun h => ?counted⟩
  case tick =>
    rw [if_pos (hauto hlock hmode), if_pos ((tickRoom_iff _ _).mpr hroom), henter, handTick_eq]
    rfl
  case close =>
    rw [if_pos (hauto hlock hmode), if_neg (mt (tickRoom_iff _ _).mp hroom), henter]
    rfl
  case counted =>
    have hnone : ¬(s.clock.locks t && s.clock.mode == .auto) = true := by
      rwa [Bool.and_eq_true, beq_iff_eq, locks_iff]
    rw [if_neg hnone]
    rfl

theorem pulse_whileStopped : PulseWhileStopped := by
  intro s elapsed hr hrun hq t c
  rw [exec_syncinPulse_of_quiet hr hq, pulseAt_stopped hrun]
  refine ⟨fun hlock => ?lock, fun h => ?counted⟩
  case lock =>
    rw [if_pos ((locks_iff _ _).mpr hlock), enterClock_starts (s := s.setClock (pulsed s.clock t)) hrun rfl,
      setClock_setClock, handTick_raiseTime]
    rfl
  case counted =>
    rw [if_neg (mt (locks_iff _ _).mp h)]
    rfl

end

/-- Settles O27: the pulse counted, then what it is in each state of the clock. -/
theorem pulseOutcomes : Obligations.PulseOutcomes := ⟨pulse_inExternal, pulse_inInternal, pulse_whileStopped⟩

/-! ### A deadline that falls due (R123 to R126) -/

section
variable {s : State} {d : Deadline} {u b r n : Nat}

/-- A deadline that stands, after those before it. -/
theorem awaitDue_of_due (hr : s.inReset = false) (hd : s.due d = some u) :
    s.awaitDue d = (s.passTo u).fire d := by
  simp only [State.awaitDue, hr, Bool.false_eq_true, if_false, hd]

/-- A deadline that no other comes before. -/
theorem awaitDue_of_quiet (hr : s.inReset = false) (hd : s.due d = some u) (hq : QuietUntil s u) :
    s.awaitDue d = (s.atInstant u).fire d := by
  rw [awaitDue_of_due hr hd, passTo_of_quiet hq]

theorem fire_search (hs : s.clock.state = .search b) :
    s.fire .search = s.enterClock (.internal (b + 480000 + 24000)) := by
  simp only [State.fire, hs, searchLimit, msCycles]

theorem fire_loss (hs : s.clock.state = .external r) : s.fire .loss =
    if s.clock.mode = .manualExternal then
      (s.setClock { s.clock with lossAt := some (r + 25200) }).enterClock .halted
    else ((s.setClock { s.clock with lossAt := some (r + 25200) }).enterClock
      (.internal (r + 25200 + 24000))).handTick (r + 25200) := by
  simp only [State.fire, hs, spanMax, msCycles]

theorem fire_loss_halts (hs : s.clock.state = .external r) (hm : s.clock.mode = .manualExternal) :
    s.fire .loss =
      State.raiseTime 0x03 (s.setClock { s.clock with state := .halted, lossAt := some (r + 25200) }) := by
  rw [fire_loss hs, if_pos hm, enterClock_halted, setClock_setClock]
  · rfl
  · exact fun hh => by cases hs.symm.trans hh

theorem fire_loss_internal (hs : s.clock.state = .external r) (hm : s.clock.mode ≠ .manualExternal) :
    s.fire .loss = State.raiseTime 0x01 (s.setClock (tickHanded s (r + 25200)
      { s.clock with state := .internal (r + 25200 + 24000), lossAt := some (r + 25200) })) := by
  rw [fire_loss hs, if_neg hm, enterClock_toInternal (r := r), setClock_setClock, handTick_raiseTime]
  · rfl
  · exact hs

theorem fire_internal (hs : s.clock.state = .internal n) :
    s.fire .internal = (s.enterClock (.internal (n + 24000))).handTick n := by
  simp only [State.fire, hs, msCycles]

theorem lockRun_timesOut : LockRunTimesOut := by
  intro s p hr hp hq
  have hd : s.due .lockRun = some (p + 25200) := congrArg (Option.map (· + spanMax)) hp
  rw [show exec .lockRunTimeout s = .next (s.awaitDue .lockRun) from rfl, awaitDue_of_quiet hr hd hq]
  rfl

theorem syncinLoss_outcome : SyncinLossOutcome := by
  intro s r hr hs hq now
  have hs' : (s.atInstant now).clock.state = .external r := hs
  rw [show exec .syncinLoss s = .next (s.awaitDue .loss) from rfl, awaitDue_of_quiet hr (due_loss hs) hq]
  refine ⟨fun hmode => ?halts, fun hmode => ?internal⟩
  case halts =>
    rw [fire_loss_halts hs' hmode]
    rfl
  case internal =>
    rw [fire_loss_internal hs' hmode]
    rfl

theorem internalTick_outcome : InternalTickOutcome := by
  intro s n hr hs hq
  have hs' : (s.atInstant n).clock.state = .internal n := hs
  rw [show exec .internalTick s = .next (s.awaitDue .internal) from rfl,
    awaitDue_of_quiet hr (due_internal hs) hq, fire_internal hs', enterClock_same (by rw [hs']; rfl), handTick_eq]
  rfl

theorem search_timesOut : SearchTimesOut := by
  intro s b hr hs hq
  have hs' : (s.atInstant (b + 480000)).clock.state = .search b := hs
  rw [show exec .searchTimeout s = .next (s.awaitDue .search) from rfl,
    awaitDue_of_quiet hr (due_search hs) hq, fire_search hs', enterClock_starts (by rw [State.running, hs']; rfl) rfl]
  rfl

end

/-- Settles O28: each deadline by what falls due at its instant. -/
theorem deadlineOutcomes : Obligations.DeadlineOutcomes :=
  ⟨lockRun_timesOut, syncinLoss_outcome, internalTick_outcome, search_timesOut⟩

end Sys2Proof.Machine
end

section
/-! PROOFS. The deadlines of the lease clock in their order (R123 to R126, log entry 4). -/

namespace Sys2Proof.Machine

/-! ### What a deadline leaves -/

section
variable {s : State} {d : Deadline} {t u : Nat}

/-- What a change of state leaves of the clock. -/
theorem enterClock_clock (s : State) (x : ClockState) :
    (s.enterClock x).clock.state = x ∧ (s.enterClock x).clock.lastPulse = s.clock.lastPulse ∧
      (s.enterClock x).clock.now = s.clock.now := by
  unfold State.enterClock
  dsimp only
  split <;> exact ⟨rfl, rfl, rfl⟩

/-- What a tick handed over leaves of the clock. -/
theorem handTick_clock (s : State) (k : Nat) :
    (s.handTick k).clock.state = s.clock.state ∧ (s.handTick k).clock.lastPulse = s.clock.lastPulse ∧
      (s.handTick k).clock.now = s.clock.now := by
  unfold State.handTick
  split <;> exact ⟨rfl, rfl, rfl⟩

/-- A change of state with its tick. -/
theorem handTick_enterClock_clock (s : State) (x : ClockState) (k : Nat) :
    ((s.enterClock x).handTick k).clock.state = x ∧
      ((s.enterClock x).handTick k).clock.lastPulse = s.clock.lastPulse ∧
      ((s.enterClock x).handTick k).clock.now = s.clock.now := by
  obtain ⟨hx, hp, hn⟩ := enterClock_clock s x
  obtain ⟨hx', hp', hn'⟩ := handTick_clock (s.enterClock x) k
  exact ⟨hx'.trans hx, hp'.trans hp, hn'.trans hn⟩

theorem stateDeadline_halted (h : s.clock.state = .halted) : s.stateDeadline = none := by
  rw [State.stateDeadline, h]

theorem stateDeadline_internal {n : Nat} (h : s.clock.state = .internal n) :
    s.stateDeadline = some (n, .internal) := by
  rw [State.stateDeadline, h]

/-- The deadline of the clock's state leaves the last pulse, and the next deadline is 1.000 ms later or none. -/
theorem fire_stateDeadline (h : s.stateDeadline = some (u, d)) :
    (s.fire d).clock.lastPulse = s.clock.lastPulse ∧ (s.fire d).clock.now = s.clock.now ∧
      ((s.fire d).stateDeadline = none ∨ (s.fire d).stateDeadline = some (u + 24000, .internal)) := by
  obtain ⟨b, hs, rfl, rfl⟩ | ⟨r, hs, rfl, rfl⟩ | ⟨hs, rfl⟩ := stateDeadline_cases h
  · rw [fire_search hs]
    obtain ⟨hx, hp, hn⟩ := enterClock_clock s (.internal (b + 480000 + 24000))
    exact ⟨hp, hn, .inr (stateDeadline_internal hx)⟩
  · rw [fire_loss hs]
    split
    · obtain ⟨hx, hp, hn⟩ := enterClock_clock (s.setClock { s.clock with lossAt := some (r + 25200) }) .halted
      exact ⟨hp, hn, .inl (stateDeadline_halted hx)⟩
    · obtain ⟨hx, hp, hn⟩ := handTick_enterClock_clock (s.setClock { s.clock with lossAt := some (r + 25200) })
        (.internal (r + 25200 + 24000)) (r + 25200)
      exact ⟨hp, hn, .inr (stateDeadline_internal hx)⟩
  · rw [fire_internal hs]
    obtain ⟨hx, hp, hn⟩ := handTick_enterClock_clock s (.internal (u + 24000)) u
    exact ⟨hp, hn, .inr (stateDeadline_internal hx)⟩

/-- The end of the lock run leaves the deadline of the clock's state. -/
theorem fire_lockRun_dues (s : State) : (s.fire .lockRun).due .lockRun = none ∧
    (s.fire .lockRun).stateDeadline = s.stateDeadline :=
  ⟨rfl, rfl⟩

theorem due_lockRun_congr {v : State} (h : v.clock.lastPulse = s.clock.lastPulse) :
    v.due .lockRun = s.due .lockRun := congrArg (Option.map (· + spanMax)) h

theorem fire_now (h : s.due d = some u) : (s.fire d).clock.now = s.clock.now := by
  obtain rfl | hd := due_cases h
  · rfl
  · exact (fire_stateDeadline hd).2.1

/-! ### Deadlines that do not meddle with each other -/

/-- The state with other values of the lock run, the last pulse and the present instant. -/
def State.retime (s : State) (run : Nat → Nat) (pulse : Option Nat → Option Nat) (now : Nat → Nat) : State :=
  s.setClock { s.clock with
    lockRun := run s.clock.lockRun, lastPulse := pulse s.clock.lastPulse, now := now s.clock.now }

theorem atInstant_eq_retime (s : State) (t : Nat) : s.atInstant t = s.retime id id fun _ => t := rfl

theorem fire_lockRun_eq_retime (s : State) :
    s.fire .lockRun = s.retime (fun _ => 0) (fun _ => none) id := rfl

section
variable (run : Nat → Nat) (pulse : Option Nat → Option Nat) (now : Nat → Nat)

theorem enterClock_retime (s : State) (x : ClockState) :
    (s.retime run pulse now).enterClock x = (s.enterClock x).retime run pulse now := by
  unfold State.enterClock
  dsimp only
  rw [show (s.retime run pulse now).clock.state = s.clock.state from rfl]
  split <;> rfl

theorem handTick_retime (s : State) (k : Nat) :
    (s.retime run pulse now).handTick k = (s.handTick k).retime run pulse now := by
  unfold State.handTick
  rw [show (s.retime run pulse now).restarting = s.restarting from rfl]
  split <;> rfl

/-- A deadline of the clock's state looks neither at the lock run nor at the present instant. -/
theorem fire_retime (h : s.stateDeadline = some (u, d)) :
    (s.retime run pulse now).fire d = (s.fire d).retime run pulse now := by
  obtain ⟨b, hs, rfl, rfl⟩ | ⟨r, hs, rfl, rfl⟩ | ⟨hs, rfl⟩ := stateDeadline_cases h
  · rw [fire_search hs, fire_search (s := s.retime run pulse now) hs, enterClock_retime]
  · rw [fire_loss hs, fire_loss (s := s.retime run pulse now) hs,
      show (s.retime run pulse now).clock.mode = s.clock.mode from rfl]
    split
    · exact enterClock_retime run pulse now (s.setClock { s.clock with lossAt := some (r + 25200) }) _
    · rw [← handTick_retime, ← enterClock_retime]
      rfl
  · rw [fire_internal hs, fire_internal (s := s.retime run pulse now) hs, enterClock_retime, handTick_retime]

end

theorem fire_atInstant (h : s.due d = some u) (t : Nat) : (s.atInstant t).fire d = (s.fire d).atInstant t := by
  obtain rfl | hd := due_cases h
  · rfl
  · rw [atInstant_eq_retime, fire_retime _ _ _ hd, ← atInstant_eq_retime]

theorem fire_lockRun_comm (h : s.stateDeadline = some (u, d)) :
    (s.fire .lockRun).fire d = (s.fire d).fire .lockRun := by
  rw [fire_lockRun_eq_retime, fire_retime _ _ _ h, ← fire_lockRun_eq_retime]

/-! ### The passing of time takes as many deadlines as fall due -/

/-- At most so many deadlines of the clock's states fall due before instant `t`: they lie 1.000 ms apart. -/
def State.stateDuesBefore (s : State) (t : Nat) : Nat :=
  match s.stateDeadline with
  | some (q, _) => (t + 23999 - q) / 24000
  | none => 0

/-- At most so many deadlines fall due before instant `t`, the end of the lock run among them. -/
def State.duesBefore (s : State) (t : Nat) : Nat :=
  (if (s.due .lockRun).isSome then 1 else 0) + s.stateDuesBefore t

theorem stateDuesBefore_none (h : s.stateDeadline = none) (t : Nat) : s.stateDuesBefore t = 0 := by
  rw [State.stateDuesBefore, h]

theorem stateDuesBefore_some (h : s.stateDeadline = some (u, d)) (t : Nat) :
    s.stateDuesBefore t = (t + 23999 - u) / 24000 := by
  rw [State.stateDuesBefore, h]

theorem stateDuesBefore_congr {v : State} (h : v.stateDeadline = s.stateDeadline) (t : Nat) :
    v.stateDuesBefore t = s.stateDuesBefore t := by
  rw [State.stateDuesBefore, h, State.stateDuesBefore]

theorem duesBefore_fire_lt (h : s.nextDue t = some d) : (s.fire d).duesBefore t < s.duesBefore t := by
  obtain ⟨rfl, p, hp, -⟩ | ⟨q, hq, hlt⟩ := nextDue_cases h
  · obtain ⟨hnone, hsame⟩ := fire_lockRun_dues s
    rw [State.duesBefore, State.duesBefore, stateDuesBefore_congr hsame, hnone, hp]
    simp
  · obtain ⟨hp, -, hnext⟩ := fire_stateDeadline hq
    rw [State.duesBefore, State.duesBefore, due_lockRun_congr hp, stateDuesBefore_some hq]
    refine Nat.add_lt_add_left ?_ _
    obtain hn | hn := hnext
    · rw [stateDuesBefore_none hn]
      omega
    · rw [stateDuesBefore_some hn]
      omega

theorem nextDue_of_duesBefore (h : s.duesBefore t = 0) : s.nextDue t = none := by
  cases hd : s.nextDue t with
  | none => rfl
  | some d =>
    have hlt := duesBefore_fire_lt hd
    omega

theorem passFor_of_nextDue_none (h : s.nextDue t = none) (n : Nat) :
    s.passFor n t = s.setClock { s.clock with now := max s.clock.now t } := by
  cases n with
  | zero => rfl
  | succ n => rw [State.passFor, h]

/-- Fuel for every deadline that falls due is enough. -/
theorem passFor_eq_passFor {n m : Nat} (hn : s.duesBefore t ≤ n) (hm : s.duesBefore t ≤ m) :
    s.passFor n t = s.passFor m t := by
  induction n generalizing s m with
  | zero =>
    have hd := nextDue_of_duesBefore (Nat.le_zero.mp hn)
    rw [passFor_of_nextDue_none hd, passFor_of_nextDue_none hd]
  | succ n ih =>
    cases hd : s.nextDue t with
    | none => rw [passFor_of_nextDue_none hd, passFor_of_nextDue_none hd]
    | some d =>
      have hlt := duesBefore_fire_lt hd
      cases m with
      | zero => omega
      | succ m =>
        rw [State.passFor, State.passFor, hd]
        exact ih (by omega) (by omega)

theorem due_of_nextDue (h : s.nextDue t = some d) : ∃ q, s.due d = some q := by
  obtain ⟨rfl, p, hp, -⟩ | ⟨q, hq, -⟩ := nextDue_cases h
  · exact ⟨p, hp⟩
  · exact ⟨q, due_of_stateDeadline hq⟩

/-- From which instant before `t` time passes to `t` is the same. -/
theorem passFor_atInstant {n k : Nat} (hk : k ≤ t) (hs : s.clock.now ≤ t) :
    (s.atInstant k).passFor n t = s.passFor n t := by
  induction n generalizing s with
  | zero =>
    show s.setClock { s.clock with now := max k t } = s.setClock { s.clock with now := max s.clock.now t }
    rw [Nat.max_eq_right hk, Nat.max_eq_right hs]
  | succ n ih =>
    rw [State.passFor, State.passFor, show (s.atInstant k).nextDue t = s.nextDue t from rfl]
    cases hd : s.nextDue t with
    | none =>
      show s.setClock { s.clock with now := max k t } = s.setClock { s.clock with now := max s.clock.now t }
      rw [Nat.max_eq_right hk, Nat.max_eq_right hs]
    | some d =>
      obtain ⟨q, hq⟩ := due_of_nextDue hd
      show ((s.atInstant k).fire d).passFor n t = (s.fire d).passFor n t
      rw [fire_atInstant hq, ih (by rwa [fire_now hq])]

/-! ### The earliest deadline -/

/-- Up to an instant with no deadline before it the fuel of `passTo` is enough. -/
theorem duesBefore_le (h : QuietUntil s u) : s.duesBefore t ≤ (t - u) / msCycles + 5 := by
  obtain ⟨-, hdue⟩ := quietUntil_iff.mp h
  have hrun : (if (s.due .lockRun).isSome then 1 else 0) ≤ 1 := by split <;> omega
  have hstate : s.stateDuesBefore t ≤ (t - u) / 24000 + 1 := by
    cases hd : s.stateDeadline with
    | none => exact (stateDuesBefore_none hd t).le.trans (Nat.zero_le _)
    | some x =>
      have hu : u ≤ x.1 := hdue x.2 x.1 (due_of_stateDeadline hd)
      rw [stateDuesBefore_some hd]
      omega
  rw [State.duesBefore, show msCycles = 24000 from rfl]
  omega

/-- The deadline taken at its instant leaves none before that instant. -/
theorem quietUntil_fire (h : QuietUntil s u) (hd : s.due d = some u) : QuietUntil (s.fire d) u := by
  obtain ⟨hnow, hdue⟩ := quietUntil_iff.mp h
  refine quietUntil_iff.mpr ⟨(fire_now hd).symm ▸ hnow, fun e q he => ?_⟩
  obtain rfl | hd := due_cases hd
  · obtain rfl | he := due_cases he
    · cases he
    · exact hdue e q (due_of_stateDeadline (s := s) he)
  · obtain ⟨hp, -, hnext⟩ := fire_stateDeadline hd
    obtain rfl | he := due_cases he
    · exact hdue .lockRun q (due_lockRun_congr hp ▸ he)
    · obtain hn | hn := hnext <;> rw [hn] at he <;> cases he
      omega

/-- Of two deadlines that fall due at one instant the end of the lock run comes first. -/
theorem nextDue_of_earliest (h : QuietUntil s u) (hd : s.due d = some u) (hu : u < t)
    (htie : d = .lockRun ∨ s.due .lockRun ≠ some u) : s.nextDue t = some d := by
  obtain ⟨-, hdue⟩ := quietUntil_iff.mp h
  obtain rfl | hstate := due_cases hd
  · unfold State.nextDue
    rw [hd]
    cases hs : s.stateDeadline with
    | none => exact if_pos hu
    | some x =>
      show (if u ≤ x.1 then _ else _) = _
      rw [if_pos (hdue x.2 x.1 (due_of_stateDeadline hs)), if_pos hu]
  · have hrun : d ≠ .lockRun := by
      rintro rfl
      obtain ⟨_, _, _, hd⟩ | ⟨_, _, _, hd⟩ | ⟨_, hd⟩ := stateDeadline_cases hstate <;> cases hd
    unfold State.nextDue
    rw [hstate]
    cases hp : s.due .lockRun with
    | none => exact if_pos hu
    | some p =>
      have hle := hdue .lockRun p hp
      have hne : p ≠ u := fun hpu => htie.elim hrun fun hne => hne (hpu ▸ hp)
      show (if p ≤ u then _ else _) = _
      rw [if_neg (by omega), if_pos hu]

/-- The deadline that comes next happens first. -/
theorem passTo_of_nextDue (h : QuietUntil s u) (hd : s.nextDue t = some d) :
    s.passTo t = (s.fire d).passTo t := by
  obtain ⟨q, hq⟩ := due_of_nextDue hd
  obtain ⟨hnow, hdue⟩ := quietUntil_iff.mp h
  have hlt := duesBefore_fire_lt hd
  have henough := duesBefore_le (t := t) (quietUntil_iff.mpr ⟨le_refl _, fun e p he => hnow.trans (hdue e p he)⟩)
  rw [State.passTo, State.passTo, fire_now hq, State.passFor, hd]
  exact passFor_eq_passFor (by omega) (by omega)

/-- The earliest deadline happens first; one at the same instant comes after it or before it with the same
outcome. -/
theorem passTo_fire (h : QuietUntil s u) (hd : s.due d = some u) (hu : u < t) :
    s.passTo t = (s.fire d).passTo t := by
  by_cases htie : d = .lockRun ∨ s.due .lockRun ≠ some u
  · exact passTo_of_nextDue h (nextDue_of_earliest h hd hu htie)
  · rw [not_or, not_not] at htie
    obtain ⟨hne, hrun⟩ := htie
    have hstate := (due_cases hd).resolve_left hne
    have hfirst := nextDue_of_earliest h hrun hu (.inl rfl)
    have hthen : (s.fire .lockRun).passTo t = ((s.fire .lockRun).fire d).passTo t := by
      have hq := quietUntil_fire h hrun
      have hd' : (s.fire .lockRun).due d = some u := due_of_stateDeadline (s := s.fire .lockRun) hstate
      exact passTo_of_nextDue hq (nextDue_of_earliest hq hd' hu (.inr fun hn => by cases hn))
    have hlast : (s.fire d).passTo t = ((s.fire d).fire .lockRun).passTo t := by
      have hq := quietUntil_fire h hd
      have hrun' : (s.fire d).due .lockRun = some u := (due_lockRun_congr (fire_stateDeadline hstate).1).trans hrun
      exact passTo_of_nextDue hq (nextDue_of_earliest hq hrun' hu (.inl rfl))
    calc s.passTo t = (s.fire .lockRun).passTo t := passTo_of_nextDue h hfirst
      _ = ((s.fire .lockRun).fire d).passTo t := hthen
      _ = ((s.fire d).fire .lockRun).passTo t := by rw [fire_lockRun_comm hstate]
      _ = (s.fire d).passTo t := hlast.symm

/-- The earliest deadline taken on its own leaves to happen what else falls due. -/
theorem passTo_after_deadline (h : QuietUntil s u) (hd : s.due d = some u) (hu : u < t) :
    s.passTo t = ((s.passTo u).fire d).passTo t := by
  have hq := quietUntil_fire h hd
  have hnow : (s.fire d).clock.now ≤ u := hq.1
  have henough := duesBefore_le (t := t) hq
  have hless : (t - u) / msCycles ≤ (t - (s.fire d).clock.now) / msCycles := Nat.div_le_div_right (by omega)
  calc s.passTo t = (s.fire d).passTo t := passTo_fire h hd hu
    _ = (s.fire d).passFor ((t - u) / msCycles + 5) t := passFor_eq_passFor (by omega) henough
    _ = ((s.fire d).atInstant u).passFor ((t - u) / msCycles + 5) t :=
      (passFor_atInstant (by omega) (by omega)).symm
    _ = ((s.fire d).atInstant u).passTo t := rfl
    _ = ((s.passTo u).fire d).passTo t := by rw [passTo_of_quiet h, fire_atInstant hd]

/-! ### The commands of the deadlines -/

/-- A command with an instant stands for a deadline. -/
theorem deadline_of_dueAt {c : Instr} (h : dueAt s c = some u) :
    ∃ d : Deadline, s.due d = some u ∧ ∀ v : State, exec c v = .next (v.awaitDue d) := by
  cases c with
  | lockRunTimeout => exact ⟨.lockRun, h, fun _ => rfl⟩
  | syncinLoss => exact ⟨.loss, h, fun _ => rfl⟩
  | internalTick => exact ⟨.internal, h, fun _ => rfl⟩
  | searchTimeout => exact ⟨.search, h, fun _ => rfl⟩
  | _ => cases h

/-- A deadline leaves standing the one that falls due at another instant. -/
theorem due_fire_other {e : Deadline} {v : Nat} (hd : s.due d = some u) (he : s.due e = some v) (hne : u ≠ v) :
    (s.fire d).due e = some v := by
  obtain rfl | hstate := due_cases hd
  · obtain rfl | hstate := due_cases he
    · exact absurd (Option.some.inj (hd.symm.trans he)) hne
    · exact due_of_stateDeadline (s := s.fire .lockRun) hstate
  · obtain rfl | hstate' := due_cases he
    · exact (due_lockRun_congr (fire_stateDeadline hstate).1).trans he
    · exact absurd (congrArg Prod.fst (Option.some.inj (hstate.symm.trans hstate'))) hne

/-- SET_TIMEBASE taken, after the deadlines that fall due before it. -/
theorem exec_setTimebase (e : Nat) {args : Table 8 Byte} (h : s.takesDirect 0x10 args) :
    exec (.setTimebase e) s =
      .next ((evalSetTimebase args (s.passTo (s.clock.now + e))).1.completed
        (evalSetTimebase args (s.passTo (s.clock.now + e))).2.code
        (evalSetTimebase args (s.passTo (s.clock.now + e))).2.bytes) :=
  congrArg Host.Outcome.next (takeDirect_of_takes (code := codeSetTimebase) h)

end

/-- Settles O29: time passes alike with the earliest deadline taken on its own, whatever event it passes to. -/
theorem deadlinesComeFirst : Obligations.DeadlinesComeFirst := by
  intro s t c u hr hc hq hexec
  obtain ⟨d, hd, hcommand⟩ := deadline_of_dueAt hc
  have ht : t = (s.passTo u).fire d := by
    have hnext := (hcommand s).symm.trans hexec
    rw [awaitDue_of_quiet hr hd hq, ← passTo_of_quiet hq] at hnext
    exact (Host.Outcome.next.inj hnext).symm
  have hpass : ∀ v, u < v → s.passTo v = t.passTo v := fun v hv => ht ▸ passTo_after_deadline hq hd hv
  have honly : s.clockOnly t := ht ▸ (passTo_clockOnly s u).trans (fire_clockOnly _ d)
  have hr' : t.inReset = false := by rw [honly]; exact hr
  have hnow : t.clock.now = u := by
    rw [ht, passTo_of_quiet hq, fire_atInstant hd]
    rfl
  refine ⟨fun e he => ⟨?pulse, fun args ha => ?timebase⟩, fun c' v hc' hv => ?later⟩
  case pulse =>
    have hsum : t.clock.now + (s.clock.now + e - u) = s.clock.now + e := by omega
    rw [exec_syncinPulse e hr, exec_syncinPulse _ hr', hsum, hpass _ he]
  case timebase =>
    have hsum : t.clock.now + (s.clock.now + e - u) = s.clock.now + e := by omega
    have ha' : t.takesDirect 0x10 args := by
      rw [honly]
      exact ha
    rw [exec_setTimebase e ha, exec_setTimebase _ ha', hsum, hpass _ he]
  case later =>
    obtain ⟨d', hd', hcommand'⟩ := deadline_of_dueAt hc'
    have hdue : t.due d' = some v := by
      rw [ht, passTo_of_quiet hq]
      exact due_fire_other (s := s.atInstant u) hd hd' (Nat.ne_of_lt hv)
    rw [hcommand', hcommand', awaitDue_of_due hr hd', awaitDue_of_due hr' hdue, hpass v hv]

end Sys2Proof.Machine
end

section
/-! PROOFS. SET_TIMEBASE (R127, R128, Table 8-3). -/

namespace Sys2Proof.Machine

section
variable {s : State} {args : Table 8 Byte} {m : TimeMode} {n b r : Nat}

theorem timeModeOf_bad {v : Byte} (h : 3 ≤ v.toNat) : timeModeOf v = none := by
  have hne : ∀ k : Byte, k.toNat < 3 → v ≠ k := fun k hk he => by rw [he] at h; omega
  rw [timeModeOf, if_neg (hne 0 (by decide)), if_neg (hne 1 (by decide)), if_neg (hne 2 (by decide))]

theorem evalSetTimebase_bad (s : State) (h : 3 ≤ (argOf args 0).toNat) :
    evalSetTimebase args s = (s, .fail .badArgument) := by
  simp only [evalSetTimebase, timeModeOf_bad h]

theorem evalSetTimebase_latched (h : argOf args 0 = 0) (hl : s.clock.latched = true) :
    evalSetTimebase args s = (s, .fail .latched) := by
  simp only [evalSetTimebase, h, show timeModeOf (0 : Byte) = some .auto from rfl, hl, and_self, if_true]

theorem evalSetTimebase_chosen (hm : timeModeOf (argOf args 0) = some m)
    (hl : m = .auto → s.clock.latched = false) :
    evalSetTimebase args s = (s.chooseMode m, .ok (s.chooseMode m).timebaseResults) := by
  have hfree : ¬(m = .auto ∧ s.clock.latched = true) := fun ⟨ha, ht⟩ => by simp [hl ha] at ht
  simp only [evalSetTimebase, hm, if_neg hfree]

/-! ### The change of state by which a manual mode is chosen (Table 8-3) -/

theorem chooseManual_external_search (h : s.clock.state = .search b) :
    s.chooseManual true = State.raiseTime 0x03 (s.setClock { s.clock with state := .halted }) := by
  rw [← enterClock_halted fun hh => by cases h.symm.trans hh]
  simp only [State.chooseManual, h, if_true]

theorem chooseManual_external_kept (h : s.clock.state = .halted ∨ ∃ r, s.clock.state = .external r) :
    s.chooseManual true = s := by
  obtain h | ⟨r, h⟩ := h <;> simp only [State.chooseManual, h, if_true]

theorem chooseManual_external_internal (h : s.clock.state = .internal n) : s.chooseManual true =
    State.raiseTime 0x03 (s.setClock { s.clock with lockRun := 0, lastPulse := none, state := .halted }) := by
  have hleave : s.chooseManual true =
      (s.setClock { s.clock with lockRun := 0, lastPulse := none }).enterClock .halted := by
    simp only [State.chooseManual, h, if_true]
  rw [hleave, enterClock_halted fun hh => by cases h.symm.trans hh]
  rfl

theorem chooseManual_internal_stopped (h : s.running = false) : s.chooseManual false =
    State.raiseTime 0x05 (s.setClock { s.clock with
      state := .internal (s.clock.now + 24000)
      handed := if s.restarting then s.clock.handed else s.clock.handed ++ [.runningChange] }) := by
  rw [← enterClock_starts h rfl]
  unfold State.running at h
  cases hs : s.clock.state with
  | external r => rw [hs] at h; cases h
  | internal n => rw [hs] at h; cases h
  | _ => simp only [State.chooseManual, hs, Bool.false_eq_true, if_false, msCycles]

theorem chooseManual_internal_external (h : s.clock.state = .external r) (hn : s.clock.firstInternal = n) :
    s.chooseManual false = State.raiseTime 0x01 (s.setClock { s.clock with state := .internal n }) := by
  rw [← enterClock_toInternal h, ← hn]
  simp only [State.chooseManual, h, Bool.false_eq_true, if_false]

theorem chooseManual_internal_kept (h : s.clock.state = .internal n) : s.chooseManual false = s := by
  simp only [State.chooseManual, h, Bool.false_eq_true, if_false]

/-- What each code of Table 8-1 says of a state of the clock. -/
theorem clockState_of_code (x : ClockState) :
    (x.code = 0 → ∃ b, x = .search b) ∧ (x.code = 1 → ∃ r, x = .external r) ∧
      (x.code = 2 → ∃ n, x = .internal n) ∧ (x.code = 3 → x = .halted) := by
  cases x <;> simp [ClockState.code]

theorem firstInternal_some {c : Clock} {k : Nat} (h : c.lastTick = some k) :
    c.firstInternal = max (k + 24000) c.now := by
  simp only [Clock.firstInternal, h, msCycles]

theorem firstInternal_none {c : Clock} (h : c.lastTick = none) : c.firstInternal = c.now := by
  simp only [Clock.firstInternal, h]

theorem raiseTime_zero (s : State) : s.raiseTime 0 = s := by
  simp [State.raiseTime]

end

/-- Settles O30: the refusals by the evaluation, and each change of state of Table 8-3 by the state found. -/
theorem setTimebaseOutcome : Obligations.SetTimebaseOutcome := by
  intro s args elapsed ht hq now c done refused ext int started
  have heval := (exec_setTimebase elapsed ht).trans (by rw [passTo_of_quiet hq])
  have hrefused : ∀ code, evalSetTimebase args (s.atInstant now) = (s.atInstant now, .fail code) → refused code :=
    fun code h => heval.trans (by rw [h]; rfl)
  have hdone : ∀ {m causes d}, timeModeOf (argOf args 0) = some m → (m = .auto → s.clock.latched = false) →
      (s.atInstant now).chooseMode m = State.raiseTime causes (s.setClock d) → done causes d :=
    fun hm hl hd => heval.trans (by rw [evalSetTimebase_chosen (s := s.atInstant now) hm hl, hd]; rfl)
  have hauto : argOf args 0 = 0 → s.clock.latched = false → done 0 c := fun hb hl =>
    hdone (m := .auto) (by rw [hb]; rfl) (fun _ => hl) (raiseTime_zero _).symm
  have hext : ∀ {causes d}, argOf args 0 = 1 →
      (s.setClock ext).chooseManual true = State.raiseTime causes (s.setClock d) → done causes d :=
    fun hb hd => hdone (m := .manualExternal) (by rw [hb]; rfl) (fun h => by cases h) hd
  have hint : ∀ {causes d}, argOf args 0 = 2 →
      (s.setClock int).chooseManual false = State.raiseTime causes (s.setClock d) → done causes d :=
    fun hb hd => hdone (m := .manualInternal) (by rw [hb]; rfl) (fun h => by cases h) hd
  obtain ⟨search, external, internal, halted⟩ := clockState_of_code s.clock.state
  refine ⟨fun hb => hrefused _ (evalSetTimebase_bad _ hb), fun hb hl => hrefused _ (evalSetTimebase_latched hb hl),
    hauto, fun hb => ⟨fun hc => hext hb ?_, fun hc => hext hb ?_, fun hc => hext hb ?_, fun hc => hext hb ?_⟩,
    fun hb => ⟨fun hc => hint hb ?_, fun k hc hk => hint hb ?_, fun hc hk => hint hb ?_, fun hc => hint hb ?_,
      fun hc => hint hb ?_⟩⟩
  · obtain ⟨b, hs⟩ := search hc
    exact chooseManual_external_search (s := s.setClock ext) hs
  · rw [chooseManual_external_kept (s := s.setClock ext) (.inr (external hc)), raiseTime_zero]
  · obtain ⟨n, hs⟩ := internal hc
    exact chooseManual_external_internal (s := s.setClock ext) hs
  · rw [chooseManual_external_kept (s := s.setClock ext) (.inl (halted hc)), raiseTime_zero]
  · obtain ⟨b, hs⟩ := search hc
    exact chooseManual_internal_stopped (s := s.setClock int) (congrArg ClockState.running hs)
  · obtain ⟨r, hs⟩ := external hc
    exact chooseManual_internal_external (s := s.setClock int) hs (firstInternal_some (c := int) hk)
  · obtain ⟨r, hs⟩ := external hc
    exact chooseManual_internal_external (s := s.setClock int) hs (firstInternal_none (c := int) hk)
  · obtain ⟨n, hs⟩ := internal hc
    rw [chooseManual_internal_kept (s := s.setClock int) hs, raiseTime_zero]
  · exact chooseManual_internal_stopped (s := s.setClock int) (congrArg ClockState.running (halted hc))

end Sys2Proof.Machine
end

section
/-! PROOFS. Reads through the supervisor port and what each register returns (R129, R160 to R162, R165, Tables 11-1
and 11-2). -/

namespace Sys2Proof.Machine

/-! ### Reads by register (R129, R160, R161) -/

section
variable {s : State} {e : PortEvent} {o : BitVec 7} {after : Port → Port}

/-- Every command of the port carries out its events alike (log entry 9). -/
theorem exec_of_mem_portRows {c : Instr} (h : c ∈ portRows [] e) : exec c s = .next (s.portEvents [e]) := by
  simp only [portRows, List.nil_append, List.mem_cons, List.not_mem_nil, or_false] at h
  obtain rfl | rfl | rfl | rfl | rfl := h <;> rfl

theorem happens_of_portEvents {p : Port} {d : List PortDrive} (h : s.portEvents [e] = wired s p d) :
    Happens s e p d := fun _ hc => (exec_of_mem_portRows hc).trans (congrArg Host.Outcome.next h)

theorem readEffect_other (h : o.toNat ≠ 0x1E) : s.readEffect o = s := if_neg h

theorem readEffect_ticks0 (h : o.toNat = 0x1E) :
    s.readEffect o = s.setPort { s.port with tickLatch := s.clock.tickCount.extractLsb' 8 24 } := if_pos h

theorem readEffect_pointer (s : State) (o : BitVec 7) :
    (s.readEffect o).port.i2cPointer = s.port.i2cPointer := by
  unfold State.readEffect
  split <;> rfl

theorem setPort_setPort (s : State) (p q : Port) : (s.setPort p).setPort q = s.setPort q := rfl

/-- What a register returns does not depend on what was driven. -/
theorem readReg_driving (s : State) (d : List PortDrive) (o : BitVec 7) : (s.driving d).readReg o = s.readReg o := by
  unfold State.readReg
  rfl

/-- A byte read drives its register, after whose effect the transfer moves on. -/
theorem portEvents_readsByte (h : ReadsByte s e o after) :
    s.portEvents [e] = wired s (after (s.readEffect o).port) [.byte (s.readReg o)] := by
  have hstate : s.readEffect o = s.setPort (s.readEffect o).port := readEffect_portOnly s o
  have hpointer := readEffect_pointer s o
  generalize (s.readEffect o).port = p at hstate hpointer ⊢
  obtain ⟨hr, ⟨hm, ht, ⟨b, rfl⟩, rfl⟩ | ⟨hm, ht, rfl, a, rfl, rfl⟩⟩ := h
  · have ha : (s.driving []).answers false = true := by
      rw [show (s.driving []).answers false = s.answers false from rfl, State.answers, hr, hm]
      rfl
    show (if (s.driving []).answers false then (s.driving []).spiByte b else _) = _
    rw [if_pos ha, State.spiByte, show (s.driving []).port.transfer = .spiRead o from ht]
    dsimp only
    rw [readEffect_driving, hstate, readReg_driving]
    simp only [State.driving, State.setTransfer, State.drive, setPort_setPort, State.setPort_fields, List.nil_append]
    rfl
  · have ha : (s.driving []).answers true = true := by
      rw [show (s.driving []).answers true = s.answers true from rfl, State.answers, hr, hm]
      rfl
    show (if (s.driving []).answers true then (s.driving []).i2cReadByte a else _) = _
    rw [if_pos ha, State.i2cReadByte, show (s.driving []).port.transfer = .i2cRead from ht]
    dsimp only
    rw [show (s.driving []).port.i2cPointer = s.port.i2cPointer from rfl, readEffect_driving, hstate,
      readReg_driving, State.raisePointer,
      show ((s.setPort p).driving []).port.i2cPointer = s.port.i2cPointer from hpointer]
    simp only [State.driving, State.setTransfer, State.drive, setPort_setPort, State.setPort_fields, List.nil_append]
    rfl

/-- A byte of the three that are latched. -/
theorem extractLsb'_latch (x : BitVec 32) {k : Nat} (hk : k + 8 ≤ 24) :
    (x.extractLsb' 8 24).extractLsb' k 8 = x.extractLsb' (8 + k) 8 := by
  ext i hi
  have hin : k + i < 24 := by omega
  simp [hin, Nat.add_assoc]

theorem read_outcomes : ReadOutcomes := by
  intro s e o after h
  have hread := portEvents_readsByte h
  refine ⟨fun ho => ?other, fun ho => ?ticks0⟩
  case other =>
    rw [readEffect_other ho] at hread
    exact happens_of_portEvents hread
  case ticks0 =>
    obtain rfl : o = 0x1E := BitVec.eq_of_toNat_eq ho
    rw [readEffect_ticks0 ho] at hread
    refine ⟨s.clock.tickCount.extractLsb' 8 24, happens_of_portEvents hread, fun t ht => ?_⟩
    have hlatched : t.readReg 0x1F = t.port.tickLatch.extractLsb' 0 8 ∧
        t.readReg 0x20 = t.port.tickLatch.extractLsb' 8 8 ∧
        t.readReg 0x21 = t.port.tickLatch.extractLsb' 16 8 := ⟨rfl, rfl, rfl⟩
    rwa [ht, extractLsb'_latch _ (by decide), extractLsb'_latch _ (by decide), extractLsb'_latch _ (by decide)]
      at hlatched

end

/-! ### What each register returns (Tables 11-1 and 11-2) -/

theorem Table.list_getD {n : Nat} {α : Type} (t : Table n α) (i : Fin n) (x : α) : t.list.getD i.1 x = t.get i := by
  rw [List.getD_eq_getElem?_getD, List.getElem?_eq_getElem (by rw [t.size_eq]; exact i.2), Option.getD_some]
  rfl

theorem getLsbD_bitAt (b : Bool) {i : Nat} (hi : i < 8) (j : Nat) : (bitAt b i).getLsbD j = (b && decide (i = j)) := by
  cases b with
  | false => exact BitVec.getLsbD_zero
  | true =>
    show (BitVec.twoPow 8 i).getLsbD j = decide (i = j)
    simp [BitVec.getLsbD_twoPow, hi]

/-- GROUP_FLAGS holds a flag for each cause register that is not 0 (R165). -/
theorem getLsbD_groupFlags (p : Port) :
    (∀ l : Link, p.groupFlags.getLsbD l.1 = (p.linkCause.get l != 0)) ∧
      p.groupFlags.getLsbD 4 = (p.tableCause != 0) ∧ p.groupFlags.getLsbD 5 = (p.timeCause != 0) ∧
      p.groupFlags.getLsbD 6 = (p.cmdCause != 0) ∧ p.groupFlags.getLsbD 7 = false := by
  have hbit : ∀ j, p.groupFlags.getLsbD j =
      ((p.cmdCause != 0 && decide (6 = j)) || (p.timeCause != 0 && decide (5 = j)) ||
        (p.tableCause != 0 && decide (4 = j)) ||
        (p.linkCause.get 3 != 0 && decide (3 = j)) || (p.linkCause.get 2 != 0 && decide (2 = j)) ||
        (p.linkCause.get 1 != 0 && decide (1 = j)) || (p.linkCause.get 0 != 0 && decide (0 = j))) := fun j => by
    simp (disch := decide) only [Port.groupFlags, BitVec.getLsbD_or, getLsbD_bitAt]
  refine ⟨fun l => (hbit l.1).trans ?_, (hbit 4).trans (by simp), (hbit 5).trans (by simp), (hbit 6).trans (by simp),
    (hbit 7).trans (by simp)⟩
  match l with
  | 0 | 1 | 2 | 3 => simp

theorem readReg_linkCause (s : State) {o : BitVec 7} (l : Link) (h : o.toNat = 0x05 + l.1) :
    s.readReg o = s.port.linkCause.get l := by
  have hl := l.2
  rw [State.readReg, ← Table.list_getD _ l 0, show l.1 = o.toNat - 5 by omega]
  simp (disch := omega) only [if_neg, if_pos]

theorem readReg_args (s : State) {o : BitVec 7} (k : Fin 8) (h : o.toNat = 0x0C + k.1) :
    s.readReg o = s.port.args.get k := by
  have hk := k.2
  rw [State.readReg, ← Table.list_getD _ k 0, show k.1 = o.toNat - 0x0C by omega]
  simp (disch := omega) only [if_neg, if_pos, Table.byteAt]

theorem readReg_res (s : State) {o : BitVec 7} (k : Fin 8) (h : o.toNat = 0x16 + k.1) :
    s.readReg o = s.port.res.get k := by
  have hk := k.2
  rw [State.readReg, ← Table.list_getD _ k 0, show k.1 = o.toNat - 0x16 by omega]
  simp (disch := omega) only [if_neg, if_pos, Table.byteAt]

theorem readReg_beyond (s : State) {o : BitVec 7} (h : 0x22 ≤ o.toNat) : s.readReg o = 0 := by
  rw [State.readReg]
  simp (disch := omega) only [if_neg]

theorem register_contents : RegisterContents := by
  intro s o p flags
  obtain ⟨hlinks, htable, htime, hcmd, hzero⟩ := getLsbD_groupFlags s.port
  exact ⟨rfl, rfl, fun l => by rw [show flags = s.port.groupFlags from rfl, hlinks, bne_iff_ne],
    by rw [show flags = s.port.groupFlags from rfl, htable, bne_iff_ne],
    by rw [show flags = s.port.groupFlags from rfl, htime, bne_iff_ne],
    by rw [show flags = s.port.groupFlags from rfl, hcmd, bne_iff_ne], hzero, rfl,
    readReg_linkCause s, rfl, rfl, rfl, readReg_args s, rfl, rfl, readReg_res s, rfl, readReg_beyond s⟩

/-- Settles O54: a byte read by its transfer and its register, and the registers by their offsets. -/
theorem portReadOutcomes : Obligations.PortReadOutcomes := ⟨read_outcomes, register_contents⟩

end Sys2Proof.Machine
end

section
/-! PROOFS. The commands of the links and what a disable and a BREAK free (R133, R137, R140 to R143). -/

namespace Sys2Proof.Machine

theorem linkActive_true {s : State} {l : Link} (he : (s.link l).line.enabled = true) (hreset : s.inReset = false)
    (hrestart : s.restarting = false) : s.linkActive l = true := by
  simp only [State.linkActive, he, hreset, hrestart, Bool.not_false, Bool.and_self]

theorem linkOf_of_names {args : Table 8 Byte} {l : Link} (h : (argOf args 0).toNat = l.1) :
    linkOf (argOf args 0) = some l := belowOf_eq_some.mpr h

/-! ### The traffic of a link emptied (R133, R134, R139) -/

theorem clearTraffic_eq (x : LinkState) (n : Nat) : x.clearTraffic n = emptied x n := by
  rw [LinkState.clearTraffic, sendTo_eq]
  rfl

/-! ### READ_LINK and LINK_RESET (R142, R143) -/

theorem evalReadLink_of_names {args : Table 8 Byte} {l : Link} {part : Fin 2} (s : State)
    (hl : (argOf args 0).toNat = l.1) (hp : (argOf args 1).toNat = part.1) :
    evalReadLink args s = (s, .ok (if part = 0 then s.lineResults l else s.trafficResults l)) := by
  have hpart : belowOf 2 (argOf args 1) = some part := belowOf_eq_some.mpr hp
  simp only [evalReadLink, linkOf_of_names hl, hpart]

theorem readLink_outcome : ReadLinkOutcome := by
  intro s args l hl ht
  have read : ∀ part : Fin 2, (argOf args 1).toNat = part.1 → exec .readLink s =
      .next (s.completed .ok (if part = 0 then s.lineResults l else s.trafficResults l)) := fun part hp =>
    congrArg Host.Outcome.next (takeDirect_completed ht (evalReadLink_of_names s hl hp))
  exact ⟨fun h => read 0 (by rw [h]; rfl), fun h => read 1 (by rw [h]; rfl)⟩

theorem evalLinkReset_of_names {args : Table 8 Byte} {l : Link} (s : State) (n : Nat)
    (hl : (argOf args 0).toNat = l.1) :
    evalLinkReset n args s = (s.setLink l (emptied (s.link l) n), .ok (s.link l).resetResults) := by
  simp only [evalLinkReset, linkOf_of_names hl, clearTraffic_eq]

theorem flagByte_bne {α : Type} [DecidableEq α] (x y : α) : flagByte (x != y) = if x = y then 0 else 1 := by
  by_cases h : x = y <;> simp [flagByte, h]

/-- What LINK_RESET reports, with each flag as a condition on the link (R142). -/
theorem resetResults_eq (x : LinkState) : x.resetResults =
    [if x.requestSlot = none then 0 else 1, if x.replyBuffer = none then 0 else 1,
      if x.tx = .idle then 0 else 1, byteOf x.fifo.length] := by
  simp only [LinkState.resetResults, flagByte_isSome, flagByte_bne]

theorem linkReset_outcome : LinkResetOutcome := by
  intro s args l n hl ht
  rw [← resetResults_eq]
  exact congrArg Host.Outcome.next (takeDirect_completed ht (evalLinkReset_of_names s n hl))

/-- Settles O41: both commands by their evaluation. -/
theorem readAndResetLinkOutcomes : Obligations.ReadAndResetLinkOutcomes := ⟨readLink_outcome, linkReset_outcome⟩

/-! ### Records freed and reports forgotten (R24, R26, R34, R49) -/

section
variable (gone : Lease → Bool) (o : Option Lease)

/-- A record that is freed leaves nothing, and any other stays. -/
theorem bind_leftOf_freeEnding : o.bind (leftOf (freeEnding gone)) = o.filter fun r => !gone r := by
  cases o with
  | none => rfl
  | some r => cases h : gone r <;> simp [leftOf, freeEnding, Option.filter, h]

/-- How a record freed ends: it gives up no zone, it is not late, nothing is left of it. -/
theorem any_freeEnding (q : Ending → Bool) : (o.bind (freeEnding gone)).any q =
    o.any fun r => gone r && q { left := none, gives := [], leaves := r.phase.queued, late := false } := by
  cases o with
  | none => rfl
  | some r => cases h : gone r <;> simp [freeEnding, h]

end

/-- No ending of a record freed satisfies what no such ending has. -/
theorem someEnding_freeEnding_false (s : State) (gone : Lease → Bool) (xs : List SlotId) {q : Ending → Bool}
    (hq : ∀ b, q { left := none, gives := [], leaves := b, late := false } = false) :
    s.someEnding (freeEnding gone) xs q = false := by
  simp [State.someEnding, any_freeEnding, hq]

/-- The slots after records are freed and the others passed through `f`. -/
theorem freeWhere_mapLeases_slots (s : State) (gone : Lease → Bool) (f : Lease → Lease) :
    ((s.freeWhere gone).mapLeases fun _ => f).slots = (recordsFreed s gone f).slots := by
  refine Table.ext_get fun i => ?_
  rw [freeWhere_eq]
  simp only [State.mapLeases, State.endTogether, recordsFreed, Table.get_mapIdx, List.mem_finRange, if_true,
    bind_leftOf_freeEnding]

theorem freeWhere_mapLeases_waiting (s : State) (gone : Lease → Bool) (f : Lease → Lease) :
    ((s.freeWhere gone).mapLeases fun _ => f).waiting = (recordsFreed s gone f).waiting := by
  rw [freeWhere_eq]
  refine List.filter_congr fun i _ => ?_
  rw [any_freeEnding, decide_eq_true (List.mem_finRange i), Bool.true_and]
  cases s.lease i <;> rfl

theorem freeWhere_mapLeases_armed (s : State) (gone : Lease → Bool) (f : Lease → Lease) :
    ((s.freeWhere gone).mapLeases fun _ => f).armed = (recordsFreed s gone f).armed := by
  have hcount : State.occupied (s.freeWhere gone) =
      State.occupied { s with slots := (recordsFreed s gone f).slots } := occupied_congr fun i => by
    show _ = (Slot.lease ((recordsFreed s gone f).slots.get i)).isSome
    rw [← freeWhere_mapLeases_slots]
    simp only [State.mapLeases, Table.get_mapIdx, Option.isSome_map]
    rfl
  have hfreed : s.someEnding (freeEnding gone) (List.finRange 128) (·.left.isNone) =
      (List.finRange 128).any fun i => match s.lease i with | some r => gone r | none => false := by
    refine congrArg (List.any (List.finRange 128)) (funext fun i => ?_)
    rw [any_freeEnding]
    cases s.lease i <;> simp
  rw [freeWhere_eq] at hcount ⊢
  show (s.armed || (_ && decide (State.occupied (s.endTogether _ _) < _))) = _
  rw [hcount, hfreed]
  rfl

theorem recordsFreed_tableOnly (s : State) (gone : Lease → Bool) (f : Lease → Lease) :
    s.tableOnly (recordsFreed s gone f) := rfl

/-- Records freed slot by slot and the others passed through `f`, as one state (R24, R34, R49). -/
theorem freeWhere_mapLeases_eq (s : State) (gone : Lease → Bool) (f : Lease → Lease) :
    ((s.freeWhere gone).mapLeases fun _ => f) = recordsFreed s gone f := by
  have hzones : ((s.freeWhere gone).mapLeases fun _ => f).zones = s.zones := Table.ext_get fun z => by
    simp [freeWhere_eq, State.endTogether, someEnding_freeEnding_false]
  have hcause : ((s.freeWhere gone).mapLeases fun _ => f).port.tableCause = s.port.tableCause := by
    simp [freeWhere_eq, State.endTogether, someEnding_freeEnding_false]
  have hsequence : ((s.freeWhere gone).mapLeases fun _ => f).sequence = s.sequence := by
    simp [freeWhere_eq, State.endTogether]
  exact State.tableOnly.ext ((freeWhere_tableOnly s gone).trans (mapLeases_tableOnly _ _))
    (recordsFreed_tableOnly s gone f) hzones (freeWhere_mapLeases_slots s gone f) (freeWhere_mapLeases_waiting s gone f)
    hsequence (freeWhere_mapLeases_armed s gone f) hcause

/-- Records freed and the reports of a link's held records forgotten (R24, R26). -/
theorem freeWhere_forgetReported_eq (s : State) (gone : Lease → Bool) (l : Link) :
    (s.freeWhere gone).forgetReported l = recordsFreed s gone (reportForgotten l) := by
  have hforget : (fun r : Lease => if r.owner == l && r.phase.holds then { r with reported := none } else r) =
      reportForgotten l := by
    funext r
    simp only [reportForgotten, Bool.and_eq_true, beq_iff_eq]
  rw [← freeWhere_mapLeases_eq, ← hforget]
  rfl

/-! ### LINK_DISABLE (R141) -/

theorem disableLink_eq (s : State) (l : Link) (n : Nat) : s.disableLink l n =
    (recordsFreed (s.setLink l { emptied (s.link l) n with line := { (s.link l).line with enabled := false } })
      (fun r => r.owner == l && !r.phase.holds) (reportForgotten l)).grantScan := by
  rw [State.disableLink, freeWhere_forgetReported_eq, clearTraffic_eq]
  rfl

theorem exec_linkDisable {s : State} {l : Link} (n : Nat) (h : s.linkActive l = true) :
    exec (.linkDisable l n) s = .next (s.disableLink l n) := congrArg Host.Outcome.next (if_pos h)

/-- Settles O40: the traffic emptied and the records freed together, and then the scan. -/
theorem linkDisableOutcome : Obligations.LinkDisableOutcome := by
  intro s l n he hreset hrestart x t
  rw [exec_linkDisable n (linkActive_true he hreset hrestart), disableLink_eq]
  rfl

/-! ### SET_LINK (R140, R141) -/

theorem belowOf_flagByte (b : Bool) : ∃ e : Fin 2, belowOf 2 (flagByte b) = some e ∧ (e == 1) = b := by
  cases b
  · exact ⟨0, rfl, rfl⟩
  · exact ⟨1, rfl, rfl⟩

theorem parityOf_parityCode (p : Parity) : parityOf (parityCode p) = some p := by
  cases p <;> rfl

theorem stopBitsOf_stopBitsCode (p : StopBits) : stopBitsOf (stopBitsCode p) = some p := by
  cases p <;> rfl

theorem lineOfArgs_of_names {args : Table 8 Byte} {enable : Bool} {frac : Fin 16} {parity : Parity} {stop : StopBits}
    (he : argOf args 1 = flagByte enable) (hf : (argOf args 4).toNat = frac.1) (hp : argOf args 5 = parityCode parity)
    (hs : argOf args 6 = stopBitsCode stop) : lineOfArgs args =
      some ⟨enable, max ((argOf args 2).toNat * 256 + (argOf args 3).toNat) 1, frac, parity, stop⟩ := by
  obtain ⟨e, hbelow, henable⟩ := belowOf_flagByte enable
  have hfrac : belowOf 16 (argOf args 4) = some frac := belowOf_eq_some.mpr hf
  simp only [lineOfArgs, he, hbelow, hfrac, hp, parityOf_parityCode, hs, stopBitsOf_stopBitsCode, henable]
  rfl

section
variable {x : LinkState} {p : LineParams} (n : Nat)

/-- The parameters of an enabled link replaced: the characters begun by then go under the old ones (R140). -/
theorem setLine_of_enabled (h : x.line.enabled = true) :
    x.setLine p n = { x with line := p, prevLines := x.line :: x.prevLines, txd := sentBy x n } := by
  rw [LinkState.setLine, if_pos h, sendTo_eq]

/-- The parameters of a disabled link replaced by ones that leave it disabled. -/
theorem setLine_of_disabled (h : x.line.enabled = false) (hp : p.enabled = false) :
    x.setLine p n = { x with line := p } := by
  simp only [LinkState.setLine, h, hp, Bool.false_eq_true, if_false]

/-- A disabled link enabled (R133, R140). -/
theorem setLine_enables (h : x.line.enabled = false) (hp : p.enabled = true) :
    x.setLine p n = { emptied x 0 with line := p, prevLines := [], rxWait := true } := by
  simp only [LinkState.setLine, h, hp, Bool.false_eq_true, if_false, if_true, clearTraffic_eq]

end

section
variable {s : State} {l : Link} {p : LineParams} (n : Nat)

/-- No disable follows unless an enabled link is disabled (R140). -/
theorem applyLine_of_not_disabling (h : ((s.link l).line.enabled && !p.enabled) = false) :
    s.applyLine l p n = s.setLink l ((s.link l).setLine p n) := by
  simp only [State.applyLine, h, Bool.false_eq_true, if_false]

theorem applyLine_of_disabling (h : (s.link l).line.enabled = true) (hp : p.enabled = false) :
    s.applyLine l p n = (s.setLink l ((s.link l).setLine p n)).disableLink l n := by
  simp only [State.applyLine, h, hp, Bool.not_false, Bool.and_self, if_true]

/-- The disable of a link is the same whether its parameters already say disabled or still say enabled. -/
theorem disableLink_setLink_line (y : LinkState) (hp : p.enabled = false) :
    (s.setLink l { y with line := p }).disableLink l n =
      (s.setLink l { y with line := { p with enabled := true } }).disableLink l n := by
  have hline : ({ p with enabled := false } : LineParams) = p := by rw [← hp]
  have hsent : sentBy { y with line := { p with enabled := true } } n = sentBy { y with line := p } n := rfl
  simp only [disableLink_eq, State.setLink, State.link, Table.get_set_self, Table.set_set, emptied, hsent, hline]

theorem grantScan_link (s : State) (l : Link) : s.grantScan.link l = s.link l := by
  rw [grantScan_tableOnly s]
  rfl

theorem disableLink_line (s : State) (l : Link) :
    ((s.disableLink l n).link l).line = { (s.link l).line with enabled := false } := by
  rw [disableLink_eq, grantScan_link]
  simp [recordsFreed, State.setLink, State.link]

end

/-- SET_LINK stores the parameters its arguments name and returns those that then stand in the link. -/
theorem exec_setLink {s : State} {args : Table 8 Byte} {l : Link} {p : LineParams} (n : Nat)
    (hl : (argOf args 0).toNat = l.1) (hp : lineOfArgs args = some p) (ht : s.takesDirect 0x12 args) :
    exec (.setLink n) s = .next ((s.applyLine l p n).completed .ok (lineRecord ((s.applyLine l p n).link l).line)) := by
  have heval : evalSetLink n args s = (s.applyLine l p n, .ok (lineRecord ((s.applyLine l p n).link l).line)) := by
    simp only [evalSetLink, linkOf_of_names hl, hp]
    rfl
  exact congrArg Host.Outcome.next (takeDirect_completed ht heval)

/-- SET_LINK where no disable follows. -/
theorem exec_setLink_of_not_disabling {s : State} {args : Table 8 Byte} {l : Link} {p : LineParams} (n : Nat)
    (hl : (argOf args 0).toNat = l.1) (hp : lineOfArgs args = some p) (ht : s.takesDirect 0x12 args)
    (hd : ((s.link l).line.enabled && !p.enabled) = false) :
    exec (.setLink n) s = .next ((s.setLink l ((s.link l).setLine p n)).completed .ok (lineRecord p)) := by
  rw [exec_setLink n hl hp ht, applyLine_of_not_disabling n hd]
  simp only [State.setLink, State.link, Table.get_set_self, setLine_enabled]

/-- SET_LINK that disables an enabled link is the change of its parameters and then the disable (R141). -/
theorem exec_setLink_of_disabling {s : State} {args : Table 8 Byte} {l : Link} {p : LineParams} (n : Nat)
    (hl : (argOf args 0).toNat = l.1) (hp : lineOfArgs args = some p) (ht : s.takesDirect 0x12 args)
    (he : (s.link l).line.enabled = true) (hoff : p.enabled = false) : ∃ u,
      exec (.linkDisable l n) (s.setLink l { s.link l with
        line := { p with enabled := true }, prevLines := (s.link l).line :: (s.link l).prevLines
        txd := sentBy (s.link l) n }) = .next u ∧
      exec (.setLink n) s = .next (u.completed .ok (lineRecord p)) := by
  have ⟨_, _, hreset, hrestart⟩ := ht
  have hsame := disableLink_setLink_line (s := s) (l := l) n
    { s.link l with prevLines := (s.link l).line :: (s.link l).prevLines, txd := sentBy (s.link l) n } hoff
  refine ⟨_, exec_linkDisable n (linkActive_true (by simp [State.setLink, State.link]) hreset hrestart), ?_⟩
  rw [exec_setLink n hl hp ht, applyLine_of_disabling n he hoff, setLine_of_enabled n he, ← hsame, disableLink_line]
  simp [State.setLink, State.link, lineRecord, hoff]

/-- Settles O39: the parameters stored, by whether the link was enabled before and is after. -/
theorem setLinkOutcome : Obligations.SetLinkOutcome := by
  intro s args l n enable frac parity stop hl he hf hp hs ht div p x
  have hline : lineOfArgs args = some p := lineOfArgs_of_names he hf hp hs
  refine ⟨fun hx hon => ?_, fun hx hoff => ?_, fun hx hon => ?_, fun hx hoff => ?_⟩
  · rw [exec_setLink_of_not_disabling n hl hline ht (by simp [p, hon]), setLine_of_enabled n hx]
  · rw [exec_setLink_of_not_disabling n hl hline ht (by rw [hx, Bool.false_and]), setLine_of_disabled n hx hoff]
  · rw [exec_setLink_of_not_disabling n hl hline ht (by rw [hx, Bool.false_and]), setLine_enables n hx hon]
  · exact exec_setLink_of_disabling n hl hline ht hx hoff

end Sys2Proof.Machine
end

section
/-! PROOFS. What a link receives and decodes (R132 to R137, Table 9-2). -/

namespace Sys2Proof.Machine

/-! ### The receiver (R133, R134) -/

theorem listens_iff (x : LinkState) (c : RawChar) :
    x.listens c = true ↔ x.rxWait = false ∨ c.highBefore = true := by
  simp only [LinkState.listens, Bool.or_eq_true, Bool.not_eq_true']

section
variable {s : State} {l : Link} {c : RawChar} (idle : Nat)

theorem exec_characterReceived (ha : s.linkActive l = true) (hc : (s.link l).rxWait = false ∨ c.highBefore = true) :
    exec (.characterReceived l idle c) s = .next (s.receive l idle c) :=
  congrArg Host.Outcome.next (if_pos (by rw [ha, (listens_iff _ _).mpr hc, Bool.and_self]))

theorem exec_characterReceived_waiting (hw : (s.link l).rxWait = true) (hc : c.highBefore = false) :
    exec (.characterReceived l idle c) s = .next s :=
  congrArg Host.Outcome.next (if_neg (by simp [LinkState.listens, hw, hc]))

/-- A character on a full FIFO is lost (R134). -/
theorem receive_full (c : RawChar) (h : 64 ≤ (s.link l).fifo.length) : s.receive l idle c =
    (s.setLink l { s.link l with
      gapNext := false, prevLines := [], rxWait := RawChar.isBreak ((s.link l).lineFor c) c
      lossPending := true }).raiseLink l 0x02 := by
  simp only [State.receive, h, if_true, flagLinkOverrun]

/-- A character that finds room is stored (R133, R134). -/
theorem receive_room (c : RawChar) (h : (s.link l).fifo.length < 64) : s.receive l idle c =
    s.setLink l { s.link l with
      gapNext := false, prevLines := [], rxWait := RawChar.isBreak ((s.link l).lineFor c) c
      fifo := (s.link l).fifo ++ [RawChar.entry ((s.link l).lineFor c) ((s.link l).gapFor idle c)
        (s.link l).lossPending c]
      lossPending := false } := by
  simp only [State.receive, Nat.not_le.mpr h, if_false]

/-- Whatever the FIFO, the receiver knows after a character whether it was a break, and has finished with settings
replaced before it (R133, R140). -/
theorem receive_link (c : RawChar) :
    ((s.receive l idle c).link l).rxWait = RawChar.isBreak ((s.link l).lineFor c) c ∧
      ((s.receive l idle c).link l).prevLines = [] := by
  by_cases h : 64 ≤ (s.link l).fifo.length
  · rw [receive_full idle c h]
    simp [State.raiseLink, State.setLink, State.link]
  · rw [receive_room idle c (Nat.not_le.mp h)]
    simp [State.setLink, State.link]

end

section
variable (p : LineParams) (gap overrun : Bool) (c : RawChar)

/-- What an entry keeps of its character's circumstances, and whether it is a BREAK (R133, R134). -/
theorem entry_flags : (RawChar.entry p gap overrun c).overrun = overrun ∧ (RawChar.entry p gap overrun c).gap = gap ∧
    (RawChar.entry p gap overrun c).brk = RawChar.isBreak p c := by
  cases h : RawChar.isBreak p c <;> simp [RawChar.entry, h]

theorem entry_of_break (h : RawChar.isBreak p c = true) :
    RawChar.entry p gap overrun c = ⟨0, false, false, true, gap, overrun⟩ := if_pos h

/-- The parity bit sampled is not the one the setting gives (R133). -/
def parityWrong : Bool :=
  match p.parity with
  | .none => false
  | .zero => c.parityBit
  | .one => !c.parityBit
  | .odd => decide (((List.range 8).countP (fun k => c.data.getLsbD k) + (if c.parityBit then 1 else 0)) % 2 = 0)
  | .even => decide (((List.range 8).countP (fun k => c.data.getLsbD k) + (if c.parityBit then 1 else 0)) % 2 = 1)

/-- The parity of some ones and one more bit. -/
theorem parity_add_bit (n : Nat) (b : Bool) :
    (decide (n % 2 = 1) != b) = decide ((n + if b then 1 else 0) % 2 = 1) ∧
      ((!decide (n % 2 = 1)) != b) = decide ((n + if b then 1 else 0) % 2 = 0) := by
  cases b <;> rcases Nat.mod_two_eq_zero_or_one n with h | h <;> simp [h, Nat.add_mod]

theorem parityWrong_eq :
    (match parityBitOf p.parity c.data with | some b => b != c.parityBit | none => false) = parityWrong p c := by
  have hbit := parity_add_bit ((List.range 8).countP fun k => c.data.getLsbD k) c.parityBit
  unfold parityWrong
  cases p.parity with
  | none => rfl
  | zero => exact Bool.false_bne _
  | one => exact Bool.true_bne _
  | odd => simp only [parityBitOf, oddOnes_eq, hbit]
  | even => simp only [parityBitOf, oddOnes_eq, hbit]

theorem stopLow_eq : RawChar.stopLow p.stopBits c = (!c.stop1 || (p.stopBits == .two && !c.stop2)) := by
  cases p.stopBits <;> simp [RawChar.stopLow]

theorem entry_of_not_break (h : RawChar.isBreak p c = false) : RawChar.entry p gap overrun c =
    ⟨c.data, parityWrong p c, !c.stop1 || (p.stopBits == .two && !c.stop2), false, gap, overrun⟩ := by
  rw [← parityWrong_eq, ← stopLow_eq]
  exact if_neg (by simp [h])

/-- A break is a character of which every position was sampled low (R133). -/
theorem isBreak_iff : RawChar.isBreak p c = true ↔ c.data = 0 ∧ (p.parity = .none ∨ c.parityBit = false) ∧
    c.stop1 = false ∧ (p.stopBits = .two → c.stop2 = false) := by
  cases hs : p.stopBits <;> simp [RawChar.isBreak, hs, and_assoc]

theorem charTime_eq : charTime p =
    (9 + (if p.parity = .none then 0 else 1) + (if p.stopBits = .two then 2 else 1)) * (16 * p.div + p.frac.1) := by
  cases hs : p.stopBits <;> simp [charTime, charBits, bitTime, hs]

end

theorem characterReceived_outcome : CharacterReceivedOutcome := by
  intro s l idle c he hreset hrestart x
  refine ⟨fun hw hc => exec_characterReceived_waiting idle hw hc, fun hc => ?_⟩
  rw [exec_characterReceived idle (linkActive_true he hreset hrestart) hc]
  refine ⟨RawChar.isBreak (x.lineFor c) c, fun h => ?_, fun h => ?_⟩
  · rw [receive_full idle c h]
  · obtain ⟨hoverrun, -, hbrk⟩ := entry_flags (x.lineFor c) (x.gapFor idle c) x.lossPending c
    exact ⟨_, hoverrun, hbrk, congrArg Host.Outcome.next (receive_room idle c h)⟩

theorem entry_ofCharacter : EntryOfCharacter := by
  intro s l idle c t he hreset hrestart hc ht p two bits gap allLow ones wrong low
  rw [exec_characterReceived idle (linkActive_true he hreset hrestart) hc] at ht
  obtain rfl : s.receive l idle c = t := Host.Outcome.next.inj ht
  have hlow : RawChar.isBreak p c = true ↔ allLow := isBreak_iff p c
  have hgap : (s.link l).gapFor idle c = gap := by
    show ((s.link l).gapNext || decide (4 * charTime p ≤ idle)) = gap
    rw [charTime_eq]
  obtain ⟨hwait, hprev⟩ := receive_link (s := s) (l := l) idle c
  obtain ⟨-, hgapFlag, -⟩ := entry_flags p gap (s.link l).lossPending c
  refine ⟨by rw [hwait]; exact hlow, hprev, fun hroom => ?_⟩
  refine ⟨RawChar.entry p gap (s.link l).lossPending c, ?_, hgapFlag, fun h => ?_, fun h => ?_⟩
  · rw [receive_room idle c hroom, hgap]
    simp only [State.setLink, State.link, Table.get_set_self]
    rfl
  · rw [entry_of_break _ _ _ _ (hlow.mpr h)]
    exact ⟨rfl, rfl, rfl, rfl⟩
  · rw [entry_of_not_break _ _ _ _ (Bool.eq_false_iff.mpr fun hb => h (hlow.mp hb))]
    exact ⟨rfl, rfl, rfl, rfl⟩

/-- Settles O46: the two outcomes of a character, and its entry by its settings. -/
theorem receiverOutcome : Obligations.ReceiverOutcome := ⟨characterReceived_outcome, entry_ofCharacter⟩

/-! ### The decoder takes an entry (R135, R136) -/

theorem raiseLink_zero (s : State) (l : Link) : s.raiseLink l 0 = s := by
  simp [State.raiseLink]

/-- The link's decoder in state `d` with the rest of the FIFO. -/
def State.decoderTo (s : State) (l : Link) (rest : List FifoEntry) (d : Decoder) : State :=
  s.setLink l { s.link l with fifo := rest, decoder := d }

section
variable {s : State} {l : Link} {e : FifoEntry} {rest : List FifoEntry}

theorem linkActive_of_takesEntry (h : TakesEntry s l e rest) : s.linkActive l = true := by
  obtain ⟨he, hreset, hrestart, -⟩ := h
  exact linkActive_true he hreset hrestart

theorem nextEntry_of_takesEntry (h : TakesEntry s l e rest) : (s.link l).nextEntry = some (e, rest) := by
  obtain ⟨-, -, -, hhold, hfifo⟩ := h
  unfold LinkState.nextEntry
  split
  · next hd => exact absurd hd hhold
  · next hf _ =>
    cases hfifo.symm.trans hf
    rfl
  · next hf _ => cases hfifo.symm.trans hf

theorem exec_decodeEntry_break (h : TakesEntry s l e rest) (hb : e.brk = true) :
    exec (.decodeEntry l) s = .next (s.takeBreak l rest) := by
  simp only [exec, execDecodeEntry, nextEntry_of_takesEntry h, linkActive_of_takesEntry h, hb, if_true]

theorem exec_clientRestart_break (h : TakesEntry s l e rest) (hb : e.brk = true) :
    exec (.clientRestart l) s = .next (s.takeBreak l rest) := by
  simp only [exec, execClientRestart, nextEntry_of_takesEntry h, linkActive_of_takesEntry h, hb, Bool.and_self, if_true]

theorem exec_decodeEntry (h : TakesEntry s l e rest) (hb : e.brk = false) :
    exec (.decodeEntry l) s = .next (s.takeEntry l e rest) := by
  simp only [exec, execDecodeEntry, nextEntry_of_takesEntry h, linkActive_of_takesEntry h, hb,
    Bool.false_eq_true, if_false, if_true]

/-- An entry that passes no frame on moves the decoder and sets its causes. -/
theorem exec_decodeEntry_of_move {d : Decoder} {causes : Byte} (h : TakesEntry s l e rest) (hb : e.brk = false)
    (hm : decodeMove (s.link l).decoder e = ⟨d, none, causes⟩) :
    exec (.decodeEntry l) s = .next ((s.decoderTo l rest d).raiseLink l causes) := by
  rw [exec_decodeEntry h hb, State.takeEntry, hm]
  rfl

/-- An entry that passes no frame on and sets no cause moves the decoder alone. -/
theorem exec_decodeEntry_of_quiet {d : Decoder} (h : TakesEntry s l e rest) (hb : e.brk = false)
    (hm : decodeMove (s.link l).decoder e = ⟨d, none, 0⟩) :
    exec (.decodeEntry l) s = .next (s.decoderTo l rest d) := by
  rw [exec_decodeEntry_of_move h hb hm, raiseLink_zero]

/-- An entry that completes a frame places it in the request slot (R135). -/
theorem exec_decodeEntry_of_frame {d : Decoder} {f : List Byte} (h : TakesEntry s l e rest) (hb : e.brk = false)
    (hm : decodeMove (s.link l).decoder e = ⟨d, some f, 0⟩) : exec (.decodeEntry l) s =
      .next (s.setLink l { s.link l with fifo := rest, decoder := d, requestSlot := some f }) := by
  rw [exec_decodeEntry h hb, State.takeEntry, hm]
  exact congrArg Host.Outcome.next (raiseLink_zero _ l)

end

section
variable {d : Decoder} {e : FifoEntry}

theorem decodeMove_inside (h : d ≠ .hunt) : decodeMove d e =
    if e.parity || e.framing || e.overrun then ⟨.hunt, none, flagLineError⟩
    else if e.gap then huntEntry e flagGapDiscard else cleanEntry d e.data := by
  cases d with
  | hunt => exact absurd rfl h
  | length | body _ _ | check _ _ | hold => rfl

theorem huntEntry_bad (causes : Byte) (h : e.parity = true ∨ e.framing = true) :
    huntEntry e causes = ⟨.hunt, none, causes⟩ := by
  rcases h with h | h <;> simp [huntEntry, h]

theorem huntEntry_good (causes : Byte) (hp : e.parity = false) (hf : e.framing = false) :
    huntEntry e causes = ⟨if e.data = 0xD5 then .length else .hunt, none, causes⟩ := by
  simp [huntEntry, hp, hf]

/-- LINE_ERROR inside a frame (R136). -/
theorem decodeMove_lineError (h : d ≠ .hunt) (he : e.parity = true ∨ e.framing = true ∨ e.overrun = true) :
    decodeMove d e = ⟨.hunt, none, 0x01⟩ := by
  rw [decodeMove_inside h, if_pos (by rcases he with he | he | he <;> simp [he])]
  rfl

/-- GAP alone inside a frame: the frame goes, and the entry is taken in HUNT (R136). -/
theorem decodeMove_gap (h : d ≠ .hunt) (hp : e.parity = false) (hf : e.framing = false) (ho : e.overrun = false)
    (hg : e.gap = true) : decodeMove d e = ⟨if e.data = 0xD5 then .length else .hunt, none, 0x04⟩ := by
  rw [decodeMove_inside h, if_neg (by simp [hp, hf, ho]), if_pos hg, huntEntry_good _ hp hf]
  rfl

/-- An entry without flags inside a frame (R135). -/
theorem decodeMove_clean (h : d ≠ .hunt) (hp : e.parity = false) (hf : e.framing = false) (ho : e.overrun = false)
    (hg : e.gap = false) : decodeMove d e = cleanEntry d e.data := by
  rw [decodeMove_inside h, if_neg (by simp [hp, hf, ho]), if_neg (by simp [hg])]

end

/-- Settles O47: the flags decide the move, inside a frame and in HUNT. -/
theorem flaggedEntryOutcome : Obligations.FlaggedEntryOutcome := by
  intro s l e rest h hb moved inside
  have hunting : ¬inside → decodeMove (s.link l).decoder e = huntEntry e 0 := fun hd => by
    rw [Decidable.not_not.mp hd, decodeMove]
  refine ⟨fun hd he => ?_, fun hd hp hf ho hg => ?_, fun hd he => ?_, fun hd hp hf => ?_⟩
  · exact exec_decodeEntry_of_move h hb (decodeMove_lineError hd he)
  · exact exec_decodeEntry_of_move h hb (decodeMove_gap hd hp hf ho hg)
  · exact exec_decodeEntry_of_quiet h hb ((hunting hd).trans (huntEntry_bad 0 he))
  · exact exec_decodeEntry_of_quiet h hb ((hunting hd).trans (huntEntry_good 0 hp hf))

/-! ### Table 9-2 -/

section
variable {b len : Byte} {bytes : List Byte}

theorem cleanEntry_length_start : cleanEntry .length 0xD5 = ⟨.length, none, 0⟩ := rfl

theorem cleanEntry_length_good (h₁ : 1 ≤ b.toNat) (h₂ : b.toNat ≤ 14) :
    cleanEntry .length b = ⟨.body b [], none, 0⟩ := by
  have hb : b ≠ 0xD5 := by rintro rfl; exact absurd h₂ (by decide)
  simp only [cleanEntry, beq_iff_eq, hb, if_false, h₁, h₂, and_self, if_true]

theorem cleanEntry_length_bad (hb : b ≠ 0xD5) (h : b.toNat = 0 ∨ 15 ≤ b.toNat) :
    cleanEntry .length b = ⟨.hunt, none, 0x08⟩ := by
  have hrange : ¬(1 ≤ b.toNat ∧ b.toNat ≤ 14) := by omega
  simp only [cleanEntry, beq_iff_eq, hb, if_false, hrange, flagBadFrame]

theorem cleanEntry_body_last (h : bytes.length + 1 = len.toNat) :
    cleanEntry (.body len bytes) b = ⟨.check len (bytes ++ [b]), none, 0⟩ := if_pos h

theorem cleanEntry_body_more (h : bytes.length + 1 ≠ len.toNat) :
    cleanEntry (.body len bytes) b = ⟨.body len (bytes ++ [b]), none, 0⟩ := if_neg h

theorem cleanEntry_check_right (h : len + bytes.foldr (· + ·) 0 + b = 0) :
    cleanEntry (.check len bytes) b = ⟨.hold, some bytes, 0⟩ := if_pos (by rw [foldl_add_eq, h])

theorem cleanEntry_check_wrong (h : len + bytes.foldr (· + ·) 0 + b ≠ 0) :
    cleanEntry (.check len bytes) b = ⟨.hunt, none, 0x08⟩ := if_neg (by rwa [foldl_add_eq])

end

/-- Settles O48: Table 9-2 in LENGTH, BODY and CHECK. -/
theorem cleanEntryOutcome : Obligations.CleanEntryOutcome := by
  intro s l e rest h hb hp hf ho hg moved
  have clean : ∀ {d}, (s.link l).decoder = d → d ≠ .hunt → ∀ {m}, cleanEntry d e.data = m →
      decodeMove (s.link l).decoder e = m := fun hd hne _ hm => by
    rw [hd, decodeMove_clean hne hp hf ho hg, hm]
  refine ⟨fun hd => ?_, fun len taken hd => ?_, fun len bytes hd => ?_⟩
  · refine ⟨fun hstart => ?_, fun h₁ h₂ => ?_, fun hne hbad => ?_⟩
    · exact exec_decodeEntry_of_quiet h hb (clean hd nofun (by rw [hstart, cleanEntry_length_start]))
    · exact exec_decodeEntry_of_quiet h hb (clean hd nofun (cleanEntry_length_good h₁ h₂))
    · exact exec_decodeEntry_of_move h hb (clean hd nofun (cleanEntry_length_bad hne hbad))
  · refine ⟨fun hlast => ?_, fun hmore => ?_⟩
    · exact exec_decodeEntry_of_quiet h hb (clean hd nofun (cleanEntry_body_last hlast))
    · exact exec_decodeEntry_of_quiet h hb (clean hd nofun (cleanEntry_body_more hmore))
  · refine ⟨fun hright => ?_, fun hwrong => ?_⟩
    · exact exec_decodeEntry_of_frame h hb (clean hd nofun (cleanEntry_check_right hright))
    · exact exec_decodeEntry_of_move h hb (clean hd nofun (cleanEntry_check_wrong hwrong))

/-! ### A BREAK (R137) -/

/-- A BREAK taken: the partial frame goes with the entry, BREAK is set, and the records are freed together. -/
theorem takeBreak_eq (s : State) (l : Link) (rest : List FifoEntry) : s.takeBreak l rest =
    (recordsFreed ((s.decoderTo l rest .hunt).raiseLink l 0x10) (fun r => r.owner == l && r.phase.queued)
      (reportForgotten l)).grantScan := by
  rw [State.takeBreak, State.clientRestart, freeWhere_forgetReported_eq]
  rfl

/-- Settles O49: both commands take the BREAK alike. -/
theorem breakOutcome : Obligations.BreakOutcome := by
  intro s l e rest h hb t u
  have hbreak : s.takeBreak l rest = u.grantScan := takeBreak_eq s l rest
  exact ⟨by rw [exec_decodeEntry_break h hb, hbreak], by rw [exec_clientRestart_break h hb, hbreak]⟩

end Sys2Proof.Machine
end

section
/-! PROOFS. What a link begins to send (R132, R135, R138, R155, R157). -/

namespace Sys2Proof.Machine

/-! ### A frame begun (R132, R138) -/

theorem wire_take_one {tx : Transmitter} (h : tx ≠ .idle) : tx.wire.take 1 = [0xD5] := by
  cases tx with
  | idle => exact absurd rfl h
  | reply f | notice i f => rfl

/-- A frame begins with the start byte, sent under the present parameters. -/
theorem beginFrame_eq (x : LinkState) {tx : Transmitter} (h : tx ≠ .idle) :
    x.beginFrame tx = { x with tx := tx, txd := [sentChar x.line 0xD5], replyRace := [] } := by
  simp only [LinkState.beginFrame, LinkState.sendTo, wire_take_one h, List.length_nil, List.drop_zero, List.nil_append,
    List.map_cons, List.map_nil, txChar_eq_sentChar]

/-- With no reply in the buffer a decoder leaves HOLD once its request has been taken (R135). -/
theorem releaseHold_eq {x : LinkState} (h : x.replyBuffer = none) : x.releaseHold =
    { x with decoder := if x.decoder = .hold ∧ x.requestSlot = none then .hunt else x.decoder } := by
  by_cases hx : x.decoder = .hold ∧ x.requestSlot = none
  · simp [LinkState.releaseHold, h, hx]
  · rw [if_neg hx, LinkState.releaseHold, if_neg]
    simpa [h] using hx

theorem replySend_outcome : ReplySendOutcome := by
  intro s l r he hreset hrestart htx hr
  have hidle : (s.linkActive l && (s.link l).tx == .idle) = true := by
    simp [linkActive_true he hreset hrestart, htx]
  simp only [exec, execReplySend, hr, hidle, if_true]
  rw [beginFrame_eq _ (tx := .reply r) nofun, releaseHold_eq rfl]

/-! ### The notice to build (R138, R155, R157) -/

theorem dirtyAt_iff (s : State) (l : Link) (i : SlotId) : s.dirtyAt l i = true ↔
    ∃ q, s.lease i = some q ∧ q.owner = l ∧ q.reported ≠ some (q.phase.state, q.phase.warned) := by
  unfold State.dirtyAt
  cases s.lease i with
  | none => simp
  | some q => simp [Lease.dirty, Lease.pair]

/-- The first dirty record of the link in order from the notice pointer (R138). -/
theorem noticeSlot_eq_some {s : State} {l : Link} {k : Fin 128}
    (hk : s.dirtyAt l ((s.link l).noticePointer + k) = true)
    (hbefore : ∀ j < k, s.dirtyAt l ((s.link l).noticePointer + j) = false) :
    s.noticeSlot l = some ((s.link l).noticePointer + k) := by
  rw [State.noticeSlot, List.find?_map, Option.map_eq_some_iff]
  exact ⟨k, find?_finRange.mpr ⟨hk, hbefore⟩, rfl⟩

theorem mayNotice_iff {s : State} {l : Link} (ha : s.linkActive l = true) (htx : (s.link l).tx = .idle) (i : SlotId)
    (r : Lease) :
    s.mayNotice l i r = true ↔ (s.link l).replyBuffer = none ∨ (i, r) ∈ (s.link l).replyRace := by
  simp [State.mayNotice, ha, htx]

theorem noticeBuild_outcome : NoticeBuildOutcome := by
  intro s l k r he hreset hrestart htx at_ dirty hr hd hbefore goes
  have hslot : s.noticeSlot l = some (at_ k) := by
    refine noticeSlot_eq_some ((dirtyAt_iff _ _ _).mpr ⟨r, hr, hd⟩) fun j hj => ?_
    rw [Bool.eq_false_iff]
    intro hdirty
    obtain ⟨q, hq, hqd⟩ := (dirtyAt_iff _ _ _).mp hdirty
    exact hbefore j hj q hq hqd
  have hmay : s.mayNotice l (at_ k) r = true ↔ goes := mayNotice_iff (linkActive_true he hreset hrestart) htx _ _
  have hexec : exec (.noticeBuild l) s = .next (if s.mayNotice l (at_ k) r then
      s.setLink l ((s.link l).beginFrame (.notice (at_ k) (noticeFrame s (at_ k) r))) else s) := by
    simp only [exec, execNoticeBuild, hslot, hr]
  refine ⟨fun hg => ?_, fun hg => ?_⟩
  · rw [hexec, if_pos (hmay.mpr hg), beginFrame_eq _ (tx := .notice _ _) nofun]
    rfl
  · rw [hexec, if_neg (hg ∘ hmay.mp)]

/-! ### The race of a reply placed (R138, R157, log entry 13) -/

theorem mem_newlyDirty_iff (s t : State) (l : Link) (i : SlotId) (r : Lease) : (i, r) ∈ s.newlyDirty t l ↔
    t.lease i = some r ∧ r.owner = l ∧ r.reported ≠ some (r.phase.state, r.phase.warned) ∧ ¬s.dirtyAt l i = true := by
  unfold State.newlyDirty
  rw [List.mem_filterMap]
  constructor
  · rintro ⟨j, -, hj⟩
    split at hj
    · next q hq =>
      split at hj
      · next hnew =>
        cases hj
        simpa [Lease.dirty, Lease.pair, and_assoc, hq] using hnew
      · cases hj
    · cases hj
  · rintro ⟨hr, ho, hd, hs⟩
    refine ⟨i, List.mem_finRange i, ?_⟩
    simp [hr, ho, Lease.dirty, Lease.pair, hd, hs]

theorem replyRace_isOfOneInstant : ReplyRaceIsOfOneInstant := by
  intro s t l reply i r
  rw [← dirtyAt_iff]
  have hrace : ((t.placeReply s l reply).link l).replyRace =
      if (t.link l).tx = .idle then s.newlyDirty t l else [] := by
    simp [State.placeReply, State.setLink, State.link]
  by_cases htx : (t.link l).tx = .idle
  · rw [hrace, if_pos htx, mem_newlyDirty_iff]
    simp only [htx, true_and]
  · rw [hrace, if_neg htx]
    simp [htx]

/-- Settles O50: a reply begun, a notice begun, and the records that may race a reply. -/
theorem transmitterBegins : Obligations.TransmitterBegins :=
  ⟨replySend_outcome, noticeBuild_outcome, replyRace_isOfOneInstant⟩

end Sys2Proof.Machine
end

section
/-! PROOFS. Framing and writes on the supervisor port, the bits of STATUS, and the level of IRQ_N (R159 to R166, R170,
Tables 11-1 and 11-2). -/

namespace Sys2Proof.Machine

/-! ### Who answers (R159, R170) -/

section
variable {s : State} {e : PortEvent} {i2c : Bool} {p : Port} {d : List PortDrive} {yes no : State → State}

theorem answers_chosen (hr : s.inReset = false) (hm : s.port.msel = i2c) : s.answers i2c = true := by
  rw [State.answers, hr, hm, beq_self_eq_true]
  rfl

theorem answers_other (hm : s.port.msel = !i2c) : s.answers i2c = false := by
  rw [State.answers, hm, beq_eq_false_iff_ne.mpr (Bool.not_ne_self i2c), Bool.and_false]

theorem answers_inReset (hr : s.inReset = true) (i2c : Bool) : s.answers i2c = false := by
  rw [State.answers, hr]
  rfl

/-- What an event does when its interface answers. -/
theorem happens_answered (ha : s.answers i2c = true)
    (he : ∀ t : State, t.portEvent e = if t.answers i2c then yes t else no t)
    (h : yes (s.driving []) = wired s p d) : Happens s e p d :=
  happens_of_portEvents ((he (s.driving [])).trans ((if_pos ha).trans h))

/-- What an event does when its interface does not answer. -/
theorem happens_unanswered (ha : s.answers i2c = false)
    (he : ∀ t : State, t.portEvent e = if t.answers i2c then yes t else no t)
    (h : no (s.driving []) = wired s p d) : Happens s e p d :=
  happens_of_portEvents ((he (s.driving [])).trans ((if_neg (Bool.eq_false_iff.mp ha)).trans h))

end

/-! ### I2C transfers (R159, R161, R170) -/

theorem ownAddress_eq (s : State) : s.port.i2cAddress = ownAddress s := by
  unfold Port.i2cAddress ownAddress
  cases s.port.a1 <;> cases s.port.a0 <;> rfl

theorem pointerByte_outcome : PointerByteOutcome := by
  intro s v hr hm ht
  refine happens_answered (answers_chosen hr hm) (fun _ => rfl) ?_
  rw [State.i2cByte, show (s.driving []).port.transfer = .i2cPointer from ht]
  rfl

theorem i2c_framing : I2cFraming := by
  intro s b a hr hm p
  have ha : s.answers true = true := answers_chosen hr hm
  have hother : s.answers false = false := answers_other hm
  refine ⟨happens_answered ha (fun _ => rfl) rfl, happens_answered ha (fun _ => rfl) rfl,
    fun ht => ⟨fun hown => ?own, fun hown => ?foreign⟩, fun ht => ⟨?byte, ?read⟩,
    happens_unanswered hother (fun _ => rfl) rfl, happens_unanswered hother (fun _ => rfl) rfl,
    happens_unanswered hother (fun _ => rfl) rfl⟩
  all_goals refine happens_answered ha (fun _ => rfl) ?_
  case own =>
    rw [State.i2cByte, show (s.driving []).port.transfer = .i2cAddress from ht]
    exact if_pos (hown.trans (ownAddress_eq s).symm)
  case foreign =>
    rw [State.i2cByte, show (s.driving []).port.transfer = .i2cAddress from ht]
    exact if_neg fun h => hown (h.trans (ownAddress_eq s))
  case byte =>
    rw [State.i2cByte, show (s.driving []).port.transfer = .none from ht]
    rfl
  case read =>
    rw [State.i2cReadByte, show (s.driving []).port.transfer = .none from ht]
    rfl

/-- A part that leaves reset answers no transfer that was begun before (R170). -/
theorem leaveReset_transfer {s t : State} {msel a1 a0 autoload : Bool} (hr : s.inReset = true)
    (h : exec (.leaveReset msel a1 a0 autoload) s = .next t) : t.port.transfer = .none := by
  simp only [exec, execLeaveReset, hr, if_true, Host.Outcome.next.injEq] at h
  subst h
  cases autoload with
  | false => rfl
  | true =>
    rw [if_pos rfl, State.judgeImage]
    split <;> rfl

theorem port_silentInReset : PortSilentInReset := by
  intro s b a hr
  have ha : ∀ i2c, s.answers i2c = false := answers_inReset hr
  simp only [List.forall_mem_cons, List.not_mem_nil, false_imp_iff, implies_true, and_true]
  exact ⟨⟨happens_unanswered (ha _) (fun _ => rfl) rfl, happens_unanswered (ha _) (fun _ => rfl) rfl,
      happens_unanswered (ha _) (fun _ => rfl) rfl, happens_unanswered (ha _) (fun _ => rfl) rfl⟩,
    ⟨happens_unanswered (ha _) (fun _ => rfl) rfl, happens_unanswered (ha _) (fun _ => rfl) rfl,
      happens_unanswered (ha _) (fun _ => rfl) rfl⟩,
    fun _ _ _ _ _ => leaveReset_transfer hr⟩

/-- Settles O53: each event by whether the I2C interface answers, and by the transfer it finds. -/
theorem i2cPointerOutcome : Obligations.I2cPointerOutcome :=
  ⟨pointerByte_outcome, i2c_framing, port_silentInReset⟩

/-! ### Events in order and SPI transfers (R159, R160, log entry 9) -/

theorem exec_of_mem_portRows_after {es : List PortEvent} {e : PortEvent} {c : Instr} (s : State)
    (h : c ∈ portRows es e) : exec c s = .next (s.portEvents (es ++ [e])) := by
  simp only [portRows, List.mem_cons, List.not_mem_nil, or_false] at h
  obtain rfl | rfl | rfl | rfl | rfl := h <;> rfl

theorem port_eventsInOrder : PortEventsInOrder := by
  refine ⟨fun s => rfl, fun s es d e => ⟨s.portEvents (es ++ [d]), (s.portEvents (es ++ [d])).portEvents [e],
    fun c => exec_of_mem_portRows_after s, fun c => exec_of_mem_portRows, fun c hc => ?_⟩⟩
  rw [exec_of_mem_portRows_after s hc, portEvents_snoc]
  rfl

theorem spi_framing : SpiFraming := by
  intro s b a hr hm p
  have ha : s.answers false = true := answers_chosen hr hm
  have hother : s.answers true = false := answers_other hm
  refine ⟨happens_answered ha (fun _ => rfl) rfl, happens_answered ha (fun _ => rfl) rfl,
    fun ht => happens_answered ha (fun _ => rfl) ?command, fun ht => happens_answered ha (fun _ => rfl) ?outside,
    happens_unanswered hother (fun _ => rfl) rfl, happens_unanswered hother (fun _ => rfl) rfl,
    happens_unanswered hother (fun _ => rfl) rfl, happens_unanswered hother (fun _ => rfl) rfl⟩
  case command =>
    rw [State.spiByte, show (s.driving []).port.transfer = .spiCommand from ht]
    rfl
  case outside =>
    rw [State.spiByte, show (s.driving []).port.transfer = .none from ht]
    rfl

/-! ### Writes by register (R160 to R162, R164 to R166) -/

section
variable {s : State} {e : PortEvent} {o : BitVec 7} {v : Byte} {after : Port → Port} {d : PortDrive}

theorem writeReg_pointer (s : State) (o : BitVec 7) (v : Byte) :
    (s.writeReg o v).port.i2cPointer = s.port.i2cPointer := by
  unfold State.writeReg State.writeCommand
  dsimp only
  split_ifs <;> rfl

/-- A byte written has the effect of its register, after which the transfer moves on. -/
theorem happens_writesByte (h : WritesByte s e o v after d) :
    Happens s e (after (s.writeReg o v).port) [d] := by
  have hstate : s.writeReg o v = s.setPort (s.writeReg o v).port := writeReg_portOnly s o v
  have hpointer := writeReg_pointer s o v
  generalize (s.writeReg o v).port = p at hstate hpointer ⊢
  obtain ⟨hr, ⟨hm, ht, rfl, rfl, rfl⟩ | ⟨hm, ht, rfl, rfl, rfl, rfl⟩⟩ := h
  · refine happens_answered (answers_chosen hr hm) (fun _ => rfl) ?_
    rw [State.spiByte, show (s.driving []).port.transfer = .spiWrite o from ht]
    dsimp only
    rw [writeReg_driving, hstate]
    rfl
  · refine happens_answered (answers_chosen hr hm) (fun _ => rfl) ?_
    rw [State.i2cByte, show (s.driving []).port.transfer = .i2cWrite from ht]
    dsimp only
    rw [show (s.driving []).port.i2cPointer = s.port.i2cPointer from rfl, writeReg_driving, hstate,
      State.raisePointer, show ((s.setPort p).driving []).port.i2cPointer = s.port.i2cPointer from hpointer]
    rfl

theorem Table.setAt_val {n : Nat} (t : Table n Byte) (i : Fin n) (v : Byte) : t.setAt i.1 v = t.set i v :=
  dif_pos i.2

theorem writeReg_linkCause (s : State) (v : Byte) (l : Link) (h : o.toNat = 5 + l.1) : s.writeReg o v =
    s.setPort { s.port with linkCause := s.port.linkCause.set l (s.port.linkCause.get l &&& ~~~v) } := by
  have hl := l.2
  rw [State.writeReg, ← Table.list_getD _ l 0, ← Table.setAt_val, show l.1 = o.toNat - 5 by omega]
  simp (disch := omega) only [if_neg, if_pos, clearBits]

theorem writeReg_args (s : State) (v : Byte) (k : Fin 8) (h : o.toNat = 0x0C + k.1) :
    s.writeReg o v = s.setPort { s.port with args := s.port.args.set k v } := by
  have hk := k.2
  rw [State.writeReg, ← Table.setAt_val, show k.1 = o.toNat - 0x0C by omega]
  simp (disch := omega) only [if_neg, if_pos]

theorem writeReg_readOnly (s : State) (v : Byte) (h : o.toNat < 0x04 ∨ 0x15 ≤ o.toNat) : s.writeReg o v = s := by
  rw [State.writeReg]
  rcases h with h | h
  · exact if_pos h
  · simp (disch := omega) only [if_neg]

theorem register_writeOutcomes : RegisterWriteOutcomes := by
  intro s e o v after d h p wrote
  have of_writeReg : ∀ {q : Port}, s.writeReg o v = s.setPort q → wrote q := fun {q} hq => by
    have hw := happens_writesByte h
    rwa [hq] at hw
  have at_offset : ∀ {n : BitVec 7} {q : Port}, o.toNat = n.toNat → s.writeReg n v = s.setPort q → wrote q :=
    fun ho hq => of_writeReg ((BitVec.eq_of_toNat_eq ho).symm ▸ hq)
  exact ⟨fun l hl => of_writeReg (writeReg_linkCause s v l hl), fun ho => at_offset (n := 0x09) ho rfl,
    fun ho => at_offset (n := 0x0A) ho rfl, fun ho => at_offset (n := 0x0B) ho rfl,
    fun ho => at_offset (n := 0x04) ho rfl, fun k hk => of_writeReg (writeReg_args s v k hk),
    fun ho => of_writeReg (writeReg_readOnly s v ho)⟩

theorem writeCommand_accepted (v : Byte) (hb : s.port.busy = false) (hr : s.restarting = false) :
    s.writeCommand v = s.setPort { s.port with command := v, phase := .waiting s.port.args } := by
  rw [State.writeCommand, hb, hr]
  rfl

theorem writeCommand_overrun (v : Byte) (h : s.port.busy = true ∨ s.restarting = true) :
    s.writeCommand v = s.raiseCmd flagCmdOverrun :=
  if_pos (by rwa [Bool.or_eq_true])

theorem command_writeOutcome : CommandWriteOutcome := by
  intro s e v after d h
  have hw := happens_writesByte h
  rw [show s.writeReg 0x14 v = s.writeCommand v from rfl] at hw
  refine ⟨fun hb hr => ?accepted, fun hbusy => ?overrun⟩
  case accepted => rwa [writeCommand_accepted v hb hr] at hw
  case overrun => rwa [writeCommand_overrun v hbusy] at hw

end

/-- Settles O52: the events in order, the framing by who answers, and each write by its transfer and its register. -/
theorem portWriteOutcomes : Obligations.PortWriteOutcomes :=
  ⟨port_eventsInOrder, spi_framing, register_writeOutcomes, command_writeOutcome⟩

/-! ### STATUS and IRQ_N (R163, R165, Table 11-2) -/

/-- A clock state's code has two bits (Table 8-1). -/
theorem clockCode_lt (c : ClockState) : c.code.toNat < 2 ^ 2 := by
  cases c <;> simp [ClockState.code]

theorem getLsbD_clockCode (c : ClockState) {j : Nat} (hj : 2 ≤ j) : c.code.getLsbD j = false :=
  Nat.testBit_lt_two_pow ((clockCode_lt c).trans_le (Nat.pow_le_pow_right (by decide) hj))

theorem getLsbD_status (s : State) {j : Nat} (hj : j < 8) : s.status.getLsbD j =
    ((s.storeInvalid && decide (5 = j)) || (s.clock.latched && decide (4 = j)) ||
      (decide (2 ≤ j) && s.clock.state.code.getLsbD (j - 2)) ||
      (s.restarting && decide (1 = j)) || (s.port.busy && decide (0 = j))) := by
  have hcode : (s.clock.state.code <<< 2).getLsbD j =
      (decide (2 ≤ j) && s.clock.state.code.getLsbD (j - 2)) := by
    rw [BitVec.getLsbD_shiftLeft, decide_eq_true hj, Bool.true_and, ← decide_not, decide_eq_decide.mpr Nat.not_lt]
  simp (disch := decide) only [State.status, BitVec.getLsbD_or, getLsbD_bitAt, hcode]

theorem status_clockBits (s : State) : s.status.extractLsb' 2 2 = s.clock.state.code.extractLsb' 0 2 := by
  refine BitVec.eq_of_getLsbD_eq fun j hj => ?_
  rw [BitVec.getLsbD_extractLsb', BitVec.getLsbD_extractLsb', getLsbD_status s (by omega)]
  obtain rfl | rfl : j = 0 ∨ j = 1 := by omega
  · simp
  · simp

/-- A byte is not 0 when one of its bits is 1. -/
theorem ne_zero_iff_getLsbD (x : Byte) : x ≠ 0 ↔ ∃ j < 8, x.getLsbD j = true := by
  refine ⟨fun h => ?_, ?_⟩
  · by_contra hn
    push Not at hn
    refine h (BitVec.eq_of_getLsbD_eq fun j hj => ?_)
    rw [Bool.eq_false_iff.mpr (hn j hj)]
    exact BitVec.getLsbD_zero.symm
  · rintro ⟨j, -, hj⟩ rfl
    exact Bool.false_ne_true (BitVec.getLsbD_zero.symm.trans hj)

theorem irqN_low_iff {s : State} (hr : s.inReset = false) :
    s.irqN = false ↔ ∃ j < 8, s.port.groupFlags.getLsbD j = true ∧ s.port.groupEnable.getLsbD j = true := by
  rw [State.irqN, hr, Bool.false_or, beq_eq_false_iff_ne, ne_zero_iff_getLsbD]
  simp only [BitVec.getLsbD_and, Bool.and_eq_true]

/-- Settles O55: the bits of STATUS one by one, and the groups whose flag and enable keep IRQ_N low. -/
theorem statusAndIrq : Obligations.StatusAndIrq := by
  intro s
  rw [show s.readReg 0x02 = s.status from rfl]
  simp (disch := omega) only [getLsbD_status, getLsbD_clockCode]
  refine ⟨⟨by simp, by simp, status_clockBits s, by simp, by simp, by simp, by simp⟩, fun hr => ?_⟩
  obtain ⟨hlinks, htable, htime, hcmd, hzero⟩ := getLsbD_groupFlags s.port
  rw [irqN_low_iff hr]
  constructor
  · rintro ⟨j, hj, hflag, henable⟩
    obtain hl | rfl | rfl | rfl | rfl : j < 4 ∨ j = 4 ∨ j = 5 ∨ j = 6 ∨ j = 7 := by omega
    · rw [hlinks ⟨j, hl⟩, bne_iff_ne] at hflag
      exact .inl ⟨⟨j, hl⟩, hflag, henable⟩
    · rw [htable, bne_iff_ne] at hflag
      exact .inr (.inl ⟨hflag, henable⟩)
    · rw [htime, bne_iff_ne] at hflag
      exact .inr (.inr (.inl ⟨hflag, henable⟩))
    · rw [hcmd, bne_iff_ne] at hflag
      exact .inr (.inr (.inr ⟨hflag, henable⟩))
    · rw [hzero] at hflag
      cases hflag
  · rintro (⟨l, hflag, henable⟩ | ⟨hflag, henable⟩ | ⟨hflag, henable⟩ | ⟨hflag, henable⟩)
    · exact ⟨l.1, by omega, by rwa [hlinks, bne_iff_ne], henable⟩
    · exact ⟨4, by decide, by rwa [htable, bne_iff_ne], henable⟩
    · exact ⟨5, by decide, by rwa [htime, bne_iff_ne], henable⟩
    · exact ⟨6, by decide, by rwa [hcmd, bne_iff_ne], henable⟩

end Sys2Proof.Machine
end

section
/-! PROOFS. How a warm restart begins: the waits and the traffic ended as one state, the mailbox's command aborted or
finished, and the level of WRST_N (R37, R145, R169, R173). -/

namespace Sys2Proof.Machine

/-! ### The waits ended (R37, R52) -/

/-- What a warm restart leaves of a record: one that waits lapses, or goes when its link is disabled (R37). -/
def leftByRestart (s : State) (r : Lease) : Option Lease :=
  if r.phase.queued then
    if (s.link r.owner).line.enabled then some { r with phase := .lapsed .restart } else none
  else some r

theorem leftByRestart_congr {s t : State} (h : ∀ l, (t.link l).line.enabled = (s.link l).line.enabled) :
    leftByRestart t = leftByRestart s := by
  funext r
  rw [leftByRestart, leftByRestart, h]

theorem restartLapseAt_lease (s : State) (i k : SlotId) : (s.restartLapseAt i).lease k =
    if k = i then (s.lease i).bind (leftByRestart s) else s.lease k := by
  have same : (s.lease i).bind (leftByRestart s) = s.lease i →
      s.lease k = if k = i then (s.lease i).bind (leftByRestart s) else s.lease k := fun h => by
    split
    · next hk => rw [hk, h]
    · rfl
  unfold State.restartLapseAt
  cases hl : s.lease i with
  | none => simpa only [hl] using same (by rw [hl]; rfl)
  | some r =>
    by_cases hq : r.phase.queued = true
    · simp [hq, State.endQueued, leftByRestart]
    · simpa [hl, hq] using same (by rw [hl]; exact if_neg hq)

theorem restartLapseAt_generation (s : State) (i k : SlotId) :
    (s.restartLapseAt i).generation k = s.generation k := by
  unfold State.restartLapseAt
  repeat' split
  all_goals simp [State.endQueued]

/-- A wait that ends touches the lease table, the list and the armed indication alone. -/
theorem restartLapseAt_freeOnly (s : State) (i : SlotId) : s.freeOnly (s.restartLapseAt i) := by
  have hleave : s.freeOnly (s.leaveList i) := rfl
  unfold State.restartLapseAt State.endQueued State.terminate
  repeat' split
  · exact hleave.trans rfl
  · exact hleave.trans (freeSlot_freeOnly _ _)
  · exact .refl s
  · exact .refl s

theorem foldl_restartLapseAt (xs : List SlotId) (hn : xs.Nodup) (s : State) :
    s.freeOnly (xs.foldl State.restartLapseAt s) ∧
      (∀ k, (xs.foldl State.restartLapseAt s).generation k = s.generation k) ∧
      ∀ k, (xs.foldl State.restartLapseAt s).lease k =
        if k ∈ xs then (s.lease k).bind (leftByRestart s) else s.lease k := by
  induction xs generalizing s with
  | nil => exact ⟨.refl s, fun _ => rfl, fun _ => rfl⟩
  | cons x xs ih =>
    obtain ⟨hx, hn⟩ := List.nodup_cons.mp hn
    obtain ⟨honly, hgeneration, hlease⟩ := ih hn (s.restartLapseAt x)
    have hstep := restartLapseAt_freeOnly s x
    obtain ⟨-, hlinks, -⟩ := hstep.fields
    have hleft : leftByRestart (s.restartLapseAt x) = leftByRestart s := leftByRestart_congr fun l => by
      rw [State.link, hlinks]
      rfl
    refine ⟨hstep.trans honly, fun k => (hgeneration k).trans (restartLapseAt_generation s x k), fun k => ?_⟩
    rw [List.foldl_cons, hlease, hleft, restartLapseAt_lease]
    by_cases hk : k = x
    · subst hk
      simp [hx]
    · simp [hk]

/-- Beside the records and the armed indication, the end of the waits empties the list and clears the earmarks. -/
theorem endWaits_views (s : State) :
    s.endWaits = { s with
      zones := s.zones.mapIdx fun _ x => { x with earmark := none }
      slots := s.endWaits.slots, waiting := [], armed := s.endWaits.armed } ∧
    (∀ i, s.endWaits.generation i = s.generation i) ∧
    ∀ i, s.endWaits.lease i = (s.lease i).bind (leftByRestart s) := by
  obtain ⟨honly, hgeneration, hlease⟩ := foldl_restartLapseAt _ (List.nodup_finRange 128) s
  simp only [List.mem_finRange, if_true] at hlease
  unfold State.endWaits
  generalize (List.finRange 128).foldl State.restartLapseAt s = t at honly hgeneration hlease ⊢
  exact ⟨by rw [honly]; rfl, hgeneration, hlease⟩

/-! ### The beginning of a restart (R145, R169, R173) -/

/-- A completion of the command in progress changes the port alone. -/
theorem abortCommand_portOnly (s : State) : s.portOnly s.abortCommand := by
  unfold State.abortCommand
  cases s.port.phase <;> rfl

/-- Beside the records and the armed indication, what the beginning of a restart leaves is said in full. -/
theorem beginRestart_views (s : State) (b : Table 4 Nat) :
    s.beginRestart b = { s with
      zones := s.zones.mapIdx fun _ x => { x with earmark := none }
      slots := (s.beginRestart b).slots, waiting := [], armed := (s.beginRestart b).armed, arbiter := 4
      links := s.links.mapIdx fun l x => { emptied x (b.get l) with noticePointer := 0 }
      port := (State.abortCommand { s with
        restarting := true, arbiter := 4, port := s.port.clearCauses }).port
      restarting := true } ∧
    (∀ i, (s.beginRestart b).generation i = s.generation i) ∧
    ∀ i, (s.beginRestart b).lease i = (s.lease i).bind (leftByRestart s) := by
  unfold State.beginRestart
  obtain ⟨p, hp⟩ : ∃ p, State.abortCommand { s with
      restarting := true, arbiter := 4, port := s.port.clearCauses } =
        { s with restarting := true, arbiter := 4, port := p } := ⟨_, abortCommand_portOnly _⟩
  rw [hp]
  have hlinks : State.clearLinks { s with restarting := true, arbiter := 4, port := p } b =
      { s with
        restarting := true, arbiter := 4, port := p
        links := s.links.mapIdx fun l x => { emptied x (b.get l) with noticePointer := 0 } } := by
    simp only [State.clearLinks, clearTraffic_eq]
  rw [hlinks]
  obtain ⟨hwaits, hgeneration, hlease⟩ := endWaits_views { s with
    restarting := true, arbiter := 4, port := p
    links := s.links.mapIdx fun l x => { emptied x (b.get l) with noticePointer := 0 } }
  refine ⟨hwaits, hgeneration, fun i => (hlease i).trans (congrArg _ (leftByRestart_congr fun l => ?_))⟩
  simp only [State.link, Table.get_mapIdx, emptied]

theorem beginRestart_begun (s : State) (b : Table 4 Nat) : RestartBegun s (s.beginRestart b) b := by
  obtain ⟨hviews, hgeneration, hlease⟩ := beginRestart_views s b
  generalize s.beginRestart b = t at hviews hgeneration hlease ⊢
  refine ⟨by rw [hviews], by rw [hviews], by rw [hviews], fun z => ?zone, hgeneration, fun i r hr hq => ?kept,
    fun i r hr hq => ?lapsed, fun i hn => ?free, fun l => ?link, ?rest⟩
  case zone => rw [hviews]; exact Table.get_mapIdx _ _ z
  case kept => rw [hlease, hr, Option.bind_some, leftByRestart, hq, if_neg Bool.false_ne_true]
  case lapsed => rw [hlease, hr, Option.bind_some, leftByRestart, if_pos hq]
  case free => rw [hlease, hn, Option.bind_none]
  case link => rw [hviews]; exact Table.get_mapIdx _ _ l
  case rest =>
    rw [hviews]
    exact ⟨rfl, rfl, rfl, rfl, rfl, rfl, rfl⟩

/-! The mailbox's command when a restart begins (R167, R169, R173). -/

theorem beginRestart_port_kept {s : State} (b : Table 4 Nat) (h : s.port.phase = .idle ∨ s.port.phase = .restarting) :
    (s.beginRestart b).port = s.port.clearCauses := by
  rw [(beginRestart_views s b).1, State.abortCommand]
  rcases h with h | h <;> simp [Port.clearCauses, h]

/-- A command of a known code not yet carried out, or a STORE in progress, ends ABORTED. -/
theorem beginRestart_port_aborted {s : State} (b : Table 4 Nat)
    (h : (∃ args, s.port.phase = .waiting args) ∧ isCommandCode s.port.command = true ∨
      ∃ copy, s.port.phase = .storing copy) :
    (s.beginRestart b).port = { s.port.clearCauses with
      cmdCause := 0x01, result := 7, res := .bytes8 [], phase := .idle } := by
  rw [(beginRestart_views s b).1, State.abortCommand]
  rcases h with ⟨⟨args, hp⟩, hc⟩ | ⟨copy, hp⟩
  · simp [Port.clearCauses, hp, hc, State.complete, CmdResult.code, CmdResult.bytes, ResultCode.code, flagDone]
  · simp [Port.clearCauses, hp, State.complete, CmdResult.code, CmdResult.bytes, ResultCode.code, flagDone]

/-- The causes are clear in a port that is the old one but for them, the mailbox's phase and its result. -/
theorem causesCleared_of_port {s t : State} {cmd result : Byte} {res : Table 8 Byte} {phase : MailboxPhase}
    (h : t.port = { s.port.clearCauses with cmdCause := cmd, result := result, res := res, phase := phase }) :
    CausesCleared s t cmd ∧ t.port.result = result ∧ t.port.res = res ∧ t.port.phase = phase := by
  unfold CausesCleared
  rw [h]
  exact ⟨⟨fun l => Table.get_fill 0 l, rfl, rfl, rfl, rfl, rfl, rfl, rfl, rfl⟩, rfl, rfl, rfl⟩

/-- A restart that aborts no command leaves the mailbox its phase and result. -/
theorem beginRestart_kept {s : State} (b : Table 4 Nat) (h : s.port.phase = .idle ∨ s.port.phase = .restarting) :
    CausesCleared s (s.beginRestart b) 0 ∧ (s.beginRestart b).port.result = s.port.result ∧
      (s.beginRestart b).port.res = s.port.res ∧ (s.beginRestart b).port.phase = s.port.phase := by
  have hport := beginRestart_port_kept b h
  generalize s.beginRestart b = t at hport ⊢
  exact causesCleared_of_port hport

theorem bytes8_nil_get : ∀ k, (Table.bytes8 []).get k = 0 := by decide

/-- A command aborted has the code ABORTED, with its result bytes 0. -/
theorem beginRestart_aborted {s : State} (b : Table 4 Nat)
    (h : (∃ args, s.port.phase = .waiting args) ∧ isCommandCode s.port.command = true ∨
      ∃ copy, s.port.phase = .storing copy) :
    CausesCleared s (s.beginRestart b) 0x01 ∧ (s.beginRestart b).port.result = 7 ∧
      (∀ k, (s.beginRestart b).port.res.get k = 0) ∧ (s.beginRestart b).port.phase = .idle := by
  have hport := beginRestart_port_aborted b h
  generalize s.beginRestart b = t at hport ⊢
  obtain ⟨hcauses, hresult, hres, hphase⟩ := causesCleared_of_port hport
  exact ⟨hcauses, hresult, fun k => hres ▸ bytes8_nil_get k, hphase⟩

/-! ### WRST_N and the WARM_RESTART command (R173) -/

/-! What the beginning of a restart has done says nothing of WRST_N's level, nor of the port. -/

theorem restartBegun_wrstN {s t : State} {b : Table 4 Nat} (h : RestartBegun s t b) :
    RestartBegun s { t with wrstN := false } b := h

theorem restartBegun_raiseCmd {s t : State} {b : Table 4 Nat} (f : Byte) (h : RestartBegun s t b) :
    RestartBegun s (t.raiseCmd f) b := h

theorem restartBegun_of_setPort {s t : State} {b : Table 4 Nat} {p : Port} (h : RestartBegun (s.setPort p) t b) :
    RestartBegun s t b := h

theorem exec_wrstNLow {s : State} (b : Table 4 Nat) (hreset : s.inReset = false) (hrestart : s.restarting = false) :
    exec (.wrstNLow b false) s = .next { s.beginRestart b with wrstN := false } ∧
      exec (.wrstNLow b true) s = .next { s.finishAndRestart b with wrstN := false } := by
  have begins : ∀ finishing, exec (.wrstNLow b finishing) s = .next (if finishing then
      { s.finishAndRestart b with wrstN := false } else State.beginRestart { s with wrstN := false } b) :=
    fun finishing => congrArg Host.Outcome.next
      ((if_neg (Bool.eq_false_iff.mp hreset)).trans (if_neg (Bool.eq_false_iff.mp hrestart)))
  exact ⟨(begins false).trans (congrArg Host.Outcome.next (beginRestart_wrstN s b)), begins true⟩

theorem isCommandCode_true : ∀ c ∈ ([0x01, 0x02, 0x03, 0x04, 0x05, 0x06, 0x07, 0x08, 0x09, 0x0A, 0x0B, 0x0C, 0x10,
    0x11, 0x12, 0x13, 0x20, 0x21] : List Byte), isCommandCode c = true := by decide

theorem wrstNLow_beginsRestart : WrstNLowBeginsRestart := by
  intro s b hreset hrestart
  have hexec := (exec_wrstNLow b hreset hrestart).1
  have hbegun := beginRestart_begun s b
  have hkept := beginRestart_kept (s := s) b
  have haborted := beginRestart_aborted (s := s) b
  generalize s.beginRestart b = t at hexec hbegun hkept haborted
  refine ⟨_, hexec, restartBegun_wrstN hbegun, rfl, fun hp => ?idle, fun args hp hc => ?waiting,
    fun copy hp => ?storing⟩
  case idle =>
    obtain ⟨hcauses, hresult, hres, hphase⟩ := hkept (.inl hp)
    exact ⟨hcauses, hresult, hres, hphase.trans hp⟩
  case waiting => exact haborted (.inl ⟨⟨args, hp⟩, isCommandCode_true _ hc⟩)
  case storing => exact haborted (.inr ⟨copy, hp⟩)

theorem wrstNLow_holdsRestart : WrstNLowHoldsRestart := by
  intro s b finishing hreset hrestart
  simp only [exec, execWrstNLow, execRestartEnd, hreset, hrestart, Bool.false_eq_true, if_true, if_false, and_self]

theorem warmRestart_beginsRestart : WarmRestartBeginsRestart := by
  rintro s args b ⟨hp, hc, hreset, hrestart⟩
  have hexec : exec (.warmRestart b) s = .next ((s.setPort { s.port with phase := .restarting }).beginRestart b) := by
    simp only [exec, execWarmRestart, hp, hc, hreset, hrestart]
    rfl
  obtain ⟨hcauses, hresult, hres, hphase⟩ :=
    beginRestart_kept (s := s.setPort { s.port with phase := .restarting }) b (.inr rfl)
  refine ⟨_, hexec, restartBegun_of_setPort (beginRestart_begun _ b), hcauses, hphase, hresult, hres, ?_⟩
  rw [(beginRestart_views _ b).1]
  rfl

/-! ### A command that completes with the beginning of a restart (R169, R173, log entry 25) -/

theorem begunOf_waiting {s : State} {args : Table 8 Byte} (b : Table 4 Nat) (h : s.port.phase = .waiting args) :
    s.port.begunOf b = if h : (argOf args 0).toNat < 4 then b.get ⟨(argOf args 0).toNat, h⟩ else 0 := by
  rw [Port.begunOf, Port.argLink, h]
  dsimp only
  by_cases hl : (argOf args 0).toNat < 4
  · rw [linkOf_of_names (l := ⟨_, hl⟩) rfl, dif_pos hl]
  · rw [show linkOf (argOf args 0) = none from belowOf_eq_none.mpr (Nat.not_lt.mp hl), dif_neg hl]

/-- The steps that complete a command are those of the commands named, with the completion of a STORE put before the
last of them. -/
theorem mem_completions_iff {s : State} {args : Table 8 Byte} (b : Table 4 Nat) (h : s.port.phase = .waiting args)
    (f : State → Host.Outcome State Fault Refusal) :
    f ∈ completions (s.port.begunOf b) ↔
      f = execStoreComplete ∨ ∃ c ∈ completingCommands args b, exec c = f := by
  rw [begunOf_waiting b h, ← List.mem_map, ← List.mem_insertIdx (i := 17) (by simp [completingCommands])]
  rfl

/-- With a command that completes in `u`, the restart begins from `u`, and DONE is set after it has begun. -/
theorem finishAndRestart_of {s u : State} {b : Table 4 Nat} {f : State → Host.Outcome State Fault Refusal}
    (hf : f ∈ completions (s.port.begunOf b)) (hs : s.port.phase ≠ .idle) (hu : f s = .next u)
    (hi : u.port.phase = .idle) : s.finishAndRestart b = (u.beginRestart b).raiseCmd flagDone := by
  rw [State.finishAndRestart, finishCommand_of hf hs hu hi]
  exact if_pos (by simp [Port.busy, hs, hi])

theorem finishAndRestart_none {s : State} {b : Table 4 Nat}
    (h : ∀ f ∈ completions (s.port.begunOf b), f s = .next s) : s.finishAndRestart b = s.beginRestart b := by
  rw [State.finishAndRestart, finishCommand_none h]
  exact if_neg (by simp)

theorem wrstNLow_whileCommandCompletes : WrstNLowWhileCommandCompletes := by
  intro s u b hreset hrestart outlives
  have hlow := (exec_wrstNLow b hreset hrestart).2
  have finished : ∀ f ∈ completions (s.port.begunOf b), s.port.phase ≠ .idle → f s = .next u →
      u.port.phase = .idle → outlives := fun f hf hs hu hi => by
    rw [finishAndRestart_of hf hs hu hi] at hlow
    have hport : ((u.beginRestart b).raiseCmd flagDone).port = { u.port.clearCauses with cmdCause := 0x01 } := by
      simp [beginRestart_port_kept b (.inl hi), Port.clearCauses, flagDone]
    have hbegun := restartBegun_raiseCmd flagDone (beginRestart_begun u b)
    generalize (u.beginRestart b).raiseCmd flagDone = t at hlow hport hbegun
    obtain ⟨hcauses, hresult, hres, hphase⟩ := causesCleared_of_port hport
    exact ⟨_, hlow, restartBegun_wrstN hbegun, rfl, hcauses, hresult, hres, hphase.trans hi⟩
  refine ⟨fun args hp c hc hu hbusy => ?command, fun copy hp hu => ?store, fun hcommands hstore => ?none⟩
  case command =>
    refine finished (exec c) ((mem_completions_iff b hp _).mpr (.inr ⟨c, hc, rfl⟩)) (by simp [hp]) hu ?_
    simpa [Port.busy] using hbusy
  case store =>
    refine finished execStoreComplete (by simp [completions]) (by simp [hp]) hu ?_
    simp only [exec, execStoreComplete, hp, Host.Outcome.next.injEq] at hu
    rw [← hu]
    rfl
  case none =>
    rw [(exec_wrstNLow b hreset hrestart).1, hlow, finishAndRestart_none]
    intro f hf
    by_cases hw : ∃ args, s.port.phase = .waiting args
    · obtain ⟨args, hp⟩ := hw
      rcases (mem_completions_iff b hp f).mp hf with rfl | ⟨c, hc, rfl⟩
      · simp only [execStoreComplete, hp]
      · exact hcommands args hp c hc
    · exact completions_still (not_exists.mp hw) hstore f hf

/-- Settles O44: the restart as one state, with the mailbox's command aborted, kept or finished before it. -/
theorem warmRestartBegins : Obligations.WarmRestartBegins :=
  ⟨wrstNLow_beginsRestart, wrstNLow_holdsRestart, warmRestart_beginsRestart, wrstNLow_whileCommandCompletes⟩

end Sys2Proof.Machine
end

section
/-! PROOFS. Start-up and the stored configuration: STORE and its completion, what leaving reset makes of the image, and
the laws at reset (R170 to R172, log entry 3). -/

namespace Sys2Proof.Machine

/-! ### The image (R171, R172) -/

theorem Image.valid_iff (m : Image) : m.valid = true ↔ m.mark = true ∧ m.check = Config.imageCheck m.contents := by
  simp [Image.valid]

theorem store_copies {s : State} {args : Table 8 Byte} (h : s.takesDirect 0x20 args) :
    exec .store s = .next { s with
      port := { s.port with phase := .storing s.configuration }
      image := { s.image with mark := false } } := by
  obtain ⟨hphase, hcode, hreset, hrestart⟩ := h
  simp [exec, execStore, hphase, hcode, hreset, hrestart, codeStore]

theorem storeComplete_writes {s : State} {copy : ImageContents} (h : s.port.phase = .storing copy) :
    exec .storeComplete s = .next (State.completed
      { s with image := ⟨copy, true, Config.imageCheck copy⟩, storeInvalid := false } .ok []) := by
  simp only [exec, execStoreComplete, h, complete_eq]
  rfl

/-- Settles O42: the copy is the present configuration, content by content. -/
theorem storeOutcome : Obligations.StoreOutcome :=
  ⟨fun _ _ h => store_copies h, fun _ _ h => storeComplete_writes h⟩

/-! ### Leaving reset (R170, R171) -/

/-- The part out of reset with its pins sampled and its image not yet judged (R170). -/
def State.sampled (s : State) (msel a1 a0 autoload : Bool) : State :=
  { State.cold s.image s.pending with
    port := { Port.cold with msel := msel, a1 := a1, a0 := a0 }
    autoload := autoload
    inReset := false }

theorem exec_leaveReset {s : State} (h : s.inReset = true) (msel a1 a0 autoload : Bool) :
    exec (.leaveReset msel a1 a0 autoload) s = .next
      (if autoload then (s.sampled msel a1 a0 autoload).judgeImage else s.sampled msel a1 a0 autoload) := by
  simp only [exec, execLeaveReset, h]
  rfl

theorem judgeImage_of_valid {s : State} (h : s.image.valid = true) : s.judgeImage = s.loadImage s.image.contents :=
  if_pos h

theorem judgeImage_of_invalid {s : State} (h : ¬s.image.valid = true) :
    s.judgeImage = { s with storeInvalid := true } := if_neg h

/-- A loaded image leaves a zone FREE or DISABLED in its stored class, with no earmark (R7, R171). -/
theorem loadImage_zone (s : State) (c : ImageContents) (z : ZoneId) : (s.loadImage c).zone z =
    ⟨if (c.zones.get z).enabled then .free else .disabled, (c.zones.get z).cls, none⟩ :=
  Table.get_mapIdx _ _ z

theorem loadImage_link (s : State) (c : ImageContents) (l : Link) :
    (s.loadImage c).link l = { s.link l with line := c.links.get l } :=
  Table.get_mapIdx _ _ l

theorem sampled_link (s : State) (msel a1 a0 autoload : Bool) (l : Link) :
    (s.sampled msel a1 a0 autoload).link l = .cold := Table.get_fill _ l

theorem leaveReset_loadsValidImage : LeaveResetLoadsValidImage := by
  intro msel a1 a0 s hreset hmark hcheck
  have hvalid : (s.sampled msel a1 a0 true).image.valid = true := s.image.valid_iff.mpr ⟨hmark, hcheck⟩
  refine ⟨(s.sampled msel a1 a0 true).loadImage s.image.contents, ?_, loadImage_zone _ _, rfl, fun l => ?_,
    rfl, rfl, rfl⟩
  · rw [exec_leaveReset hreset, if_pos rfl, judgeImage_of_valid hvalid]
    rfl
  · rw [loadImage_link, sampled_link]

theorem leaveReset_keepsColdValues : LeaveResetKeepsColdValues := by
  intro msel a1 a0 autoload s hreset hinvalid
  rw [exec_leaveReset hreset]
  cases autoload with
  | false => rfl
  | true =>
    have himage : ¬(s.sampled msel a1 a0 true).image.valid = true := fun h =>
      hinvalid rfl (s.image.valid_iff.mp h)
    rw [if_pos rfl, judgeImage_of_invalid himage]
    rfl

/-- Settles O4: with AUTOLOAD the image is judged, loaded when valid and reported when not; without it, left alone. -/
theorem leaveResetOutcome : Obligations.LeaveResetOutcome := ⟨leaveReset_loadsValidImage, leaveReset_keepsColdValues⟩

/-! ### The state after reset (log entry 3) -/

theorem leaveReset_reset : exec (.leaveReset false false false false) (.cold .blank []) = .next .reset :=
  exec_leaveReset rfl false false false false

theorem reset_lease (i : SlotId) : State.reset.lease i = none :=
  congrArg Slot.lease (Table.get_fill Slot.cold i)

theorem reset_earmark (z : ZoneId) : (State.reset.zone z).earmark = none :=
  congrArg Zone.earmark (Table.get_fill Zone.cold z)

/-- What the cold start gives and every command keeps, the state after reset has. -/
theorem TableInvariant.reset {P : State → Prop} (hP : TableInvariant P) : P .reset :=
  hP.exec (hP.coldStart (.cold .blank [])) leaveReset_reset

theorem coldContents_inRange : ConfigInRange .cold := by
  obtain ⟨hcls, hline⟩ := cold_inRange
  refine ⟨fun k => ?_, fun l => ?_, by decide⟩
  · rwa [show ImageContents.cold.classes.get k = .cold from Table.get_fill _ k]
  · rwa [show ImageContents.cold.links.get l = .cold from Table.get_fill _ l]

theorem reset_inBounds : State.reset.InBounds :=
  exec_inBounds (cold_inBounds (image := .blank) [] coldContents_inRange) leaveReset_reset

theorem reset_sequenceRoom : State.reset.SequenceRoom := fun _ hi => absurd hi List.not_mem_nil

/-- Settles O60: the laws that stand on zones, records and list come with the cold start, the bounds with the cold
values, and the rest from a table without records. -/
theorem resetState : Obligations.ResetState := by
  obtain ⟨hholder, hlist, horder⟩ := holderLaw_queueLaw_invariant.reset
  obtain ⟨hrange, hbound⟩ := reset_inBounds
  obtain ⟨hsequence, htag, hlimits⟩ := empty_laws (s := .reset) rfl reset_lease
  have hsound : State.reset.Sound := sound_of_empty rfl
  exact ⟨leaveReset_reset, hholder, hlist, horder, zonesLaw_invariant.reset, terminalLaw_of_empty rfl, hrange,
    hbound, hsequence, reset_sequenceRoom, htag, hlimits, cold_earmarkLaw reset_earmark, hsound.countdownLaw,
    hsound.yieldableLaw⟩

end Sys2Proof.Machine
end
